-- ==== Sys2Proof/Word.lean ====
section
/-!
DEFINITION. The word types of Lyrov 1.0 (spec/01 R10, spec/03 R43): a 32-bit register, a 64-bit pair,
a byte, a 64-bit address (R153) and a mask of the 16 lanes of a warp (R7).
-/
namespace Sys2Proof

/-- A 32-bit register or instruction word. -/
abbrev Word := BitVec 32
/-- The value of an even/odd register pair (R13). -/
abbrev DWord := BitVec 64
/-- The smallest unit of memory. -/
abbrev Byte := BitVec 8
/-- A 64-bit address while it is computed (R153). -/
abbrev Addr := BitVec 64
/-- One bit per lane of a warp of width 16 (R7); bit i is lane i. -/
abbrev Mask := BitVec 16
/-- A register number field (R13). -/
abbrev Reg := BitVec 6

/-- The pair whose even register holds bits [31:0] (R30, VPair and SPair). -/
def pair (lo hi : Word) : DWord := hi ++ lo
/-- Bits [31:0] of a pair. -/
def loHalf (x : DWord) : Word := x.extractLsb' 0 32
/-- Bits [63:32] of a pair. -/
def hiHalf (x : DWord) : Word := x.extractLsb' 32 32

end Sys2Proof
end

