-- ==== Sys2Proof/Syntax.lean ====
section
/-!
DEFINITION. One constructor per row of the opcode table (spec/opcode_table.json): 197 words, then in the table's order the
steps that the units take, then the other steps: 95 that the units and the outside parties take. Operands of words are the fields of spec/01; operands of the other
steps name the unit (R2 numbering: a die d, a cluster c = 324·d + %clu, a core = 16·c + %core, a warp w = 16·core + position,
a block = 4·c + slot) and carry what only the outside knows.
-/
namespace Sys2Proof

/-- Guard field of a word: a predicate number and the negate bit (R14). Predicate 7 reads true. -/
structure Guard where
  p : BitVec 3
  neg : Bool
  deriving DecidableEq, Repr

/-- An unguarded word: predicate 7, negate 0 (R14). -/
def Guard.always : Guard := ⟨7, false⟩

/-- Operand width of .b32 and .b64 forms. -/
inductive Wd where
  | w32 | w64
  deriving DecidableEq, Repr

/-- Types of ADD and SUB (R85): wrapping .b, saturating .i and .n. -/
inductive AddT where
  | b32 | b64 | i32 | n32 | i64 | n64
  deriving DecidableEq, Repr

/-- Signed .i and unsigned .n integer types. -/
inductive IntT where
  | i32 | n32 | i64 | n64
  deriving DecidableEq, Repr

/-- FP32 or FP64 operand format of a lane instruction. -/
inductive Fmt where
  | f32 | f64
  deriving DecidableEq, Repr

/-- Condition codes of CMP, FCMP, SCMP and UCMP (R22). -/
inductive Cond where
  | eq | ne | lt | le | gt | ge | un | or
  deriving DecidableEq, Repr

/-- Types of CVT (R21, R106). -/
inductive CvtT where
  | f32 | f64 | bf16 | i32 | n32 | i64 | n64
  deriving DecidableEq, Repr

/-- Rounding field of CVT and FXCVT: the default of the instruction, or a named mode (R21). -/
inductive RmSel where
  | dflt | rne | rtz | rup | rdn
  deriving DecidableEq, Repr

/-- The 8-bit formats of NARROW and WIDEN (R107). -/
inductive Q8 where
  | dm8 | mx8
  deriving DecidableEq, Repr

/-- Forms of LRED (R115). -/
inductive RedOp where
  | addF32 | addF64 | addB32 | addB64 | minI32 | maxI32 | minF32 | maxF32
  deriving DecidableEq, Repr

/-- Forms of FXACC (R150). -/
inductive FxOp where
  | add | mad | sub | msub
  deriving DecidableEq, Repr

/-- Operations of ATOM and UATOM (R23). -/
inductive AtomOp where
  | add | smin | smax | umin | umax | and | or | xor | exch | cas | fadd
  deriving DecidableEq, Repr

/-- Order suffix of an atomic (R23). -/
inductive AtomOrd where
  | rlx | acq | rel | ar
  deriving DecidableEq, Repr

/-- Scope of UATOM (R26); the scope of ATOM is in its opcode. -/
inductive AtomScope where
  | die | dev | sys
  deriving DecidableEq, Repr

/-- Order of FENCE (R26). -/
inductive FenceOrd where
  | acq | rel | ar | sc
  deriving DecidableEq, Repr

/-- Scope of FENCE (R26). -/
inductive FenceScope where
  | warp | blk | die | dev | sys
  deriving DecidableEq, Repr

/-- Level that PREF names (R158). -/
inductive PrefLv where
  | l1 | l2 | rdc
  deriving DecidableEq, Repr

/-- Streams that FORK names (R205). -/
inductive ForkSel where
  | m | c | mc
  deriving DecidableEq, Repr

/-- Block size of a seed register (R73). -/
inductive RotB where
  | b1 | b16 | b64
  deriving DecidableEq, Repr

/-- Shapes of the matrix engine (R245). -/
inductive Shape where
  | q4 | f14 | f22 | f41
  deriving DecidableEq, Repr

/-- The fmt field of MMUL (R244). -/
inductive MFmt where
  | bf16 | dm8 | mx8
  deriving DecidableEq, Repr

/-- Kind of an access to a page (R309). -/
inductive AccKind where
  | load | store | atomic | fetch | engRead | engWrite | spill
  deriving DecidableEq, Repr

/-- Who asks for a page walk (R306): a core, which caches the leaf in its micro-TLB too, or an engine of a cluster. -/
inductive Walker where
  | core (u : Nat)
  | cluster (c : Nat)
  deriving DecidableEq, Repr

/-- What a host access does (R291): read n bytes, or write some. -/
inductive HostAccess where
  | read (n : Nat)
  | write (bytes : List Byte)
  deriving DecidableEq, Repr

/-- Who writes a control page (R412): the partition image, on the service core of a die, or the panel supervisor. -/
inductive PageWriter where
  | image (d : Nat)
  | supervisor
  deriving DecidableEq, Repr

/-- A control page (R412): its die, and who writes it. -/
structure Page where
  die : Nat
  by_ : PageWriter
  deriving DecidableEq, Repr

/-- The partition that a region joins (R411), and whether the partition's image passes its check (R416). -/
structure Joining where
  part : Nat
  signed : Bool
  deriving DecidableEq, Repr

/-- A frame of a span port's transport (R418): some bytes of a buffer are sent, or those that arrive go into one. -/
inductive SpanIo where
  | send (len : Nat)
  | receive (bytes : List Byte)
  deriving DecidableEq, Repr

/-- An IEEE 1588 message on a span port, or the start of one (R335): the times are in ticks. -/
inductive PtpMsg where
  /-- A Sync of the master arrives, with its sequence number. -/
  | sync (seq : Nat)
  /-- Its Follow_Up: when the Sync left the master (two-step operation). -/
  | followUp (seq : Nat) (t1 : Int)
  /-- A Delay_Req of the other panel arrives, which this port answers while it is a master. -/
  | delayReq (seq : Nat)
  /-- The answer to this port's own Delay_Req: when that reached the master. -/
  | delayResp (seq : Nat) (t4 : Int)
  /-- The best master clock algorithm makes the port a master, or a slave. -/
  | role (master : Bool)
  deriving DecidableEq, Repr

/-- One instruction or one indivisible step of the part. -/
inductive Instr where
  /-- CLAUSE (R15): A clause header is decoded at a clause boundary, and the clause starts once every flag in its wait mask is clear. -/
  | clause (wait : BitVec 12) (fa : BitVec 4) (fb : BitVec 4) (len : BitVec 4)
  /-- ADD (R85): Lane add, wrapping or saturating by type. -/
  | add (g : Guard) (t : AddT) (vd : Reg) (va : Reg) (vb : Reg)
  /-- SUB (R85): Lane subtract, wrapping or saturating by type. -/
  | sub (g : Guard) (t : AddT) (vd : Reg) (va : Reg) (vb : Reg)
  /-- ADDC (R86): Lane add with carry in and out through a predicate. -/
  | addc (t : Wd) (vd : Reg) (va : Reg) (vb : Reg) (pc : BitVec 3)
  /-- SUBB (R86): Lane subtract with borrow in and out through a predicate. -/
  | subb (t : Wd) (vd : Reg) (va : Reg) (vb : Reg) (pc : BitVec 3)
  /-- MUL (R87): Writes the low N bits of a lane product. -/
  | mul (g : Guard) (t : Wd) (vd : Reg) (va : Reg) (vb : Reg)
  /-- MULH (R87): Writes the high half of an exact lane product. -/
  | mulh (g : Guard) (t : IntT) (vd : Reg) (va : Reg) (vb : Reg)
  /-- MADC (R89): Multiplies and adds into a 64-bit accumulator with a carry predicate. -/
  | madc (vd : Reg) (va : Reg) (vb : Reg) (pc : BitVec 3)
  /-- AND (R90): Lane bitwise AND. -/
  | andL (g : Guard) (t : Wd) (vd : Reg) (va : Reg) (vb : Reg)
  /-- OR (R90): Lane bitwise OR. -/
  | orL (g : Guard) (t : Wd) (vd : Reg) (va : Reg) (vb : Reg)
  /-- XOR (R90): Lane bitwise XOR. -/
  | xorL (g : Guard) (t : Wd) (vd : Reg) (va : Reg) (vb : Reg)
  /-- SHL (R91): Lane left shift by a register count. -/
  | shl (g : Guard) (t : Wd) (vd : Reg) (va : Reg) (vb : Reg)
  /-- SHR (R91): Lane logical or arithmetic right shift by a register count. -/
  | shr (g : Guard) (t : IntT) (vd : Reg) (va : Reg) (vb : Reg)
  /-- BFE (R92): Extracts a bit field, zero- or sign-extended. -/
  | bfe (g : Guard) (signed : Bool) (vd : Reg) (va : Reg) (vb : Reg)
  /-- BFI (R92): Inserts a bit field into vd. -/
  | bfi (g : Guard) (vd : Reg) (va : Reg) (vb : Reg)
  /-- POPC (R93): Counts the one bits of a lane value. -/
  | popc (g : Guard) (t : Wd) (vd : Reg) (va : Reg)
  /-- CLZ (R93): Counts the leading zeros of a lane value. -/
  | clz (g : Guard) (t : Wd) (vd : Reg) (va : Reg)
  /-- MIN (R94): Lane integer minimum. -/
  | minL (g : Guard) (t : IntT) (vd : Reg) (va : Reg) (vb : Reg)
  /-- MAX (R94): Lane integer maximum. -/
  | maxL (g : Guard) (t : IntT) (vd : Reg) (va : Reg) (vb : Reg)
  /-- ABS (R94): Lane integer absolute value. -/
  | abs (g : Guard) (t : Wd) (vd : Reg) (va : Reg)
  /-- SEL (R96): Selects va or vb per lane by a predicate. -/
  | sel (ps : Guard) (t : Wd) (vd : Reg) (va : Reg) (vb : Reg)
  /-- CMP (R97): Integer compare into a lane predicate. -/
  | cmp (g : Guard) (c : Cond) (t : IntT) (pd : BitVec 3) (va : Reg) (vb : Reg)
  /-- FCMP (R102): Floating-point compare into a lane predicate. -/
  | fcmp (g : Guard) (c : Cond) (t : Fmt) (pd : BitVec 3) (va : Reg) (vb : Reg)
  /-- MOV_UNIFORM (R98): Copies a uniform register or pair into every active lane. -/
  | movUniform (g : Guard) (t : Wd) (vd : Reg) (va : Reg)
  /-- MOV_LANE (R98): Writes each active lane's index. -/
  | movLane (g : Guard) (vd : Reg)
  /-- FADD (R99): Floating-point add. -/
  | fadd (g : Guard) (t : Fmt) (vd : Reg) (va : Reg) (vb : Reg)
  /-- FSUB (R99): Floating-point subtract. -/
  | fsub (g : Guard) (t : Fmt) (vd : Reg) (va : Reg) (vb : Reg)
  /-- FMUL (R99): Floating-point multiply. -/
  | fmul (g : Guard) (t : Fmt) (vd : Reg) (va : Reg) (vb : Reg)
  /-- FMIN (R101): IEEE minimumNumber. -/
  | fmin (g : Guard) (t : Fmt) (vd : Reg) (va : Reg) (vb : Reg)
  /-- FMAX (R101): IEEE maximumNumber. -/
  | fmax (g : Guard) (t : Fmt) (vd : Reg) (va : Reg) (vb : Reg)
  /-- FCLASS (R103): Writes a one-hot class mask of a floating-point value. -/
  | fclass (g : Guard) (t : Fmt) (vd : Reg) (va : Reg)
  /-- RCP (R105): SFU reciprocal. -/
  | rcp (g : Guard) (vd : Reg) (va : Reg)
  /-- RSQ (R105): SFU reciprocal square root. -/
  | rsq (g : Guard) (vd : Reg) (va : Reg)
  /-- EXP2 (R105): SFU base-2 exponential. -/
  | exp2 (g : Guard) (vd : Reg) (va : Reg)
  /-- LOG2 (R105): SFU base-2 logarithm. -/
  | log2 (g : Guard) (vd : Reg) (va : Reg)
  /-- SIN (R105): SFU sine. -/
  | sin (g : Guard) (vd : Reg) (va : Reg)
  /-- COS (R105): SFU cosine. -/
  | cos (g : Guard) (vd : Reg) (va : Reg)
  /-- DDIV (R104): Correctly rounded FP64 divide. -/
  | ddiv (g : Guard) (vd : Reg) (va : Reg) (vb : Reg)
  /-- DSQRT (R104): Correctly rounded FP64 square root. -/
  | dsqrt (g : Guard) (vd : Reg) (va : Reg)
  /-- CVT (R106): Converts between floating-point and integer types. -/
  | cvt (g : Guard) (rm : RmSel) (td : CvtT) (ts : CvtT) (vd : Reg) (va : Reg)
  /-- NARROW (R109): Rotates and narrows FP32 or BF16 lane values to DM8 or MXINT8 codes. -/
  | narrow (g : Guard) (tr : Bool) (q : Q8) (bf : Bool) (hs : BitVec 3) (vd : Reg) (va : Reg)
  /-- WIDEN (R110): Widens DM8 or MXINT8 codes to FP32 through the inverse rotation. -/
  | widen (g : Guard) (q : Q8) (hs : BitVec 3) (vd : Reg) (va : Reg)
  /-- SHFL_FWD (R112): Rotates lane values toward lower lanes. -/
  | shflFwd (g : Guard) (t : Wd) (vd : Reg) (va : Reg) (k : Reg)
  /-- SHFL_BACK (R112): Rotates lane values toward higher lanes. -/
  | shflBack (g : Guard) (t : Wd) (vd : Reg) (va : Reg) (k : Reg)
  /-- SHFL_SWAP (R112): Exchanges lane values by XOR of the lane index. -/
  | shflSwap (g : Guard) (t : Wd) (vd : Reg) (va : Reg) (k : Reg)
  /-- SHFL_FROM (R112): Reads each lane's value from the lane its index register names. -/
  | shflFrom (g : Guard) (t : Wd) (vd : Reg) (va : Reg) (vb : Reg)
  /-- BCAST (R113): Broadcasts a fixed lane's value to the active lanes. -/
  | bcast (g : Guard) (t : Wd) (vd : Reg) (va : Reg) (n : Reg)
  /-- BCAST_LOW (R113): Broadcasts the lowest active lane's value. -/
  | bcastLow (g : Guard) (t : Wd) (vd : Reg) (va : Reg)
  /-- VOTE_COUNT (R114): Writes the number of active lanes whose predicate holds. -/
  | voteCount (g : Guard) (vd : Reg) (ps : BitVec 3) (inv : Bool)
  /-- VOTE_RANK (R114): Writes each lane's rank among the lanes whose predicate holds. -/
  | voteRank (g : Guard) (vd : Reg) (ps : BitVec 3) (inv : Bool)
  /-- VOTE_ATLEAST (R114): Sets pd when the count reaches a uniform threshold. -/
  | voteAtleast (g : Guard) (pd : BitVec 3) (ps : BitVec 3) (inv : Bool) (st : Reg)
  /-- VOTE_EVERY (R114): Sets pd when every active lane's predicate holds. -/
  | voteEvery (g : Guard) (pd : BitVec 3) (ps : BitVec 3) (inv : Bool)
  /-- VOTE_AGREE (R114): Sets pd when all active lanes agree. -/
  | voteAgree (g : Guard) (pd : BitVec 3) (ps : BitVec 3) (inv : Bool)
  /-- VOTE_MASK (R114): Writes the W-bit mask of lanes whose predicate holds. -/
  | voteMask (g : Guard) (vd : Reg) (ps : BitVec 3) (inv : Bool)
  /-- LRED (R115): Reduces a value across the warp in a fixed tree order. -/
  | lred (g : Guard) (op : RedOp) (vd : Reg) (va : Reg)
  /-- SADD (R145): Adds seam integers group by group. -/
  | sadd (g : Guard) (vd : Reg) (va : Reg) (vb : Reg)
  /-- SSUB (R145): Subtracts seam integers group by group. -/
  | ssub (g : Guard) (vd : Reg) (va : Reg) (vb : Reg)
  /-- SSHL (R146): Shifts seam integers left by bits or limbs. -/
  | sshl (g : Guard) (limb : Bool) (vd : Reg) (va : Reg) (c : Reg)
  /-- SSHR_I (R146): Shifts seam integers arithmetically right. -/
  | sshrI (g : Guard) (limb : Bool) (vd : Reg) (va : Reg) (c : Reg)
  /-- SSHR_N (R146): Shifts seam integers logically right. -/
  | sshrN (g : Guard) (limb : Bool) (vd : Reg) (va : Reg) (c : Reg)
  /-- SNEG (R147): Negates seam integers. -/
  | sneg (g : Guard) (vd : Reg) (va : Reg)
  /-- SCMP (R148): Compares seam integers into a predicate for every lane of each group. -/
  | scmp (g : Guard) (c : Cond) (pd : BitVec 3) (va : Reg) (vb : Reg)
  /-- SMAC (R149): Multiplies a seam integer by a 64-bit uniform value and accumulates it. -/
  | smac (g : Guard) (signed : Bool) (vd : Reg) (va : Reg) (sm : Reg)
  /-- FXACC (R150): Accumulates exact FP64 sums or products into the seam window. -/
  | fxacc (g : Guard) (op : FxOp) (vd : Reg) (va : Reg) (vb : Reg)
  /-- FXSIGN (R151): Writes each group's sign as a predicate pair. -/
  | fxsign (g : Guard) (pd : BitVec 3) (va : Reg)
  /-- FXCVT (R152): Rounds each group's scaled seam integer to FP64. -/
  | fxcvt (g : Guard) (rm : RmSel) (vd : Reg) (va : Reg)
  /-- ADD_IMM (R95): Adds a sign-extended immediate. -/
  | addImm (g : Guard) (vd : Reg) (va : Reg) (imm : BitVec 9)
  /-- AND_IMM (R95): ANDs with a sign-extended immediate. -/
  | andImm (g : Guard) (vd : Reg) (va : Reg) (imm : BitVec 9)
  /-- OR_IMM (R95): ORs with a sign-extended immediate. -/
  | orImm (g : Guard) (vd : Reg) (va : Reg) (imm : BitVec 9)
  /-- XOR_IMM (R95): XORs with a sign-extended immediate. -/
  | xorImm (g : Guard) (vd : Reg) (va : Reg) (imm : BitVec 9)
  /-- SHL_IMM (R95): Shifts left by an immediate count. -/
  | shlImm (g : Guard) (vd : Reg) (va : Reg) (n : BitVec 5)
  /-- SHR_IMM (R95): Shifts right, logical or arithmetic, by an immediate count. -/
  | shrImm (g : Guard) (signed : Bool) (vd : Reg) (va : Reg) (n : BitVec 5)
  /-- MOV_IMM (R95): Writes a sign-extended immediate. -/
  | movImm (g : Guard) (vd : Reg) (imm : BitVec 9)
  /-- FMA_F32 (R100): FP32 fused multiply-add. -/
  | fmaF32 (neg : Bool) (vd : Reg) (va : Reg) (vb : Reg) (vc : Reg)
  /-- FMA_F64 (R100): FP64 fused multiply-add. -/
  | fmaF64 (neg : Bool) (vd : Reg) (va : Reg) (vb : Reg) (vc : Reg)
  /-- MADW_I32 (R88): Signed 32-bit multiply with 64-bit add. -/
  | madwI32 (neg : Bool) (vd : Reg) (va : Reg) (vb : Reg) (vc : Reg)
  /-- MADW_N32 (R88): Unsigned 32-bit multiply with 64-bit add. -/
  | madwN32 (neg : Bool) (vd : Reg) (va : Reg) (vb : Reg) (vc : Reg)
  /-- LD_I8 (R156): Loads a sign-extended byte per lane. -/
  | ldI8 (g : Guard) (vd : Reg) (va : Reg) (ab : BitVec 3) (disp : BitVec 6)
  /-- LD_N8 (R156): Loads a zero-extended byte per lane. -/
  | ldN8 (g : Guard) (vd : Reg) (va : Reg) (ab : BitVec 3) (disp : BitVec 6)
  /-- LD_I16 (R156): Loads a sign-extended halfword per lane. -/
  | ldI16 (g : Guard) (vd : Reg) (va : Reg) (ab : BitVec 3) (disp : BitVec 6)
  /-- LD_N16 (R156): Loads a zero-extended halfword per lane. -/
  | ldN16 (g : Guard) (vd : Reg) (va : Reg) (ab : BitVec 3) (disp : BitVec 6)
  /-- LD_B32 (R156): Loads a word per lane. -/
  | ldB32 (g : Guard) (vd : Reg) (va : Reg) (ab : BitVec 3) (disp : BitVec 6)
  /-- LD_B64 (R156): Loads a doubleword per lane into a pair. -/
  | ldB64 (g : Guard) (vd : Reg) (va : Reg) (ab : BitVec 3) (disp : BitVec 6)
  /-- LD_B128 (R156): Loads 16 bytes per lane into a quad. -/
  | ldB128 (g : Guard) (vd : Reg) (va : Reg) (ab : BitVec 3) (disp : BitVec 6)
  /-- ST_N8 (R157): Stores a byte per lane. -/
  | stN8 (g : Guard) (vs : Reg) (va : Reg) (ab : BitVec 3) (disp : BitVec 6)
  /-- ST_N16 (R157): Stores a halfword per lane. -/
  | stN16 (g : Guard) (vs : Reg) (va : Reg) (ab : BitVec 3) (disp : BitVec 6)
  /-- ST_B32 (R157): Stores a word per lane. -/
  | stB32 (g : Guard) (vs : Reg) (va : Reg) (ab : BitVec 3) (disp : BitVec 6)
  /-- ST_B64 (R157): Stores a doubleword per lane. -/
  | stB64 (g : Guard) (vs : Reg) (va : Reg) (ab : BitVec 3) (disp : BitVec 6)
  /-- ST_B128 (R157): Stores 16 bytes per lane. -/
  | stB128 (g : Guard) (vs : Reg) (va : Reg) (ab : BitVec 3) (disp : BitVec 6)
  /-- PREF (R158): Asks for a line to be brought into a cache level, without architectural effect. -/
  | pref (g : Guard) (lv : PrefLv) (va : Reg) (ab : BitVec 3) (disp : BitVec 6)
  /-- ATOM_B32_DIE (R160): 32-bit lane atomic at block or die scope. -/
  | atomB32Die (g : Guard) (op : AtomOp) (ord : AtomOrd) (vd : Reg) (va : Reg) (ab : BitVec 3)
  /-- ATOM_B32_DEV (R160): 32-bit lane atomic at device scope. -/
  | atomB32Dev (g : Guard) (op : AtomOp) (ord : AtomOrd) (vd : Reg) (va : Reg) (ab : BitVec 3)
  /-- ATOM_B32_SYS (R160): 32-bit lane atomic at system scope. -/
  | atomB32Sys (g : Guard) (op : AtomOp) (ord : AtomOrd) (vd : Reg) (va : Reg) (ab : BitVec 3)
  /-- ATOM_B64_DIE (R160): 64-bit lane atomic at block or die scope. -/
  | atomB64Die (g : Guard) (op : AtomOp) (ord : AtomOrd) (vd : Reg) (va : Reg) (ab : BitVec 3)
  /-- ATOM_B64_DEV (R160): 64-bit lane atomic at device scope. -/
  | atomB64Dev (g : Guard) (op : AtomOp) (ord : AtomOrd) (vd : Reg) (va : Reg) (ab : BitVec 3)
  /-- ATOM_B64_SYS (R160): 64-bit lane atomic at system scope. -/
  | atomB64Sys (g : Guard) (op : AtomOp) (ord : AtomOrd) (vd : Reg) (va : Reg) (ab : BitVec 3)
  /-- UADD (R117): Uniform add. -/
  | uadd (g : Guard) (t : Wd) (sd : Reg) (sa : Reg) (sb : Reg)
  /-- USUB (R117): Uniform subtract. -/
  | usub (g : Guard) (t : Wd) (sd : Reg) (sa : Reg) (sb : Reg)
  /-- UADD_IMM (R117): Uniform add of a sign-extended immediate. -/
  | uaddImm (g : Guard) (sd : Reg) (sa : Reg) (imm : BitVec 8)
  /-- UMUL (R117): Uniform multiply, low bits. -/
  | umul (g : Guard) (t : Wd) (sd : Reg) (sa : Reg) (sb : Reg)
  /-- UMULH (R117): Uniform multiply, high 32 bits. -/
  | umulh (g : Guard) (signed : Bool) (sd : Reg) (sa : Reg) (sb : Reg)
  /-- UAND (R117): Uniform bitwise AND. -/
  | uand (g : Guard) (t : Wd) (sd : Reg) (sa : Reg) (sb : Reg)
  /-- UOR (R117): Uniform bitwise OR. -/
  | uor (g : Guard) (t : Wd) (sd : Reg) (sa : Reg) (sb : Reg)
  /-- UXOR (R117): Uniform bitwise XOR. -/
  | uxor (g : Guard) (t : Wd) (sd : Reg) (sa : Reg) (sb : Reg)
  /-- USHL (R117): Uniform left shift by a register count. -/
  | ushl (g : Guard) (t : Wd) (sd : Reg) (sa : Reg) (sb : Reg)
  /-- USHR (R117): Uniform right shift by a register count. -/
  | ushr (g : Guard) (t : IntT) (sd : Reg) (sa : Reg) (sb : Reg)
  /-- UMIN (R117): Uniform minimum. -/
  | umin (g : Guard) (t : IntT) (sd : Reg) (sa : Reg) (sb : Reg)
  /-- UMAX (R117): Uniform maximum. -/
  | umax (g : Guard) (t : IntT) (sd : Reg) (sa : Reg) (sb : Reg)
  /-- UCMP (R117): Uniform compare into a uniform predicate. -/
  | ucmp (g : Guard) (c : Cond) (t : IntT) (qd : BitVec 3) (sa : Reg) (sb : Reg)
  /-- USEL (R117): Selects a uniform value by a predicate. -/
  | usel (qs : Guard) (t : Wd) (sd : Reg) (sa : Reg) (sb : Reg)
  /-- UAND_IMM (R117): Uniform AND with a zero-extended immediate. -/
  | uandImm (g : Guard) (sd : Reg) (sa : Reg) (imm : BitVec 8)
  /-- UOR_IMM (R117): Uniform OR with a zero-extended immediate. -/
  | uorImm (g : Guard) (sd : Reg) (sa : Reg) (imm : BitVec 8)
  /-- UXOR_IMM (R117): Uniform XOR with a zero-extended immediate. -/
  | uxorImm (g : Guard) (sd : Reg) (sa : Reg) (imm : BitVec 8)
  /-- USHL_IMM (R117): Uniform left shift by an immediate count. -/
  | ushlImm (g : Guard) (sd : Reg) (sa : Reg) (n : BitVec 5)
  /-- USHR_IMM (R117): Uniform right shift by an immediate count. -/
  | ushrImm (g : Guard) (signed : Bool) (sd : Reg) (sa : Reg) (n : BitVec 5)
  /-- UMOVI (R118): Writes a sign-extended 18-bit immediate. -/
  | umovi (sd : Reg) (imm : BitVec 18)
  /-- ULUI (R118): Writes an immediate into bits 31 to 14. -/
  | ului (sd : Reg) (imm : BitVec 18)
  /-- USR (R119): Reads a special register. -/
  | usr (g : Guard) (sd : Reg) (n : BitVec 8)
  /-- USW (R119): Writes a special register, with its waits and checks. -/
  | usw (g : Guard) (n : BitVec 8) (sa : Reg)
  /-- ULD_B32 (R159): Uniform 32-bit load. -/
  | uldB32 (g : Guard) (sd : Reg) (sa : Reg) (imm : BitVec 8)
  /-- ULD_B64 (R159): Uniform 64-bit load. -/
  | uldB64 (g : Guard) (sd : Reg) (sa : Reg) (imm : BitVec 8)
  /-- UST_B32 (R159): Uniform 32-bit store. -/
  | ustB32 (g : Guard) (ss : Reg) (sa : Reg) (imm : BitVec 8)
  /-- UST_B64 (R159): Uniform 64-bit store. -/
  | ustB64 (g : Guard) (ss : Reg) (sa : Reg) (imm : BitVec 8)
  /-- UATOM_B32 (R161): Uniform 32-bit atomic. -/
  | uatomB32 (g : Guard) (op : AtomOp) (scope : AtomScope) (ord : AtomOrd) (sd : Reg) (sa : Reg)
  /-- UATOM_B64 (R161): Uniform 64-bit atomic. -/
  | uatomB64 (g : Guard) (op : AtomOp) (scope : AtomScope) (ord : AtomOrd) (sd : Reg) (sa : Reg)
  /-- FENCE (R169): Holds the path until its ordering conditions at the scope hold. -/
  | fence (g : Guard) (ord : FenceOrd) (scope : FenceScope)
  /-- STITCH (R135): Binds lane groups as seam limbs after a divergence check. -/
  | stitch (g : Guard) (w64 : Bool) (n : BitVec 2)
  /-- UNSTITCH (R136): Removes the seam binding. -/
  | unstitch (g : Guard)
  /-- BR (R120): Conditional whole-path branch. -/
  | br (g : Guard) (off : BitVec 21)
  /-- JMP (R120): Unconditional whole-path jump. -/
  | jmp (off : BitVec 21)
  /-- CALL (R120): Branch that saves the return address in s62:s63. -/
  | call (g : Guard) (off : BitVec 21)
  /-- BRL (R122): Per-lane branch that may split the path at a join. -/
  | brl (p : Guard) (target : BitVec 12) (join : BitVec 8)
  /-- JMPI (R120): Indirect whole-path jump through a uniform pair. -/
  | jmpi (g : Guard) (sa : Reg)
  /-- JMPL (R123): Per-lane indirect jump that may split the path. -/
  | jmpl (g : Guard) (va : Reg) (join : BitVec 8)
  /-- RET (R120): Returns through a uniform pair. -/
  | ret (g : Guard) (sa : Reg)
  /-- LOOP (R125): Opens a hardware loop level. -/
  | loop (g : Guard) (sa : Reg) (imm : BitVec 8)
  /-- LBRK (R127): Closes the innermost loop level. -/
  | lbrk (g : Guard)
  /-- EXIT (R129): Ends every lane of the executing path. -/
  | exit (g : Guard)
  /-- TRAP (R130): Raises cause TRAP with a code. -/
  | trap (g : Guard) (code : BitVec 8)
  /-- RESUME (R58): Ends a handler and re-executes from %trpc. -/
  | resume (g : Guard)
  /-- RESUME_SKIP (R58): Ends a handler and continues after the trapping word. -/
  | resumeSkip (g : Guard)
  /-- YIELD (R132): Ends the path's quantum and may swap the warp. -/
  | yieldQ (g : Guard)
  /-- TWAIT (R133): Makes the path wait until %tick reaches a value. -/
  | twait (g : Guard) (sa : Reg)
  /-- NOP (R132): Issues with no effect. -/
  | nop (g : Guard)
  /-- BARW (R208): Arrives at a numbered barrier and waits for the phase. -/
  | barw (g : Guard) (nb : BitVec 4) (cnt : Bool) (sa : Reg)
  /-- BARA (R208): Arrives at a numbered barrier without waiting. -/
  | bara (g : Guard) (nb : BitVec 4) (cnt : Bool) (sa : Reg)
  /-- FORK (R205): Starts the block's idle matrix or copy stream. -/
  | fork (g : Guard) (which : ForkSel)
  /-- RENDEZ (R206): Meets every warp and stream of the block and clears error mode. -/
  | rendez (g : Guard)
  /-- SEED (R230): Writes a seed register's S0 and B. -/
  | seed (g : Guard) (b : RotB) (hs : BitVec 3) (sa : Reg)
  /-- THBIND (R231): Binds a tile handle to a latched record, rows along d1. -/
  | thbind (g : Guard) (th : BitVec 5) (sa : Reg) (sb : Reg)
  /-- THBIND_T (R231): Binds a tile handle with the transposed orientation. -/
  | thbindT (g : Guard) (th : BitVec 5) (sa : Reg) (sb : Reg)
  /-- RKINIT (R232): Claims and configures a rack. -/
  | rkinit (g : Guard) (rk : BitVec 5) (sa : Reg) (sb : Reg)
  /-- CPY (R233): Assigns a rack slot and copies a tile into it. -/
  | cpy (g : Guard) (rk : BitVec 5) (th : BitVec 5) (sb : Reg)
  /-- CPY_SEAL (R233): Computes and writes a tile trailer, copying it to a rack slot. -/
  | cpySeal (g : Guard) (rk : BitVec 5) (th : BitVec 5) (sb : Reg)
  /-- AWAITF (R235): Waits until a rack slot has filled, then writes s55. -/
  | awaitf (g : Guard) (rk : BitVec 5) (sa : Reg)
  /-- RELSLOT (R236): Releases a rack slot by advancing lc. -/
  | relslot (g : Guard) (rk : BitVec 5)
  /-- ACALLOC (R237): Asks for a run of accumulator granules. -/
  | acalloc (g : Guard) (sd : Reg) (sa : Reg) (qd : BitVec 3)
  /-- ACFREE (R238): Unmaps granule indices. -/
  | acfree (g : Guard) (sa : Reg) (sb : Reg)
  /-- ACRD (R239): Writes granule rows to memory and returns a status. -/
  | acrd (g : Guard) (sd : Reg) (sa : Reg) (sb : Reg)
  /-- ACWR (R239): Reads rows from memory into a granule. -/
  | acwr (g : Guard) (sa : Reg) (sb : Reg)
  /-- ACZERO (R239): Zeroes a run of granules and clears their invalid marks. -/
  | aczero (g : Guard) (sa : Reg)
  /-- HALLOC (R299): Allocates a heap block, reporting exhaustion as a status. -/
  | halloc (g : Guard) (sd : Reg) (sa : Reg) (qd : BitVec 3)
  /-- HALLOC_F (R299): Allocates a heap block, with a block fault on exhaustion. -/
  | hallocF (g : Guard) (sd : Reg) (sa : Reg) (qd : BitVec 3)
  /-- HFREE (R300): Frees a heap block and merges buddies. -/
  | hfree (g : Guard) (sa : Reg)
  /-- GROW (R276): Raises the grid's block count by CAS. -/
  | grow (g : Guard) (sd : Reg) (sa : Reg) (qd : BitVec 3)
  /-- SPAWN (R281): Submits a child launch to the die's spawn list. -/
  | spawn (g : Guard) (sd : Reg) (sa : Reg)
  /-- PKTRX (R279): Takes a packet from the porter mailbox, if any. -/
  | pktrx (g : Guard) (sd : Reg) (qd : BitVec 3)
  /-- FWD (R280): Sends a packet to a die's porter mailbox. -/
  | fwd (g : Guard) (sd : Reg) (sa : Reg) (sb : Reg)
  /-- TBARRIVE (R341): Arrives at a tree barrier after device-scope release. -/
  | tbarrive (g : Guard) (tb : BitVec 3)
  /-- TBARWAIT (R342): Waits for the release of the warp's latest tree-barrier arrival. -/
  | tbarwait (g : Guard) (sd : Reg) (tb : BitVec 3)
  /-- TBARST (R343): Reads a tree barrier's status word. -/
  | tbarst (g : Guard) (sd : Reg) (tb : BitVec 3)
  /-- BLT (R337): Reads the banded latency table for a pair of dies. -/
  | blt (g : Guard) (sd : Reg) (sa : Reg) (sb : Reg)
  /-- CNTR (R369): Reads a counter or its snapshot shadow. -/
  | cntr (g : Guard) (sd : Reg) (sa : Reg)
  /-- SNAP (R370): Requests a partition-wide counter snapshot at a tick. -/
  | snap (g : Guard) (sd : Reg) (sa : Reg)
  /-- SKINC_PC (R373): Adds a weighted key to the PC sketch. -/
  | skincPc (g : Guard) (sa : Reg) (sb : Reg)
  /-- SKINC_KN (R373): Adds a weighted key to the kernel sketch. -/
  | skincKn (g : Guard) (sa : Reg) (sb : Reg)
  /-- TKLOAD (R400): Loads an automaton image and installs its filters. -/
  | tkload (g : Guard) (sd : Reg) (sa : Reg) (tk : BitVec 2)
  /-- TKARM (R401): Resets and arms an automaton. -/
  | tkarm (g : Guard) (sd : Reg) (tk : BitVec 2)
  /-- TKARM_P (R401): Resets an automaton and primes it for its start filter. -/
  | tkarmP (g : Guard) (sd : Reg) (tk : BitVec 2)
  /-- TKDISARM (R402): Takes an automaton to idle. -/
  | tkdisarm (g : Guard) (tk : BitVec 2)
  /-- TKSTAT (R403): Reads an automaton's status, a counter and its last step tick. -/
  | tkstat (g : Guard) (sd : Reg) (tk : BitVec 2) (c : BitVec 2)
  /-- TKPOLL (R404): Reads an automaton's flags. -/
  | tkpoll (g : Guard) (sd : Reg) (tk : BitVec 2)
  /-- TKPOLL_C (R404): Reads and clears an automaton's flags atomically. -/
  | tkpollC (g : Guard) (sd : Reg) (tk : BitVec 2)
  /-- TKEMIT (R405): Emits a TKUSER event with a payload. -/
  | tkemit (g : Guard) (sa : Reg)
  /-- SYSCALL (R417): Sends a service request to the die's service core. -/
  | syscall (g : Guard) (sd : Reg) (sa : Reg) (n : BitVec 8)
  /-- MCFG (R245): Selects the matrix shape once earlier MMULs finish. -/
  | mcfg (shape : Shape)
  /-- MWLOAD (R246): Fetches and latches a weight tile with its format and K tag. -/
  | mwload (h : BitVec 5) (a : BitVec 2)
  /-- MMUL (R247): Checks tags and multiplies rows into granules. -/
  | mmul (h : BitVec 5) (gr : BitVec 5) (m : BitVec 8) (a : BitVec 2) (fmt : MFmt) (ov : Bool)
  /-- MSTORE (R248): Writes granule rows to a tile. -/
  | mstore (h : BitVec 5) (gr : BitVec 5) (r : BitVec 8) (c : Reg)
  /-- MBARW (R249): Matrix stream arrives at a barrier and waits. -/
  | mbarw (nb : BitVec 4) (e : BitVec 9)
  /-- MBARA (R249): Matrix stream arrives at a barrier without waiting. -/
  | mbara (nb : BitVec 4) (e : BitVec 9)
  /-- MEND (R249): Ends the matrix stream once its operations are performed. -/
  | mend
  /-- CCPY_PLAIN (R250): Copies a tile between handles unchanged. -/
  | ccpyPlain (s : BitVec 5) (d : BitVec 5) (r : BitVec 8)
  /-- CCPY_CVT (R251): Converts a tile through the rotation into DM8 or MXINT8 with trailers. -/
  | ccpyCvt (s : BitVec 5) (d : BitVec 5) (r : BitVec 8) (hs : BitVec 3)
  /-- CBAR (R252): Copy stream arrives at a barrier without waiting. -/
  | cbar (nb : BitVec 4) (e : BitVec 9)
  /-- CBAR_W (R252): Copy stream arrives at a barrier and waits. -/
  | cbarW (nb : BitVec 4) (e : BitVec 9)
  /-- CEND (R252): Ends the copy stream. -/
  | cend
  /-- SPILL_REFILL (R52): A divergence-stack entry is read back from the spill area before the warp's next clause, and a bad record raises STACKOVF. -/
  | spillRefill (w : Nat)
  /-- FLAG_OPERATION_COMPLETE (R17): A counted load, atomic, long-latency or flag-B operation completes, writes its destination, clears the scoreboard bit and lowers its flag. -/
  | flagOperationComplete (w : Nat) (tag : Nat)
  /-- TWAIT_WAKE (R133): A waiting path resumes once %tick reaches its target. -/
  | twaitWake (w : Nat)
  /-- CPY_ACCEPT (R211): The copy engine accepts a waiting CPY once its rack has room. -/
  | cpyAccept (c : Nat)
  /-- COPY_PERFORMED (R211): A copy finishes, fc advances in order, and waiting AWAITFs may end. -/
  | copyPerformed (c : Nat) (tag : Nat)
  /-- ACALLOC_GRANT (R213): A waiting granule request is met in order when granules become free. -/
  | acallocGrant (c : Nat)
  /-- ACALLOC_DEADLOCK_FAIL (R214): After 64 cycles with every block waiting, the cluster fails one request. -/
  | acallocDeadlockFail (c : Nat)
  /-- GRANULE_RETURN (R238): Freed granules return to the cluster once their engine operations finish. -/
  | granuleReturn (c : Nat) (g : Nat)
  /-- HEAP_ALLOCATOR_SERVE (R301): A heap's home allocator serves one arriving HALLOC or HFREE request. -/
  | heapAllocatorServe (n : Nat)
  /-- MAILBOX_PACKET (R280): A forwarded packet reaches a mailbox and is accepted or refused. -/
  | mailboxPacket (n : Nat)
  /-- MCFG_APPLY (R245): The new shape is applied and latched weights are discarded. -/
  | mcfgApply (c : Nat)
  /-- MMUL_ROW_ENTER (R247): A row enters the array every %cad cycles. -/
  | mmulRowEnter (c : Nat) (tag : Nat)
  /-- MMUL_ROW_WRITE (R247): A row's results are written to the granule after the array latency. -/
  | mmulRowWrite (c : Nat) (tag : Nat)
  /-- TILE_FETCH (R253): A tile fetch completes, pinning lines and feeding its command. -/
  | tileFetch (c : Nat) (tag : Nat)
  /-- INVAL_COMPLETE (R306): An invalidation completes once every TLB has dropped the page and older walks have ended. -/
  | invalComplete (d : Nat)
  /-- SNAPSHOT_LATCH (R371): At tick T each die copies every counter into its shadow. -/
  | snapshotLatch (d : Nat)
  /-- GATING_BEGIN (R218): After 4,096 idle cycles the cluster begins gating. -/
  | gatingBegin (c : Nat)
  /-- GATING_END (R218): After 64 cycles of gating the cluster is gated and loses its contents. -/
  | gatingEnd (c : Nat)
  /-- WAKE_END (R218): After 512 cycles of waking the cluster is on and the block is placed. -/
  | wakeEnd (c : Nat)
  /-- LAUNCH_ACCEPT (R268): An LPB at the head of its queue is accepted or refused. -/
  | launchAccept (part : Nat) (queue : Nat)
  /-- LAUNCH_BEGIN_DISPATCH (R269): An accepted launch begins dispatch once its queue order, serial and dependence conditions hold. -/
  | launchBeginDispatch (l : Nat)
  /-- DEPENDENCE_RECHECK (R269): A write to a launch's wadr line makes the DCPs read it again. -/
  | dependenceRecheck (l : Nat)
  /-- TICKET_CLAIM (R271): A DCP claims a batch of block indices by CAS. -/
  | ticketClaim (d : Nat) (l : Nat)
  /-- BLOCK_PLACE (R272): A DCP places a pending block on a cluster. -/
  | blockPlace (d : Nat) (l : Nat)
  /-- TIMED_START (R275): Placed blocks of a timed launch begin when %tick reaches start. -/
  | timedStart (blk : Nat)
  /-- GANG_RESERVE (R274): When a gang's reservation completes, its start tick is fixed. -/
  | gangReserve (l : Nat)
  /-- GANG_START (R274): The gang's warps begin at start tick T. -/
  | gangStart (l : Nat)
  /-- BLOCK_END (R313): A block ends, releases its resources and writes its exit record. -/
  | blockEnd (blk : Nat)
  /-- BLOCK_SAVE (R317): A pre-empted block's drained context is written to a save slot. -/
  | blockSave (blk : Nat)
  /-- BLOCK_RESUME (R319): A saved block is restored on a cluster of its own die. -/
  | blockResume (d : Nat)
  /-- SPILL_REINJECT (R329): Spilled packets are re-injected on the reroute VC along the detour. -/
  | spillReinject (site : Nat)
  /-- PACKET_FORWARD (R326): A router or transit switch forwards a packet one hop on its route. -/
  | packetForward (site : Nat)
  /-- TREE_RELEASE (R340): The root's AND becomes true and the phase is released to every member cluster. -/
  | treeRelease (part : Nat) (tb : Nat)
  /-- DROOP_DECAY (R359): After 20,000 ticks without an alarm droop_r steps down by one. -/
  | droopDecay (r : Nat)
  /-- ONSET_INTERVAL (R363): At each 200-tick interval the region admits waiting onsets within its budget. -/
  | onsetInterval (r : Nat)
  /-- ISLAND_RAMP_DONE (R356): A ramping island reaches nominal. -/
  | islandRampDone (c : Nat) (i : Nat)
  /-- HEM_ARRIVAL (R386): An event packet reaches an automaton's hem, and a late or excess event makes it lost. -/
  | hemArrival (n : Nat) (lost : Bool)
  /-- AUTOMATON_STEP (R393): Each tick the automaton moves due events and steps the head of its queue. -/
  | automatonStep (d : Nat) (n : Nat)
  /-- TIMER_EXPIRY (R389): An automaton timer's deadline passes and its expiry enters the step queue. -/
  | timerExpiry (d : Nat) (n : Nat) (m : Nat)
  /-- STOP_DELIVERY (R395): A STOP reaches the warps of its scope, which stop at their next boundary. -/
  | stopDelivery (n : Nat)
  /-- STOP_RECORD_WRITE (R398): Once the stop has taken effect, the stop record is written. -/
  | stopRecordWrite (n : Nat)
  /-- RESULT_WRITTEN (R54): An uncounted operation with a latency longer than one issue slot writes its result and clears its scoreboard bits; for a seam word this is its completion, which may set %seam.ovf and raise SEAMOVF. -/
  | resultWritten (w : Nat) (tag : Nat)
  /-- ACCUMULATOR_PORT_DONE (R239): The accumulator port finishes an ACRD, ACWR or ACZERO from its queue: it moves the rows, and for ACRD it writes the status to sd. -/
  | accumulatorPortDone (c : Nat)
  /-- ILLEGAL_ENCODING (R28): A warp issues a word that is not an instruction, such as an unassigned uniform opcode, a word in the stream range or a reserved mod, and raises ILLEGAL. -/
  | illegalEncoding (word : Word)
  /-- ILL_FORMED_STREAM_WORD (R241): A stream sequencer fetches a word outside its range or with a reserved field, and halts the stream with code OPC. -/
  | illFormedStreamWord (word : Word)
  /-- SYSCALL_ANSWER (R417): The service core answers, writing the status and performing acquire actions. -/
  | syscallAnswer (d : Nat) (tag : Nat) (answer : Word)
  /-- WARP_SWAP (R181): A warp's wait counter passes 32 and it is swapped with a ready pending warp. -/
  | warpSwap (core : Nat) (out : Nat)
  /-- STARVATION_GUARD (R184): A warp ready for 1,024 cycles without issue takes priority. -/
  | starvationGuard (w : Nat)
  /-- LOAD_CAP_WINDOW (R187): At the end of a 1,024-cycle window the load cap is adjusted from victim hits. -/
  | loadCapWindow (core : Nat)
  /-- L1_RELEASE_DRAIN (R194): The dirty-line entries ahead of a release marker finish writing back. -/
  | l1ReleaseDrain (core : Nat)
  /-- LINE_EXPIRY (R290): A clean L1 or RDC line becomes invalid 8,192 cycles after its fill. -/
  | lineExpiry (rdc : Bool) (unit : Nat) (line : Nat)
  /-- DIRTY_WRITEBACK_TIMEOUT (R290): A dirty FIFO entry is written back within 8,192 cycles. -/
  | dirtyWritebackTimeout (rdc : Bool) (unit : Nat)
  /-- RDC_FILL (R288): A remote line arrives from its home and fills the RDC. -/
  | rdcFill (d : Nat) (line : Nat)
  /-- RDC_RELEASE_COMPLETE (R289): A device-scope release completes once its RDC entries are acknowledged. -/
  | rdcReleaseComplete (d : Nat)
  /-- RDC_ACQUIRE_COMPLETE (R289): A device-scope acquire finishes invalidating clean RDC bytes. -/
  | rdcAcquireComplete (d : Nat)
  /-- HOME_WRITE (R287): A write arrives at its home L2 and is merged into the coherence order. -/
  | homeWrite (d : Nat) (pa : Nat) (bytes : List Byte)
  /-- HOME_ATOMIC (R293): An atomic is performed at its home L2 and returns its old value. -/
  | homeAtomic (d : Nat) (pa : Nat) (wide : Bool) (op : AtomOp) (a : DWord) (b : DWord)
  /-- HOST_CXL_MEM_ACCESS (R291): A host access to device memory arrives by CXL.mem on a host port and is performed at the home L2. -/
  | hostCxlMemAccess (port : Nat) (pa : Nat) (access : HostAccess)
  /-- CXL_SNOOP (R291): A CXL back-invalidate snoop arrives and acts on held host lines. -/
  | cxlSnoop (line : Nat)
  /-- TRANSLATION_WALK (R305): A page walk completes in one of four outcomes. -/
  | translationWalk (walker : Walker) (va : Addr) (kind : AccKind)
  /-- RESOLVE (R310): A resolve word closes a fault entry with retry or fail. -/
  | resolve (d : Page) (word : DWord)
  /-- FQRP_WRITE (R309): Software frees fault records and untabled requesters walk again. -/
  | fqrpWrite (d : Page) (v : DWord)
  /-- FQ_WRITE (R309): Software sets up the fault queue ring and untabled requesters walk again. -/
  | fqWrite (d : Page) (v : DWord)
  /-- INVAL (R306): A control-page write starts a TLB invalidation of a page. -/
  | inval (d : Page) (v : DWord)
  /-- CSTEP_WRITE (R361): The supervisor sets the region's current-step limit from any die's page. -/
  | cstepWrite (d : Page) (v : DWord)
  /-- COUNTER_CLEAR (R367): The clr bit sets a counter's value and wrap bit to 0. -/
  | counterClear (d : Page) (ctl : Word)
  /-- COUNTER_CONFIGURE (R367): A control-word write sets a counter's enable and source. -/
  | counterConfigure (d : Page) (ctl : Word)
  /-- SKETCH_FREEZE (R372): The freeze bit stops additions to a sketch and counts them as dropped. -/
  | sketchFreeze (d : Page) (v : DWord)
  /-- SKETCH_CLEAR (R372): The clear bit zeroes a sketch's counters, N, sat and dropped. -/
  | sketchClear (d : Page) (v : DWord)
  /-- STOPPED_WARP_RESUME (R395): A resume write lets one stopped warp continue from its boundary. -/
  | stoppedWarpResume (d : Page) (v : DWord)
  /-- DIE_RESUME_ALL (R412): A resume write with all set resumes every stopped warp and stream of the die. -/
  | dieResumeAll (d : Page)
  /-- TRACE_RING_SETUP (R375): A trace ring descriptor is set, and records not yet written are dropped. -/
  | traceRingSetup (d : Page) (v : DWord)
  /-- CONTROL_PAGE_WRITE (R412): A write to a control-page register without a row of its own stores its value. -/
  | controlPageWrite (d : Page) (off : Nat) (v : DWord)
  /-- STALL_SAMPLE (R374): At each sampling period a core samples one warp's stall and blames its producer. -/
  | stallSample (core : Nat) (pos : Nat)
  /-- PREEMPT (R316): A DCP chooses a cluster and blocks to pre-empt for a waiting launch. -/
  | preempt (d : Nat) (l : Nat)
  /-- CORRECTABLE_ERROR (R321): A correctable ECC error is corrected in place and counted. -/
  | correctableError (d : Nat) (what : Nat)
  /-- UNCORRECTABLE_ERROR (R321): An uncorrectable error retires a cluster, refetches a line or poisons it. -/
  | uncorrectableError (unit : Nat) (what : Nat) (pa : Nat)
  /-- FLIT_RECEIVE (R325): A flit is received and acknowledged, or retried on a CRC failure. -/
  | flitReceive (site : Nat) (dir : Nat) (ok : Bool)
  /-- LANE_LOCK_TIMEOUT (R325): A link that lost lane lock for 1,000 ticks fails. -/
  | laneLockTimeout (site : Nat) (dir : Nat)
  /-- TIMING_EXCHANGE (R332): Every 4,096 ticks a die measures its offset from the panel reference. -/
  | timingExchange (base : Bool) (unit : Nat) (t1 : Int) (t2 : Int) (t3 : Int) (t4 : Int)
  /-- TICK_SLEW (R332): A die adds or drops one tick per 1,024 ticks to steer toward the reference. -/
  | tickSlew (base : Bool) (unit : Nat)
  /-- PTP_MESSAGE (R335): An IEEE 1588 message is received on a span port and disciplines the reference. -/
  | ptpMessage (port : Nat) (m : PtpMsg)
  /-- SPAN_FRAME (R418): A span transport frame is sent or received through a port's descriptor ring. -/
  | spanFrame (port : Nat) (at_ : Nat) (io : SpanIo)
  /-- ENVELOPE_MEASURE (R358): Every 1,000 ticks the panel power is measured and envelope adjusted. -/
  | envelopeMeasure (watts : Nat)
  /-- DROOP_ALARM (R359): A region's supply sags and droop_r is raised. -/
  | droopAlarm (r : Nat)
  /-- SLACK_DWELL_END (R360): At the end of a dwell each gang region's slack offset is adjusted. -/
  | slackDwellEnd (p : Nat)
  /-- ISLAND_WINDOW_END (R356): At the end of a 1,000-tick window an island may enter near-threshold or request onset. Island i of cluster
  %clu of die d; window n begins at tick 1000·n. -/
  | islandWindowEnd (d : Nat) (clu : Nat) (i : Nat) (n : Nat)
  /-- ISLAND_IDLE (R356): An island idle for 4,096 cycles enters near-threshold. -/
  | islandIdle (c : Nat) (i : Nat)
  /-- PANEL_RESET (R416): Reset runs the boot ROMs, checks the supervisor image and wipes the panel. -/
  | panelReset (signed : Bool)
  /-- LIFE_CYCLE_CHANGE (R415): A life-cycle change wipes the whole panel, with retirements standing. -/
  | lifeCycleChange (phase : Nat)
  /-- REGION_ASSIGN (R411): The supervisor moves a drained region between partitions, or out of one, after wiping it. -/
  | regionAssign (r : Nat) (part : Option Joining) (limit : Nat) (troot : Addr) (capbase : Addr) (listAt : Nat) (queues : Addr) (ports : List (Nat × Nat))
  /-- SUPERVISOR_FAILOVER (R411): Die 199 takes the supervisor role after die 0's heartbeat stalls 1,000,000 ticks. -/
  | supervisorFailover
  /-- ATTESTATION_REQUEST (R416): A requester's nonce yields a signed attestation report. -/
  | attestationRequest (part : Nat) (nonce : BitVec 256)
  /-- LANE_LOCK_LOST (R325): A link receiver loses lane lock, which starts the 1,000-tick count toward link failure. -/
  | laneLockLost (site : Nat) (dir : Nat)
  /-- LANE_LOCK_REGAINED (R325): A link receiver regains lane lock before 1,000 ticks have passed, which cancels the count toward link failure. -/
  | laneLockRegained (site : Nat) (dir : Nat)
  deriving DecidableEq, Repr

end Sys2Proof
end

