-- ==== Sys2Proof/WellFormed.lean ====
section
/-!
DEFINITION. The register-number and field-value rules that an instruction's own operands must keep; a word that
breaks one raises ILLEGAL (R13, R21 to R28, R92, R107, R112, R113, R151, R208, R228, R278, R299, R337, R369 to R373, R399, R417).
Rules that depend on the state (R138, R139, R230, ...) are checked when the word issues.
-/
namespace Sys2Proof

/-- The field names an even register (R13). -/
def even (r : Reg) : Bool := r.toNat % 2 == 0
/-- The field is a multiple of 4 (R13). -/
def quad (r : Reg) : Bool := r.toNat % 4 == 0
/-- The field is a multiple of 16 (R278). -/
def sixteen (r : Reg) : Bool := r.toNat % 16 == 0
/-- Pairs are even when the form is 64 bits wide (R13). -/
def Wd.ok (t : Wd) (rs : List Reg) : Bool := match t with | .w32 => true | .w64 => rs.all even
def AddT.wide : AddT → Bool
  | .b64 | .i64 | .n64 => true
  | _ => false
def IntT.wide : IntT → Bool
  | .i64 | .n64 => true
  | _ => false
def Fmt.wide : Fmt → Bool
  | .f64 => true
  | .f32 => false
/-- The register rule of a form that is 64 bits wide when b holds. -/
def evenIf (b : Bool) (rs : List Reg) : Bool := !b || rs.all even
/-- Conditions 6 and 7 are FCMP's alone (R22). -/
def Cond.intOk : Cond → Bool
  | .un | .or => false
  | _ => true
def CvtT.wide : CvtT → Bool
  | .f64 | .i64 | .n64 => true
  | _ => false
def RedOp.wide : RedOp → Bool
  | .addF64 | .addB64 => true
  | _ => false
/-- A seed-rotated format's register rule for its codes: with MXINT8 the register above holds the scale (R107). -/
def Q8.codeOk (q : Q8) (r : Reg) : Bool := match q with | .dm8 => true | .mx8 => even r
/-- Register rule of an atomic's data register (R23, R161). -/
def AtomOp.ok (op : AtomOp) (wide : Bool) (r : Reg) : Bool :=
  match op, wide with
  | .cas, false => even r
  | .cas, true => quad r
  | _, false => true
  | _, true => even r
/-- Flag codes 12 to 14 of a CLAUSE word are reserved (R15). -/
def flagOk (f : BitVec 4) : Bool := f.toNat ≤ 11 || f.toNat == 15
/-- The special registers that USR reads (R25) and, of them, those of width 64. -/
def specialOk (n : BitVec 8) : Bool := n.toNat ≤ 0x19
def specialWide (n : BitVec 8) : Bool := [0x08, 0x0B, 0x10, 0x11, 0x14, 0x17, 0x19].contains n.toNat
/-- The special registers that USW writes (R25). -/
def specialRw (n : BitVec 8) : Bool := [0x0A, 0x0C, 0x0D, 0x0E, 0x0F, 0x10, 0x11, 0x12, 0x13, 0x14].contains n.toNat
/-- FXACC.mad and .msub have a second source; in the other forms vb is reserved (R21, R151). -/
def FxOp.hasFactor : FxOp → Bool
  | .mad | .msub => true
  | .add | .sub => false
/-- Shift distance of SHFL: 1 to 7 (R112). -/
def shflOk (k : Reg) : Bool := 1 ≤ k.toNat && k.toNat ≤ 7

/-- The operands of a word keep the rules of the manual. Steps that are no words have no such rule. -/
def WellFormed (i : Instr) : Bool :=
  match i with
  | .clause _ fa fb _ => flagOk fa && flagOk fb
  | .add _ t vd va vb | .sub _ t vd va vb => evenIf t.wide [vd, va, vb]
  | .addc t vd va vb _ | .subb t vd va vb _ => t.ok [vd, va, vb]
  | .mul _ t vd va vb => t.ok [vd, va, vb]
  | .mulh _ t vd va vb => evenIf t.wide [vd, va, vb]
  | .madc vd _ _ _ => even vd
  | .andL _ t vd va vb | .orL _ t vd va vb | .xorL _ t vd va vb => t.ok [vd, va, vb]
  | .shl _ t vd va _ => t.ok [vd, va]
  | .shr _ t vd va _ => evenIf t.wide [vd, va]
  | .popc _ t _ va | .clz _ t _ va => t.ok [va]
  | .minL _ t vd va vb | .maxL _ t vd va vb => evenIf t.wide [vd, va, vb]
  | .abs _ t vd va => t.ok [vd, va]
  | .sel _ t vd va vb => t.ok [vd, va, vb]
  | .cmp _ c t _ va vb => c.intOk && evenIf t.wide [va, vb]
  | .fcmp _ _ t _ va vb => evenIf t.wide [va, vb]
  | .movUniform _ t vd va => t.ok [vd, va]
  | .fadd _ t vd va vb | .fsub _ t vd va vb | .fmul _ t vd va vb | .fmin _ t vd va vb | .fmax _ t vd va vb =>
      evenIf t.wide [vd, va, vb]
  | .fclass _ t _ va => evenIf t.wide [va]
  | .ddiv _ vd va vb => [vd, va, vb].all even
  | .dsqrt _ vd va => [vd, va].all even
  | .cvt _ _ td ts vd va => evenIf td.wide [vd] && evenIf ts.wide [va]
  | .narrow _ _ q bf _ vd va => q.codeOk vd && (if bf then even va else quad va)
  | .widen _ q _ vd va => quad vd && q.codeOk va
  | .shflFwd _ t vd va k | .shflBack _ t vd va k | .shflSwap _ t vd va k => t.ok [vd, va] && shflOk k
  | .shflFrom _ t vd va _ => t.ok [vd, va]
  | .bcast _ t vd va n => t.ok [vd, va] && n.toNat < 16
  | .bcastLow _ t vd va => t.ok [vd, va]
  | .lred _ op vd va => evenIf op.wide [vd, va]
  | .scmp _ c _ _ _ => c.intOk
  | .smac _ _ _ _ sm => even sm
  | .fxacc _ op _ va vb => even va && even vb && (op.hasFactor || vb == 0)
  | .fxsign _ pd _ => pd.toNat == 0 || pd.toNat == 2 || pd.toNat == 4
  | .fxcvt _ _ vd _ => even vd
  | .fmaF64 _ vd va vb vc => [vd, va, vb, vc].all even
  | .madwI32 _ vd _ _ vc | .madwN32 _ vd _ _ vc => [vd, vc].all even
  | .ldB64 _ vd _ _ _ | .stB64 _ vd _ _ _ => even vd
  | .ldB128 _ vd _ _ _ | .stB128 _ vd _ _ _ => quad vd
  | .atomB32Die _ op _ vd _ _ | .atomB32Dev _ op _ vd _ _ | .atomB32Sys _ op _ vd _ _ => op.ok false vd
  | .atomB64Die _ op _ vd _ _ | .atomB64Dev _ op _ vd _ _ | .atomB64Sys _ op _ vd _ _ => op.ok true vd
  | .uadd _ t sd sa sb | .usub _ t sd sa sb | .umul _ t sd sa sb => t.ok [sd, sa, sb]
  | .uand _ t sd sa sb | .uor _ t sd sa sb | .uxor _ t sd sa sb => t.ok [sd, sa, sb]
  | .ushl _ t sd sa sb => t.ok [sd, sa, sb]
  | .ushr _ t sd sa sb => evenIf t.wide [sd, sa, sb]
  | .umin _ t sd sa sb | .umax _ t sd sa sb => evenIf t.wide [sd, sa, sb]
  | .ucmp _ c t _ sa sb => c.intOk && evenIf t.wide [sa, sb]
  | .usel _ t sd sa sb => t.ok [sd, sa, sb]
  | .usr _ sd n => specialOk n && (!specialWide n || even sd)
  | .usw _ n sa => specialRw n && (!specialWide n || even sa)
  | .uldB32 _ _ sa _ | .ustB32 _ _ sa _ => even sa
  | .uldB64 _ sd sa _ | .ustB64 _ sd sa _ => even sd && even sa
  | .uatomB32 _ op _ _ sd sa => even sa && op.ok false sd
  | .uatomB64 _ op _ _ sd sa => even sa && op.ok true sd
  | .brl _ _ join => join.toNat != 0
  | .jmpi _ sa | .ret _ sa | .twait _ sa => even sa
  | .jmpl _ va join => even va && join.toNat != 0
  | .loop _ _ imm => 2 ≤ imm.toNat
  | .barw _ _ cnt sa | .bara _ _ cnt sa => cnt || sa == 0
  | .seed _ _ _ sa => even sa
  | .thbind _ _ sa sb | .thbindT _ _ sa sb => even sa && quad sb
  | .rkinit _ _ sa _ => even sa
  | .cpySeal _ _ _ sb => even sb
  | .acrd _ _ sa _ => even sa
  | .acwr _ sa _ => even sa
  | .halloc _ sd sa _ | .hallocF _ sd sa _ => even sd && quad sa
  | .hfree _ sa => even sa
  | .spawn _ _ sa => even sa
  | .pktrx _ sd _ => sixteen sd
  | .fwd _ _ sa _ => sixteen sa
  | .blt _ sd _ _ => quad sd
  | .cntr _ sd _ => even sd
  | .snap _ _ sa => even sa
  | .skincPc _ sa _ | .skincKn _ sa _ => even sa
  | .tkload _ _ sa _ => even sa
  | .tkstat _ sd _ _ => quad sd
  | .tkemit _ sa => even sa
  | .syscall _ _ sa _ => even sa
  | .bfe _ _ _ _ _ | .bfi _ _ _ _ | .movLane _ _ | .rcp _ _ _ | .rsq _ _ _ | .exp2 _ _ _ | .log2 _ _ _
  | .sin _ _ _ | .cos _ _ _ | .voteCount _ _ _ _ | .voteRank _ _ _ _ | .voteAtleast _ _ _ _ _
  | .voteEvery _ _ _ _ | .voteAgree _ _ _ _ | .voteMask _ _ _ _ | .sadd _ _ _ _ | .ssub _ _ _ _
  | .sshl _ _ _ _ _ | .sshrI _ _ _ _ _ | .sshrN _ _ _ _ _ | .sneg _ _ _ | .addImm _ _ _ _ | .andImm _ _ _ _
  | .orImm _ _ _ _ | .xorImm _ _ _ _ | .shlImm _ _ _ _ | .shrImm _ _ _ _ _ | .movImm _ _ _ | .fmaF32 _ _ _ _ _
  | .ldI8 _ _ _ _ _ | .ldN8 _ _ _ _ _ | .ldI16 _ _ _ _ _ | .ldN16 _ _ _ _ _ | .ldB32 _ _ _ _ _
  | .stN8 _ _ _ _ _ | .stN16 _ _ _ _ _ | .stB32 _ _ _ _ _ | .pref _ _ _ _ _ | .uaddImm _ _ _ _ | .umulh _ _ _ _ _
  | .uandImm _ _ _ _ | .uorImm _ _ _ _ | .uxorImm _ _ _ _ | .ushlImm _ _ _ _ | .ushrImm _ _ _ _ _ | .umovi _ _
  | .ului _ _ | .fence _ _ _ | .stitch _ _ _ | .unstitch _ | .br _ _ | .jmp _ | .call _ _ | .lbrk _ | .exit _
  | .trap _ _ | .resume _ | .resumeSkip _ | .yieldQ _ | .nop _ | .fork _ _
  | .rendez _ | .cpy _ _ _ _ | .awaitf _ _ _ | .relslot _ _ | .acalloc _ _ _ _ | .acfree _ _ _ | .aczero _ _
  | .grow _ _ _ _ | .tbarrive _ _ | .tbarwait _ _ _ | .tbarst _ _ _ | .tkarm _ _ _ | .tkarmP _ _ _
  | .tkdisarm _ _ | .tkpoll _ _ _ | .tkpollC _ _ _ => true
  | .mcfg _ | .mwload _ _ | .mmul _ _ _ _ _ _ | .mstore _ _ _ _ | .mbarw _ _ | .mbara _ _ | .mend
  | .ccpyPlain _ _ _ | .ccpyCvt _ _ _ _ | .cbar _ _ | .cbarW _ _ | .cend => true
  | .spillRefill _ | .flagOperationComplete _ _ | .twaitWake _ | .cpyAccept _ | .copyPerformed _ _ | .acallocGrant _
  | .acallocDeadlockFail _ | .granuleReturn _ _ | .heapAllocatorServe _ | .mailboxPacket _ | .syscallAnswer _ _ _
  | .mcfgApply _ | .mmulRowEnter _ _ | .mmulRowWrite _ _ | .tileFetch _ _ | .warpSwap _ _ | .starvationGuard _
  | .loadCapWindow _ | .l1ReleaseDrain _ | .lineExpiry _ _ _ | .dirtyWritebackTimeout _ _ | .rdcFill _ _
  | .rdcReleaseComplete _ | .rdcAcquireComplete _ | .homeWrite _ _ _ | .homeAtomic _ _ _ _ _ _
  | .hostCxlMemAccess _ _ _ | .cxlSnoop _ | .translationWalk _ _ _ | .resolve _ _ | .fqrpWrite _ _ | .fqWrite _ _
  | .inval _ _ | .invalComplete _ | .cstepWrite _ _ | .counterClear _ _ | .counterConfigure _ _
  | .sketchFreeze _ _ | .sketchClear _ _ | .stoppedWarpResume _ _ | .dieResumeAll _ | .traceRingSetup _ _
  | .controlPageWrite _ _ _ | .stallSample _ _ | .snapshotLatch _ | .gatingBegin _ | .gatingEnd _ | .wakeEnd _
  | .launchAccept _ _ | .launchBeginDispatch _ | .dependenceRecheck _ | .ticketClaim _ _ | .blockPlace _ _
  | .timedStart _ | .gangReserve _ | .gangStart _ | .blockEnd _ | .preempt _ _ | .blockSave _ | .blockResume _
  | .correctableError _ _ | .uncorrectableError _ _ _ | .flitReceive _ _ _ | .laneLockTimeout _ _
  | .spillReinject _ | .packetForward _ | .timingExchange _ _ _ _ _ _ | .tickSlew _ _ | .ptpMessage _ _
  | .spanFrame _ _ _ | .treeRelease _ _ | .envelopeMeasure _ | .droopAlarm _ | .droopDecay _ | .slackDwellEnd _
  | .onsetInterval _ | .islandWindowEnd _ _ _ _ | .islandIdle _ _ | .islandRampDone _ _ | .hemArrival _ _
  | .automatonStep _ _ | .timerExpiry _ _ _ | .stopDelivery _ | .stopRecordWrite _ | .panelReset _
  | .lifeCycleChange _ | .regionAssign _ _ _ _ _ _ _ _ | .supervisorFailover | .attestationRequest _ _
  | .resultWritten _ _ | .accumulatorPortDone _ | .illegalEncoding _ | .illFormedStreamWord _ | .laneLockLost _ _
  | .laneLockRegained _ _ => true

end Sys2Proof
end

