-- ==== Sys2Proof/Decode.lean ====
section
/-!
DEFINITION. The decoder and the encoder, both written from the encoding tables of spec/01 (R10 to R27) and
spec/11 (R228, R244). A word that is not an instruction is rejected by name (R28).
-/
namespace Sys2Proof

/-- Why a word is not an instruction (R28). -/
inductive DecodeError where
  /-- No row of the opcode maps has this opcode (R24, R27). -/
  | unassigned
  /-- A reserved mod value or sub-field code (R21, R24). -/
  | reservedCode
  /-- A reserved field that is not 0 (R21, R24, R228, R241). -/
  | reservedField
  deriving DecidableEq, Repr

/-! Codes of the sub-fields (R21 to R26, R244, R245). -/

def Wd.code : Wd → Nat
  | .w32 => 0
  | .w64 => 1
def Wd.ofCode : Nat → Option Wd
  | 0 => some .w32
  | 1 => some .w64
  | _ => none

def AddT.code : AddT → Nat
  | .b32 => 0
  | .b64 => 1
  | .i32 => 2
  | .n32 => 3
  | .i64 => 4
  | .n64 => 5
def AddT.ofCode : Nat → Option AddT
  | 0 => some .b32
  | 1 => some .b64
  | 2 => some .i32
  | 3 => some .n32
  | 4 => some .i64
  | 5 => some .n64
  | _ => none

def IntT.code : IntT → Nat
  | .i32 => 0
  | .n32 => 1
  | .i64 => 2
  | .n64 => 3
def IntT.ofCode : Nat → Option IntT
  | 0 => some .i32
  | 1 => some .n32
  | 2 => some .i64
  | 3 => some .n64
  | _ => none

def Fmt.code : Fmt → Nat
  | .f32 => 0
  | .f64 => 1
def Fmt.ofCode : Nat → Option Fmt
  | 0 => some .f32
  | 1 => some .f64
  | _ => none

def Cond.code : Cond → Nat
  | .eq => 0
  | .ne => 1
  | .lt => 2
  | .le => 3
  | .gt => 4
  | .ge => 5
  | .un => 6
  | .or => 7
def Cond.ofCode : Nat → Option Cond
  | 0 => some .eq
  | 1 => some .ne
  | 2 => some .lt
  | 3 => some .le
  | 4 => some .gt
  | 5 => some .ge
  | 6 => some .un
  | 7 => some .or
  | _ => none

def CvtT.code : CvtT → Nat
  | .f32 => 0
  | .f64 => 1
  | .bf16 => 2
  | .i32 => 3
  | .n32 => 4
  | .i64 => 5
  | .n64 => 6
def CvtT.ofCode : Nat → Option CvtT
  | 0 => some .f32
  | 1 => some .f64
  | 2 => some .bf16
  | 3 => some .i32
  | 4 => some .n32
  | 5 => some .i64
  | 6 => some .n64
  | _ => none

def RmSel.code : RmSel → Nat
  | .dflt => 0
  | .rne => 1
  | .rtz => 2
  | .rup => 3
  | .rdn => 4
def RmSel.ofCode : Nat → Option RmSel
  | 0 => some .dflt
  | 1 => some .rne
  | 2 => some .rtz
  | 3 => some .rup
  | 4 => some .rdn
  | _ => none

def RedOp.code : RedOp → Nat
  | .addF32 => 0
  | .addF64 => 1
  | .addB32 => 2
  | .addB64 => 3
  | .minI32 => 4
  | .maxI32 => 5
  | .minF32 => 6
  | .maxF32 => 7
def RedOp.ofCode : Nat → Option RedOp
  | 0 => some .addF32
  | 1 => some .addF64
  | 2 => some .addB32
  | 3 => some .addB64
  | 4 => some .minI32
  | 5 => some .maxI32
  | 6 => some .minF32
  | 7 => some .maxF32
  | _ => none

def FxOp.code : FxOp → Nat
  | .add => 0
  | .mad => 1
  | .sub => 2
  | .msub => 3
def FxOp.ofCode : Nat → Option FxOp
  | 0 => some .add
  | 1 => some .mad
  | 2 => some .sub
  | 3 => some .msub
  | _ => none

def AtomOp.code : AtomOp → Nat
  | .add => 0
  | .smin => 1
  | .smax => 2
  | .umin => 3
  | .umax => 4
  | .and => 5
  | .or => 6
  | .xor => 7
  | .exch => 8
  | .cas => 9
  | .fadd => 10
def AtomOp.ofCode : Nat → Option AtomOp
  | 0 => some .add
  | 1 => some .smin
  | 2 => some .smax
  | 3 => some .umin
  | 4 => some .umax
  | 5 => some .and
  | 6 => some .or
  | 7 => some .xor
  | 8 => some .exch
  | 9 => some .cas
  | 10 => some .fadd
  | _ => none

def AtomOrd.code : AtomOrd → Nat
  | .rlx => 0
  | .acq => 1
  | .rel => 2
  | .ar => 3
def AtomOrd.ofCode : Nat → Option AtomOrd
  | 0 => some .rlx
  | 1 => some .acq
  | 2 => some .rel
  | 3 => some .ar
  | _ => none

def AtomScope.code : AtomScope → Nat
  | .die => 0
  | .dev => 1
  | .sys => 2
def AtomScope.ofCode : Nat → Option AtomScope
  | 0 => some .die
  | 1 => some .dev
  | 2 => some .sys
  | _ => none

def FenceOrd.code : FenceOrd → Nat
  | .acq => 0
  | .rel => 1
  | .ar => 2
  | .sc => 3
def FenceOrd.ofCode : Nat → Option FenceOrd
  | 0 => some .acq
  | 1 => some .rel
  | 2 => some .ar
  | 3 => some .sc
  | _ => none

def FenceScope.code : FenceScope → Nat
  | .warp => 0
  | .blk => 1
  | .die => 2
  | .dev => 3
  | .sys => 4
def FenceScope.ofCode : Nat → Option FenceScope
  | 0 => some .warp
  | 1 => some .blk
  | 2 => some .die
  | 3 => some .dev
  | 4 => some .sys
  | _ => none

def PrefLv.code : PrefLv → Nat
  | .l1 => 0
  | .l2 => 1
  | .rdc => 2
def PrefLv.ofCode : Nat → Option PrefLv
  | 0 => some .l1
  | 1 => some .l2
  | 2 => some .rdc
  | _ => none

def RotB.code : RotB → Nat
  | .b1 => 0
  | .b16 => 1
  | .b64 => 2
def RotB.ofCode : Nat → Option RotB
  | 0 => some .b1
  | 1 => some .b16
  | 2 => some .b64
  | _ => none

def Shape.code : Shape → Nat
  | .q4 => 0
  | .f14 => 1
  | .f22 => 2
  | .f41 => 3
def Shape.ofCode : Nat → Option Shape
  | 0 => some .q4
  | 1 => some .f14
  | 2 => some .f22
  | 3 => some .f41
  | _ => none

def MFmt.code : MFmt → Nat
  | .bf16 => 0
  | .dm8 => 1
  | .mx8 => 2
def MFmt.ofCode : Nat → Option MFmt
  | 0 => some .bf16
  | 1 => some .dm8
  | 2 => some .mx8
  | _ => none

def IntT.shrCode : IntT → Nat
  | .n32 => 0
  | .n64 => 1
  | .i32 => 2
  | .i64 => 3
def IntT.ofShrCode : Nat → Option IntT
  | 0 => some .n32
  | 1 => some .n64
  | 2 => some .i32
  | 3 => some .i64
  | _ => none

def ForkSel.code : ForkSel → Nat
  | .m => 1
  | .c => 2
  | .mc => 3
def ForkSel.ofCode : Nat → Option ForkSel
  | 1 => some .m
  | 2 => some .c
  | 3 => some .mc
  | _ => none
def Q8.code : Q8 → Nat
  | .dm8 => 0
  | .mx8 => 1
def Q8.ofBool (b : Bool) : Q8 := if b then .mx8 else .dm8

/-- A 6-bit field from a number. -/
def fld6 (n : Nat) : Reg := BitVec.ofNat 6 n
/-- The low three bits of a 6-bit field. -/
def lo3 (x : Reg) : BitVec 3 := BitVec.ofNat 3 x.toNat
/-- A 6-bit field from its upper and lower three bits. -/
def hilo3 (hi : Nat) (lo : BitVec 3) : Reg := BitVec.ofNat 6 (8 * hi + lo.toNat)

/-- The n bits of w from bit lo upward, as a number. -/
def bitsOf (w : Word) (lo n : Nat) : Nat := w.toNat / 2 ^ lo % 2 ^ n

/-- A word whose fields are read by the formats of R11, R12 and R244. -/
structure Fields where
  w : Word

/-! Fields of the lane formats (R11). -/
def Fields.opcL (f : Fields) : Nat := bitsOf f.w 25 6
def Fields.neg (f : Fields) : Bool := bitsOf f.w 21 1 == 1
def Fields.pg (f : Fields) : BitVec 3 := BitVec.ofNat 3 (bitsOf f.w 22 3)
def Fields.vd (f : Fields) : Reg := fld6 (bitsOf f.w 15 6)
def Fields.va (f : Fields) : Reg := fld6 (bitsOf f.w 9 6)
def Fields.vb (f : Fields) : Reg := fld6 (bitsOf f.w 3 6)
def Fields.md3 (f : Fields) : Nat := bitsOf f.w 0 3
def Fields.imm9 (f : Fields) : BitVec 9 := BitVec.ofNat 9 (bitsOf f.w 0 9)
def Fields.ab (f : Fields) : BitVec 3 := BitVec.ofNat 3 (bitsOf f.w 6 3)
def Fields.imm6 (f : Fields) : BitVec 6 := BitVec.ofNat 6 (bitsOf f.w 0 6)
def Fields.n4 (f : Fields) : Bool := bitsOf f.w 24 1 == 1
def Fields.vd4 (f : Fields) : Reg := fld6 (bitsOf f.w 18 6)
def Fields.va4 (f : Fields) : Reg := fld6 (bitsOf f.w 12 6)
def Fields.vb4 (f : Fields) : Reg := fld6 (bitsOf f.w 6 6)
def Fields.vc4 (f : Fields) : Reg := fld6 (bitsOf f.w 0 6)
def Fields.guardL (f : Fields) : Guard := ⟨f.pg, f.neg⟩

/-! Fields of the uniform formats (R12). -/
def Fields.opcU (f : Fields) : Nat := bitsOf f.w 24 7
def Fields.guardU (f : Fields) : Guard := ⟨BitVec.ofNat 3 (bitsOf f.w 21 3), bitsOf f.w 20 1 == 1⟩
def Fields.sd (f : Fields) : Reg := fld6 (bitsOf f.w 14 6)
def Fields.sa (f : Fields) : Reg := fld6 (bitsOf f.w 8 6)
def Fields.sb (f : Fields) : Reg := fld6 (bitsOf f.w 2 6)
def Fields.md2 (f : Fields) : Nat := bitsOf f.w 0 2
def Fields.imm8 (f : Fields) : BitVec 8 := BitVec.ofNat 8 (bitsOf f.w 0 8)
def Fields.sdW (f : Fields) : Reg := fld6 (bitsOf f.w 18 6)
def Fields.imm18 (f : Fields) : BitVec 18 := BitVec.ofNat 18 (bitsOf f.w 0 18)
def Fields.off21 (f : Fields) : BitVec 21 := BitVec.ofNat 21 (bitsOf f.w 24 1 * 2 ^ 20 + bitsOf f.w 0 20)
def Fields.tgt12 (f : Fields) : BitVec 12 := BitVec.ofNat 12 (bitsOf f.w 8 12)
def Fields.join8 (f : Fields) : BitVec 8 := BitVec.ofNat 8 (bitsOf f.w 0 8)
def Fields.wait12 (f : Fields) : BitVec 12 := BitVec.ofNat 12 (bitsOf f.w 12 12)
def Fields.fa4 (f : Fields) : BitVec 4 := BitVec.ofNat 4 (bitsOf f.w 8 4)
def Fields.fb4 (f : Fields) : BitVec 4 := BitVec.ofNat 4 (bitsOf f.w 4 4)
def Fields.len4 (f : Fields) : BitVec 4 := BitVec.ofNat 4 (bitsOf f.w 0 4)

/-! Fields of the stream words (R244). -/
def Fields.h (f : Fields) : BitVec 5 := BitVec.ofNat 5 (bitsOf f.w 19 5)
def Fields.gr (f : Fields) : BitVec 5 := BitVec.ofNat 5 (bitsOf f.w 14 5)
def Fields.x (f : Fields) : BitVec 8 := BitVec.ofNat 8 (bitsOf f.w 6 8)
def Fields.y (f : Fields) : BitVec 2 := BitVec.ofNat 2 (bitsOf f.w 4 2)
def Fields.z (f : Fields) : BitVec 4 := BitVec.ofNat 4 (bitsOf f.w 0 4)
def Fields.nb4 (f : Fields) : BitVec 4 := BitVec.ofNat 4 (bitsOf f.w 20 4)
def Fields.e9 (f : Fields) : BitVec 9 := BitVec.ofNat 9 (bitsOf f.w 11 9)
def Fields.low11 (f : Fields) : Nat := bitsOf f.w 0 11
def Fields.pay (f : Fields) : Nat := bitsOf f.w 0 24

/-- A lane word (bit 31 clear), by the lane opcode map (R21). -/
def decodeLane (f : Fields) : Except DecodeError Instr :=
  match f.opcL with
  | 0 => (match AddT.ofCode f.md3 with | some t => .ok (.add f.guardL t f.vd f.va f.vb) | _ => .error .reservedCode)
  | 1 => (match AddT.ofCode f.md3 with | some t => .ok (.sub f.guardL t f.vd f.va f.vb) | _ => .error .reservedCode)
  | 2 =>
    if f.md3 / 2 == 0 && f.neg == false then (match Wd.ofCode (f.md3 % 2) with
      | some t => .ok (.addc t f.vd f.va f.vb f.pg)
      | _ => .error .reservedCode)
    else if f.md3 / 2 == 1 && f.neg == false then (match Wd.ofCode (f.md3 % 2) with
      | some t => .ok (.subb t f.vd f.va f.vb f.pg)
      | _ => .error .reservedCode)
    else .error .reservedField
  | 3 =>
    if decide (f.md3 < 2) then (match Wd.ofCode f.md3 with
      | some t => .ok (.mul f.guardL t f.vd f.va f.vb)
      | _ => .error .reservedCode)
    else if decide (2 ≤ f.md3) then (match IntT.ofCode (f.md3 - 2) with
      | some t => .ok (.mulh f.guardL t f.vd f.va f.vb)
      | _ => .error .reservedCode)
    else .error .reservedField
  | 4 => if f.md3 == 0 && f.neg == false then .ok (.madc f.vd f.va f.vb f.pg) else .error .reservedField
  | 5 =>
    if f.md3 / 2 == 0 then (match Wd.ofCode (f.md3 % 2) with
      | some t => .ok (.andL f.guardL t f.vd f.va f.vb)
      | _ => .error .reservedCode)
    else if f.md3 / 2 == 1 then (match Wd.ofCode (f.md3 % 2) with
      | some t => .ok (.orL f.guardL t f.vd f.va f.vb)
      | _ => .error .reservedCode)
    else if f.md3 / 2 == 2 then (match Wd.ofCode (f.md3 % 2) with
      | some t => .ok (.xorL f.guardL t f.vd f.va f.vb)
      | _ => .error .reservedCode)
    else .error .reservedField
  | 6 =>
    if decide (f.md3 < 2) then (match Wd.ofCode f.md3 with
      | some t => .ok (.shl f.guardL t f.vd f.va f.vb)
      | _ => .error .reservedCode)
    else if decide (2 ≤ f.md3) then (match IntT.ofShrCode (f.md3 - 2) with
      | some t => .ok (.shr f.guardL t f.vd f.va f.vb)
      | _ => .error .reservedCode)
    else .error .reservedField
  | 7 =>
    if decide (f.md3 < 2) then .ok (.bfe f.guardL (f.md3 == 1) f.vd f.va f.vb)
    else if f.md3 == 2 then .ok (.bfi f.guardL f.vd f.va f.vb)
    else .error .reservedField
  | 8 =>
    if f.md3 / 2 == 0 && f.vb == 0 then (match Wd.ofCode (f.md3 % 2) with
      | some t => .ok (.popc f.guardL t f.vd f.va)
      | _ => .error .reservedCode)
    else if f.md3 / 2 == 1 && f.vb == 0 then (match Wd.ofCode (f.md3 % 2) with
      | some t => .ok (.clz f.guardL t f.vd f.va)
      | _ => .error .reservedCode)
    else .error .reservedField
  | 9 =>
    if f.md3 / 4 == 0 then (match IntT.ofCode (f.md3 % 4) with
      | some t => .ok (.minL f.guardL t f.vd f.va f.vb)
      | _ => .error .reservedCode)
    else if f.md3 / 4 == 1 then (match IntT.ofCode (f.md3 % 4) with
      | some t => .ok (.maxL f.guardL t f.vd f.va f.vb)
      | _ => .error .reservedCode)
    else .error .reservedField
  | 10 =>
    if f.vb == 0 then (match Wd.ofCode f.md3 with
      | some t => .ok (.abs f.guardL t f.vd f.va)
      | _ => .error .reservedCode)
    else .error .reservedField
  | 11 => (match Wd.ofCode f.md3 with | some t => .ok (.sel f.guardL t f.vd f.va f.vb) | _ => .error .reservedCode)
  | 12 =>
    if decide (f.md3 < 4) then (match Cond.ofCode (f.vd.toNat / 8), IntT.ofCode f.md3 with
      | some c, some t => .ok (.cmp f.guardL c t (lo3 f.vd) f.va f.vb)
      | _, _ => .error .reservedCode)
    else if decide (4 ≤ f.md3) then (match Cond.ofCode (f.vd.toNat / 8), Fmt.ofCode (f.md3 - 4) with
      | some c, some t => .ok (.fcmp f.guardL c t (lo3 f.vd) f.va f.vb)
      | _, _ => .error .reservedCode)
    else .error .reservedField
  | 13 =>
    if decide (f.md3 < 2) && f.vb == 0 then (match Wd.ofCode f.md3 with
      | some t => .ok (.movUniform f.guardL t f.vd f.va)
      | _ => .error .reservedCode)
    else if f.md3 == 2 && f.vb == 0 && f.va == 0 then .ok (.movLane f.guardL f.vd)
    else .error .reservedField
  | 14 => (match Fmt.ofCode f.md3 with | some t => .ok (.fadd f.guardL t f.vd f.va f.vb) | _ => .error .reservedCode)
  | 15 => (match Fmt.ofCode f.md3 with | some t => .ok (.fsub f.guardL t f.vd f.va f.vb) | _ => .error .reservedCode)
  | 16 => (match Fmt.ofCode f.md3 with | some t => .ok (.fmul f.guardL t f.vd f.va f.vb) | _ => .error .reservedCode)
  | 17 =>
    if f.md3 / 2 == 0 then (match Fmt.ofCode (f.md3 % 2) with
      | some t => .ok (.fmin f.guardL t f.vd f.va f.vb)
      | _ => .error .reservedCode)
    else if f.md3 / 2 == 1 then (match Fmt.ofCode (f.md3 % 2) with
      | some t => .ok (.fmax f.guardL t f.vd f.va f.vb)
      | _ => .error .reservedCode)
    else .error .reservedField
  | 18 =>
    if f.vb == 0 then (match Fmt.ofCode f.md3 with
      | some t => .ok (.fclass f.guardL t f.vd f.va)
      | _ => .error .reservedCode)
    else .error .reservedField
  | 19 =>
    if f.md3 == 0 && f.vb == 0 then .ok (.rcp f.guardL f.vd f.va)
    else if f.md3 == 1 && f.vb == 0 then .ok (.rsq f.guardL f.vd f.va)
    else if f.md3 == 2 && f.vb == 0 then .ok (.exp2 f.guardL f.vd f.va)
    else if f.md3 == 3 && f.vb == 0 then .ok (.log2 f.guardL f.vd f.va)
    else if f.md3 == 4 && f.vb == 0 then .ok (.sin f.guardL f.vd f.va)
    else if f.md3 == 5 && f.vb == 0 then .ok (.cos f.guardL f.vd f.va)
    else if f.md3 == 6 then .ok (.ddiv f.guardL f.vd f.va f.vb)
    else if f.md3 == 7 && f.vb == 0 then .ok (.dsqrt f.guardL f.vd f.va)
    else .error .reservedField
  | 20 => (match RmSel.ofCode f.md3, CvtT.ofCode (f.vb.toNat / 8), CvtT.ofCode (f.vb.toNat % 8) with
      | some rm, some td, some ts => .ok (.cvt f.guardL rm td ts f.vd f.va)
      | _, _, _ => .error .reservedCode)
  | 21 =>
    if decide (f.md3 < 2) && f.vb.getLsbD 3 == false then .ok (.narrow f.guardL (f.md3 == 1) (Q8.ofBool (f.vb.getLsbD 5)) (f.vb.getLsbD 4) (lo3 f.vb) f.vd f.va)
    else .error .reservedField
  | 22 =>
    if f.md3 == 0 && f.vb.getLsbD 3 == false && f.vb.getLsbD 4 == false then .ok (.widen f.guardL (Q8.ofBool (f.vb.getLsbD 5)) (lo3 f.vb) f.vd f.va)
    else .error .reservedField
  | 23 =>
    if f.md3 % 4 == 0 then (match Wd.ofCode (f.md3 / 4) with
      | some t => .ok (.shflFwd f.guardL t f.vd f.va f.vb)
      | _ => .error .reservedCode)
    else if f.md3 % 4 == 1 then (match Wd.ofCode (f.md3 / 4) with
      | some t => .ok (.shflBack f.guardL t f.vd f.va f.vb)
      | _ => .error .reservedCode)
    else if f.md3 % 4 == 2 then (match Wd.ofCode (f.md3 / 4) with
      | some t => .ok (.shflSwap f.guardL t f.vd f.va f.vb)
      | _ => .error .reservedCode)
    else if f.md3 % 4 == 3 then (match Wd.ofCode (f.md3 / 4) with
      | some t => .ok (.shflFrom f.guardL t f.vd f.va f.vb)
      | _ => .error .reservedCode)
    else .error .reservedField
  | 24 =>
    if f.md3 % 4 == 0 then (match Wd.ofCode (f.md3 / 4) with
      | some t => .ok (.bcast f.guardL t f.vd f.va f.vb)
      | _ => .error .reservedCode)
    else if f.md3 % 4 == 1 && f.vb == 0 then (match Wd.ofCode (f.md3 / 4) with
      | some t => .ok (.bcastLow f.guardL t f.vd f.va)
      | _ => .error .reservedCode)
    else .error .reservedField
  | 25 =>
    if f.md3 == 0 && f.vb == 0 && f.va.getLsbD 4 == false && f.va.getLsbD 5 == false then .ok (.voteCount f.guardL f.vd (lo3 f.va) (f.va.getLsbD 3))
    else if f.md3 == 1 && f.vb == 0 && f.va.getLsbD 4 == false && f.va.getLsbD 5 == false then .ok (.voteRank f.guardL f.vd (lo3 f.va) (f.va.getLsbD 3))
    else if f.md3 == 2 && decide (f.vd.toNat < 8) && f.va.getLsbD 4 == false && f.va.getLsbD 5 == false then .ok (.voteAtleast f.guardL (lo3 f.vd) (lo3 f.va) (f.va.getLsbD 3) f.vb)
    else if f.md3 == 3 && f.vb == 0 && decide (f.vd.toNat < 8) && f.va.getLsbD 4 == false && f.va.getLsbD 5 == false then .ok (.voteEvery f.guardL (lo3 f.vd) (lo3 f.va) (f.va.getLsbD 3))
    else if f.md3 == 4 && f.vb == 0 && decide (f.vd.toNat < 8) && f.va.getLsbD 4 == false && f.va.getLsbD 5 == false then .ok (.voteAgree f.guardL (lo3 f.vd) (lo3 f.va) (f.va.getLsbD 3))
    else if f.md3 == 5 && f.vb == 0 && f.va.getLsbD 4 == false && f.va.getLsbD 5 == false then .ok (.voteMask f.guardL f.vd (lo3 f.va) (f.va.getLsbD 3))
    else .error .reservedField
  | 26 =>
    if f.vb == 0 then (match RedOp.ofCode f.md3 with
      | some op => .ok (.lred f.guardL op f.vd f.va)
      | _ => .error .reservedCode)
    else .error .reservedField
  | 27 =>
    if f.md3 == 0 then .ok (.sadd f.guardL f.vd f.va f.vb)
    else if f.md3 == 1 then .ok (.ssub f.guardL f.vd f.va f.vb)
    else .error .reservedField
  | 28 =>
    if f.md3 / 2 == 0 then .ok (.sshl f.guardL (f.md3 % 2 == 1) f.vd f.va f.vb)
    else if f.md3 / 2 == 1 then .ok (.sshrI f.guardL (f.md3 % 2 == 1) f.vd f.va f.vb)
    else if f.md3 / 2 == 2 then .ok (.sshrN f.guardL (f.md3 % 2 == 1) f.vd f.va f.vb)
    else .error .reservedField
  | 29 => if f.md3 == 0 && f.vb == 0 then .ok (.sneg f.guardL f.vd f.va) else .error .reservedField
  | 30 =>
    if f.md3 == 0 then (match Cond.ofCode (f.vd.toNat / 8) with
      | some c => .ok (.scmp f.guardL c (lo3 f.vd) f.va f.vb)
      | _ => .error .reservedCode)
    else .error .reservedField
  | 31 => if decide (f.md3 < 2) then .ok (.smac f.guardL (f.md3 == 1) f.vd f.va f.vb) else .error .reservedField
  | 32 =>
    if decide (f.md3 % 2 = 1) || f.vb == 0 then (match FxOp.ofCode f.md3 with
      | some op => .ok (.fxacc f.guardL op f.vd f.va f.vb)
      | _ => .error .reservedCode)
    else .error .reservedField
  | 33 =>
    if f.md3 == 0 && f.vb == 0 && decide (f.vd.toNat < 8) then .ok (.fxsign f.guardL (lo3 f.vd) f.va)
    else .error .reservedField
  | 34 =>
    if f.vb == 0 then (match RmSel.ofCode f.md3 with
      | some rm => .ok (.fxcvt f.guardL rm f.vd f.va)
      | _ => .error .reservedCode)
    else .error .reservedField
  | 35 => .ok (.addImm f.guardL f.vd f.va f.imm9)
  | 36 => .ok (.andImm f.guardL f.vd f.va f.imm9)
  | 37 => .ok (.orImm f.guardL f.vd f.va f.imm9)
  | 38 => .ok (.xorImm f.guardL f.vd f.va f.imm9)
  | 39 =>
    if f.imm9.toNat / 32 == 0 then .ok (.shlImm f.guardL f.vd f.va (BitVec.ofNat 5 f.imm9.toNat))
    else if f.imm9.toNat / 32 == 1 || f.imm9.toNat / 32 == 2 then .ok (.shrImm f.guardL (f.imm9.toNat / 32 == 2) f.vd f.va (BitVec.ofNat 5 f.imm9.toNat))
    else .error .reservedField
  | 40 => if f.va == 0 then .ok (.movImm f.guardL f.vd f.imm9) else .error .reservedField
  | 41 => .ok (.fmaF32 f.n4 f.vd4 f.va4 f.vb4 f.vc4)
  | 42 => .ok (.fmaF64 f.n4 f.vd4 f.va4 f.vb4 f.vc4)
  | 43 => .ok (.madwI32 f.n4 f.vd4 f.va4 f.vb4 f.vc4)
  | 44 => .ok (.madwN32 f.n4 f.vd4 f.va4 f.vb4 f.vc4)
  | 45 => .ok (.ldI8 f.guardL f.vd f.va f.ab f.imm6)
  | 46 => .ok (.ldN8 f.guardL f.vd f.va f.ab f.imm6)
  | 47 => .ok (.ldI16 f.guardL f.vd f.va f.ab f.imm6)
  | 48 => .ok (.ldN16 f.guardL f.vd f.va f.ab f.imm6)
  | 49 => .ok (.ldB32 f.guardL f.vd f.va f.ab f.imm6)
  | 50 => .ok (.ldB64 f.guardL f.vd f.va f.ab f.imm6)
  | 51 => .ok (.ldB128 f.guardL f.vd f.va f.ab f.imm6)
  | 52 => .ok (.stN8 f.guardL f.vd f.va f.ab f.imm6)
  | 53 => .ok (.stN16 f.guardL f.vd f.va f.ab f.imm6)
  | 54 => .ok (.stB32 f.guardL f.vd f.va f.ab f.imm6)
  | 55 => .ok (.stB64 f.guardL f.vd f.va f.ab f.imm6)
  | 56 => .ok (.stB128 f.guardL f.vd f.va f.ab f.imm6)
  | 57 => (match PrefLv.ofCode f.vd.toNat with
      | some lv => .ok (.pref f.guardL lv f.va f.ab f.imm6)
      | _ => .error .reservedCode)
  | 58 => (match AtomOp.ofCode (f.imm6.toNat / 4), AtomOrd.ofCode (f.imm6.toNat % 4) with
      | some op, some ord => .ok (.atomB32Die f.guardL op ord f.vd f.va f.ab)
      | _, _ => .error .reservedCode)
  | 59 => (match AtomOp.ofCode (f.imm6.toNat / 4), AtomOrd.ofCode (f.imm6.toNat % 4) with
      | some op, some ord => .ok (.atomB32Dev f.guardL op ord f.vd f.va f.ab)
      | _, _ => .error .reservedCode)
  | 60 => (match AtomOp.ofCode (f.imm6.toNat / 4), AtomOrd.ofCode (f.imm6.toNat % 4) with
      | some op, some ord => .ok (.atomB32Sys f.guardL op ord f.vd f.va f.ab)
      | _, _ => .error .reservedCode)
  | 61 => (match AtomOp.ofCode (f.imm6.toNat / 4), AtomOrd.ofCode (f.imm6.toNat % 4) with
      | some op, some ord => .ok (.atomB64Die f.guardL op ord f.vd f.va f.ab)
      | _, _ => .error .reservedCode)
  | 62 => (match AtomOp.ofCode (f.imm6.toNat / 4), AtomOrd.ofCode (f.imm6.toNat % 4) with
      | some op, some ord => .ok (.atomB64Dev f.guardL op ord f.vd f.va f.ab)
      | _, _ => .error .reservedCode)
  | 63 => (match AtomOp.ofCode (f.imm6.toNat / 4), AtomOrd.ofCode (f.imm6.toNat % 4) with
      | some op, some ord => .ok (.atomB64Sys f.guardL op ord f.vd f.va f.ab)
      | _, _ => .error .reservedCode)
  | _ => .error .unassigned

/-- A uniform word (bit 31 set), by the uniform opcode map (R24) and the stream range (R27). -/
def decodeUniform (f : Fields) : Except DecodeError Instr :=
  match f.opcU with
  | 0 => .ok (.clause f.wait12 f.fa4 f.fb4 f.len4)
  | 1 => (match Wd.ofCode f.md2 with | some t => .ok (.uadd f.guardU t f.sd f.sa f.sb) | _ => .error .reservedCode)
  | 2 => (match Wd.ofCode f.md2 with | some t => .ok (.usub f.guardU t f.sd f.sa f.sb) | _ => .error .reservedCode)
  | 3 => .ok (.uaddImm f.guardU f.sd f.sa f.imm8)
  | 4 =>
    if decide (f.md2 < 2) then (match Wd.ofCode f.md2 with
      | some t => .ok (.umul f.guardU t f.sd f.sa f.sb)
      | _ => .error .reservedCode)
    else if decide (2 ≤ f.md2) then .ok (.umulh f.guardU (f.md2 == 2) f.sd f.sa f.sb)
    else .error .reservedField
  | 5 => (match Wd.ofCode f.md2 with | some t => .ok (.uand f.guardU t f.sd f.sa f.sb) | _ => .error .reservedCode)
  | 6 => (match Wd.ofCode f.md2 with | some t => .ok (.uor f.guardU t f.sd f.sa f.sb) | _ => .error .reservedCode)
  | 7 => (match Wd.ofCode f.md2 with | some t => .ok (.uxor f.guardU t f.sd f.sa f.sb) | _ => .error .reservedCode)
  | 8 => (match Wd.ofCode f.md2 with | some t => .ok (.ushl f.guardU t f.sd f.sa f.sb) | _ => .error .reservedCode)
  | 9 => (match IntT.ofShrCode f.md2 with
      | some t => .ok (.ushr f.guardU t f.sd f.sa f.sb)
      | _ => .error .reservedCode)
  | 10 => (match IntT.ofCode f.md2 with | some t => .ok (.umin f.guardU t f.sd f.sa f.sb) | _ => .error .reservedCode)
  | 11 => (match IntT.ofCode f.md2 with | some t => .ok (.umax f.guardU t f.sd f.sa f.sb) | _ => .error .reservedCode)
  | 12 => (match Cond.ofCode (f.sd.toNat / 8), IntT.ofCode f.md2 with
      | some c, some t => .ok (.ucmp f.guardU c t (lo3 f.sd) f.sa f.sb)
      | _, _ => .error .reservedCode)
  | 13 => (match Wd.ofCode f.md2 with | some t => .ok (.usel f.guardU t f.sd f.sa f.sb) | _ => .error .reservedCode)
  | 14 => .ok (.uandImm f.guardU f.sd f.sa f.imm8)
  | 15 => .ok (.uorImm f.guardU f.sd f.sa f.imm8)
  | 16 => .ok (.uxorImm f.guardU f.sd f.sa f.imm8)
  | 17 =>
    if f.imm8.toNat / 32 == 0 then .ok (.ushlImm f.guardU f.sd f.sa (BitVec.ofNat 5 f.imm8.toNat))
    else if f.imm8.toNat / 32 == 1 || f.imm8.toNat / 32 == 2 then .ok (.ushrImm f.guardU (f.imm8.toNat / 32 == 2) f.sd f.sa (BitVec.ofNat 5 f.imm8.toNat))
    else .error .reservedField
  | 18 => .ok (.umovi f.sdW f.imm18)
  | 19 => .ok (.ului f.sdW f.imm18)
  | 20 => if f.sa == 0 then .ok (.usr f.guardU f.sd f.imm8) else .error .reservedField
  | 21 => if f.sd == 0 then .ok (.usw f.guardU f.imm8 f.sa) else .error .reservedField
  | 22 => .ok (.uldB32 f.guardU f.sd f.sa f.imm8)
  | 23 => .ok (.uldB64 f.guardU f.sd f.sa f.imm8)
  | 24 => .ok (.ustB32 f.guardU f.sd f.sa f.imm8)
  | 25 => .ok (.ustB64 f.guardU f.sd f.sa f.imm8)
  | 26 => (match AtomOp.ofCode (f.imm8.toNat / 16), AtomScope.ofCode (f.imm8.toNat / 4 % 4), AtomOrd.ofCode (f.imm8.toNat % 4) with
      | some op, some scope, some ord => .ok (.uatomB32 f.guardU op scope ord f.sd f.sa)
      | _, _, _ => .error .reservedCode)
  | 27 => (match AtomOp.ofCode (f.imm8.toNat / 16), AtomScope.ofCode (f.imm8.toNat / 4 % 4), AtomOrd.ofCode (f.imm8.toNat % 4) with
      | some op, some scope, some ord => .ok (.uatomB64 f.guardU op scope ord f.sd f.sa)
      | _, _, _ => .error .reservedCode)
  | 28 =>
    if decide (f.imm8.toNat < 32) && f.sd == 0 && f.sa == 0 then (match FenceOrd.ofCode (f.imm8.toNat / 8), FenceScope.ofCode (f.imm8.toNat % 8) with
      | some ord, some scope => .ok (.fence f.guardU ord scope)
      | _, _ => .error .reservedCode)
    else .error .reservedField
  | 29 =>
    if decide (f.imm8.toNat < 8) && f.sd == 0 && f.sa == 0 then .ok (.stitch f.guardU (f.imm8.getLsbD 2) (BitVec.ofNat 2 f.imm8.toNat))
    else .error .reservedField
  | 30 =>
    if f.sd == 0 && f.sa == 0 && f.sb == 0 && f.md2 == 0 then .ok (.unstitch f.guardU)
    else .error .reservedField
  | 38 => .ok (.brl f.guardU f.tgt12 f.join8)
  | 39 => if f.sd == 0 && f.sb == 0 && f.md2 == 0 then .ok (.jmpi f.guardU f.sa) else .error .reservedField
  | 40 => if f.sd == 0 then .ok (.jmpl f.guardU f.sa f.imm8) else .error .reservedField
  | 41 => if f.sd == 0 && f.sb == 0 && f.md2 == 0 then .ok (.ret f.guardU f.sa) else .error .reservedField
  | 42 => if f.sd == 0 then .ok (.loop f.guardU f.sa f.imm8) else .error .reservedField
  | 43 => if f.sd == 0 && f.sa == 0 && f.sb == 0 && f.md2 == 0 then .ok (.lbrk f.guardU) else .error .reservedField
  | 44 => if f.sd == 0 && f.sa == 0 && f.sb == 0 && f.md2 == 0 then .ok (.exit f.guardU) else .error .reservedField
  | 45 => if f.sd == 0 && f.sa == 0 then .ok (.trap f.guardU f.imm8) else .error .reservedField
  | 46 =>
    if f.sd == 0 && f.sa == 0 && f.imm8 == 0 then .ok (.resume f.guardU)
    else if f.sd == 0 && f.sa == 0 && f.imm8 == 1 then .ok (.resumeSkip f.guardU)
    else .error .reservedField
  | 47 => if f.sd == 0 && f.sa == 0 && f.sb == 0 && f.md2 == 0 then .ok (.yieldQ f.guardU) else .error .reservedField
  | 48 => if f.sd == 0 && f.sb == 0 && f.md2 == 0 then .ok (.twait f.guardU f.sa) else .error .reservedField
  | 49 => if f.sd == 0 && f.sa == 0 && f.sb == 0 && f.md2 == 0 then .ok (.nop f.guardU) else .error .reservedField
  | 50 =>
    if decide (f.imm8.toNat < 32) && f.sd == 0 && (f.imm8.getLsbD 4 || f.sa == 0) then .ok (.barw f.guardU (BitVec.ofNat 4 f.imm8.toNat) (f.imm8.getLsbD 4) f.sa)
    else .error .reservedField
  | 51 =>
    if decide (f.imm8.toNat < 32) && f.sd == 0 && (f.imm8.getLsbD 4 || f.sa == 0) then .ok (.bara f.guardU (BitVec.ofNat 4 f.imm8.toNat) (f.imm8.getLsbD 4) f.sa)
    else .error .reservedField
  | 52 =>
    if f.sd == 0 && f.sa == 0 && f.sb == 0 then (match ForkSel.ofCode f.md2 with
      | some which => .ok (.fork f.guardU which)
      | _ => .error .reservedCode)
    else .error .reservedField
  | 53 => if f.sd == 0 && f.sa == 0 && f.sb == 0 && f.md2 == 0 then .ok (.rendez f.guardU) else .error .reservedField
  | 54 =>
    if decide (f.sd.toNat < 8) && f.sb == 0 then (match RotB.ofCode f.md2 with
      | some b => .ok (.seed f.guardU b (lo3 f.sd) f.sa)
      | _ => .error .reservedCode)
    else .error .reservedField
  | 55 =>
    if f.sd.getLsbD 5 == false && f.md2 == 0 then .ok (.thbind f.guardU (BitVec.ofNat 5 f.sd.toNat) f.sa f.sb)
    else if f.sd.getLsbD 5 == true && f.md2 == 0 then .ok (.thbindT f.guardU (BitVec.ofNat 5 f.sd.toNat) f.sa f.sb)
    else .error .reservedField
  | 56 =>
    if f.sd.getLsbD 5 == false && f.md2 == 0 then .ok (.rkinit f.guardU (BitVec.ofNat 5 f.sd.toNat) f.sa f.sb)
    else .error .reservedField
  | 57 =>
    if f.sd.getLsbD 5 == false && f.sa.getLsbD 5 == false && f.md2 == 0 then .ok (.cpy f.guardU (BitVec.ofNat 5 f.sd.toNat) (BitVec.ofNat 5 f.sa.toNat) f.sb)
    else if f.sd.getLsbD 5 == true && f.sa.getLsbD 5 == false && f.md2 == 0 then .ok (.cpySeal f.guardU (BitVec.ofNat 5 f.sd.toNat) (BitVec.ofNat 5 f.sa.toNat) f.sb)
    else .error .reservedField
  | 58 =>
    if f.sd.getLsbD 5 == false && f.sb == 0 && f.md2 == 0 then .ok (.awaitf f.guardU (BitVec.ofNat 5 f.sd.toNat) f.sa)
    else .error .reservedField
  | 59 =>
    if f.sd.getLsbD 5 == false && f.sa == 0 && f.sb == 0 && f.md2 == 0 then .ok (.relslot f.guardU (BitVec.ofNat 5 f.sd.toNat))
    else .error .reservedField
  | 60 =>
    if decide (f.sb.toNat < 8) && f.md2 == 0 then .ok (.acalloc f.guardU f.sd f.sa (lo3 f.sb))
    else .error .reservedField
  | 61 => if f.sd == 0 && f.md2 == 0 then .ok (.acfree f.guardU f.sa f.sb) else .error .reservedField
  | 62 => if f.md2 == 0 then .ok (.acrd f.guardU f.sd f.sa f.sb) else .error .reservedField
  | 63 => if f.sd == 0 && f.md2 == 0 then .ok (.acwr f.guardU f.sa f.sb) else .error .reservedField
  | 64 => if f.sd == 0 && f.sb == 0 && f.md2 == 0 then .ok (.aczero f.guardU f.sa) else .error .reservedField
  | 65 =>
    if decide (f.sb.toNat < 8) && f.md2 == 0 then .ok (.halloc f.guardU f.sd f.sa (lo3 f.sb))
    else if decide (f.sb.toNat < 8) && f.md2 == 1 then .ok (.hallocF f.guardU f.sd f.sa (lo3 f.sb))
    else .error .reservedField
  | 66 => if f.sd == 0 && f.sb == 0 && f.md2 == 0 then .ok (.hfree f.guardU f.sa) else .error .reservedField
  | 67 =>
    if decide (f.sb.toNat < 8) && f.md2 == 0 then .ok (.grow f.guardU f.sd f.sa (lo3 f.sb))
    else .error .reservedField
  | 68 => if f.sb == 0 && f.md2 == 0 then .ok (.spawn f.guardU f.sd f.sa) else .error .reservedField
  | 69 =>
    if f.sa == 0 && decide (f.sb.toNat < 8) && f.md2 == 0 then .ok (.pktrx f.guardU f.sd (lo3 f.sb))
    else .error .reservedField
  | 70 => if f.md2 == 0 then .ok (.fwd f.guardU f.sd f.sa f.sb) else .error .reservedField
  | 71 =>
    if f.sd == 0 && f.sa == 0 && decide (f.sb.toNat < 8) && f.md2 == 0 then .ok (.tbarrive f.guardU (lo3 f.sb))
    else .error .reservedField
  | 72 =>
    if f.sa == 0 && decide (f.sb.toNat < 8) && f.md2 == 0 then .ok (.tbarwait f.guardU f.sd (lo3 f.sb))
    else .error .reservedField
  | 73 =>
    if f.sa == 0 && decide (f.sb.toNat < 8) && f.md2 == 0 then .ok (.tbarst f.guardU f.sd (lo3 f.sb))
    else .error .reservedField
  | 74 => if f.md2 == 0 then .ok (.blt f.guardU f.sd f.sa f.sb) else .error .reservedField
  | 75 => if f.sb == 0 && f.md2 == 0 then .ok (.cntr f.guardU f.sd f.sa) else .error .reservedField
  | 76 => if f.sb == 0 && f.md2 == 0 then .ok (.snap f.guardU f.sd f.sa) else .error .reservedField
  | 77 =>
    if f.sd == 0 && f.md2 == 0 then .ok (.skincPc f.guardU f.sa f.sb)
    else if f.sd == 1 && f.md2 == 0 then .ok (.skincKn f.guardU f.sa f.sb)
    else .error .reservedField
  | 80 =>
    if decide (f.sb.toNat < 4) && f.md2 == 0 then .ok (.tkload f.guardU f.sd f.sa (BitVec.ofNat 2 f.sb.toNat))
    else .error .reservedField
  | 81 =>
    if f.sa == 0 && f.sb.toNat / 4 == 0 && f.md2 == 0 then .ok (.tkarm f.guardU f.sd (BitVec.ofNat 2 f.sb.toNat))
    else if f.sa == 0 && f.sb.toNat / 4 == 1 && f.md2 == 0 then .ok (.tkarmP f.guardU f.sd (BitVec.ofNat 2 f.sb.toNat))
    else .error .reservedField
  | 82 =>
    if f.sd == 0 && f.sa == 0 && decide (f.sb.toNat < 4) && f.md2 == 0 then .ok (.tkdisarm f.guardU (BitVec.ofNat 2 f.sb.toNat))
    else .error .reservedField
  | 83 =>
    if f.sa == 0 && decide (f.sb.toNat < 16) && f.md2 == 0 then .ok (.tkstat f.guardU f.sd (BitVec.ofNat 2 f.sb.toNat) (BitVec.ofNat 2 (f.sb.toNat / 4)))
    else .error .reservedField
  | 84 =>
    if f.sa == 0 && f.sb.toNat / 4 == 0 && f.md2 == 0 then .ok (.tkpoll f.guardU f.sd (BitVec.ofNat 2 f.sb.toNat))
    else if f.sa == 0 && f.sb.toNat / 4 == 1 && f.md2 == 0 then .ok (.tkpollC f.guardU f.sd (BitVec.ofNat 2 f.sb.toNat))
    else .error .reservedField
  | 85 => if f.sd == 0 && f.sb == 0 && f.md2 == 0 then .ok (.tkemit f.guardU f.sa) else .error .reservedField
  | 88 => .ok (.syscall f.guardU f.sd f.sa f.imm8)
  | 32 => .ok (.br f.guardU f.off21)
  | 33 => .ok (.br f.guardU f.off21)
  | 34 => if f.guardU == Guard.always then .ok (.jmp f.off21) else .error .reservedField
  | 35 => if f.guardU == Guard.always then .ok (.jmp f.off21) else .error .reservedField
  | 36 => .ok (.call f.guardU f.off21)
  | 37 => .ok (.call f.guardU f.off21)
  | 96 =>
    if f.h == 0 && f.gr == 0 && f.x == 0 && f.y == 0 then (match Shape.ofCode f.z.toNat with
      | some shape => .ok (.mcfg shape)
      | _ => .error .reservedCode)
    else .error .reservedField
  | 97 => if f.gr == 0 && f.x == 0 && f.z == 0 then .ok (.mwload f.h f.y) else .error .reservedField
  | 98 =>
    if f.z.getLsbD 1 == false then (match MFmt.ofCode (f.z.toNat / 4) with
      | some fmt => .ok (.mmul f.h f.gr f.x f.y fmt (f.z.getLsbD 0))
      | _ => .error .reservedCode)
    else .error .reservedField
  | 99 => .ok (.mstore f.h f.gr f.x (fld6 (16 * f.y.toNat + f.z.toNat)))
  | 100 => if f.low11 == 0 then .ok (.mbarw f.nb4 f.e9) else .error .reservedField
  | 101 => if f.low11 == 0 then .ok (.mbara f.nb4 f.e9) else .error .reservedField
  | 102 => if f.pay == 0 then .ok (.mend) else .error .reservedField
  | 104 =>
    if f.y == 0 && f.z == 0 then .ok (.ccpyPlain f.h f.gr f.x)
    else if f.y == 1 && f.z.getLsbD 0 == false then .ok (.ccpyCvt f.h f.gr f.x (BitVec.ofNat 3 (f.z.toNat / 2)))
    else .error .reservedField
  | 105 =>
    if f.low11 == 0 then .ok (.cbar f.nb4 f.e9)
    else if f.low11 == 1024 then .ok (.cbarW f.nb4 f.e9)
    else .error .reservedField
  | 106 => if f.pay == 0 then .ok (.cend) else .error .reservedField
  | _ => .error .unassigned

/-- The instruction that a word is, or why it is none (R28). -/
def decodeWord (w : Word) : Except DecodeError Instr :=
  if w.toNat / 2 ^ 31 = 0 then decodeLane ⟨w⟩ else decodeUniform ⟨w⟩

/-- The word that four bytes hold, the first at the lowest address (R10). -/
def wordOfBytes (b0 b1 b2 b3 : Byte) : Word :=
  BitVec.ofNat 32 (b0.toNat + 256 * b1.toNat + 65536 * b2.toNat + 16777216 * b3.toNat)

/-- The instruction that the decoder reads from a word numbered as the opcode table numbers it: the word is stored
little-endian at the fetch address (R10), so bit 0 of the table is bit 0 of the word. Every Lyrov word has 32 bits. -/
def decodeTableWord (nbits w : Nat) : Option Instr :=
  let v := w % 2 ^ nbits
  match decodeWord (wordOfBytes (BitVec.ofNat 8 v) (BitVec.ofNat 8 (v / 256)) (BitVec.ofNat 8 (v / 65536))
      (BitVec.ofNat 8 (v / 16777216))) with
  | .ok i => some i
  | .error _ => none

/-! The encoder: one packer per format (R11, R12, R244). -/

def packL3 (opc : Nat) (pg : BitVec 3) (neg : Bool) (vd va vb : Reg) (md : Nat) : Word :=
  BitVec.ofNat 32 (opc * 2 ^ 25 + pg.toNat * 2 ^ 22 + neg.toNat * 2 ^ 21 + vd.toNat * 2 ^ 15 + va.toNat * 2 ^ 9
    + vb.toNat * 2 ^ 3 + md)
def packLI (opc : Nat) (pg : BitVec 3) (neg : Bool) (vd va : Reg) (imm : BitVec 9) : Word :=
  BitVec.ofNat 32 (opc * 2 ^ 25 + pg.toNat * 2 ^ 22 + neg.toNat * 2 ^ 21 + vd.toNat * 2 ^ 15 + va.toNat * 2 ^ 9
    + imm.toNat)
def packLM (opc : Nat) (pg : BitVec 3) (neg : Bool) (vd va : Reg) (ab : BitVec 3) (imm : BitVec 6) : Word :=
  BitVec.ofNat 32 (opc * 2 ^ 25 + pg.toNat * 2 ^ 22 + neg.toNat * 2 ^ 21 + vd.toNat * 2 ^ 15 + va.toNat * 2 ^ 9
    + ab.toNat * 2 ^ 6 + imm.toNat)
def packL4 (opc : Nat) (neg : Bool) (vd va vb vc : Reg) : Word :=
  BitVec.ofNat 32 (opc * 2 ^ 25 + neg.toNat * 2 ^ 24 + vd.toNat * 2 ^ 18 + va.toNat * 2 ^ 12 + vb.toNat * 2 ^ 6
    + vc.toNat)
def packU3 (opc : Nat) (q : BitVec 3) (neg : Bool) (sd sa sb : Reg) (md : Nat) : Word :=
  BitVec.ofNat 32 (2 ^ 31 + opc * 2 ^ 24 + q.toNat * 2 ^ 21 + neg.toNat * 2 ^ 20 + sd.toNat * 2 ^ 14
    + sa.toNat * 2 ^ 8 + sb.toNat * 2 ^ 2 + md)
def packUI (opc : Nat) (q : BitVec 3) (neg : Bool) (sd sa : Reg) (imm : BitVec 8) : Word :=
  BitVec.ofNat 32 (2 ^ 31 + opc * 2 ^ 24 + q.toNat * 2 ^ 21 + neg.toNat * 2 ^ 20 + sd.toNat * 2 ^ 14
    + sa.toNat * 2 ^ 8 + imm.toNat)
def packUW (opc : Nat) (sd : Reg) (imm : BitVec 18) : Word :=
  BitVec.ofNat 32 (2 ^ 31 + opc * 2 ^ 24 + sd.toNat * 2 ^ 18 + imm.toNat)
/-- A UB word: bit 24 is the sign bit of the offset, so opc names the even opcode of the pair (R12). -/
def packUB (opc : Nat) (q : BitVec 3) (neg : Bool) (off : BitVec 21) : Word :=
  BitVec.ofNat 32 (2 ^ 31 + opc * 2 ^ 24 + off.toNat / 2 ^ 20 * 2 ^ 24 + q.toNat * 2 ^ 21 + neg.toNat * 2 ^ 20
    + off.toNat % 2 ^ 20)
def packBRL (opc : Nat) (p : BitVec 3) (neg : Bool) (target : BitVec 12) (join : BitVec 8) : Word :=
  BitVec.ofNat 32 (2 ^ 31 + opc * 2 ^ 24 + p.toNat * 2 ^ 21 + neg.toNat * 2 ^ 20 + target.toNat * 2 ^ 8 + join.toNat)
def packCL (wait : BitVec 12) (fa fb len : BitVec 4) : Word :=
  BitVec.ofNat 32 (2 ^ 31 + wait.toNat * 2 ^ 12 + fa.toNat * 2 ^ 8 + fb.toNat * 2 ^ 4 + len.toNat)
def packST (opc : Nat) (h g : BitVec 5) (x : BitVec 8) (y : BitVec 2) (z : BitVec 4) : Word :=
  BitVec.ofNat 32 (2 ^ 31 + opc * 2 ^ 24 + h.toNat * 2 ^ 19 + g.toNat * 2 ^ 14 + x.toNat * 2 ^ 6 + y.toNat * 2 ^ 4
    + z.toNat)
def packSB (opc : Nat) (nb : BitVec 4) (e : BitVec 9) (low : Nat) : Word :=
  BitVec.ofNat 32 (2 ^ 31 + opc * 2 ^ 24 + nb.toNat * 2 ^ 20 + e.toNat * 2 ^ 11 + low)

/-- The word of an instruction, or none for a step that is no word. -/
def encode (i : Instr) : Option Word :=
  match i with
  | .clause wait fa fb len => some (packCL wait fa fb len)
  | .add g t vd va vb => some (packL3 0 g.p g.neg vd va vb t.code)
  | .sub g t vd va vb => some (packL3 1 g.p g.neg vd va vb t.code)
  | .addc t vd va vb pc => some (packL3 2 pc false vd va vb (0 + t.code))
  | .subb t vd va vb pc => some (packL3 2 pc false vd va vb (2 + t.code))
  | .mul g t vd va vb => some (packL3 3 g.p g.neg vd va vb t.code)
  | .mulh g t vd va vb => some (packL3 3 g.p g.neg vd va vb (t.code + 2))
  | .madc vd va vb pc => some (packL3 4 pc false vd va vb 0)
  | .andL g t vd va vb => some (packL3 5 g.p g.neg vd va vb (0 + t.code))
  | .orL g t vd va vb => some (packL3 5 g.p g.neg vd va vb (2 + t.code))
  | .xorL g t vd va vb => some (packL3 5 g.p g.neg vd va vb (4 + t.code))
  | .shl g t vd va vb => some (packL3 6 g.p g.neg vd va vb t.code)
  | .shr g t vd va vb => some (packL3 6 g.p g.neg vd va vb (t.shrCode + 2))
  | .bfe g signed vd va vb => some (packL3 7 g.p g.neg vd va vb signed.toNat)
  | .bfi g vd va vb => some (packL3 7 g.p g.neg vd va vb 2)
  | .popc g t vd va => some (packL3 8 g.p g.neg vd va 0 (0 + t.code))
  | .clz g t vd va => some (packL3 8 g.p g.neg vd va 0 (2 + t.code))
  | .minL g t vd va vb => some (packL3 9 g.p g.neg vd va vb (0 + t.code))
  | .maxL g t vd va vb => some (packL3 9 g.p g.neg vd va vb (4 + t.code))
  | .abs g t vd va => some (packL3 10 g.p g.neg vd va 0 t.code)
  | .sel ps t vd va vb => some (packL3 11 ps.p ps.neg vd va vb t.code)
  | .cmp g c t pd va vb => some (packL3 12 g.p g.neg (hilo3 c.code pd) va vb t.code)
  | .fcmp g c t pd va vb => some (packL3 12 g.p g.neg (hilo3 c.code pd) va vb (t.code + 4))
  | .movUniform g t vd va => some (packL3 13 g.p g.neg vd va 0 t.code)
  | .movLane g vd => some (packL3 13 g.p g.neg vd 0 0 2)
  | .fadd g t vd va vb => some (packL3 14 g.p g.neg vd va vb t.code)
  | .fsub g t vd va vb => some (packL3 15 g.p g.neg vd va vb t.code)
  | .fmul g t vd va vb => some (packL3 16 g.p g.neg vd va vb t.code)
  | .fmin g t vd va vb => some (packL3 17 g.p g.neg vd va vb (0 + t.code))
  | .fmax g t vd va vb => some (packL3 17 g.p g.neg vd va vb (2 + t.code))
  | .fclass g t vd va => some (packL3 18 g.p g.neg vd va 0 t.code)
  | .rcp g vd va => some (packL3 19 g.p g.neg vd va 0 0)
  | .rsq g vd va => some (packL3 19 g.p g.neg vd va 0 1)
  | .exp2 g vd va => some (packL3 19 g.p g.neg vd va 0 2)
  | .log2 g vd va => some (packL3 19 g.p g.neg vd va 0 3)
  | .sin g vd va => some (packL3 19 g.p g.neg vd va 0 4)
  | .cos g vd va => some (packL3 19 g.p g.neg vd va 0 5)
  | .ddiv g vd va vb => some (packL3 19 g.p g.neg vd va vb 6)
  | .dsqrt g vd va => some (packL3 19 g.p g.neg vd va 0 7)
  | .cvt g rm td ts vd va => some (packL3 20 g.p g.neg vd va (fld6 (8 * td.code + ts.code)) rm.code)
  | .narrow g tr q bf hs vd va => some (packL3 21 g.p g.neg vd va (fld6 (32 * q.code + 16 * bf.toNat + hs.toNat)) tr.toNat)
  | .widen g q hs vd va => some (packL3 22 g.p g.neg vd va (fld6 (32 * q.code + hs.toNat)) 0)
  | .shflFwd g t vd va k => some (packL3 23 g.p g.neg vd va k (0 + 4 * t.code))
  | .shflBack g t vd va k => some (packL3 23 g.p g.neg vd va k (1 + 4 * t.code))
  | .shflSwap g t vd va k => some (packL3 23 g.p g.neg vd va k (2 + 4 * t.code))
  | .shflFrom g t vd va vb => some (packL3 23 g.p g.neg vd va vb (3 + 4 * t.code))
  | .bcast g t vd va n => some (packL3 24 g.p g.neg vd va n (4 * t.code))
  | .bcastLow g t vd va => some (packL3 24 g.p g.neg vd va 0 (1 + 4 * t.code))
  | .voteCount g vd ps inv => some (packL3 25 g.p g.neg vd (fld6 (8 * inv.toNat + ps.toNat)) 0 0)
  | .voteRank g vd ps inv => some (packL3 25 g.p g.neg vd (fld6 (8 * inv.toNat + ps.toNat)) 0 1)
  | .voteAtleast g pd ps inv st => some (packL3 25 g.p g.neg (hilo3 0 pd) (fld6 (8 * inv.toNat + ps.toNat)) st 2)
  | .voteEvery g pd ps inv => some (packL3 25 g.p g.neg (hilo3 0 pd) (fld6 (8 * inv.toNat + ps.toNat)) 0 3)
  | .voteAgree g pd ps inv => some (packL3 25 g.p g.neg (hilo3 0 pd) (fld6 (8 * inv.toNat + ps.toNat)) 0 4)
  | .voteMask g vd ps inv => some (packL3 25 g.p g.neg vd (fld6 (8 * inv.toNat + ps.toNat)) 0 5)
  | .lred g op vd va => some (packL3 26 g.p g.neg vd va 0 op.code)
  | .sadd g vd va vb => some (packL3 27 g.p g.neg vd va vb 0)
  | .ssub g vd va vb => some (packL3 27 g.p g.neg vd va vb 1)
  | .sshl g limb vd va c => some (packL3 28 g.p g.neg vd va c (0 + limb.toNat))
  | .sshrI g limb vd va c => some (packL3 28 g.p g.neg vd va c (2 + limb.toNat))
  | .sshrN g limb vd va c => some (packL3 28 g.p g.neg vd va c (4 + limb.toNat))
  | .sneg g vd va => some (packL3 29 g.p g.neg vd va 0 0)
  | .scmp g c pd va vb => some (packL3 30 g.p g.neg (hilo3 c.code pd) va vb 0)
  | .smac g signed vd va sm => some (packL3 31 g.p g.neg vd va sm signed.toNat)
  | .fxacc g op vd va vb => some (packL3 32 g.p g.neg vd va vb op.code)
  | .fxsign g pd va => some (packL3 33 g.p g.neg (hilo3 0 pd) va 0 0)
  | .fxcvt g rm vd va => some (packL3 34 g.p g.neg vd va 0 rm.code)
  | .addImm g vd va imm => some (packLI 35 g.p g.neg vd va imm)
  | .andImm g vd va imm => some (packLI 36 g.p g.neg vd va imm)
  | .orImm g vd va imm => some (packLI 37 g.p g.neg vd va imm)
  | .xorImm g vd va imm => some (packLI 38 g.p g.neg vd va imm)
  | .shlImm g vd va n => some (packLI 39 g.p g.neg vd va (BitVec.ofNat 9 n.toNat))
  | .shrImm g signed vd va n => some (packLI 39 g.p g.neg vd va (BitVec.ofNat 9 (32 + 32 * signed.toNat + n.toNat)))
  | .movImm g vd imm => some (packLI 40 g.p g.neg vd 0 imm)
  | .fmaF32 neg vd va vb vc => some (packL4 41 neg vd va vb vc)
  | .fmaF64 neg vd va vb vc => some (packL4 42 neg vd va vb vc)
  | .madwI32 neg vd va vb vc => some (packL4 43 neg vd va vb vc)
  | .madwN32 neg vd va vb vc => some (packL4 44 neg vd va vb vc)
  | .ldI8 g vd va ab disp => some (packLM 45 g.p g.neg vd va ab disp)
  | .ldN8 g vd va ab disp => some (packLM 46 g.p g.neg vd va ab disp)
  | .ldI16 g vd va ab disp => some (packLM 47 g.p g.neg vd va ab disp)
  | .ldN16 g vd va ab disp => some (packLM 48 g.p g.neg vd va ab disp)
  | .ldB32 g vd va ab disp => some (packLM 49 g.p g.neg vd va ab disp)
  | .ldB64 g vd va ab disp => some (packLM 50 g.p g.neg vd va ab disp)
  | .ldB128 g vd va ab disp => some (packLM 51 g.p g.neg vd va ab disp)
  | .stN8 g vs va ab disp => some (packLM 52 g.p g.neg vs va ab disp)
  | .stN16 g vs va ab disp => some (packLM 53 g.p g.neg vs va ab disp)
  | .stB32 g vs va ab disp => some (packLM 54 g.p g.neg vs va ab disp)
  | .stB64 g vs va ab disp => some (packLM 55 g.p g.neg vs va ab disp)
  | .stB128 g vs va ab disp => some (packLM 56 g.p g.neg vs va ab disp)
  | .pref g lv va ab disp => some (packLM 57 g.p g.neg (fld6 lv.code) va ab disp)
  | .atomB32Die g op ord vd va ab => some (packLM 58 g.p g.neg vd va ab (fld6 (4 * op.code + ord.code)))
  | .atomB32Dev g op ord vd va ab => some (packLM 59 g.p g.neg vd va ab (fld6 (4 * op.code + ord.code)))
  | .atomB32Sys g op ord vd va ab => some (packLM 60 g.p g.neg vd va ab (fld6 (4 * op.code + ord.code)))
  | .atomB64Die g op ord vd va ab => some (packLM 61 g.p g.neg vd va ab (fld6 (4 * op.code + ord.code)))
  | .atomB64Dev g op ord vd va ab => some (packLM 62 g.p g.neg vd va ab (fld6 (4 * op.code + ord.code)))
  | .atomB64Sys g op ord vd va ab => some (packLM 63 g.p g.neg vd va ab (fld6 (4 * op.code + ord.code)))
  | .uadd g t sd sa sb => some (packU3 1 g.p g.neg sd sa sb t.code)
  | .usub g t sd sa sb => some (packU3 2 g.p g.neg sd sa sb t.code)
  | .uaddImm g sd sa imm => some (packUI 3 g.p g.neg sd sa imm)
  | .umul g t sd sa sb => some (packU3 4 g.p g.neg sd sa sb t.code)
  | .umulh g signed sd sa sb => some (packU3 4 g.p g.neg sd sa sb (3 - signed.toNat))
  | .uand g t sd sa sb => some (packU3 5 g.p g.neg sd sa sb t.code)
  | .uor g t sd sa sb => some (packU3 6 g.p g.neg sd sa sb t.code)
  | .uxor g t sd sa sb => some (packU3 7 g.p g.neg sd sa sb t.code)
  | .ushl g t sd sa sb => some (packU3 8 g.p g.neg sd sa sb t.code)
  | .ushr g t sd sa sb => some (packU3 9 g.p g.neg sd sa sb t.shrCode)
  | .umin g t sd sa sb => some (packU3 10 g.p g.neg sd sa sb t.code)
  | .umax g t sd sa sb => some (packU3 11 g.p g.neg sd sa sb t.code)
  | .ucmp g c t qd sa sb => some (packU3 12 g.p g.neg (hilo3 c.code qd) sa sb t.code)
  | .usel qs t sd sa sb => some (packU3 13 qs.p qs.neg sd sa sb t.code)
  | .uandImm g sd sa imm => some (packUI 14 g.p g.neg sd sa imm)
  | .uorImm g sd sa imm => some (packUI 15 g.p g.neg sd sa imm)
  | .uxorImm g sd sa imm => some (packUI 16 g.p g.neg sd sa imm)
  | .ushlImm g sd sa n => some (packUI 17 g.p g.neg sd sa (BitVec.ofNat 8 n.toNat))
  | .ushrImm g signed sd sa n => some (packUI 17 g.p g.neg sd sa (BitVec.ofNat 8 (32 + 32 * signed.toNat + n.toNat)))
  | .umovi sd imm => some (packUW 18 sd imm)
  | .ului sd imm => some (packUW 19 sd imm)
  | .usr g sd n => some (packUI 20 g.p g.neg sd 0 n)
  | .usw g n sa => some (packUI 21 g.p g.neg 0 sa n)
  | .uldB32 g sd sa imm => some (packUI 22 g.p g.neg sd sa imm)
  | .uldB64 g sd sa imm => some (packUI 23 g.p g.neg sd sa imm)
  | .ustB32 g ss sa imm => some (packUI 24 g.p g.neg ss sa imm)
  | .ustB64 g ss sa imm => some (packUI 25 g.p g.neg ss sa imm)
  | .uatomB32 g op scope ord sd sa => some (packUI 26 g.p g.neg sd sa (BitVec.ofNat 8 (16 * op.code + 4 * scope.code + ord.code)))
  | .uatomB64 g op scope ord sd sa => some (packUI 27 g.p g.neg sd sa (BitVec.ofNat 8 (16 * op.code + 4 * scope.code + ord.code)))
  | .fence g ord scope => some (packUI 28 g.p g.neg 0 0 (BitVec.ofNat 8 (8 * ord.code + scope.code)))
  | .stitch g w64 n => some (packUI 29 g.p g.neg 0 0 (BitVec.ofNat 8 (4 * w64.toNat + n.toNat)))
  | .unstitch g => some (packU3 30 g.p g.neg 0 0 0 0)
  | .br g off => some (packUB 32 g.p g.neg off)
  | .jmp off => some (packUB 34 7 false off)
  | .call g off => some (packUB 36 g.p g.neg off)
  | .brl p target join => some (packBRL 38 p.p p.neg target join)
  | .jmpi g sa => some (packU3 39 g.p g.neg 0 sa 0 0)
  | .jmpl g va join => some (packUI 40 g.p g.neg 0 va join)
  | .ret g sa => some (packU3 41 g.p g.neg 0 sa 0 0)
  | .loop g sa imm => some (packUI 42 g.p g.neg 0 sa imm)
  | .lbrk g => some (packU3 43 g.p g.neg 0 0 0 0)
  | .exit g => some (packU3 44 g.p g.neg 0 0 0 0)
  | .trap g code => some (packUI 45 g.p g.neg 0 0 code)
  | .resume g => some (packUI 46 g.p g.neg 0 0 0)
  | .resumeSkip g => some (packUI 46 g.p g.neg 0 0 1)
  | .yieldQ g => some (packU3 47 g.p g.neg 0 0 0 0)
  | .twait g sa => some (packU3 48 g.p g.neg 0 sa 0 0)
  | .nop g => some (packU3 49 g.p g.neg 0 0 0 0)
  | .barw g nb cnt sa => some (packUI 50 g.p g.neg 0 sa (BitVec.ofNat 8 (16 * cnt.toNat + nb.toNat)))
  | .bara g nb cnt sa => some (packUI 51 g.p g.neg 0 sa (BitVec.ofNat 8 (16 * cnt.toNat + nb.toNat)))
  | .fork g which => some (packU3 52 g.p g.neg 0 0 0 which.code)
  | .rendez g => some (packU3 53 g.p g.neg 0 0 0 0)
  | .seed g b hs sa => some (packU3 54 g.p g.neg (hilo3 0 hs) sa 0 b.code)
  | .thbind g th sa sb => some (packU3 55 g.p g.neg (fld6 (0 + th.toNat)) sa sb 0)
  | .thbindT g th sa sb => some (packU3 55 g.p g.neg (fld6 (32 + th.toNat)) sa sb 0)
  | .rkinit g rk sa sb => some (packU3 56 g.p g.neg (fld6 rk.toNat) sa sb 0)
  | .cpy g rk th sb => some (packU3 57 g.p g.neg (fld6 (0 + rk.toNat)) (fld6 th.toNat) sb 0)
  | .cpySeal g rk th sb => some (packU3 57 g.p g.neg (fld6 (32 + rk.toNat)) (fld6 th.toNat) sb 0)
  | .awaitf g rk sa => some (packU3 58 g.p g.neg (fld6 rk.toNat) sa 0 0)
  | .relslot g rk => some (packU3 59 g.p g.neg (fld6 rk.toNat) 0 0 0)
  | .acalloc g sd sa qd => some (packU3 60 g.p g.neg sd sa (hilo3 0 qd) 0)
  | .acfree g sa sb => some (packU3 61 g.p g.neg 0 sa sb 0)
  | .acrd g sd sa sb => some (packU3 62 g.p g.neg sd sa sb 0)
  | .acwr g sa sb => some (packU3 63 g.p g.neg 0 sa sb 0)
  | .aczero g sa => some (packU3 64 g.p g.neg 0 sa 0 0)
  | .halloc g sd sa qd => some (packU3 65 g.p g.neg sd sa (hilo3 0 qd) 0)
  | .hallocF g sd sa qd => some (packU3 65 g.p g.neg sd sa (hilo3 0 qd) 1)
  | .hfree g sa => some (packU3 66 g.p g.neg 0 sa 0 0)
  | .grow g sd sa qd => some (packU3 67 g.p g.neg sd sa (hilo3 0 qd) 0)
  | .spawn g sd sa => some (packU3 68 g.p g.neg sd sa 0 0)
  | .pktrx g sd qd => some (packU3 69 g.p g.neg sd 0 (hilo3 0 qd) 0)
  | .fwd g sd sa sb => some (packU3 70 g.p g.neg sd sa sb 0)
  | .tbarrive g tb => some (packU3 71 g.p g.neg 0 0 (hilo3 0 tb) 0)
  | .tbarwait g sd tb => some (packU3 72 g.p g.neg sd 0 (hilo3 0 tb) 0)
  | .tbarst g sd tb => some (packU3 73 g.p g.neg sd 0 (hilo3 0 tb) 0)
  | .blt g sd sa sb => some (packU3 74 g.p g.neg sd sa sb 0)
  | .cntr g sd sa => some (packU3 75 g.p g.neg sd sa 0 0)
  | .snap g sd sa => some (packU3 76 g.p g.neg sd sa 0 0)
  | .skincPc g sa sb => some (packU3 77 g.p g.neg 0 sa sb 0)
  | .skincKn g sa sb => some (packU3 77 g.p g.neg 1 sa sb 0)
  | .tkload g sd sa tk => some (packU3 80 g.p g.neg sd sa (fld6 tk.toNat) 0)
  | .tkarm g sd tk => some (packU3 81 g.p g.neg sd 0 (fld6 (0 + tk.toNat)) 0)
  | .tkarmP g sd tk => some (packU3 81 g.p g.neg sd 0 (fld6 (4 + tk.toNat)) 0)
  | .tkdisarm g tk => some (packU3 82 g.p g.neg 0 0 (fld6 tk.toNat) 0)
  | .tkstat g sd tk c => some (packU3 83 g.p g.neg sd 0 (fld6 (4 * c.toNat + tk.toNat)) 0)
  | .tkpoll g sd tk => some (packU3 84 g.p g.neg sd 0 (fld6 (0 + tk.toNat)) 0)
  | .tkpollC g sd tk => some (packU3 84 g.p g.neg sd 0 (fld6 (4 + tk.toNat)) 0)
  | .tkemit g sa => some (packU3 85 g.p g.neg 0 sa 0 0)
  | .syscall g sd sa n => some (packUI 88 g.p g.neg sd sa n)
  | .mcfg shape => some (packST 96 0 0 0 0 (BitVec.ofNat 4 shape.code))
  | .mwload h a => some (packST 97 h 0 0 a 0)
  | .mmul h gr m a fmt ov => some (packST 98 h gr m a (BitVec.ofNat 4 (4 * fmt.code + ov.toNat)))
  | .mstore h gr r c => some (packST 99 h gr r (BitVec.ofNat 2 (c.toNat / 16)) (BitVec.ofNat 4 c.toNat))
  | .mbarw nb e => some (packSB 100 nb e 0)
  | .mbara nb e => some (packSB 101 nb e 0)
  | .mend => some (packST 102 0 0 0 0 0)
  | .ccpyPlain s d r => some (packST 104 s d r 0 0)
  | .ccpyCvt s d r hs => some (packST 104 s d r 1 (BitVec.ofNat 4 (2 * hs.toNat)))
  | .cbar nb e => some (packSB 105 nb e 0)
  | .cbarW nb e => some (packSB 105 nb e 1024)
  | .cend => some (packST 106 0 0 0 0 0)
  | .spillRefill _ => none
  | .flagOperationComplete _ _ => none
  | .twaitWake _ => none
  | .cpyAccept _ => none
  | .copyPerformed _ _ => none
  | .acallocGrant _ => none
  | .acallocDeadlockFail _ => none
  | .granuleReturn _ _ => none
  | .heapAllocatorServe _ => none
  | .mailboxPacket _ => none
  | .mcfgApply _ => none
  | .mmulRowEnter _ _ => none
  | .mmulRowWrite _ _ => none
  | .tileFetch _ _ => none
  | .invalComplete _ => none
  | .snapshotLatch _ => none
  | .gatingBegin _ => none
  | .gatingEnd _ => none
  | .wakeEnd _ => none
  | .launchAccept _ _ => none
  | .launchBeginDispatch _ => none
  | .dependenceRecheck _ => none
  | .ticketClaim _ _ => none
  | .blockPlace _ _ => none
  | .timedStart _ => none
  | .gangReserve _ => none
  | .gangStart _ => none
  | .blockEnd _ => none
  | .blockSave _ => none
  | .blockResume _ => none
  | .spillReinject _ => none
  | .packetForward _ => none
  | .treeRelease _ _ => none
  | .droopDecay _ => none
  | .onsetInterval _ => none
  | .islandRampDone _ _ => none
  | .hemArrival _ _ => none
  | .automatonStep _ _ => none
  | .timerExpiry _ _ _ => none
  | .stopDelivery _ => none
  | .stopRecordWrite _ => none
  | .resultWritten _ _ => none
  | .accumulatorPortDone _ => none
  | .illegalEncoding _ => none
  | .illFormedStreamWord _ => none
  | .syscallAnswer _ _ _ => none
  | .warpSwap _ _ => none
  | .starvationGuard _ => none
  | .loadCapWindow _ => none
  | .l1ReleaseDrain _ => none
  | .lineExpiry _ _ _ => none
  | .dirtyWritebackTimeout _ _ => none
  | .rdcFill _ _ => none
  | .rdcReleaseComplete _ => none
  | .rdcAcquireComplete _ => none
  | .homeWrite _ _ _ => none
  | .homeAtomic _ _ _ _ _ _ => none
  | .hostCxlMemAccess _ _ _ => none
  | .cxlSnoop _ => none
  | .translationWalk _ _ _ => none
  | .resolve _ _ => none
  | .fqrpWrite _ _ => none
  | .fqWrite _ _ => none
  | .inval _ _ => none
  | .cstepWrite _ _ => none
  | .counterClear _ _ => none
  | .counterConfigure _ _ => none
  | .sketchFreeze _ _ => none
  | .sketchClear _ _ => none
  | .stoppedWarpResume _ _ => none
  | .dieResumeAll _ => none
  | .traceRingSetup _ _ => none
  | .controlPageWrite _ _ _ => none
  | .stallSample _ _ => none
  | .preempt _ _ => none
  | .correctableError _ _ => none
  | .uncorrectableError _ _ _ => none
  | .flitReceive _ _ _ => none
  | .laneLockTimeout _ _ => none
  | .timingExchange _ _ _ _ _ _ => none
  | .tickSlew _ _ => none
  | .ptpMessage _ _ => none
  | .spanFrame _ _ _ => none
  | .envelopeMeasure _ => none
  | .droopAlarm _ => none
  | .slackDwellEnd _ => none
  | .islandWindowEnd _ _ _ _ => none
  | .islandIdle _ _ => none
  | .panelReset _ => none
  | .lifeCycleChange _ => none
  | .regionAssign _ _ _ _ _ _ _ _ => none
  | .supervisorFailover => none
  | .attestationRequest _ _ => none
  | .laneLockLost _ _ => none
  | .laneLockRegained _ _ => none

end Sys2Proof
end

