-- ==== Sys2Proof/Config.lean ====
section
/-!
DEFINITION. What the part HND288-A1 fixes (spec/00 R2 to R7) and the free values: constants with no body
that stand for values the manual leaves open, so that nothing can be proved of them.
-/
namespace Sys2Proof.Config

/-- %width of this part (R7). -/
def width : Nat := 16
/-- Compute dies of the panel (R5). -/
def dies : Nat := 200
/-- Clusters of a die (R5). -/
def clusters : Nat := 324
/-- Bytes of a core's local memory (R188) and the 64-byte rows it holds. -/
def localBytes : Nat := 0x30000
/-- Byte offset, within a core's local space, at which its register file begins when it is lent (R154, R197). -/
def lentFile : Nat := 0x30000
/-- Rows of local memory and of the lent register file together: 3,072 + 1,024 (R188, R197). -/
def rows : Nat := 4096
/-- Bytes in a home stack that a plain physical address may name (R284). -/
def stackBytes : Nat := 0xB2D05E000
/-- The bytes of one pre-emption save slot (R316). -/
def saveSlot : Nat := 0x500000

/-- R105: the SFU gives one of the two FP32 values that bracket the exact result. `true` picks the upper one.
Arguments: the operation's number and its operand. Free value (log 8). -/
opaque sfuUpper : Nat → Word → Bool
/-- R160: the order in which the lanes of one ATOM perform is not defined. The n-th draw gives the order in which
lanes are taken: a list of numbers that `Ops` turns into a permutation. Free value (log 9). -/
opaque laneOrder : Nat → List Nat
/-- R217, R240: an accumulator value that the manual leaves undefined. Free value (log 10). -/
opaque undefinedAcc : Nat → Word
/-- R416: what SHAKE256 and the device identity key give for a report. Free values (log 14). -/
opaque measurement : Nat → Nat
/-- R416: the signature of a report over its contents. Free value (log 14). -/
opaque signature (supervisor image regions : Nat) (nonce : BitVec 256) : Nat
/-- R168: the two parts of a crossing access are unordered. The n-th draw gives for each lane whether both are performed when the word
issues (0), the second later (1), or the first later (2). Free value (log 70). -/
opaque partLater : Nat → Nat → Nat
/-- R377: in a cycle a trace flit makes a packet or a stack access of another class of a die wait. Free value (log 6). -/
opaque traceWaits : Nat → Bool
/-- R358: the power of the panel in watts at a measurement. Free value (log 71). -/
opaque panelWatts : Nat → Nat
/-- R291: the number of the host port, among those of its partition, that system software has assigned to a die. Free value (log 94). -/
opaque hostPort : Nat → Nat
/-- R327: link credits of a virtual channel beyond the first. Free value (log 44). -/
opaque extraCredits : Nat → Nat

end Sys2Proof.Config
end

