-- ==== Sys2Proof/Machine/Tbl.lean ====
section
/-!
DEFINITION. A table: sparse data by key, a list of (key, value) pairs in rising key order. What an unlisted key
reads as is named at each read. `Tbl.set` never lists an entry equal to that value, so equal tables are equal lists.
-/
namespace Sys2Proof.Machine

/-- Sparse data by key. -/
abbrev Tbl (α : Type) := List (Nat × α)

/-- The value at a key; `d` is what an unlisted key reads as. -/
def Tbl.get {α : Type} (d : α) : Tbl α → Nat → α
  | [], _ => d
  | (k, v) :: t, a => if k = a then v else Tbl.get d t a

/-- Put a value at its place in the rising order, in place of an older one. -/
def Tbl.put {α : Type} (k : Nat) (v : α) : Tbl α → Tbl α
  | [] => [(k, v)]
  | (k', v') :: t =>
    if k' < k then (k', v') :: Tbl.put k v t
    else if k' = k then (k, v) :: t
    else (k, v) :: (k', v') :: t

/-- Remove a key. -/
def Tbl.del {α : Type} (k : Nat) : Tbl α → Tbl α
  | [] => []
  | (k', v') :: t => if k' = k then Tbl.del k t else (k', v') :: Tbl.del k t

/-- Write a value; writing what an unlisted key reads as removes the entry. -/
def Tbl.set {α : Type} [DecidableEq α] (d : α) (k : Nat) (v : α) (t : Tbl α) : Tbl α :=
  if v = d then Tbl.del k t else Tbl.put k v t

/-- Change every value. -/
def Tbl.mapV {α : Type} (f : Nat → α → α) (t : Tbl α) : Tbl α := t.map fun e => (e.1, f e.1 e.2)

/-- Keys rise strictly from above `lo`, and no entry equals what an unlisted key reads as. -/
def Tbl.risingFrom {α : Type} [DecidableEq α] (d : α) : Option Nat → Tbl α → Bool
  | _, [] => true
  | lo, (k, v) :: t => (match lo with | none => true | some l => decide (l < k)) && decide (v ≠ d) && Tbl.risingFrom d (some k) t

/-- The one canonical form of a table that reads `d` where it lists nothing. -/
def Tbl.canonical {α : Type} [DecidableEq α] (d : α) (t : Tbl α) : Bool := Tbl.risingFrom d none t

end Sys2Proof.Machine
end

