-- ==== Sys2Proof/Machine/State.lean ====
section
/-!
DEFINITION. The state of the panel as plain data (INVENTORY.md, "State"), the reasons a step can stop, and the state
after reset. Units are numbered as in Syntax: a cluster c = 324·die + %clu, a core = 16·c + %core, a warp
w = 16·core + position, a block = 4·c + slot.
-/
namespace Sys2Proof.Machine

/-! ## The warp (R43) -/

/-- A register, for the scoreboard (R54): lane, lane predicate, uniform, uniform predicate. -/
inductive RegRef where
  | v (n : Nat)
  | p (n : Nat)
  | s (n : Nat)
  | q (n : Nat)
  deriving DecidableEq, Repr

/-- Who clears a pending bit: time alone (RESULT_WRITTEN), the counted completion (FLAG_OPERATION_COMPLETE), or a unit's
answer, after which the operation is counted like the others. -/
inductive PendKind where
  | timed
  | counted
  | unit
  deriving DecidableEq, Repr

/-- An operation in flight: the registers it will have written, the producer PC (R54), the flag that counts it (R17),
its number, whether it is a seam word (R137), a global load or ATOM (R186), a load or atomic (R169) or a reader of %fpmode (R119),
for a seam word the lanes of the groups that overflowed (R144), the mask of the path that issued it (R171), and what its lane
registers held before, by register and lane, which comes back in lanes that end first (R129, log 4). -/
structure Pend where
  regs : List RegRef
  pc : Addr
  flag : Option Nat
  tag : Nat
  kind : PendKind
  seam : Bool
  load : Bool
  mem : Bool
  fp : Bool
  ovf : Mask
  owner : Mask
  undo : List (Nat × Word)
  deriving DecidableEq, Repr

/-- What a path waits for at a clause boundary (R180). -/
inductive Wait where
  /-- BARW whose arrival is not yet counted (R208): the barrier and the number of its pending s55. -/
  | arriving (nb : Nat) (tag : Nat)
  /-- BARW: the phase of barrier nb that must complete; the number of its pending s55. -/
  | barw (nb : Nat) (phase : Nat) (tag : Nat)
  /-- AWAITF: slot k of a rack. -/
  | awaitf (rk : Nat) (k : Word) (tag : Nat)
  /-- TWAIT until the tick, and its address. -/
  | twait (t : DWord) (pc : Addr)
  /-- TBARWAIT on a tree barrier, the phase that must be released. -/
  | tbar (tb : Nat) (phase : Nat) (sd : Nat) (tag : Nat)
  /-- RENDEZ, and its address. -/
  | rendez (pc : Addr)
  /-- HFREE: until the allocator answers (R300). -/
  | hfree (tag : Nat)
  deriving DecidableEq, Repr

/-- Position of a path inside its clause: index of the next word, length − 1, flags A and B (R15, R56), and the words from
the next one on, fetched before the clause's first word issued (R311). -/
structure Clause where
  idx : BitVec 4
  len : BitVec 4
  fa : BitVec 4
  fb : BitVec 4
  words : List Word
  deriving DecidableEq, Repr

/-- A live path (R45). `src` is the word that led to `pc` (R57, BADLAND); `held` says that the other path was in a handler when
this one stood in its slot (R45, R55). -/
structure Path where
  pc : Addr
  mask : Mask
  join : Option Addr
  clause : Option Clause
  src : Addr
  waits : List Wait
  held : Bool
  deriving DecidableEq, Repr

/-- An entry of the divergence stack (R47). -/
inductive Entry where
  | frame (join : Addr) (mask arrived : Mask) (outer : Option Addr)
  | pending (pc : Addr) (mask : Mask) (join : Option Addr)
  deriving DecidableEq, Repr

/-- A read-modify-write due at a record held in memory: lanes leave the record at a depth (R50, R53). -/
structure Update where
  depth : Nat
  lanes : Mask
  deriving DecidableEq, Repr

/-- A hardware loop level (R125). -/
structure Loop where
  ls : Addr
  le : Addr
  lc : Word
  deriving DecidableEq, Repr

/-- A warp suspended on a page fault (R311): its fault entry, or none while it waits untabled (R308), the access, and whether
the warp itself goes on when the entry closes with fail: for the target of a transfer (R120) and an update (R53). -/
structure Suspend where
  entry : Option Nat
  va : Addr
  kind : AccKind
  lanes : Mask
  soft : Bool
  deriving DecidableEq, Repr

/-- A byte that an access reaches: a core's local space, or a physical address with its uncached mark. -/
inductive Loc where
  | loc (core off : Nat)
  | glob (pa : Nat) (uc : Bool)
  deriving DecidableEq, Repr

/-- A load of which a part is still to be read (R168): its lane, none for a uniform load, its k registers from `reg` on, the bits
from which its value is extended with the sign, none where it is not, the bytes read so far in their places, and the places of the
others. -/
structure LoadPart where
  lane : Option Nat
  reg : Nat
  k : Nat
  sign : Option Nat
  got : List Byte
  todo : List (Nat × Loc)
  deriving DecidableEq, Repr

/-- The parts of the crossing accesses of one word that are still to be performed (R168, log 70): the mask of the path that issued
it, the cycle in which it issued, the number of the load, and what is to be written and read. -/
structure Part where
  owner : Mask
  since : Nat
  tag : Option Nat
  stores : List (Loc × Byte)
  loads : List LoadPart
  deriving DecidableEq, Repr

/-- What an agent of a block is ordered after (R216; log 10): by %warp the number of the last of its stores and port operations, and
the number of the last MMUL or MSTORE of the block. -/
structure Known where
  ops : Tbl Nat
  mm : Nat
  deriving DecidableEq, Repr

/-- What a word does once the port operations before it are performed (R205, R208, R240): an arrival at a barrier, with its count (none
for all warps) and the number of BARW's pending s55, or the start of streams, with the number of the FORK. -/
inductive DueKind where
  | arrive (nb : Nat) (count : Option Nat) (tag : Option Nat)
  | fork (m c : Bool) (tag : Nat)
  deriving DecidableEq, Repr

/-- Such a word of a warp: the number of the last operation before it, its address, and what the warp was ordered after when it
issued. -/
structure Due where
  after : Nat
  pc : Addr
  kind : DueKind
  knows : Known
  deriving DecidableEq, Repr

/-- One warp's record: the architectural state of R43 and its place in the core (R178). -/
structure Warp where
  uid : Nat
  placed : Bool
  blk : Nat
  index : Nat
  v : Tbl Word
  p : Tbl Mask
  s : Tbl Word
  q : Tbl Bool
  f : Tbl Nat
  loops : Tbl Loop
  depth : Nat
  a : Option Path
  b : Option Path
  /-- The slot that issued last: false A, true B. -/
  cur : Bool
  cnt : Nat
  yielded : Bool
  /-- On-chip entries of the divergence stack, top first. -/
  stk : List Entry
  /-- Entries in the spill area. -/
  below : Nat
  updates : List Update
  /-- A record could not be read or updated, and the handler of its STACKOVF has not resumed (R53). -/
  recHold : Bool
  pend : List Pend
  /-- Waits of paths that have ended, whose operations go on. -/
  orphans : List Wait
  nextTag : Nat
  quantum : Word
  seam : Word
  fxbase : Word
  fpmode : Word
  fpstat : Word
  tvec : DWord
  trpc : DWord
  tcause : Word
  tlanes : Mask
  tinfo : DWord
  lfm : Mask
  delivery : Mask
  /-- Lanes that EXIT has ended or MarkLane switched off (R50). -/
  gone : Mask
  blkId : Word
  grid : Word
  hclass : Word
  spill : DWord
  capbase : DWord
  stackLimit : Nat
  porter : Bool
  ended : Bool
  faulted : Bool
  /-- A block fault of the block stops this warp at its next boundary (R315). -/
  winding : Bool
  /-- Stopped, or to stop at the next boundary, by a tack STOP (R395). -/
  stopped : Bool
  /-- It stands where it is, inside its clause: it was suspended, or held by a TBARRIVE, when it was stopped, wound up or chosen for
  pre-emption, so the word at issue does not issue (R315, R317, R395). -/
  frozen : Bool
  susp : Option Suspend
  /-- The entry that the warp waited on closed with fail: the page counts as not mapped when its word issues again (R53,
  R120). -/
  failed : Bool
  /-- The BRL or JMPL whose push wrote to the spill area, until the next word issues (R374). -/
  pushed : Option Addr
  /-- The word at issue waited in the last step, and why: the reason and the producer PC of a stall sample (R374). -/
  stalled : Bool
  why : Nat × Addr
  active : Bool
  waitCount : Nat
  readyCount : Nat
  /-- Cycle of the last word issued, plus one (R374). -/
  ranAt : Nat
  /-- Youngest in issue order until this cycle (R185). -/
  yieldUntil : Nat
  /-- A YIELD is to swap it out once the swap unit is free (R185, log 67). -/
  yieldSwap : Bool
  /-- Parts of crossing accesses that are still to be performed (R168). -/
  parts : List Part
  /-- Phase of the latest arrival at each tree barrier, plus one; 0 for none (R341). -/
  tbArr : Tbl Nat
  /-- Ticks of the words issued while an automaton of the panel is primed or armed (R398). -/
  issued : List Nat
  /-- Tick of a STOP's delivery, and the words issued since (R398). -/
  stopTick : Option Nat
  aftd : Nat
  /-- What it is ordered after (R216), and its arrivals and FORKs that wait for its port operations, oldest first (R240). -/
  knows : Known
  due : List Due
  deriving DecidableEq, Repr

/-! ## Blocks, engines, clusters -/

/-- A numbered barrier (R207). -/
structure Bar where
  phase : Nat
  arrivals : Nat
  expect : Nat
  /-- Opened by an all-warps arrival. -/
  allWarps : Bool
  /-- Error bit of the last completed phase (R210). -/
  err : Bool
  /-- What the arrivals of this phase come after (R216). -/
  knows : Known
  deriving DecidableEq, Repr

/-- A latched tensor layout record (R220): its 64 bytes as eight words, and where it was read. -/
structure Tlr where
  raw : BitVec 512
  addr : Addr
  deriving DecidableEq, Repr

/-- A bound tile handle (R231). -/
structure Handle where
  tlr : Tlr
  c0 : Int
  c1 : Int
  c2 : Int
  c3 : Int
  /-- THBIND.t: rows along d0. -/
  transposed : Bool
  deriving DecidableEq, Repr

/-- A seed register (R73, R230). -/
structure SeedReg where
  s0 : DWord
  b : RotB
  deriving DecidableEq, Repr

/-- State of a stream (R204). -/
inductive StreamState where
  | idle
  | running
  | ended
  | halted
  deriving DecidableEq, Repr

/-- A stream sequencer: the barrier phase it waits for, the fault entry that holds its fetch (none in it while untabled), whether it
is to fetch no further word (R315, R395), the word fetched that has not gone on (R241), and what the stream is ordered after (R216). -/
structure Stream where
  st : StreamState
  /-- Meetings that have made it idle again: a command of an earlier count that fails halts it no more (R257). -/
  era : Nat
  pc : Addr
  wait : Option (Nat × Nat)
  held : Option (Option Nat)
  stopped : Bool
  word : Option Word
  knows : Known
  deriving DecidableEq, Repr

/-- What an exit record holds beside the place and the tick (R313). -/
structure ExitInfo where
  code : Nat
  warp : Option Nat
  esc : Bool
  tcause : Nat
  pc : DWord
  info : DWord
  lanes : Mask
  lfm : Mask
  deriving DecidableEq, Repr

/-- The operands that an MMUL has read (R217): its number, the bytes, the columns of its results, and the granules and rows that still
hold them. -/
structure Operand where
  stamp : Nat
  keys : List Nat
  from_ : Nat
  cols : Nat
  outs : List (Nat × Nat)
  deriving DecidableEq, Repr

/-- A store of a warp (R217): its %warp, none for a warp of another block, its number, and the bytes. -/
structure StoreNote where
  warp : Option Nat
  num : Nat
  keys : List Nat
  deriving DecidableEq, Repr

/-- A block slot (R200). -/
structure Block where
  placed : Bool
  launch : Nat
  index : Nat
  porter : Bool
  kd : DWord
  entry : Addr
  mentry : Addr
  centry : Addr
  nwarps : Nat
  localSize : Nat
  heat : Nat
  seeds : Nat
  begun : Bool
  /-- The tick before which no warp issues (R274, R275). -/
  hold : Option Nat
  placedAt : Nat
  bars : Tbl Bar
  errMode : Bool
  handles : Tbl (Option Handle)
  hs : Tbl SeedReg
  m : Stream
  c : Stream
  gmap : Tbl (Option Nat)
  errors : Nat
  /-- Warps that have issued RENDEZ, by %warp (R206). -/
  met : List Nat
  fault : Option ExitInfo
  rowBase : Tbl Nat
  /-- Warp records of the block. -/
  warps : List Nat
  /-- Chosen for pre-emption (R317), with its save slot. -/
  saving : Bool
  saveSlot : Nat
  /-- MMULs and MSTOREs begun (R217, R240; log 10). -/
  mseq : Nat
  /-- Stores and port operations of its warps so far (log 10). -/
  oseq : Nat
  /-- The stores that the matrix stream is not ordered after, and the operands of its MMULs since it last passed a waiting barrier
  (R217). -/
  stores : List StoreNote
  operands : List Operand
  /-- What the block's release actions have come after (R170; log 10). -/
  released : Known
  deriving DecidableEq, Repr

/-- A copy slot assigned in a rack (R211): the copy's outcome once performed. -/
structure RackSlot where
  num : Word
  done : Bool
  failed : Bool
  deriving DecidableEq, Repr

/-- A rack (R211). The base is held as a global or cluster-window address (R232). -/
structure Rack where
  owner : Option Nat
  slots : Nat
  size : Nat
  base : Addr
  ic : Word
  fc : Word
  lc : Word
  copies : List RackSlot
  /-- Numbers of the slots whose latest copy failed (R235). -/
  failed : List Word
  /-- Warps whose port operations up to a number come before the next copy: they precede a RELSLOT (R212). -/
  after : List (Nat × Nat)
  deriving DecidableEq, Repr

/-- A K tag (R80): whether there is one, its seed, B code and effective origin. -/
structure KTag where
  tagged : Bool
  s0 : DWord
  bcode : Nat
  origin : Int
  deriving DecidableEq, Repr

/-- A weight tile latched in a sub-array (R246): format, K tag, and FP32 codes by row, `cols` to a row. -/
structure Weights where
  fmt : Nat
  tag : KTag
  vals : List Nat
  cols : Nat
  deriving DecidableEq, Repr

/-- An MMUL in flight (R247): its word, the handle as bound when it began, first granule index and physical granules, rows,
sub-array, shape and weights in force, its number, the row fetched ahead, the rows entered
and written, the sums of rows entered and not yet written, and the physical granules in which its results are undefined (R217,
R240). -/
structure Mmul where
  blk : Nat
  pc : Addr
  word : Word
  h : Handle
  g : Nat
  phys : List Nat
  rows : Nat
  total : Nat
  sub : Nat
  ov : Bool
  shape : Shape
  wts : Weights
  stamp : Nat
  row : Option (List Nat)
  entered : Nat
  written : Nat
  sums : List (List Nat)
  undef : List Nat
  deriving DecidableEq, Repr

/-- What a copy does (R233, R250, R251). -/
inductive CopyKind where
  /-- CPY: rows and columns. -/
  | plain (rows cols : Nat)
  /-- CPY.seal: max and sat. -/
  | sealing (max sat : Word)
  /-- CCPY.plain and CCPY.cvt: destination, rows, and for cvt the seed register's number. -/
  | ccpy (dst : Handle) (rows : Nat)
  | cvt (dst : Handle) (rows : Nat) (r : SeedReg)
  deriving DecidableEq, Repr

/-- A copy in flight: its word, source handle (with its number), and for CPY the rack, slot number and warp. -/
structure CopyOp where
  blk : Nat
  pc : Addr
  word : Word
  h : Nat
  src : Handle
  kind : CopyKind
  rack : Option (Nat × Word)
  warp : Nat
  deriving DecidableEq, Repr

/-- An engine operation in flight. -/
inductive EngOp where
  /-- MCFG waiting for earlier MMULs (R245). -/
  | mcfg (blk : Nat) (shape : Shape)
  | mwload (blk : Nat) (pc : Addr) (word : Word) (hn : Nat) (h : Handle) (sub : Nat)
  | mmul (m : Mmul)
  | mstore (blk : Nat) (pc : Addr) (word : Word) (hn : Nat) (h : Handle) (g : Nat) (phys : List Nat) (rows cols stamp : Nat)
  | copy (x : CopyOp)
  deriving DecidableEq, Repr

/-- How far a fetch has come: trailer tiles already checked, the codes read of the one that is being checked, the values, both last
first, and the keys of the bytes read. -/
structure Fetched where
  checked : List (Nat × Nat)
  codes : List Nat
  vals : List Nat
  keys : List Nat
  deriving DecidableEq, Repr

/-- An engine operation with its number, the fault entry that holds it and the address that met the page, how far its fetch and its
writes had come then (R312), the era of its stream in which it began (R257), the lines it pins, in the RDC or in a home L2, as home
addresses / 128 (R254), and since when its fetch waits for the pin limit, and where: slice 32·die + slice, or 6,400 + die for an RDC. -/
structure Eng where
  tag : Nat
  op : EngOp
  held : Option (Option Nat)
  heldVa : Nat
  got : Fetched
  wrote : Nat
  era : Nat
  pins : List (Bool × Nat)
  pinWait : Option (Nat × Nat)
  deriving DecidableEq, Repr

/-- A CPY issued and not yet accepted (R211), and the number of the last port operation of its warp before it (R212). -/
structure CpyReq where
  after : Nat
  warp : Nat
  tag : Nat
  blk : Nat
  pc : Addr
  word : Word
  rk : Nat
  h : Nat
  sealing : Bool
  x : Word
  y : Word
  deriving DecidableEq, Repr

/-- Kind of an accumulator port operation (R239). -/
inductive PortKind where
  | acrd
  | acwr
  | aczero
  deriving DecidableEq, Repr

/-- An operation in the accumulator port's queue. -/
structure PortOp where
  kind : PortKind
  warp : Nat
  blk : Nat
  pc : Addr
  word : Word
  addr : Addr
  /-- First granule index, first row, rows, and the physical granules. -/
  g : Nat
  r0 : Nat
  nr : Nat
  phys : List Nat
  sd : Nat
  tag : Nat
  /-- The last MMUL or MSTORE that the issuing warp was ordered after, and the number of this operation. -/
  seen : Nat
  num : Nat
  held : Option (Option Nat)
  /-- The address that met the page of `held`, and the rows moved before (R312). -/
  heldVa : Nat
  wrote : Nat
  deriving DecidableEq, Repr

/-- An ACRD that has been performed (R240): its %warp and number, and what it wrote. -/
structure AcRead where
  warp : Nat
  num : Nat
  runs : List (Nat × List Byte)
  deriving DecidableEq, Repr

/-- An ACALLOC request (R213). -/
structure AcReq where
  warp : Nat
  blk : Nat
  k : Nat
  sd : Nat
  qd : Nat
  tag : Nat
  deriving DecidableEq, Repr

/-- What waits for a cluster to wake (R218): a block of a launch, or the die's first saved block (R319). -/
inductive Wake where
  | block (launch index : Nat) (porter : Bool)
  | saved
  deriving DecidableEq, Repr

/-- Gating state of a cluster (R218). -/
inductive Gate where
  | on
  | idling
  | gating
  | gated
  | waking
  deriving DecidableEq, Repr

/-- State of a lane-group island (R356). -/
inductive IslandState where
  | nominal
  | near
  | ramping
  deriving DecidableEq, Repr

/-- An island (R356): its state, memory-bound windows in a row, whether it waits for its onset, the cycle after its last lane word,
the window that it counts, and in it the cycles with a lane datapath busy and with a global load in flight; the tick of the
admission of its onset. -/
structure Island where
  st : IslandState
  windows : Nat
  asking : Bool
  last : Nat
  window : Nat
  busy : Nat
  loading : Nat
  admitted : Nat
  deriving DecidableEq, Repr

/-- A cached translation (R306): the page's VA, its size class (0 64 KiB, 1 16 MiB, 2 4 GiB), frame, attributes
(bit 0 r, 1 w, 2 x, 3 uc). -/
structure TlbEntry where
  va : Nat
  size : Nat
  frame : Nat
  attr : Nat
  deriving DecidableEq, Repr

/-- A cluster (R200 to R218). -/
structure Cluster where
  carve : Nat
  racks : Tbl Rack
  cpyWait : List CpyReq
  owner : Tbl (Option Nat)
  invalid : Tbl Bool
  acq : List AcReq
  /-- Cycle from which every placed block has waited on ACALLOC (R214). -/
  acSince : Option Nat
  shape : Shape
  weights : Tbl (Option Weights)
  engs : List Eng
  nextTag : Nat
  port : List PortOp
  gate : Gate
  /-- Cycle in which the gating state was entered. -/
  gateSince : Nat
  /-- The dispatches that wait for the cluster to wake, in order (R218). -/
  wake : List Wake
  retired : Bool
  /-- Excuse bits of the tree barriers (R339); an unlisted bit is set. -/
  excuse : Tbl Bool
  tlb : List TlbEntry
  islands : Tbl Island
  /-- Cycle of the last row that the matrix engine entered (R362). -/
  rowAt : Option Nat
  /-- An onset of the matrix engine has been requested and not admitted (R362). -/
  rowAsking : Bool
  /-- The source of copies that the copy engine tries next: block slot k's copy stream is 2·k, its CPYs 2·k + 1 (R203). -/
  copyNext : Nat
  /-- Reserved for a gang (R274). -/
  reserved : Option Nat
  /-- The last MMUL or MSTORE on each granule, the port's writes of it (warp and number) and the port's reads of it (R217, R240;
  log 10). -/
  gstamp : Tbl Nat
  gport : Tbl (List (Nat × Nat))
  gread : Tbl (List AcRead)
  deriving DecidableEq, Repr

/-- A line of an L1 or of the RDC (R194, R288): bytes, valid and dirty marks, the cycle of its fill. -/
structure Line where
  data : BitVec 1024
  valid : BitVec 128
  dirty : BitVec 128
  filled : Nat
  /-- Cycle of the last use, for least-recently-used replacement. -/
  used : Nat
  /-- Cycle in which it became dirty and entered the FIFO (R290). -/
  since : Nat
  deriving DecidableEq, Repr

/-- A core beside its warps (R186, R187, R194). -/
structure CoreS where
  /-- The first cycle in which the lane datapath can take a lane word (R183), and in which the swap unit is free (R181). -/
  laneFree : Nat
  swapFree : Nat
  /-- The warp that comes in by the swap under way, the one that goes out because it waited, and the warp that became ready while it
  went out: the first candidate of the next swap (R182). -/
  incoming : Option Nat
  outgoing : Option Nat
  nextSwap : Option Nat
  /-- The micro-TLB (R306). -/
  utlb : List TlbEntry
  loadCap : Nat
  victims : List Nat
  hits : Nat
  l1 : Tbl Line
  fifo : List Nat
  samplePos : Nat
  deriving DecidableEq, Repr

/-- A counter and its shadow (R367, R371). -/
structure Counter where
  value : BitVec 48
  wrap : Bool
  en : Bool
  sel : BitVec 8
  shadow : BitVec 48
  swrap : Bool
  deriving DecidableEq, Repr

/-! ## The die -/

/-- An open entry of the fault coalescing table (R307): page, size class, waiters. -/
structure FaultEntry where
  va : Nat
  size : Nat
  waiters : Nat
  deriving DecidableEq, Repr

/-- An event record (R380). -/
structure Event where
  type : Nat
  die : Nat
  clu : Nat
  core : Nat
  warp : Nat
  seq : Nat
  tick : Nat
  payload : DWord
  deriving DecidableEq, Repr

/-- An installed filter (R382): its owner (die·4 + n), its image number and its 32 bytes. -/
structure Filter where
  owner : Nat
  num : Nat
  desc : BitVec 256
  deriving DecidableEq, Repr

/-- Run state of an automaton (R390). -/
inductive Run where
  | unloaded
  | idle
  | primed
  | armed
  | lost
  deriving DecidableEq, Repr

/-- A held event with the mask of the owner's filters it matched, or a timer expiry (R383, R389). -/
structure HemEvent where
  ev : Event
  mask : Nat
  timer : Option Nat
  deriving DecidableEq, Repr

/-- What has become of a warp that a STOP reached: it went on, or was saved, after it had stopped, with its words after the delivery and at or
after the accepting event's tick and the tick at which it stopped; or it ended at a tick (R398, R406). -/
inductive Left where
  | kept (aftd afta tick : Nat)
  | ended (tick : Nat)
  deriving DecidableEq, Repr

/-- A warp that a STOP reached (R398): the words that it had issued since an earlier STOP, and what has become of it. -/
structure StopMark where
  uid : Nat
  base : Nat
  left : Option Left
  deriving DecidableEq, Repr

/-- A STOP in delivery (R395): scope after widening, the accepting event, the step tick, its bound (R398). -/
structure Stop where
  scope : Nat
  ev : Event
  step : Nat
  bound : Nat
  /-- The tick of its delivery, and the warps it then reached. -/
  delivered : Option Nat
  warps : List StopMark
  deriving DecidableEq, Repr

/-- A tack automaton (R388 to R401). -/
structure Tack where
  run : Run
  image : List Byte
  state : Nat
  c : Tbl Word
  /-- Deadlines of running timers. -/
  tm : Tbl (Option Nat)
  hem : List HemEvent
  queue : List HemEvent
  /-- Key of the last event moved to the step queue (R386). -/
  moved : Option (List Nat)
  window : Nat
  armTick : Nat
  flags : Nat
  coincide : Bool
  acc : Bool
  full : Bool
  lostCause : Nat
  offset : Nat
  lastStep : Nat
  /-- Routed distances as they stood at arming (R385, R396). -/
  armRoutes : Tbl Nat
  stops : List Stop
  deriving DecidableEq, Repr

/-- A packet of a porter mailbox, or on its way to one (R277, R280). -/
structure Packet where
  words : List Word
  src : Nat
  /-- The sending warp, the slot of its path, its status register and the number of its FWD. -/
  warp : Nat
  slot : Bool
  sd : Nat
  tag : Nat
  deriving DecidableEq, Repr

/-- A request to a heap allocator (R299, R300). -/
structure HeapReq where
  warp : Nat
  tag : Nat
  pc : Addr
  free : Bool
  heap : Nat
  size : DWord
  sel : Word
  must : Bool
  sd : Nat
  qd : Nat
  p : DWord
  deriving DecidableEq, Repr

/-- A buddy heap (R298): free blocks and allocated blocks as offset and class. -/
structure Heap where
  up : Bool
  /-- The region and the virtual base that it was set up with. -/
  setup : Nat × Nat × Nat
  free : Tbl Nat
  used : Tbl Nat
  deriving DecidableEq, Repr

/-- Which record the device writes (R420). -/
inductive RecKind where
  /-- An error record of a launch (R259). -/
  | error (launch : Nat)
  /-- The exit record of a block slot's block (R313): launch, the child's parent and the porter mark. -/
  | exit (launch : Nat) (porter : Bool)
  /-- A record of an automaton (R397). -/
  | tack (n : Nat)
  deriving DecidableEq, Repr

/-- A record held by a page that is not present (R420), and its fault entry, or none while untabled. -/
structure Rec where
  kind : RecKind
  clu : Nat
  va : Nat
  bytes : List Byte
  entry : Option Nat
  deriving DecidableEq, Repr

/-- A SYSCALL delivered to the service core (R417). -/
structure Syscall where
  warp : Nat
  tag : Nat
  n : Nat
  arg : DWord
  sd : Nat
  deriving DecidableEq, Repr

/-- A granule of a saved context (R318): its index, invalid mark, values, and the marks of `Cluster.gstamp`, `Cluster.gport` and
`Cluster.gread`. -/
structure SavedGranule where
  index : Nat
  invalid : Bool
  vals : Tbl Word
  stamp : Nat
  ports : List (Nat × Nat)
  reads : List AcRead
  deriving DecidableEq, Repr

/-- A saved context (R318): the block, its warps, its local memories with their valid bits as offsets from each core's
space, its granules by index, its racks and its matrix engine. -/
structure Saved where
  blk : Block
  warps : List Warp
  /-- Valid rows by %core and row of the window; bytes by %core and offset of the window. -/
  rows : List (Nat × Nat)
  bytes : List (Nat × Nat × Byte)
  gran : List SavedGranule
  racks : List (Nat × Rack)
  shape : Shape
  weights : Tbl (Option Weights)
  acq : List AcReq
  /-- Islands (4 for the matrix engine) whose onset requests were withdrawn (R363). -/
  asking : List Nat
  slot : Nat
  deriving DecidableEq, Repr

/-- An interrupt delivered to a service core. -/
inductive Interrupt where
  | fault (d entry : Nat)
  | retire (d clu what : Nat)
  | tack (d n : Nat) (ev : Event)
  | tlock (d : Nat) (base : Bool)
  deriving DecidableEq, Repr

/-- A die (R268 to R412). -/
structure Die where
  troot : DWord
  inval : DWord
  invalBusy : Bool
  sets : DWord
  heaps : DWord
  fq : DWord
  fqSet : Bool
  fqwp : DWord
  fqrp : DWord
  trdesc : DWord
  save : DWord
  samp : Nat
  csel : Word
  skctl : DWord
  beat : DWord
  rdc : Tbl Line
  fifo : List Nat
  /-- Lines that the home L2 holds, by stack offset / 128, with the cycle of their last use (R286). -/
  l2 : Tbl Nat
  fct : Tbl (Option FaultEntry)
  heapq : List HeapReq
  fwdq : List Packet
  mailbox : List Packet
  mailLaunch : Option Nat
  spawns : List Nat
  /-- Claimed indices not yet placed: launch and index (R271). -/
  claimed : List (Nat × Nat)
  /-- Launches whose porter this die has still to place (R272). -/
  porters : List Nat
  /-- By priority, the queue number from which the next turn is sought, round-robin (R270). -/
  served : Tbl Nat
  saved : List Saved
  slotsUsed : List Nat
  /-- Whole ticks added or dropped by slewing, and the count of 1 GHz ticks at the last one. -/
  slew : Int
  slewAt : Int
  tickoff : Word
  locked : Bool
  /-- Ticks that the slewing still has to add, and the last exchange: the count of 4,096 ticks at which it came (R332). -/
  owed : Int
  exchange : Nat
  /-- Base die of the home memory site: slew, offset, lock (R334). -/
  baseSlew : Int
  baseSlewAt : Int
  baseOff : Word
  baseLocked : Bool
  baseOwed : Int
  baseExchange : Nat
  ef : Tbl (Option Filter)
  tk : Tbl Tack
  /-- Sketch counters: 8,192·k + 2,048·row + column. -/
  sketch : Tbl Word
  skN : Tbl DWord
  skSat : Tbl Bool
  skDropped : Tbl Word
  skFreeze : Tbl Bool
  /-- Trace records not yet written, oldest first, and the fault entry that holds their writing (R420). -/
  traceq : List (List Byte)
  traceHeld : Option (Option Nat)
  /-- Drops since the last record written: count, tick of the first, tick of the last (R376). -/
  gap : Option (Nat × Nat × Nat)
  /-- Tick of the gap record whose writing a page holds (R420). -/
  gapHeld : Option Nat
  trdelay : DWord
  /-- Service core runs a partition image (R417). -/
  image : Bool
  syscalls : List Syscall
  /-- The DCP places and begins nothing (R395). -/
  dcpStopped : Bool
  seqs : Tbl Nat
  /-- Tick of the snapshot this die has still to latch (R371). -/
  snap : Option Nat
  /-- Records held by pages that are not present (R420). -/
  recq : List Rec
  deriving DecidableEq, Repr

/-! ## Region, partition, panel -/

/-- A request for an onset (R362, R363): its tick, its cluster, its island (4 for the matrix engine), its charge in
sixty-fourths. -/
structure Onset where
  tick : Nat
  clu : Nat
  isle : Nat
  charge : Nat
  deriving DecidableEq, Repr

/-- A power region (R357 to R363). -/
structure Region where
  part : Option Nat
  limit : BitVec 10
  droop : Nat
  slack : Nat
  lastAlarm : Nat
  /-- The tick from which, and the interval (of 200 ticks) up to which, admission is stopped (R359, R365). -/
  blockedFrom : Nat
  blockedUntil : Nat
  /-- Onsets waiting, in the order of R363; the interval being admitted, and what it has spent. -/
  onsets : List Onset
  interval : Nat
  spent : Nat
  /-- Ticks of the dwell in which a segment was true for a phase not yet released, the tick last counted, and the dwell (R360). -/
  slackTicks : Nat
  slackAt : Nat
  dwell : Nat
  deriving DecidableEq, Repr

/-- A tree barrier of a partition (R338 to R343). -/
structure TreeBar where
  gang : Option Nat
  phase : Nat
  /-- Clusters that have completed their arrival at the phase being collected. -/
  arrived : List Nat
  nret : Nat
  /-- A member cluster has retired since the last release; the mark of the phase last released. -/
  retNow : Bool
  mret : Bool
  /-- The mark of the phase before, and the clusters that the last release has still to reach: for them the phase is one less. -/
  mretOld : Bool
  left : List Nat
  /-- The cycle of the last release at the root. -/
  releasedAt : Nat
  deriving DecidableEq, Repr

/-- A partition (R411, R413). -/
structure Partition where
  formed : Bool
  capbase : DWord
  queues : DWord
  /-- Sites of its host ports, as x and y (R414). -/
  ports : List (Nat × Nat)
  seq : Nat
  draining : Bool
  trees : Tbl TreeBar
  snap : Option Nat
  reserving : Option Nat
  deriving DecidableEq, Repr

/-- A launch known to the device (R268 to R274). -/
structure Launch where
  lpb : DWord
  part : Nat
  queue : Nat
  seq : Nat
  /-- As R266: 0 queued … 4 refused. -/
  state : Nat
  prio : Nat
  die : Option Nat
  parent : Option Nat
  prev : Option Nat
  portersLeft : Nat
  start : Option Nat
  recheck : Bool
  deriving DecidableEq, Repr

/-- A flit or packet on the fabric (R325 to R327). -/
structure Pkt where
  src : Nat
  dst : Nat
  vc : Nat
  /-- The channel on which it was injected; a diverted packet goes on the reroute channel (R327). -/
  own : Nat
  rerouted : Bool
  /-- Sites the detour still passes (R328). -/
  legs : List Nat
  /-- Its flits (R325), the order in which it was injected (R326), and the site that it came from last. -/
  flits : Nat
  num : Nat
  came : Option Nat
  /-- What it carries: a tack event for an automaton, or a request named by its warp. -/
  event : Option (Nat × HemEvent)
  fwd : Option Packet
  /-- The answer to a FWD: the packet and its status. -/
  answer : Option (Packet × Nat)
  warp : Option Nat
  addr : DWord
  deriving DecidableEq, Repr

/-- A link direction, by site and direction 0 N, 1 E, 2 S, 3 W (R325): failed, CRC failures of its flit in a row, the tick at which
lane lock was lost, the packet under way with the flits still to come, and whether of response and request it served response
last (R327). -/
structure Link where
  failed : Bool
  retries : Nat
  lost : Option Nat
  flying : Option (Pkt × Nat)
  responded : Bool
  deriving DecidableEq, Repr

/-- A site of the mesh: packets waiting, packets spilled, counts since a failure (R327, R329). -/
structure Site where
  waiting : List Pkt
  spilled : List Pkt
  nspilled : Nat
  ndropped : Nat
  deriving DecidableEq, Repr

/-- A span port (R418, R335): its frames, its role, the messages it has sent, the number of the Sync that it follows and the four
times of the exchange so far, and the offset of the last exchange. -/
structure Span where
  sent : List (List Byte)
  received : List (List Byte)
  master : Bool
  ptpSent : List PtpMsg
  seq : Nat
  t1 : Option Int
  t2 : Option Int
  t3 : Option Int
  offset : Int
  deriving DecidableEq, Repr

/-- An attestation report (R416). -/
structure Report where
  supervisor : Nat
  image : Nat
  regions : List Nat
  nonce : BitVec 256
  signature : Nat
  deriving DecidableEq, Repr

/-- Who acts next: the warp at issue, or a stream of a block. -/
inductive Focus where
  | warp
  | matrix (blk : Nat)
  | copy (blk : Nat)
  deriving DecidableEq, Repr

/-- One entry of the script of steps to come (log 5). -/
inductive Turn where
  | event (i : Instr)
  | issue (w : Nat)
  | matrix (blk : Nat)
  | copy (blk : Nat)
  deriving DecidableEq, Repr

/-- The whole panel. -/
structure State where
  /-- The record of the warp at issue, kept apart from the others (log 2). -/
  w : Warp
  focus : Focus
  warps : Tbl Warp
  cores : Tbl CoreS
  blocks : Tbl Block
  clusters : Tbl Cluster
  dies : Tbl Die
  regions : Tbl Region
  parts : Tbl Partition
  launches : Tbl Launch
  /-- Accumulator values: 4,096·(32·cluster + granule) + 64·row + column (R213). -/
  acc : Tbl Word
  /-- Device and host memory, and the local memories: the core-local byte at offset o of core u has the key
  2^48 + 2^18·u + o (R154, R188, R284). -/
  mem : Tbl Byte
  /-- Row valid bits, 4,096·core + row; the lent register file is rows 3,072 and up (R191, R197). -/
  rowValid : Tbl Bool
  /-- Poisoned lines (R321). -/
  poison : Tbl Bool
  counters : Tbl Counter
  /-- Heaps by 264·(managing die) + heap table index (R298, R412). -/
  heapState : Tbl Heap
  links : Tbl Link
  sites : Tbl Site
  /-- Events that have reached their automaton's die and not its hem: 4·die + n (R383). -/
  evq : List (Nat × HemEvent)
  /-- Automata with an event packet that the fabric has discarded and their hem has not yet noted (R329, R386). -/
  dropq : List Nat
  /-- Routed distances in the banded latency table that differ from the Manhattan distance, 200·source + destination (R330). -/
  routes : Tbl Nat
  spans : Tbl Span
  envelope : Nat
  interrupts : List Interrupt
  reports : List Report
  /-- Service core that holds the supervisor's role (R411), the tick at which its heartbeat last advanced. -/
  supervisor : Nat
  beatTick : Nat
  /-- The supervisor image's signature failed: the panel stays in reset (R416). -/
  inReset : Bool
  lifeCycle : Nat
  /-- Slewing of the panel reference (R335). -/
  refSlew : Int
  refSlewAt : Int
  refOwed : Int
  /-- Power measurements made (R358): the count of 1,000 reference ticks at the last. -/
  measured : Nat
  /-- Number of the next packet of the fabric. -/
  packets : Nat
  /-- Cycles of the 2.5 GHz clock since reset (log 6). -/
  cycle : Nat
  /-- Number of the next free value (log 7). -/
  fresh : Nat
  /-- A trace record has been written since reset (R377, log 6). -/
  traced : Bool
  sched : List Turn
  deriving DecidableEq, Repr

/-! ## Why a step can stop -/

/-- Reasons of a fault. -/
inductive Fault where
  /-- Raised by `step` alone: the supervisor image failed its check, so the panel stays in reset and takes no step until
  it is reset again (R416). Safe: the hardware does nothing more either. -/
  | heldInReset
  deriving DecidableEq, Repr

/-- Reasons of a refusal. -/
inductive Refusal where
  /-- Raised by an arm of `exec` whose instruction has no meaning in the model yet. Safe: nothing is claimed of it. -/
  | notModelled (mnemonic : String)
  deriving DecidableEq, Repr

/-! ## What unlisted keys read as, and reset -/

/-- What a byte of memory that nothing has written reads as: 0 after the wipe of R415; for host memory log 1. -/
def Memory.unlisted : Byte := 0

/-- The canonical form of memory. -/
abbrev Memory.wf (m : Tbl Byte) : Prop := Tbl.canonical Memory.unlisted m = true

/-- An agent that is ordered after nothing. -/
def Known.none : Known := ⟨[], 0⟩
def Warp.empty : Warp :=
  { uid := 0, placed := false, blk := 0, index := 0, v := [], p := [], s := [], q := [], f := [], loops := [], depth := 0,
    a := none, b := none, cur := false, cnt := 0, yielded := false, stk := [], below := 0, updates := [], recHold := false, pend := [], orphans := [],
    nextTag := 0, quantum := 8, seam := 0, fxbase := 0, fpmode := 0, fpstat := 0, tvec := 0, trpc := 0, tcause := 0,
    tlanes := 0, tinfo := 0, lfm := 0, delivery := 0, gone := 0, blkId := 0, grid := 0, hclass := 0, spill := 0, capbase := 0,
    stackLimit := 4, porter := false, ended := false, faulted := false, winding := false, stopped := false, frozen := false, susp := none, failed := false, pushed := none,
    stalled := false, why := (0, 0), active := false, waitCount := 0, readyCount := 0, ranAt := 0, yieldUntil := 0, yieldSwap := false, parts := [], tbArr := [], issued := [],
    stopTick := none, aftd := 0, knows := Known.none, due := [] }

def Bar.fresh : Bar := { phase := 0, arrivals := 0, expect := 0, allWarps := false, err := false, knows := Known.none }
/-- A seed register at block placement (R230). -/
def SeedReg.fresh : SeedReg := { s0 := 0, b := .b1 }
def Stream.fresh : Stream := { st := .idle, era := 0, pc := 0, wait := none, held := none, stopped := false, word := none, knows := Known.none }

def Block.empty : Block :=
  { placed := false, launch := 0, index := 0, porter := false, kd := 0, entry := 0, mentry := 0, centry := 0, nwarps := 0,
    localSize := 0, heat := 0, seeds := 0, begun := false, hold := none, placedAt := 0, bars := [], errMode := false,
    handles := [], hs := [], m := Stream.fresh, c := Stream.fresh, gmap := [], errors := 0, met := [], fault := none,
    rowBase := [], warps := [], saving := false, saveSlot := 0, mseq := 0, oseq := 0, stores := [],
    operands := [], released := Known.none }

def Rack.free : Rack :=
  { owner := none, slots := 0, size := 0, base := 0, ic := 0, fc := 0, lc := 0, copies := [], failed := [], after := [] }
def Island.fresh : Island := { st := .nominal, windows := 0, asking := false, last := 0, window := 0, busy := 0, loading := 0, admitted := 0 }
def Fetched.none : Fetched := { checked := [], codes := [], vals := [], keys := [] }
/-- An engine operation that begins. -/
def Eng.new (tag era : Nat) (op : EngOp) : Eng :=
  { tag := tag, op := op, held := Option.none, heldVa := 0, got := Fetched.none, wrote := 0, era := era, pins := [], pinWait := Option.none }

def Cluster.empty : Cluster :=
  { carve := 0, racks := [], cpyWait := [], owner := [], invalid := [], acq := [], acSince := none, shape := .q4,
    weights := [], engs := [], nextTag := 0, port := [], gate := .idling, gateSince := 0, wake := [], retired := false,
    excuse := [], tlb := [], islands := [], rowAt := none, rowAsking := false, copyNext := 0, reserved := none, gstamp := [], gport := [], gread := [] }

def Line.empty : Line := { data := 0, valid := 0, dirty := 0, filled := 0, used := 0, since := 0 }
/-- A cluster that nothing has used since reset, in a cycle: it is idle for 4,096 cycles, gating for 64, and gated then (R218), and
its islands enter near-threshold after 4,096 cycles (R356). -/
def Cluster.quiet (cycle : Nat) : Cluster :=
  { Cluster.empty with
    gate := if cycle ≤ 4096 then .idling else if cycle ≤ 4160 then .gating else .gated
    gateSince := if cycle ≤ 4096 then 0 else if cycle ≤ 4160 then 4096 else 4160
    islands := if cycle < 4096 then [] else (List.range 4).map fun i => (i, { Island.fresh with st := .near }) }
/-- The load cap is 8 at reset (R186). -/
def CoreS.empty : CoreS :=
  { laneFree := 0, swapFree := 0, incoming := none, outgoing := none, nextSwap := none, utlb := [], loadCap := 8, victims := [], hits := 0, l1 := [], fifo := [], samplePos := 0 }
def Counter.off : Counter := { value := 0, wrap := false, en := false, sel := 0, shadow := 0, swrap := false }

def Tack.unloaded : Tack :=
  { run := .unloaded, image := [], state := 0, c := [], tm := [], hem := [], queue := [], moved := none, window := 0,
    armTick := 0, flags := 0, coincide := false, acc := false, full := false, lostCause := 0, offset := 0, lastStep := 0,
    armRoutes := [], stops := [] }

def Die.empty : Die :=
  { troot := 0, inval := 0, invalBusy := false, sets := 0, heaps := 0, fq := 0, fqSet := false, fqwp := 0, fqrp := 0,
    trdesc := 0, save := 0, samp := 0, csel := 0, skctl := 0, beat := 0, rdc := [], fifo := [], l2 := [], fct := [], heapq := [],
    fwdq := [], mailbox := [], mailLaunch := none, spawns := [], claimed := [], porters := [], served := [], saved := [], slotsUsed := [],
    slew := 0, slewAt := -1024, tickoff := 0, locked := true, owed := 0, exchange := 0, baseSlew := 0, baseSlewAt := -1024, baseOff := 0,
    baseLocked := true, baseOwed := 0, baseExchange := 0, ef := [], tk := [],
    sketch := [], skN := [], skSat := [], skDropped := [], skFreeze := [], traceq := [], traceHeld := none, gap := none, gapHeld := none, trdelay := 0,
    image := false, syscalls := [], dcpStopped := false, seqs := [], snap := none, recq := [] }

/-- droop_r is 1 and slack_r 0 at reset (R357). -/
def Region.fresh : Region :=
  { part := none, limit := 1, droop := 1, slack := 0, lastAlarm := 0, blockedFrom := 0, blockedUntil := 0, onsets := [], interval := 0, spent := 0,
    slackTicks := 0, slackAt := 0, dwell := 0 }
def TreeBar.fresh : TreeBar := { gang := none, phase := 0, arrived := [], nret := 0, retNow := false, mret := false,
                                      mretOld := false, left := [], releasedAt := 0 }
def Partition.none : Partition :=
  { formed := false, capbase := 0, queues := 0, ports := [], seq := 0, draining := false, trees := [], snap := Option.none,
    reserving := Option.none }
def Launch.none : Launch :=
  { lpb := 0, part := 0, queue := 0, seq := 0, state := 4, prio := 0, die := Option.none, parent := Option.none,
    prev := Option.none, portersLeft := 0, start := Option.none, recheck := false }
def Link.whole : Link := { failed := false, retries := 0, lost := none, flying := none, responded := false }
def Site.empty : Site := { waiting := [], spilled := [], nspilled := 0, ndropped := 0 }
def Span.idle : Span :=
  { sent := [], received := [], master := false, ptpSent := [], seq := 0, t1 := none, t2 := none, t3 := none, offset := 0 }
def Heap.down : Heap := { up := false, setup := (0, 0, 0), free := [], used := [] }

/-- The panel right after reset (R415, R416): wiped, every %tick at 0 and in lock (R332), no partition formed, nothing
placed. How a program comes to run is log 13. -/
def State.reset : State :=
  { w := Warp.empty, focus := .warp, warps := [], cores := [], blocks := [], clusters := [], dies := [], regions := [],
    parts := [], launches := [], acc := [], mem := [], rowValid := [], poison := [], counters := [], heapState := [], links := [],
    sites := [], evq := [], dropq := [], routes := [], spans := [], envelope := 1, interrupts := [], reports := [], supervisor := 0, beatTick := 0,
    inReset := false, lifeCycle := 0, refSlew := 0, refSlewAt := -1024, refOwed := 0, measured := 0, packets := 0, cycle := 0, fresh := 0, traced := false, sched := [] }

end Sys2Proof.Machine
end

