-- ==== Sys2Proof/Machine/Base.lean ====
section
/-!
DEFINITION. Reading and updating one record of the state, the numbering of units, time (R8, R332), counters (R367),
and the emission of events (R199, R381 to R383).
-/
namespace Sys2Proof.Machine

/-! ## Numbering (R2, R3, R364) -/

/-- The core, cluster and die of a warp position; the cluster of a core; the die of a cluster. -/
def coreOf (w : Nat) : Nat := w / 16
def cluOf (w : Nat) : Nat := w / 256
def dieOf (w : Nat) : Nat := w / 256 / 324
def dieOfClu (c : Nat) : Nat := c / 324
/-- Site of a compute die (R364), and of the memory site that holds its home stack (R2). -/
def siteY (d : Nat) : Nat := d / 10
def siteX (d : Nat) : Nat := 2 * (d % 10) + siteY d % 2
def siteOf (d : Nat) : Nat := 20 * siteY d + siteX d
def homeSite (d : Nat) : Nat := if siteX d % 2 = 0 then siteOf d + 1 else siteOf d - 1
/-- The compute die of a site, or the home-paired one of a memory site (R347). -/
def dieOfSite (site : Nat) : Nat := 10 * (site / 20) + site % 20 / 2
/-- Power region of a site and of a die (R3). -/
def regionOfSite (site : Nat) : Nat := 4 * (site / 20 / 5) + site % 20 / 5
def regionOf (d : Nat) : Nat := regionOfSite (siteOf d)
/-- Lowest die of a region, the source of its events (R366). -/
def lowestDie (r : Nat) : Nat := ((List.range Config.dies).find? fun d => regionOf d == r).getD 0
def diesOfRegion (r : Nat) : List Nat := (List.range Config.dies).filter fun d => regionOf d == r
def absDiff (a b : Nat) : Nat := (a - b) + (b - a)
/-- Manhattan distance of two compute dies (R326). -/
def manhattan (a b : Nat) : Nat := absDiff (siteX a) (siteX b) + absDiff (siteY a) (siteY b)

/-! ## Records -/

def State.warp (s : State) (u : Nat) : Warp := if u = s.w.uid then s.w else s.warps.get Warp.empty u
def State.onWarp (s : State) (u : Nat) (f : Warp → Warp) : State :=
  if u = s.w.uid then { s with w := f s.w } else { s with warps := s.warps.put u (f (s.warps.get Warp.empty u)) }
def State.onW (s : State) (f : Warp → Warp) : State := { s with w := f s.w }
/-- Apply an effect with the record of warp `u` as the one at issue. -/
def State.focusOn (s : State) (u : Nat) (f : State → State) : State :=
  if u = s.w.uid then f s
  else
    let old := s.w
    let t := f { s with w := { s.warps.get Warp.empty u with uid := u }, warps := (s.warps.del u).put old.uid old }
    { t with w := t.warps.get Warp.empty old.uid, warps := (t.warps.del old.uid).put t.w.uid t.w }
def State.core (s : State) (c : Nat) : CoreS := s.cores.get CoreS.empty c
def State.onCore (s : State) (c : Nat) (f : CoreS → CoreS) : State := { s with cores := s.cores.put c (f (s.core c)) }
def State.blk (s : State) (b : Nat) : Block := s.blocks.get Block.empty b
def State.onBlk (s : State) (b : Nat) (f : Block → Block) : State := { s with blocks := s.blocks.put b (f (s.blk b)) }
def State.clu (s : State) (c : Nat) : Cluster := s.clusters.get (Cluster.quiet s.cycle) c
def State.onClu (s : State) (c : Nat) (f : Cluster → Cluster) : State :=
  { s with clusters := s.clusters.put c (f (s.clu c)) }
def State.die (s : State) (d : Nat) : Die := s.dies.get Die.empty d
def State.onDie (s : State) (d : Nat) (f : Die → Die) : State := { s with dies := s.dies.put d (f (s.die d)) }
def State.region (s : State) (r : Nat) : Region := s.regions.get Region.fresh r
def State.onRegion (s : State) (r : Nat) (f : Region → Region) : State :=
  { s with regions := s.regions.put r (f (s.region r)) }
def State.part (s : State) (p : Nat) : Partition := s.parts.get Partition.none p
def State.onPart (s : State) (p : Nat) (f : Partition → Partition) : State := { s with parts := s.parts.put p (f (s.part p)) }
def State.launch (s : State) (l : Nat) : Launch := s.launches.get Launch.none l
def State.onLaunch (s : State) (l : Nat) (f : Launch → Launch) : State :=
  { s with launches := s.launches.put l (f (s.launch l)) }
def State.site (s : State) (x : Nat) : Site := s.sites.get Site.empty x
def State.onSite (s : State) (x : Nat) (f : Site → Site) : State := { s with sites := s.sites.put x (f (s.site x)) }
def State.tack (s : State) (n : Nat) : Tack := (s.die (n / 4)).tk.get Tack.unloaded (n % 4)
def State.onTack (s : State) (n : Nat) (f : Tack → Tack) : State :=
  s.onDie (n / 4) fun d => { d with tk := d.tk.put (n % 4) (f (d.tk.get Tack.unloaded (n % 4))) }
/-- The block slots of a cluster that hold a block (R200). -/
def State.placedOn (s : State) (c : Nat) : List Nat :=
  ((List.range 4).map (4 * c + ·)).filter fun b => (s.blk b).placed
/-- The cluster and die of a block. -/
def cluOfBlk (b : Nat) : Nat := b / 4
def dieOfBlk (b : Nat) : Nat := b / 4 / 324

/-! ## Partition, time, power -/

/-- The partition of a die, if its region belongs to one (R411). -/
def State.partOf (s : State) (d : Nat) : Option Nat := (s.region (regionOf d)).part
/-- The dies of a partition. -/
def State.diesOf (s : State) (p : Nat) : List Nat := (List.range Config.dies).filter fun d => s.partOf d == some p
/-- Two dies belong to one partition. -/
def State.samePart (s : State) (a b : Nat) : Bool := (s.partOf a).isSome && s.partOf a == s.partOf b

/-- A writer reaches a control page (R412): a service core of the die's partition, and the supervisor always. -/
def State.reachesPage (s : State) (x : Page) : Bool := match x.by_ with
  | .image d => s.samePart d x.die
  | .supervisor => true
/-- A write to a control page that its writer reaches; another changes nothing. -/
def State.onPage (s : State) (x : Page) (f : Nat → State) : State := if s.reachesPage x then f x.die else s

/-- Ticks of the undisciplined 1 GHz count: 2.5 cycles each (R8), the same on every die (log 97). -/
def State.rawTick (s : State) : Int := (2 * s.cycle / 5 : Nat)
/-- The panel reference (R332, R335). -/
def State.refTick (s : State) : Nat := (s.rawTick + s.refSlew).toNat
/-- %tick of a die (R332): its own count, with what its slewing has added. -/
def State.tick (s : State) (d : Nat) : Nat := (s.rawTick + (s.die d).slew).toNat % 2 ^ 64
/-- The site of the panel reference (R332), and the die whose home memory site it is. -/
def refSite : Nat := 20 * 10 + 9
def refDie : Nat := dieOfSite refSite
/-- The counter of the base die of a die's home memory site (R334); the base die at (9, 10) counts the reference itself. -/
def State.baseTick (s : State) (d : Nat) : Nat :=
  if d = refDie then s.refTick % 2 ^ 64 else (s.rawTick + (s.die d).baseSlew).toNat % 2 ^ 64
/-- The count by which a region's controller keeps its intervals: the manual does not say whose %tick it reads, and the model takes
that of the region's lowest die (log 69). -/
def State.regionTick (s : State) (r : Nat) : Nat := s.tick (lowestDie r)

/-- %cad of a region (R357). -/
def State.cad (s : State) (r : Nat) : Nat :=
  min 16 (max s.envelope (s.region r).droop + (s.region r).slack)

/-- Order of onset requests (R363). -/
def Onset.before (a b : Onset) : Bool :=
  decide (a.tick < b.tick) || (a.tick == b.tick && (decide (a.clu < b.clu) || (a.clu == b.clu && decide (a.isle < b.isle))))
def Onset.insert (o : Onset) : List Onset → List Onset
  | [] => [o]
  | x :: t => if o.before x then o :: x :: t else x :: o.insert t
/-- An island (4 for the matrix engine) of a cluster requests an onset. -/
def State.askOnset (s : State) (c isle charge : Nat) : State :=
  let o : Onset := { tick := s.tick (c / 324), clu := c, isle := isle, charge := charge }
  let s := s.onRegion (regionOf (c / 324)) fun r => { r with onsets := o.insert r.onsets }
  if isle = 4 then s.onClu c fun x => { x with rowAsking := true }
  else s.onClu c fun x => { x with islands := x.islands.put isle { x.islands.get Island.fresh isle with asking := true } }
def State.island (s : State) (c i : Nat) : Island := (s.clu c).islands.get Island.fresh i
def State.onIsland (s : State) (c i : Nat) (f : Island → Island) : State :=
  s.onClu c fun x => { x with islands := x.islands.put i (f (x.islands.get Island.fresh i)) }
/-- Cycles of the 2.5 GHz clock for which a lane word keeps the lane datapath of a core (R84): four of the island's clock, which
runs at 0.6 GHz unless the island is nominal (R356): 16 2/3 of them, rounded up to 17 (log 82). -/
def Island.wordCycles (i : Island) : Nat := if i.st == .nominal then 4 else 17
/-- A lane word issues on a core: an island that was idle for 4,096 cycles requests its onset (R356). -/
def State.wakeIsland (s : State) (core : Nat) : State :=
  let c := core / 16
  let k := core % 16 / 4
  let i := s.island c k
  let s := if i.st == .near && !i.asking && decide (i.last + 4096 ≤ s.cycle) then s.askOnset c k 1 else s
  let s := s.onIsland c k fun x => { x with last := s.cycle + 1 }
  s.onCore core fun x => { x with laneFree := s.cycle + i.wordCycles }
/-- A row enters the matrix engine: after 4,096 cycles with none it requests an onset (R362). -/
def State.rowEnters (s : State) (c : Nat) : State :=
  let x := s.clu c
  let cad := s.cad (regionOf (c / 324))
  let idle := match x.rowAt with
    | none => true
    | some t => decide (t + 4097 ≤ s.cycle)
  let s := if idle && !x.rowAsking then s.askOnset c 4 ((8 + cad - 1) / cad) else s
  s.onClu c fun x => { x with rowAt := some s.cycle }

/-! ## Counters (R367, R368) -/

/-- Key of a counter: level 0 core, 1 cluster, 2 die. -/
def ctrKey (level unit idx : Nat) : Nat := level * 2 ^ 40 + 16 * unit + idx
/-- How many counters a unit of the level has. -/
def ctrCount (level : Nat) : Nat := if level = 0 then 4 else if level = 1 then 8 else 16
/-- Fixed counters (R367). -/
def ctrFixed (level idx : Nat) : Bool := (level == 1 && idx == 7) || (level == 2 && (idx == 14 || idx == 15))
/-- The levels at which a source code counts (R368). -/
def ctrAllowed (level src : Nat) : Bool :=
  if src = 1 || src = 15 then true
  else if src = 2 || src = 3 || src = 4 || src = 6 then level = 0 || level = 1
  else if src = 5 || src = 7 || src = 8 then level = 0
  else if src = 9 || src = 10 || src = 11 then level = 1
  else if src = 12 || src = 13 || src = 14 then level = 2
  else false
/-- Count n occurrences; the value wraps modulo 2^48 and sets the wrap bit. -/
def Counter.add (c : Counter) (n : Nat) : Counter :=
  { c with value := c.value + BitVec.ofNat 48 n, wrap := c.wrap || decide (2 ^ 48 ≤ c.value.toNat + n) }
/-- Count in every counter of one unit that has selected the source. -/
def State.countUnit (s : State) (level unit src n : Nat) : State :=
  (List.range (ctrCount level)).foldl (fun s i =>
    let c := s.counters.get Counter.off (ctrKey level unit i)
    if c.en && c.sel.toNat == src && ctrAllowed level src && !ctrFixed level i then
      { s with counters := s.counters.put (ctrKey level unit i) (c.add n) } else s) s
/-- Count an occurrence on a core: in the core's, its cluster's and its die's counters. -/
def State.countCore (s : State) (core src n : Nat) : State :=
  ((s.countUnit 0 core src n).countUnit 1 (core / 16) src n).countUnit 2 (core / 16 / 324) src n
def State.countClu (s : State) (c src n : Nat) : State := (s.countUnit 1 c src n).countUnit 2 (c / 324) src n
def State.countDie (s : State) (d src n : Nat) : State := s.countUnit 2 d src n
/-- Count in a fixed counter. -/
def State.countFixed (s : State) (level unit idx n : Nat) : State :=
  { s with counters := s.counters.put (ctrKey level unit idx) ((s.counters.get Counter.off (ctrKey level unit idx)).add n) }

/-! ## Little-endian bytes -/

/-- The n low bytes of a number, lowest first. -/
def bytesOf (n x : Nat) : List Byte := (List.range n).map fun i => BitVec.ofNat 8 (x >>> (8 * i))
/-- The number whose bytes these are, lowest first. -/
def ofBytes (l : List Byte) : Nat := l.foldr (fun b acc => b.toNat + 256 * acc) 0
/-- Bits [lo + n − 1 : lo] of a number. -/
def bits (x lo n : Nat) : Nat := x / 2 ^ lo % 2 ^ n

/-! ## Events -/

/-- Bytes 0–7 of an event record (R380). -/
def Event.head (e : Event) : Nat :=
  e.type % 256 * 2 ^ 56 + e.die % 256 * 2 ^ 48 + e.clu % 512 * 2 ^ 39 + e.core % 32 * 2 ^ 34 + e.warp % 32 * 2 ^ 29 + e.seq % 65536
def Event.bytes (e : Event) : List Byte := bytesOf 8 e.head ++ bytesOf 8 e.tick ++ bytesOf 8 e.payload.toNat
/-- Unit class and source index (R381). -/
def Event.unitClass (e : Event) : Nat := e.type / 16 - 2
def Event.index (e : Event) : Nat := e.clu * 1024 + e.core * 32 + e.warp

/-- Fields of a filter's first eight bytes (R382). -/
def Filter.w0 (f : Filter) : Nat := (f.desc.extractLsb' 0 64).toNat
def Filter.traced (f : Filter) : Bool := bits f.w0 17 1 == 1
/-- An event matches a filter (R383). -/
def Filter.accepts (f : Filter) (e : Event) : Bool :=
  let w := f.w0
  let tmask := bits w 40 8
  e.type &&& tmask == bits w 48 8 &&& tmask
    && (bits w 30 1 == 1 || e.clu == bits w 31 9)
    && (bits w 24 1 == 1 || e.core == bits w 25 5)
    && (bits w 18 1 == 1 || e.warp == bits w 19 5)
    && e.payload &&& f.desc.extractLsb' 64 64 == f.desc.extractLsb' 128 64 &&& f.desc.extractLsb' 64 64

/-- The states of an automaton in which its filters are armed (R390). -/
def Run.arms : Run → Bool
  | .primed | .armed | .lost => true
  | .unloaded | .idle => false
/-- Armed filters of a die that an event matches. -/
def State.matching (s : State) (d : Nat) (e : Event) : List Filter :=
  ((s.die d).ef.filterMap (·.2)).filter fun f => (s.tack f.owner).run.arms && f.accepts e

/-- Some automaton of the panel is primed, armed or lost, or has a STOP under way. -/
def State.watching (s : State) : Bool := s.dies.any fun d => d.2.tk.any fun t => t.2.run.arms || !t.2.stops.isEmpty

/-- Bytes of a trace record (R375): kind, unit, a, tick, b, c. -/
def traceRecord (kind d clu core warp a tick b c : Nat) : List Byte :=
  bytesOf 8 (kind * 2 ^ 60 + d % 256 * 2 ^ 52 + clu % 512 * 2 ^ 43 + core % 16 * 2 ^ 39 + warp % 32 * 2 ^ 34 + a % 2 ^ 32)
    ++ bytesOf 8 tick ++ bytesOf 8 b ++ bytesOf 8 c

/-- Number of the packet classes of the fabric (R327). -/
def vcEvent : Nat := 0
def vcReroute : Nat := 1
def vcResponse : Nat := 2
def vcRequest : Nat := 3
def vcTrace : Nat := 4

/-- A packet of some flits, a header and up to 256 bytes (R325). -/
def Pkt.plain (src dst vc flits : Nat) : Pkt :=
  { src := src, dst := dst, vc := vc, own := vc, rerouted := false, legs := [], flits := flits, num := 0, came := none, event := none,
    fwd := none, answer := none, warp := none, addr := 0 }
/-- A packet is injected at its source. -/
def State.inject (s : State) (p : Pkt) : State :=
  ({ s with packets := s.packets + 1 }).onSite p.src fun x => { x with waiting := x.waiting ++ [{ p with num := s.packets }] }

/-- The packets that are on the fabric. -/
def State.onFabric (s : State) : List Pkt :=
  s.sites.flatMap (fun e => e.2.waiting ++ e.2.spilled) ++ s.links.filterMap fun e => e.2.flying.map (·.1)
/-- A packet was injected before another of its channel, source and destination (R326). -/
def Pkt.precedes (q p : Pkt) : Bool := decide (q.num < p.num) && q.own == p.own && q.src == p.src && q.dst == p.dst
/-- An older packet of its channel, source and destination is still on the way, so this one is not delivered yet (R326). -/
def State.overtakes (s : State) (p : Pkt) : Bool := s.onFabric.any fun q => q.precedes p
/-- Take the packet with a number out of a list. -/
def dropPkt (num : Nat) (l : List Pkt) : List Pkt := l.filter (·.num != num)
/-- A packet leaves the fabric. -/
def State.takePkt (s : State) (p : Pkt) : State :=
  { s with sites := s.sites.mapV fun _ x => { x with waiting := dropPkt p.num x.waiting, spilled := dropPkt p.num x.spilled },
           links := s.links.mapV fun _ l => if l.flying.any fun f => f.1.num == p.num then { l with flying := none } else l }

/-- Send an event to the automaton `owner`: at once on its own die, by the event VC to another (R383). -/
def State.sendEvent (s : State) (owner : Nat) (site : Nat) (h : HemEvent) : State :=
  if site = siteOf (owner / 4) then { s with evq := s.evq ++ [(owner, h)] }
  else
    s.inject { Pkt.plain site (siteOf (owner / 4)) vcEvent 2 with event := some (owner, h) }

/-- Emit an event from a die's unit (R199): it is numbered and sent only while an armed filter selects it. A source
field of all ones is 0x1FF in clu and 0x1F in core and warp (R380). -/
def State.emitAt (s : State) (site tick ty d clu core warp : Nat) (payload : DWord) : State :=
  let e0 : Event := { type := ty, die := d, clu := clu, core := core, warp := warp, seq := 0, tick := tick, payload := payload }
  let fs := s.matching d e0
  if fs.isEmpty then s
  else
    let key := (e0.unitClass * 2 ^ 20 + e0.index)
    let e := { e0 with seq := (s.die d).seqs.get 0 key }
    let s := s.onDie d fun x => { x with seqs := x.seqs.put key ((e.seq + 1) % 65536) }
    let s := if fs.any Filter.traced then
        s.onDie d fun x => { x with traceq := x.traceq ++ [traceRecord 3 d clu core warp (ty % 256 + e.seq * 256) tick payload.toNat 0] }
      else s
    ((fs.map Filter.owner).eraseDups).foldl (fun s o =>
      s.sendEvent o site { ev := e, mask := (fs.filter (·.owner == o)).foldl (fun m f => m ||| 2 ^ f.num) 0, timer := none }) s

def State.emit (s : State) (ty d clu core warp : Nat) (payload : DWord) : State :=
  s.emitAt (siteOf d) (s.tick d) ty d clu core warp payload

/-- Payload from a number. -/
def pay (n : Nat) : DWord := BitVec.ofNat 64 n
/-- Events of a warp, a core, a cluster, a die. -/
def State.emitWarp (s : State) (ty u : Nat) (p : Nat) : State :=
  s.emit ty (dieOf u) (cluOf u % 324) (coreOf u % 16) (u % 16) (pay p)
def State.emitCore (s : State) (ty core : Nat) (p : Nat) : State :=
  s.emit ty (core / 16 / 324) (core / 16 % 324) (core % 16) 0x1F (pay p)
def State.emitClu (s : State) (ty c : Nat) (p : Nat) : State := s.emit ty (c / 324) (c % 324) 0x1F 0x1F (pay p)
def State.emitDie (s : State) (ty d : Nat) (p : Nat) : State := s.emit ty d 0x1FF 0x1F 0x1F (pay p)

/-! ## Sites and links (R324 to R328) -/

/-- A site holds a compute die (R2). -/
def isCompute (site : Nat) : Bool := site / 20 % 2 == site % 20 % 2
/-- The neighbour of a site in a direction: 0 north, 1 east, 2 south, 3 west. -/
def neighbour (site dir : Nat) : Option Nat :=
  if dir = 0 then (if site / 20 < 19 then some (site + 20) else none)
  else if dir = 1 then (if site % 20 < 19 then some (site + 1) else none)
  else if dir = 2 then (if 20 ≤ site then some (site - 20) else none)
  else if dir = 3 then (if 0 < site % 20 then some (site - 1) else none)
  else none
/-- The direction of a neighbour. -/
def dirTo (site next : Nat) : Nat := if next = site + 20 then 0 else if next = site + 1 then 1 else if next + 20 = site then 2 else 3
def State.link (s : State) (site dir : Nat) : Link := s.links.get Link.whole (4 * site + dir)
def State.onLink (s : State) (site dir : Nat) (f : Link → Link) : State :=
  { s with links := s.links.put (4 * site + dir) (f (s.link site dir)) }
/-- The link between two neighbours is whole. -/
def State.whole (s : State) (a b : Nat) : Bool := !(s.link a (dirTo a b)).failed
/-- One hop of the XY route (R326). -/
def xyNext (site dst : Nat) : Nat :=
  if site % 20 < dst % 20 then site + 1 else if dst % 20 < site % 20 then site - 1
  else if site / 20 < dst / 20 then site + 20 else site - 20
/-- The detour of a link on one side: the sites it passes, the far end last; none off the panel or over a failed link. -/
def State.detourOn (s : State) (a b dir : Nat) : Option (List Nat) := match neighbour a dir, neighbour b dir with
  | some x, some y => if s.whole a x && s.whole x y && s.whole y b then some [x, y, b] else none
  | _, _ => none
/-- The detour of a failed link (R328): the north or east side first. -/
def State.detour (s : State) (a b : Nat) : Option (List Nat) :=
  if a / 20 = b / 20 then (s.detourOn a b 0).or (s.detourOn a b 2) else (s.detourOn a b 1).or (s.detourOn a b 3)
/-- Hops of the route in use from a site to another (R326, R328). -/
def State.hops (s : State) (dst : Nat) : Nat → Nat → Nat
  | 0, _ => 0
  | n + 1, site => if site = dst then 0
    else (if s.whole site (xyNext site dst) then 1 else 3) + s.hops dst n (xyNext site dst)
/-- Two sites are cut off from each other: the route crosses a link that has failed and has no detour (R328). -/
def State.severed (s : State) (dst : Nat) : Nat → Nat → Bool
  | 0, _ => false
  | n + 1, site => if site = dst then false
    else
      let next := xyNext site dst
      (!s.whole site next && (s.detour site next).isNone) || s.severed dst n next
/-- A packet between two sites can be delivered; with every link whole it always can. -/
def State.routeOk (s : State) (a b : Nat) : Bool := (s.links.all fun e => !e.2.failed) || !s.severed b 60 a

/-- What one die asks of another, and the answer, can pass (R328, R329). -/
def State.dieReach (s : State) (a b : Nat) : Bool := s.routeOk (siteOf a) (siteOf b) && s.routeOk (siteOf b) (siteOf a)
/-- The site of the host port that system software has assigned to a die: one of those of its partition (R291, R414; log 94). -/
def State.hostPortOf (s : State) (d : Nat) : Option Nat := match s.partOf d with
  | none => none
  | some p =>
    let l := (s.part p).ports
    l[Config.hostPort d % l.length]?.map fun x => 20 * x.2 + x.1

/-- Hops of the routes in use between two dies, both ways, as the banded latency table lists them once a diverted packet of the pair
has been delivered (R330). -/
def State.pairUpdate (s : State) (a b : Nat) : State :=
  { s with routes := (s.routes.put (200 * a + b) (s.hops (siteOf b) 60 (siteOf a))).put (200 * b + a) (s.hops (siteOf a) 60 (siteOf b)) }

/-- Deliver an interrupt to a service core. -/
def State.interrupt (s : State) (i : Interrupt) : State := { s with interrupts := s.interrupts ++ [i] }

/-- Take the next number of a free value (log 7). -/
def State.draw (s : State) : Nat × State := (s.fresh, { s with fresh := s.fresh + 1 })

/-! ## What an agent is ordered after (R216; log 10) -/

/-- The larger of the numbers of two tables. -/
def Tbl.join (a b : Tbl Nat) : Tbl Nat := b.foldl (fun t e => t.set 0 e.1 (max (t.get 0 e.1) e.2)) a
/-- What two agents are ordered after, together. -/
def Known.join (a b : Known) : Known := ⟨a.ops.join b.ops, max a.mm b.mm⟩
/-- What comes before a warp's next operation: what it is ordered after, and its own operations. -/
def State.before (s : State) (u : Nat) : Known :=
  let w := s.warp u
  w.knows.join ⟨[(w.index, (s.blk w.blk).oseq)], 0⟩
def Warp.learns (w : Warp) (k : Known) : Warp := { w with knows := w.knows.join k }
/-- A warp's release actions and acquire actions within its block (R170): what has come before a release comes before what follows an
acquire. -/
def State.publish (s : State) (u : Nat) : State :=
  s.onBlk (s.warp u).blk fun k => { k with released := k.released.join (s.before u) }
def State.learn (s : State) (u : Nat) : State := s.onWarp u fun w => w.learns (s.blk w.blk).released
/-- The block's next operation number, and the block with it. -/
def Block.numbered (k : Block) : Block := { k with oseq := k.oseq + 1 }

end Sys2Proof.Machine
end

