-- ==== Sys2Proof/Machine/Memory.lean ====
section
/-!
DEFINITION. Memory: physical addresses and homes (R284, R285), the page walk (R303 to R306), the L1s and the RDC
(R194, R288 to R293), the windows onto local memories (R154, R189 to R192, R195, R197), and accesses of bytes.
-/
namespace Sys2Proof.Machine

/-! ## Bytes at their homes -/

/-- Write one byte of the byte store; the canonical form is kept. -/
def State.poke (s : State) (key : Nat) (b : Byte) : State := { s with mem := s.mem.set Memory.unlisted key b }
/-- Read one byte of the byte store. -/
def State.peek (s : State) (key : Nat) : Byte := s.mem.get Memory.unlisted key

/-- Kind of a physical address (R284): 0 plain, 2 striped, 3 host. -/
def paKind (pa : Nat) : Nat := pa / 2 ^ 46 % 4
/-- A legal physical address (R284). -/
def paOk (pa : Nat) : Bool :=
  decide (pa < 2 ^ 48) && (if paKind pa = 0 then bits pa 44 2 == 0 && decide (bits pa 36 8 < Config.dies) && decide (bits pa 0 36 < Config.stackBytes)
    else paKind pa != 1)

/-- Bytes of plain memory, read at home. -/
def State.peekN (s : State) (key n : Nat) : Nat := ofBytes ((List.range n).map fun i => s.peek (key + i))
/-- Write n bytes at home, little-endian. -/
def State.pokeN (s : State) (key n x : Nat) : State :=
  (List.range n).foldl (fun s i => s.poke (key + i) (BitVec.ofNat 8 (x >>> (8 * i)))) s
/-- Write a list of bytes at home. -/
def State.pokeBytes (s : State) (key : Nat) : List Byte → State
  | [] => s
  | b :: t => (s.poke key b).pokeBytes (key + 1) t

/-- The plain address that is the home of a physical byte, or the host address itself; none for an illegal address or a
striped one of an empty set. The set table is the one the die's control page names (R285, R412). -/
def State.homeOf (s : State) (d pa : Nat) : Option Nat :=
  if paKind pa = 2 then
    let sets := bits (s.die d).sets.toNat 0 48
    let set := bits pa 40 6
    let u := bits pa 0 40
    let m := s.peekN (sets + 16 * set) 1
    if m = 0 then none
    else
      let q := u / 256
      let w := s.peekN (s.peekN (sets + 16 * set + 8) 8 % 2 ^ 48 + 8 * (q % m)) 8
      some (w / 2 ^ 56 * 2 ^ 36 + (w % 2 ^ 36 + 256 * (q / m) + u % 256))
  else if paOk pa then some pa else none
/-- The die at whose L2 a byte is kept in order; none for host memory (R287). -/
def homeDie (key : Nat) : Option Nat := if paKind key = 3 then none else some (bits key 36 8)
/-- The address is homed on the die. -/
def State.homedOn (s : State) (d pa : Nat) : Bool :=
  match s.homeOf d pa with
  | some k => homeDie k == some d
  | none => false

/-- Read and write a physical byte at its home. -/
def State.homeRead (s : State) (d pa : Nat) : Byte := match s.homeOf d pa with
  | some k => s.peek k
  | none => 0
def State.homeWrite (s : State) (d pa : Nat) (b : Byte) : State := match s.homeOf d pa with
  | some k => s.poke k b
  | none => s
/-- Read n bytes at home. -/
def State.homeN (s : State) (d pa n : Nat) : Nat := ofBytes ((List.range n).map fun i => s.homeRead d (pa + i))

/-- A poisoned line, by its home address (R321). -/
def State.poisoned (s : State) (d pa : Nat) : Bool := match s.homeOf d pa with
  | some k => s.poison.get false (k / 128)
  | none => false

/-- The least recently used of some lines, each with the cycle of its last use. -/
def lruOf (l : List (Nat × Nat)) : Option Nat := (l.foldl (fun (a : Option (Nat × Nat)) e => match a with
  | none => some e
  | some b => if e.2 < b.2 then some e else some b) none).map (·.1)

/-! ## The home L2 (R286) -/

/-- Slice of a stack offset, and its set: 32 slices of 1,024 sets, the set by x[21:12] (log 15). -/
def l2Slice (x : Nat) : Nat := bits x 7 5 ^^^ bits x 12 5 ^^^ bits x 17 5 ^^^ bits x 22 5 ^^^ bits x 27 5 ^^^ bits x 32 4
def l2Set (x : Nat) : Nat := 1024 * l2Slice x + bits x 12 10
/-- Lines that engine operations of a die's clusters pin in its RDC, and those pinned in home L2s, as home addresses / 128 (R254). -/
def State.pinnedRdc (s : State) (d : Nat) : List Nat := s.clusters.flatMap fun c =>
  if c.1 / 324 = d then c.2.engs.flatMap fun e => (e.pins.filter (·.1)).map (·.2) else []
/-- A line of a die's RDC is pinned. -/
def State.stays (s : State) (d line : Nat) : Bool :=
  let l := s.pinnedRdc d
  !l.isEmpty && (s.homeOf d (128 * line)).any fun k => l.contains (k / 128)
def State.pinnedL2 (s : State) : List Nat := s.clusters.flatMap fun c => c.2.engs.flatMap fun e => (e.pins.filter (!·.1)).map (·.2)
/-- The home L2 takes a line in, or uses it again: a miss counts, and takes the place of the least recently used line of its set that
is not pinned (R254, R286, R368). -/
def State.l2Touch (s : State) (key : Nat) : State := match homeDie key with
  | none => s
  | some h =>
    let line := key % 2 ^ 36 / 128
    let t := (s.die h).l2
    if t.any (·.1 == line) then s.onDie h fun x => { x with l2 := x.l2.put line s.cycle }
    else
      let here := t.filter fun e => l2Set (128 * e.1) == l2Set (128 * line)
      let out := if here.length < 16 then none else lruOf (here.filter fun e => !s.pinnedL2.contains (2 ^ 29 * h + e.1))
      (s.countDie h 12 1).onDie h fun x => { x with l2 := ((out.map fun v => x.l2.del v).getD x.l2).put line s.cycle }
/-- A diverted packet that has been delivered updates the latency table for its pair (R330). -/
def State.diverted (s : State) (p : Pkt) : State :=
  if p.rerouted && isCompute p.src && isCompute p.dst then s.pairUpdate (dieOfSite p.src) (dieOfSite p.dst) else s
/-- A FWD's packet reaches its die. -/
def State.mailed (s : State) (p : Pkt) : State := match p.fwd with
  | some q => (s.onDie (dieOfSite p.dst) fun x => { x with fwdq := x.fwdq ++ [q] }).diverted p
  | none => s.diverted p
/-- Put a packet into a list in the order of injection. -/
def Pkt.insert (p : Pkt) : List Pkt → List Pkt
  | [] => [p]
  | q :: t => if p.num < q.num then p :: q :: t else q :: p.insert t
/-- Die d sends die h a request that is performed at once (log 44): the packets of the request channel that d has sent to h before come
before it (R326). -/
def State.catchUp (s : State) (d h : Nat) : State :=
  ((s.onFabric.filter fun p => p.own == vcRequest && p.src == siteOf d && p.dst == siteOf h).foldl (fun l p => p.insert l) []).foldl
    (fun s p => (s.takePkt p).mailed p) s
/-- A request of die d reaches the home of a byte: the home L2 serves it (R286), and where it or its response is diverted the latency
table is updated (R330). -/
def State.visit (s : State) (d key : Nat) : State :=
  let t := ((homeDie key).map (s.catchUp d)).getD s |>.l2Touch key
  if t.links.all fun e => !e.2.failed then t
  else match homeDie key with
    | none => t
    | some h => if t.hops (siteOf h) 60 (siteOf d) = manhattan d h && t.hops (siteOf d) 60 (siteOf h) = manhattan d h then t else t.pairUpdate d h
def State.visitAt (s : State) (d pa : Nat) : State := match s.homeOf d pa with
  | some k => s.visit d k
  | none => s
/-- A request of die d for a byte is discarded: the way to the home, back from it, or from the home to its stack is cut, or for a byte of
the host the way to the die's host port (R291, R328, R329). -/
def State.cutOff (s : State) (d pa : Nat) : Bool :=
  !(s.links.all fun e => !e.2.failed) && match s.homeOf d pa with
    | none => false
    | some k => match homeDie k with
      | none => (s.hostPortOf d).any fun x => !s.routeOk (siteOf d) x || !s.routeOk x (siteOf d)
      | some h => !s.dieReach d h
          || (!(s.die h).l2.any (·.1 == k % 2 ^ 36 / 128) && !s.routeOk (siteOf h) (homeSite h))

/-! ## Translation -/

/-- Where the windows begin (R154). -/
def windowBase : Nat := 0xFFFF00000000
/-- Outcome of a walk (R305). -/
inductive Walk where
  | ok (pa : Nat) (leaf : TlbEntry)
  | noMap
  | denied
  | notPresent (page size : Nat)
  deriving DecidableEq, Repr

/-- The permissions an access needs (R304, R305): attribute bits r 1, w 2, x 4. -/
def accNeeds : AccKind → Nat
  | .load | .engRead => 1
  | .store | .engWrite | .spill => 2
  | .atomic => 3
  | .fetch => 4
/-- The kind field of a fault record (R309). -/
def accCode : AccKind → Nat
  | .load => 0 | .store => 1 | .atomic => 2 | .fetch => 3 | .engRead => 4 | .engWrite => 5 | .spill => 6
/-- Bytes of a page by size class. -/
def pageBytes (size : Nat) : Nat := 2 ^ (16 + 8 * size)

/-- One level after another of the page walk (R303, R304). -/
def State.walkFrom (s : State) (d va : Nat) (kind : AccKind) : List Nat → Nat → Walk
  | [], _ => .noMap
  | l :: rest, table =>
    if !paOk table || paKind table == 3 then .noMap
    else
      let at_ := table + 8 * bits va (40 - 8 * l) 8
      if s.poisoned d at_ || s.cutOff d at_ then .noMap
      else
        let e := s.homeN d at_ 8
        if bits e 0 1 = 0 || bits e 48 16 != 0 || bits e 7 4 != 0 then .noMap
        else if bits e 1 1 = 1 then
          if l = 0 then .noMap
          else
            let size := 3 - l
            if bits e 2 1 = 0 then .notPresent (va / pageBytes size * pageBytes size) size
            else
              let frame := bits e 11 37 * 2048
              if frame % pageBytes size != 0 || !paOk frame then .noMap
              else
                let attr := bits e 3 3 + 8 * bits e 6 1
                let pa := frame + va % pageBytes size
                if attr &&& accNeeds kind != accNeeds kind then .denied
                else if (s.homeOf d pa).isNone then .noMap
                else .ok pa { va := va / pageBytes size * pageBytes size, size := size, frame := frame, attr := attr }
        else if l = 3 || bits e 6 1 != 0 || bits e 2 1 != 0 then .noMap
        else s.walkFrom d va kind rest (bits e 11 37 * 2048)

/-- A walk from the die's translation root. -/
def State.walk (s : State) (d va : Nat) (kind : AccKind) : Walk :=
  s.walkFrom d va kind [0, 1, 2, 3] (bits (s.die d).troot.toNat 0 48)
/-- The table entries that a walk reads, in order: down to a leaf, or to an entry that maps nothing. -/
def State.entriesFrom (s : State) (d va : Nat) : List Nat → Nat → List Nat
  | [], _ => []
  | l :: rest, table =>
    if !paOk table || paKind table == 3 then []
    else
      let at_ := table + 8 * bits va (40 - 8 * l) 8
      let e := s.homeN d at_ 8
      at_ :: (if s.poisoned d at_ || s.cutOff d at_ || bits e 0 2 != 1 || bits e 48 16 != 0 then [] else s.entriesFrom d va rest (bits e 11 37 * 2048))
def State.entries (s : State) (d va : Nat) : List Nat := s.entriesFrom d va [0, 1, 2, 3] (bits (s.die d).troot.toNat 0 48)
/-- A walk asks for a table entry across a cut, so it is discarded (R329). -/
def State.walkCut (s : State) (d va : Nat) : Bool := !(s.links.all fun e => !e.2.failed) && (s.entries d va).any (s.cutOff d)
/-- A cached leaf serves an access. -/
def TlbEntry.serves (va : Nat) (kind : AccKind) (e : TlbEntry) : Bool :=
  e.va == va / pageBytes e.size * pageBytes e.size && e.attr &&& accNeeds kind == accNeeds kind
/-- The walker of a die reads the entries of a walk at their home L2s (R303). -/
def State.walkReads (s : State) (d va : Nat) : State := (s.entries d va).foldl (fun s a => s.visitAt d a) s
/-- The walk of an access of a cluster, or of a core, where no TLB serves it. -/
def State.cluWalks (s : State) (c va : Nat) (kind : AccKind) : State :=
  if windowBase ≤ va || (s.clu c).tlb.any (TlbEntry.serves va kind) then s else s.walkReads (c / 324) va
def State.coreWalks (s : State) (core va : Nat) (kind : AccKind) : State :=
  if (s.core core).utlb.any (TlbEntry.serves va kind) then s else s.cluWalks (core / 16) va kind

/-- A translation by a cluster: a cached leaf that allows the access serves it, and the tables are walked otherwise
(R306, log 11). -/
def State.translate (s : State) (c va : Nat) (kind : AccKind) : Walk :=
  match (s.clu c).tlb.find? (TlbEntry.serves va kind) with
  | some e => .ok (e.frame + va % pageBytes e.size) e
  | none => s.walk (c / 324) va kind

/-- A translation by a core: its micro-TLB first (R306). -/
def State.coreTranslate (s : State) (core va : Nat) (kind : AccKind) : Walk :=
  match (s.core core).utlb.find? (TlbEntry.serves va kind) with
  | some e => .ok (e.frame + va % pageBytes e.size) e
  | none => s.translate (core / 16) va kind

/-- The attributes that MISATTR compares (R305, R166): memory type and r, w, x. -/
def attrType (leaf : TlbEntry) : Nat × Nat :=
  (if leaf.attr / 8 = 1 then 2 else if paKind leaf.frame = 3 then 1 else 0, leaf.attr % 8)

/-! ## Caches -/

/-- A line as bytes. -/
def Line.byte (l : Line) (i : Nat) : Byte := l.data.extractLsb' (8 * i) 8
def Line.has (l : Line) (i : Nat) : Bool := l.valid.getLsbD i
def Line.put (l : Line) (i : Nat) (b : Byte) (dirty : Bool) : Line :=
  let m : BitVec 1024 := (255#1024) <<< (8 * i)
  { l with data := (l.data &&& ~~~m) ||| (b.setWidth 1024 <<< (8 * i)), valid := l.valid ||| (1#128 <<< i),
           dirty := if dirty then l.dirty ||| (1#128 <<< i) else l.dirty }
/-- Drop every byte that is not dirty. -/
def Line.dropClean (l : Line) : Line := { l with valid := l.dirty }

/-- A byte's address is served by the RDC of the die: homed elsewhere, or host memory (R288). -/
def State.remote (s : State) (d pa : Nat) : Bool := !s.homedOn d pa

/-- Clear the poison of the line when all of its bytes are written (R321). -/
def State.clearPoison (s : State) (d line : Nat) : State := match s.homeOf d (128 * line) with
  | some k => { s with poison := s.poison.set false (k / 128) false }
  | none => s

/-- Lines of which all 128 bytes are among some bytes written at home are no longer poisoned (R321). -/
def State.clearCovered (s : State) (d : Nat) (locs : List Loc) : State :=
  if s.poison.isEmpty then s
  else
    let pas := locs.filterMap fun l => match l with
      | .glob pa _ => some pa
      | .loc _ _ => none
    ((pas.map (· / 128)).eraseDups).foldl (fun s line =>
      if (List.range 128).all fun i => pas.contains (128 * line + i) then s.clearPoison d line else s) s

/-- Write bytes at their homes; a line whose 128 bytes are all written is no longer poisoned (R321). -/
def State.homeStore (s : State) (d pa : Nat) (l : List Byte) : State :=
  let s := ((List.range l.length).zip l).foldl (fun s p => s.homeWrite d (pa + p.1) p.2) s
  s.clearCovered d ((List.range l.length).map fun i => .glob (pa + i) false)
/-- Addresses of the lines that n bytes touch. -/
def linesOf (pa n : Nat) : List Nat := if n = 0 then [] else (List.range ((pa + n - 1) / 128 - pa / 128 + 1)).map fun k => 128 * (pa / 128 + k)
/-- Write the dirty bytes of an RDC line back to its home; they stay valid and clean (R288). A write-back that must cross a cut is
discarded (R329, log 44). -/
def State.rdcWriteBack (s : State) (d line : Nat) : State :=
  let l := (s.die d).rdc.get Line.empty line
  let s := if l.dirty == 0 || s.cutOff d (128 * line) then s
    else
      let s := s.visitAt d (128 * line)
      let s := (List.range 128).foldl (fun s i => if l.dirty.getLsbD i then s.homeWrite d (128 * line + i) (l.byte i) else s) s
      if l.dirty == BitVec.allOnes 128 then s.clearPoison d line else s
  s.onDie d fun x => { x with rdc := x.rdc.put line { l with dirty := 0 }, fifo := x.fifo.filter (· != line) }
/-- The bytes of a line put into a copy of it that keeps its dirty bytes. -/
def Line.merge (l : Line) (byte : Nat → Option Byte) : Line := (List.range 128).foldl (fun (a : Line) i =>
  if a.dirty.getLsbD i then a else match byte i with
    | some b => a.put i b false
    | none => a) l
/-- Fetch a line into the RDC; dirty bytes stay as they are, and a line poisoned at its home brings none (R288, R321). A line of which
no byte is valid is a miss (R368). -/
def State.rdcFill (s : State) (d line : Nat) : State :=
  let l := (s.die d).rdc.get Line.empty line
  let s := if l.valid == 0 then s.countDie d 13 1 else s
  let s := s.visitAt d (128 * line)
  let l' := l.merge fun i => if s.poisoned d (128 * line) then none else some (s.homeRead d (128 * line + i))
  s.onDie d fun x => { x with rdc := x.rdc.put line { l' with filled := s.cycle, used := s.cycle } }
/-- The least recently used of the lines of a set that may go, when the set has `ways` lines and the new one is not among them. -/
def victimOf (t : Tbl Line) (sets ways line : Nat) (stays : Nat → Bool) : Option Nat :=
  let here := t.filter fun e => e.1 % sets == line % sets && (e.2.valid != 0 || e.2.dirty != 0)
  if here.length < ways || here.any (·.1 == line) then none
  else lruOf ((here.filter fun e => !stays e.1).map fun e => (e.1, e.2.used))
/-- Make room for a line in the RDC: 8,192 sets of 16 (R288, log 15); pinned lines stay (R254). -/
def State.rdcRoom (s : State) (d line : Nat) : State := match victimOf (s.die d).rdc 8192 16 line (s.stays d) with
  | some v => (s.rdcWriteBack d v).onDie d fun x => { x with rdc := x.rdc.del v }
  | none => s
/-- A line of the RDC is used. -/
def State.rdcUse (s : State) (d line : Nat) : State :=
  s.onDie d fun x => { x with rdc := x.rdc.put line { x.rdc.get Line.empty line with used := s.cycle } }
/-- Read a byte through the RDC. -/
def State.rdcRead (s : State) (d pa : Nat) : Byte × State :=
  let l := (s.die d).rdc.get Line.empty (pa / 128)
  if l.has (pa % 128) then (l.byte (pa % 128), s.rdcUse d (pa / 128))
  else
    let s := (s.rdcRoom d (pa / 128)).rdcFill d (pa / 128)
    (((s.die d).rdc.get Line.empty (pa / 128)).byte (pa % 128), s)
/-- A line with a byte written into it: it enters the FIFO with its first dirty byte (R194, R288), and a line that the write
allocates counts as filled then. -/
def Line.store (l : Line) (cycle i : Nat) (b : Byte) : Line :=
  { l.put i b true with
    used := cycle, since := if l.dirty == 0 then cycle else l.since, filled := if l.valid == 0 then cycle else l.filled }
/-- Write a byte into the RDC: valid and dirty, in the FIFO of 4,096 lines once dirty (R288). -/
def State.rdcWrite (s : State) (d pa : Nat) (b : Byte) : State :=
  let s := s.rdcRoom d (pa / 128)
  let l := (s.die d).rdc.get Line.empty (pa / 128)
  let s := if l.dirty == 0 && decide (4096 ≤ (s.die d).fifo.length) then
      match (s.die d).fifo with
      | o :: _ => s.rdcWriteBack d o
      | [] => s
    else s
  s.onDie d fun x => { x with rdc := x.rdc.put (pa / 128) (l.store s.cycle (pa % 128) b),
                              fifo := if l.dirty == 0 then x.fifo ++ [pa / 128] else x.fifo }

/-- Below the L1: the RDC for lines homed elsewhere, the home L2 otherwise. -/
def State.lowRead (s : State) (d pa : Nat) (uc : Bool) : Byte × State :=
  if uc || s.homedOn d pa then (s.homeRead d pa, s.visitAt d pa) else s.rdcRead d pa
def State.lowWrite (s : State) (d pa : Nat) (uc : Bool) (b : Byte) : State :=
  if uc || s.homedOn d pa then (s.visitAt d pa).homeWrite d pa b else s.rdcWrite d pa b
/-- A whole line from below the L1: the bytes that it brings. -/
def State.lowLine (s : State) (d line : Nat) : (Nat → Option Byte) × State :=
  if s.homedOn d (128 * line) then
    let s := s.visitAt d (128 * line)
    (fun i => if s.poisoned d (128 * line) then none else some (s.homeRead d (128 * line + i)), s)
  else
    let s := if ((s.die d).rdc.get Line.empty line).valid == BitVec.allOnes 128 then s.rdcUse d line
      else (s.rdcRoom d line).rdcFill d line
    let l := (s.die d).rdc.get Line.empty line
    (fun i => if l.has i then some (l.byte i) else none, s)

/-- Bytes of the L1 carve of a core's cluster, in 32 KiB (R190). -/
def State.carve (s : State) (core : Nat) : Nat := (s.clu (core / 16)).carve
/-- Write the dirty bytes of an L1 line back (R194). -/
def State.l1WriteBack (s : State) (core line : Nat) : State :=
  let l := (s.core core).l1.get Line.empty line
  let d := core / 16 / 324
  let home := s.homedOn d (128 * line)
  let s := if l.dirty == 0 || (home && s.cutOff d (128 * line)) then s
    else if home then
      let s := s.visitAt d (128 * line)
      let s := (List.range 128).foldl (fun s i => if l.dirty.getLsbD i then s.homeWrite d (128 * line + i) (l.byte i) else s) s
      if l.dirty == BitVec.allOnes 128 then s.clearPoison d line else s
    else (List.range 128).foldl (fun s i => if l.dirty.getLsbD i then s.rdcWrite d (128 * line + i) (l.byte i) else s) s
  s.onCore core fun x => { x with l1 := x.l1.put line { l with dirty := 0 }, fifo := x.fifo.filter (· != line) }
/-- Make room in the L1: four-way, least recently used; the evicted line's tag is kept once for R187. -/
def State.l1Room (s : State) (core line : Nat) : State :=
  match victimOf (s.core core).l1 (64 * s.carve core) 4 line (fun _ => false) with
  | some v => (s.l1WriteBack core v).onCore core fun x =>
      let tags := x.victims.filter (· != v) ++ [v]
      { x with l1 := x.l1.del v, victims := tags.drop (tags.length - 64) }
  | none => s
/-- Bring a line into the L1: a miss fills the whole line (R194). -/
def State.l1Fill (s : State) (core line : Nat) : State :=
  let s := s.l1Room core line
  let r := s.lowLine (core / 16 / 324) line
  let l := ((r.2.core core).l1.get Line.empty line).merge r.1
  r.2.onCore core fun x => { x with l1 := x.l1.put line { l with filled := s.cycle, used := s.cycle } }
/-- A miss on a line with a kept tag is a victim hit (R187). -/
def State.victimHit (s : State) (core line : Nat) : State :=
  if (s.core core).victims.contains line then
    (s.onCore core fun x => { x with victims := x.victims.filter (· != line), hits := x.hits + 1 }).countCore core 7 1
  else s
/-- Read a byte through the L1. `hit` says that misses may count as victim hits (R187). -/
def State.l1Read (s : State) (core pa : Nat) (uc hit : Bool) : Byte × State :=
  if s.carve core = 0 || uc then s.lowRead (core / 16 / 324) pa uc
  else
    let line := pa / 128
    let l := (s.core core).l1.get Line.empty line
    if l.has (pa % 128) then
      (l.byte (pa % 128), s.onCore core fun x => { x with l1 := x.l1.put line { l with used := s.cycle } })
    else
      let s := (if hit then s.victimHit core line else s).l1Fill core line
      (((s.core core).l1.get Line.empty line).byte (pa % 128), s)
/-- Write a byte through the L1: a store allocates without fetching; the FIFO holds 256 lines (R194). -/
def State.l1Write (s : State) (core pa : Nat) (uc : Bool) (b : Byte) : State :=
  if s.carve core = 0 || uc then s.lowWrite (core / 16 / 324) pa uc b
  else
    let line := pa / 128
    let s := s.l1Room core line
    let l := (s.core core).l1.get Line.empty line
    let s := if l.dirty == 0 && decide (256 ≤ (s.core core).fifo.length) then
        match (s.core core).fifo with
        | o :: _ => s.l1WriteBack core o
        | [] => s
      else s
    s.onCore core fun x => { x with l1 := x.l1.put line (l.store s.cycle (pa % 128) b),
                                    fifo := if l.dirty == 0 then x.fifo ++ [line] else x.fifo }

/-- Drain the L1's dirty lines (R170, R194); invalidate its clean bytes. -/
def State.l1Drain (s : State) (core : Nat) : State := (s.core core).fifo.foldl (fun s l => s.l1WriteBack core l) s
def State.l1Invalidate (s : State) (core : Nat) : State :=
  if (s.core core).l1.isEmpty then s
  else s.onCore core fun x => { x with l1 := x.l1.map fun e => (e.1, e.2.dropClean) }
/-- Drain the RDC (R289), with its event of R302. -/
def State.rdcDrain (s : State) (d : Nat) : State :=
  let n := (s.die d).fifo.length
  ((s.die d).fifo.foldl (fun s l => s.rdcWriteBack d l) s).emitDie 0x62 d (n % 4096)
/-- Invalidate every RDC byte that is not dirty (R289). -/
def State.rdcInvalidate (s : State) (d : Nat) : State :=
  let s := if (s.die d).rdc.isEmpty then s
    else s.onDie d fun x => { x with rdc := x.rdc.map fun e => (e.1, e.2.dropClean) }
  s.emitDie 0x63 d ((s.die d).fifo.length % 4096)

/-- Scopes by number: 0 .warp, 1 .blk, 2 .die, 3 .dev, 4 .sys. Release and acquire actions of R170 by a core; the CXL
actions of .sys find nothing outstanding in this model (R291, log 3). -/
def State.release (s : State) (core scope : Nat) : State :=
  let s := if 1 ≤ scope then s.l1Drain core else s
  if 3 ≤ scope then s.rdcDrain (core / 16 / 324) else s
def State.acquire (s : State) (core scope : Nat) : State :=
  let s := if 1 ≤ scope then s.l1Invalidate core else s
  if 3 ≤ scope then s.rdcInvalidate (core / 16 / 324) else s

/-- Step 1 of R293: dirty bytes of the line go home, the line's clean bytes are dropped, in the L1 and the RDC. -/
def State.flushLine (s : State) (core pa : Nat) : State :=
  let line := pa / 128
  let d := core / 16 / 324
  let s := if (s.core core).l1.any (·.1 == line) then
      (s.l1WriteBack core line).onCore core fun x => { x with l1 := x.l1.del line } else s
  if (s.die d).rdc.any (·.1 == line) then
    (s.rdcWriteBack d line).onDie d fun x => { x with rdc := x.rdc.del line } else s

/-- Engine writes go home and drop the byte in the RDC of the engine's die unless it is dirty there (R292). -/
def State.engWrite (s : State) (d pa : Nat) (b : Byte) : State :=
  let s := (s.visitAt d pa).homeWrite d pa b
  let l := (s.die d).rdc.get Line.empty (pa / 128)
  if l.has (pa % 128) && !l.dirty.getLsbD (pa % 128) then
    s.onDie d fun x => { x with rdc := x.rdc.put (pa / 128) { l with valid := l.valid &&& ~~~(1#128 <<< (pa % 128)) } }
  else s

/-! ## Local memory -/

/-- Key of a byte of a core's local space (192 KiB and the lent register file behind it). -/
def localKey (core off : Nat) : Nat := 2 ^ 48 + 2 ^ 18 * core + off
def rowKey (core off : Nat) : Nat := 4096 * core + off / 64
def State.rowOk (s : State) (core off : Nat) : Bool := s.rowValid.get false (rowKey core off)
/-- Write a local byte; a row whose valid bit is clear is zeroed first (R191). -/
def State.localWrite (s : State) (core off : Nat) (b : Byte) : State :=
  let s := if s.rowOk core off then s
    else
      let s := (List.range 64).foldl (fun s i => s.poke (localKey core (off / 64 * 64 + i)) 0) s
      { s with rowValid := s.rowValid.set false (rowKey core off) true }
  s.poke (localKey core off) b
def State.localRead (s : State) (core off : Nat) : Byte := s.peek (localKey core off)

/-- The active cores of a heat class in increasing number (R195). -/
def activeCores (heat : Nat) : List Nat :=
  (List.range 16).filter fun c => if heat = 0 then true else if heat = 1 then (c / 4 + c % 4) % 2 == 0
    else c / 4 % 2 == 0 && c % 4 % 2 == 0
/-- Lender n of an active core (R195). -/
def lenderOf (heat core n : Nat) : Option Nat :=
  let row := core / 4
  let col := core % 4
  if heat = 1 then (if n = 1 then some (4 * row + (if col % 2 = 0 then col + 1 else col - 1)) else none)
  else if heat = 2 then
    (if n = 1 then some (4 * row + col + 1) else if n = 2 then some (4 * (row + 1) + col)
     else if n = 3 then some (4 * (row + 1) + col + 1) else none)
  else none

/-- Where a virtual byte lies (R154), for a core of a block's cluster. -/
inductive Place where
  | global
  /-- A byte of a core's local space: %core of the cluster, and the offset. -/
  | row (core off : Nat)
  /-- A violation: 1 out of range, 3 not lending (R192, R199). -/
  | bad (reason : Nat)
  deriving DecidableEq, Repr

def clusterWindow : Nat := 0xFFFF01000000

/-- The block's own run on a core (R189). -/
def Block.run (b : Block) (core x : Nat) : Place :=
  if x < b.localSize then .row core (64 * b.rowBase.get 0 core + x) else .bad 1
/-- Cluster window (R154, R197). -/
def Block.inCluster (b : Block) (o : Nat) : Place :=
  let c := o / 0x100000
  let x := o % 0x100000
  if Config.localBytes ≤ x then .bad 1
  else if (activeCores b.heat).contains c then b.run c x
  else .row c x
/-- Place of one byte for a warp on %core `core`. -/
def Block.place (b : Block) (core va : Nat) : Place :=
  if va < windowBase then .global
  else if va < windowBase + 0x100000 then
    let o := va - windowBase
    if o < 0x40000 then (if Config.localBytes ≤ o then .bad 1 else b.run core o)
    else match lenderOf b.heat core (o / 0x40000) with
      | some l => .row l (o % 0x40000)
      | none => .bad 3
  else if clusterWindow ≤ va && va < clusterWindow + 0x1000000 then b.inCluster (va - clusterWindow)
  else .bad 1
/-- Place of one byte for an engine: global memory and the cluster window only (R221). -/
def Block.enginePlace (b : Block) (va : Nat) : Place :=
  if va < windowBase then .global
  else if clusterWindow ≤ va && va < clusterWindow + 0x1000000 then b.inCluster (va - clusterWindow)
  else .bad 1
/-- The cluster-window address of a local-window address (R232), for RKINIT, ACRD and ACWR; none for a register-file
window, an out-of-range part or a lender the class does not give. -/
def Block.toCluster (b : Block) (core va : Nat) : Option Nat :=
  if va < windowBase then some va
  else if va < windowBase + 0x100000 then
    let o := va - windowBase
    if Config.localBytes ≤ o % 0x40000 then none
    else if o < 0x40000 then some (clusterWindow + 0x100000 * core + o)
    else (lenderOf b.heat core (o / 0x40000)).map fun l => clusterWindow + 0x100000 * l + o % 0x40000
  else if clusterWindow ≤ va && va < clusterWindow + 0x1000000 && (va - clusterWindow) % 0x100000 < Config.localBytes then some va
  else none

/-! ## Resolving an access -/

/-- Outcome of resolving the bytes of one access. -/
inductive Reach where
  | ok (locs : List Loc)
  /-- Lowest byte on a page with no mapping or denied. -/
  | noMap (va : Nat)
  | notPresent (va : Nat)
  | misattr
  | bad (reason : Nat)
  deriving DecidableEq, Repr

/-- Bytes of the global space, for a core: one translation for each 64 KiB of VA they touch (R163, R166). -/
def State.reachGlobal (s : State) (core va n : Nat) (kind : AccKind) : Reach :=
  let cut := (va / 65536 + 1) * 65536
  let locs := fun (pa : Nat) (leaf : TlbEntry) k => (List.range k).map fun i => Loc.glob (pa + i) (leaf.attr / 8 == 1)
  if va + n ≤ cut then
    match s.coreTranslate core va kind with
    | .ok pa leaf => .ok (locs pa leaf n)
    | .noMap | .denied => .noMap va
    | .notPresent _ _ => .notPresent va
  else
    match s.coreTranslate core va kind, s.coreTranslate core cut kind with
    | .ok p l, .ok p' l' =>
      if attrType l = attrType l' then .ok (locs p l (cut - va) ++ locs p' l' (va + n - cut)) else .misattr
    | .noMap, _ | .denied, _ => .noMap va
    | _, .noMap | _, .denied => .noMap cut
    | .notPresent _ _, _ => .notPresent va
    | _, .notPresent _ _ => .notPresent cut

/-- Bytes of the windows, on the places given: the violations of R192 in their order. Row validity is tested when `reads`
(R191). -/
def State.reachLocal (s : State) (core : Nat) (places : List Place) (reads : Bool) : Reach :=
  let rows := places.filterMap fun p => match p with
    | .row c o => some (core / 16 * 16 + c, o)
    | .global | .bad _ => none
  if places.contains (.bad 1) then .bad 1
  else if reads && rows.any fun r => !s.rowOk r.1 r.2 then .bad 2
  else if rows.length < places.length then .bad 3
  else .ok (rows.map fun r => .loc r.1 r.2)
/-- Bytes of any space, for a warp on a core (unit number) of a block. The global space ends where the windows begin, so the
global bytes come first; they are translated before the others are tested (R163). -/
def State.reach (s : State) (core : Nat) (b : Block) (va n : Nat) (kind : AccKind) (reads : Bool) : Reach :=
  let places := (List.range n).map fun i => b.place (core % 16) (va + i)
  let k := (places.filter (· == .global)).length
  if k = n then s.reachGlobal core va n kind
  else if k = 0 then s.reachLocal core places reads
  else match s.reachGlobal core va k kind, s.reachLocal core (places.drop k) reads with
    | .ok l, .ok l' => .ok (l ++ l')
    | .ok _, r => r
    | r, _ => r

/-- Read and write one resolved byte from a core. -/
def State.readLoc (s : State) (core : Nat) (hit : Bool) : Loc → Byte × State
  | .loc c o => (s.localRead c o, s)
  | .glob pa uc => s.l1Read core pa uc hit
def State.writeLoc (s : State) (core : Nat) (b : Byte) : Loc → State
  | .loc c o => s.localWrite c o b
  | .glob pa uc => s.l1Write core pa uc b
/-- Bring in what the bytes of an access lie on. An access then reads each line as it stands at one time: a line that is fetched for one
of its bytes brings the others (R167, R288). -/
def State.fetchLocs (s : State) (core : Nat) (hit : Bool) (l : List Loc) : State := l.foldl (fun s x => (s.readLoc core hit x).2) s
/-- Read bytes, lowest first. -/
def State.readEach (s : State) (core : Nat) (hit : Bool) : List Loc → List Byte × State
  | [] => ([], s)
  | l :: t =>
    let r := s.readLoc core hit l
    let r' := r.2.readEach core hit t
    (r.1 :: r'.1, r'.2)
/-- Read the bytes of an access, lowest first. -/
def State.readLocs (s : State) (core : Nat) (hit : Bool) (l : List Loc) : List Byte × State := (s.fetchLocs core hit l).readEach core hit l
/-- Write the bytes of an access, lowest first. -/
def State.writeLocs (s : State) (core : Nat) : List (Loc × Byte) → State
  | [] => s
  | (l, b) :: t => (s.writeLoc core b l).writeLocs core t
/-- A byte is held by the core's L1 or by its die's RDC, so that a read of it asks no home. -/
def State.heldNear (s : State) (core : Nat) : Loc → Bool
  | .glob pa uc => !uc && (((s.core core).l1.get Line.empty (pa / 128)).has (pa % 128)
      || ((s.die (core / 16 / 324)).rdc.get Line.empty (pa / 128)).has (pa % 128))
  | .loc _ _ => true
/-- The poisoned lines on which bytes lie, by physical address (R321). -/
def State.poisonAt (s : State) (core : Nat) (locs : List Loc) : List Nat :=
  locs.filterMap fun l => match l with
    | .glob pa _ => if s.heldNear core l || !s.poisoned (core / 16 / 324) pa then none else some (pa / 128 * 128)
    | .loc _ _ => none
/-- A byte lies where requests of the core's die are discarded (R329). -/
def State.locCut (s : State) (core : Nat) : Loc → Bool
  | .glob pa _ => s.cutOff (core / 16 / 324) pa
  | .loc _ _ => false
/-- The bytes that a store of a core performs at their homes: those that pass the L1 and the RDC. -/
def State.writesHome (s : State) (core : Nat) : Loc → Bool
  | .glob pa uc => uc || (s.carve core == 0 && s.homedOn (core / 16 / 324) pa)
  | .loc _ _ => false

end Sys2Proof.Machine
end

