-- ==== Sys2Proof/Machine/Operands.lean ====
section
/-!
DEFINITION. The operands of warp words: registers, pairs, predicates and masks (R13, R30), the guard (R14, R140), the
scoreboard (R54), and the addresses of access words (R153).
-/
namespace Sys2Proof.Machine

/-- An N-bit pattern read as signed. -/
def toSigned (n x : Nat) : Int := if x < 2 ^ (n - 1) then x else (x : Int) - 2 ^ n
/-- The N-bit pattern of an integer. -/
def pattern (n : Nat) (x : Int) : Nat := (x % (2 ^ n : Int)).toNat

/-! ## Registers -/

/-- V(r) of a lane. -/
def Warp.V (w : Warp) (r i : Nat) : Word := w.v.get 0 (16 * r + i)
/-- VPair(r) of a lane. -/
def Warp.VP (w : Warp) (r i : Nat) : DWord := pair (w.V r i) (w.V (r + 1) i)
/-- S(r) and SPair(r). -/
def Warp.S (w : Warp) (r : Nat) : Word := w.s.get 0 r
def Warp.SP (w : Warp) (r : Nat) : DWord := pair (w.S r) (w.S (r + 1))
/-- Lane predicate p as a mask; p7 reads true in every lane (R13). -/
def Warp.P (w : Warp) (p : Nat) : Mask := if p = 7 then BitVec.allOnes 16 else w.p.get 0 p
/-- Uniform predicate; q7 reads true. -/
def Warp.Q (w : Warp) (q : Nat) : Bool := if q = 7 then true else w.q.get false q

/-- The lanes, lowest first. -/
def lanes : List Nat := List.range 16
/-- Lanes of a mask, lowest first. -/
def lanesOf (m : Mask) : List Nat := lanes.filter fun i => m.getLsbD i
/-- Mask from a test on lanes. -/
def maskOf (f : Nat → Bool) : Mask := lanes.foldl (fun m i => if f i then m ||| (1#16 <<< i) else m) 0

/-- Write a lane register in the lanes of a mask. -/
def Warp.setV (w : Warp) (r : Nat) (m : Mask) (f : Nat → Word) : Warp :=
  { w with v := (lanesOf m).foldl (fun t i => t.set 0 (16 * r + i) (f i)) w.v }
/-- Write a pair in the lanes of a mask. -/
def Warp.setVP (w : Warp) (r : Nat) (m : Mask) (f : Nat → DWord) : Warp :=
  (w.setV r m fun i => loHalf (f i)).setV (r + 1) m fun i => hiHalf (f i)
/-- Write a uniform register or pair. -/
def Warp.setS (w : Warp) (r : Nat) (x : Word) : Warp := { w with s := w.s.set 0 r x }
def Warp.setSP (w : Warp) (r : Nat) (x : DWord) : Warp := (w.setS r (loHalf x)).setS (r + 1) (hiHalf x)
/-- Write a lane predicate in the lanes of a mask; p7 discards (R13). -/
def Warp.setP (w : Warp) (p : Nat) (m : Mask) (x : Mask) : Warp :=
  if p = 7 then w else { w with p := w.p.set 0 p ((w.P p &&& ~~~m) ||| (x &&& m)) }
def Warp.setQ (w : Warp) (q : Nat) (x : Bool) : Warp := if q = 7 then w else { w with q := w.q.set false q x }

/-! ## Paths -/

/-- The path at issue. -/
def Warp.path (w : Warp) : Option Path := if w.cur then w.b else w.a
def Warp.other (w : Warp) : Option Path := if w.cur then w.a else w.b
/-- Change the other path. -/
def Warp.onOther (w : Warp) (f : Path → Path) : Warp := if w.cur then { w with a := w.a.map f } else { w with b := w.b.map f }
def Warp.setPath (w : Warp) (p : Option Path) : Warp := if w.cur then { w with b := p } else { w with a := p }
/-- Change the path at issue. -/
def Warp.onPath (w : Warp) (f : Path → Path) : Warp := w.setPath (w.path.map f)
/-- The handler-active bit and the slot of the trapping path (R56). -/
def Warp.handling (w : Warp) : Bool := w.tcause.getLsbD 8
def Warp.trapSlot (w : Warp) : Bool := w.tcause.getLsbD 7
/-- The path of a slot. -/
def Warp.slotPath (w : Warp) (slot : Bool) : Option Path := if slot then w.b else w.a
/-- A slot's path is held: the other path is in a handler (R45, R55). -/
def Warp.heldSlot (w : Warp) (slot : Bool) : Bool := ((w.slotPath slot).map Path.held).getD false
/-- The held path is ready again (R58, R129). -/
def Warp.unhold (w : Warp) : Warp :=
  { w with a := w.a.map fun p => { p with held := false }, b := w.b.map fun p => { p with held := false } }
/-- The handler is over (R58, R129): it is no longer active, and the held path is ready. -/
def Warp.leaveHandler (w : Warp) : Warp :=
  { w.unhold with tcause := w.tcause &&& ~~~(0x100 : Word), delivery := 0, recHold := false }

/-! ## Guards and groups -/

/-- Lanes whose guard passes (R14). -/
def Warp.guardMask (w : Warp) (g : Guard) : Mask := if g.neg then ~~~(w.P g.p.toNat) else w.P g.p.toNat
/-- Active lanes of a guarded word on a path (R30). -/
def Warp.admitted (w : Warp) (p : Path) (g : Guard) : Mask := p.mask &&& ~~~w.lfm &&& w.guardMask g
/-- The guard of a uniform word passes. -/
def Warp.passes (w : Warp) (g : Guard) : Bool := w.Q g.p.toNat != g.neg

/-- %seam fields (R134). -/
def Warp.bound (w : Warp) : Bool := w.seam.getLsbD 0
/-- Lanes per group and limb width of the binding. -/
def Warp.groupN (w : Warp) : Nat := 2 ^ (1 + bits w.seam.toNat 2 2)
def Warp.limbW (w : Warp) : Nat := if w.seam.getLsbD 4 then 64 else 32
/-- Lanes of group g for n lanes per group. -/
def groupLanes (n g : Nat) : List Nat := (List.range n).map (g * n + ·)
def groupMask (n g : Nat) : Mask := maskOf fun i => i / n == g
/-- The groups of a binding. -/
def groups (n : Nat) : List Nat := List.range (16 / n)
/-- Lanes of the groups, with a lane in the path, whose path lanes differ in a mask (R140). -/
def Warp.splitGroups (w : Warp) (p : Path) (x : Mask) : Mask :=
  let live := p.mask &&& ~~~w.lfm
  (groups w.groupN).foldl (fun m g =>
    let l := groupMask w.groupN g &&& live
    if l &&& x != 0 && l &&& x != l then m ||| groupMask w.groupN g else m) 0
/-- Lanes of the divergent groups of a guarded word; none while unbound (R140). -/
def Warp.divergent (w : Warp) (p : Path) (g : Guard) : Mask :=
  if w.bound then w.splitGroups p (w.guardMask g) else 0

/-! ## The scoreboard -/

/-- Some register is pending (R54). -/
def Warp.blocked (w : Warp) (regs : List RegRef) : Bool := w.pend.any fun p => p.regs.any regs.contains
/-- The predicates that read true are no registers: p7 and q7 are never pending (R13, R43). -/
def RegRef.kept (r : RegRef) : Bool := r != .p 7 && r != .q 7
/-- Add an operation in flight. -/
def Warp.addOp (w : Warp) (regs : List RegRef) (flag : Option Nat) (kind : PendKind) (seam load mem fp : Bool) (ovf : Mask) : Warp :=
  let pc := (w.path.map (·.pc)).getD 0
  { w with pend := w.pend ++ [{ regs := regs.filter RegRef.kept, pc := pc, flag := flag, tag := w.nextTag, kind := kind, seam := seam,
                                load := load, mem := mem, fp := fp, ovf := ovf,
                                owner := (w.path.map Path.mask).getD 0, undo := [] }],
           nextTag := w.nextTag + 1,
           f := match flag with
             | some k => w.f.set 0 k (w.f.get 0 k + 1)
             | none => w.f }
def Warp.addPend (w : Warp) (regs : List RegRef) (flag : Option Nat) (kind : PendKind) : Warp :=
  w.addOp regs flag kind false false false false 0
/-- A word that reads %fpmode. -/
def Warp.addFp (w : Warp) (regs : List RegRef) (flag : Option Nat) (kind : PendKind) : Warp :=
  w.addOp regs flag kind false false false true 0
/-- A load or atomic; `load` marks a global LD or ATOM. -/
def Warp.addMem (w : Warp) (regs : List RegRef) (flag : Option Nat) (load : Bool) : Warp :=
  w.addOp regs flag .counted false load true false 0
/-- What some lane registers hold in the lanes of a mask. -/
def Warp.heldIn (w : Warp) (regs : List RegRef) (m : Mask) : List (Nat × Word) :=
  regs.flatMap fun r => match r with
    | .v n => (lanesOf m).map fun i => (16 * n + i, w.V n i)
    | .p _ | .s _ | .q _ => []
/-- The latest operation in flight keeps what its lane registers held in `old` (R129). -/
def Warp.remember (w old : Warp) (regs : List RegRef) (m : Mask) : Warp :=
  { w with pend := w.pend.dropLast ++ (w.pend.getLast?.map fun o => { o with undo := old.heldIn regs m }).toList }
/-- The register writes of operations in flight are discarded in the lanes of a mask (R129). -/
def Warp.discard (w : Warp) (m : Mask) : Warp :=
  let gone := fun (e : Nat × Word) => m.getLsbD (e.1 % 16)
  { w with v := (w.pend.flatMap fun o => o.undo.filter gone).foldl (fun t e => t.set 0 e.1 e.2) w.v
           pend := w.pend.map fun o => { o with undo := o.undo.filter fun e => !gone e }
           parts := w.parts.map fun p => { p with loads := p.loads.filter fun l => !(l.lane.any m.getLsbD) } }
/-- A load's bytes, lowest first as a number, go to its registers: extended with the sign where it has one (R156). -/
def Warp.putLoad (w : Warp) (l : LoadPart) (x : Nat) : Warp :=
  let v := match l.sign with
    | some n => pattern 32 (toSigned n x)
    | none => x
  (List.range l.k).foldl (fun w j =>
    let y := BitVec.ofNat 32 (v / 2 ^ (32 * j))
    match l.lane with
    | some i => w.setV (l.reg + j) (1#16 <<< i) fun _ => y
    | none => w.setS (l.reg + j) y) w
/-- An operation completes: its pending bits clear and its flag goes down (R17, R54). -/
def Warp.complete (w : Warp) (tag : Nat) : Warp :=
  match w.pend.find? (·.tag == tag) with
  | none => w
  | some p => { w with pend := w.pend.filter (·.tag != tag),
                       f := match p.flag with
                         | some k => w.f.set 0 k (w.f.get 0 k - 1)
                         | none => w.f }
/-- A unit has answered: what is left is the counted completion. -/
def Warp.answered (w : Warp) (tag : Nat) : Warp :=
  { w with pend := w.pend.map fun p => if p.tag == tag then { p with kind := .counted } else p }
/-- Flag A or B of the clause at issue, when it names one: the codes 12 to 14, which only a written %tcause brings, name none (log 79). -/
def flagOf (f : BitVec 4) : Option Nat := if f.toNat ≤ 11 then some f.toNat else none
def Warp.flagA (w : Warp) : Option Nat := (w.path.bind (·.clause)).bind fun c => flagOf c.fa
def Warp.flagB (w : Warp) : Option Nat := (w.path.bind (·.clause)).bind fun c => flagOf c.fb
/-- A flag at its limit of 63 holds the word (R17). -/
def Warp.atLimit (w : Warp) (flag : Option Nat) : Bool := match flag with
  | some k => decide (63 ≤ w.f.get 0 k)
  | none => false

/-- References of a register or pair in either width. -/
def vRef (t : Wd) (r : Reg) : List RegRef := match t with
  | .w32 => [.v r.toNat]
  | .w64 => [.v r.toNat, .v (r.toNat + 1)]
def sRef (t : Wd) (r : Reg) : List RegRef := match t with
  | .w32 => [.s r.toNat]
  | .w64 => [.s r.toNat, .s (r.toNat + 1)]
def vPair (r : Reg) : List RegRef := [.v r.toNat, .v (r.toNat + 1)]
def sPair (r : Reg) : List RegRef := [.s r.toNat, .s (r.toNat + 1)]
def vQuad (r : Reg) : List RegRef := (List.range 4).map fun k => .v (r.toNat + k)
/-- Width of a type. -/
def wdOf (wide : Bool) : Wd := if wide then .w64 else .w32

/-- A lane operand of either width as a number. -/
def Warp.vNat (w : Warp) (t : Wd) (r : Reg) (i : Nat) : Nat := match t with
  | .w32 => (w.V r.toNat i).toNat
  | .w64 => (w.VP r.toNat i).toNat
/-- Write a number, modulo the width, to a register or pair in the lanes of a mask. -/
def Warp.putV (w : Warp) (t : Wd) (r : Reg) (m : Mask) (f : Nat → Nat) : Warp := match t with
  | .w32 => w.setV r.toNat m fun i => BitVec.ofNat 32 (f i)
  | .w64 => w.setVP r.toNat m fun i => BitVec.ofNat 64 (f i)
def Warp.sNat (w : Warp) (t : Wd) (r : Reg) : Nat := match t with
  | .w32 => (w.S r.toNat).toNat
  | .w64 => (w.SP r.toNat).toNat
def Warp.putS (w : Warp) (t : Wd) (r : Reg) (x : Nat) : Warp := match t with
  | .w32 => w.setS r.toNat (BitVec.ofNat 32 x)
  | .w64 => w.setSP r.toNat (BitVec.ofNat 64 x)

/-- Bits of an operand width. -/
def wdBits : Wd → Nat
  | .w32 => 32
  | .w64 => 64

/-! ## Addresses (R153) -/

/-- Address of a lane of an LM word. -/
def Warp.laneAddr (w : Warp) (va : Reg) (ab : BitVec 3) (scale : Nat) (disp : BitVec 6) (i : Nat) : Addr :=
  w.SP (2 * ab.toNat) + (w.V va.toNat i).signExtend 64 + BitVec.ofNat 64 (scale * disp.toNat)

end Sys2Proof.Machine
end

