-- ==== Sys2Proof/Machine/Flags.lean ====
section
/-!
DEFINITION. %fpmode and %fpstat (R63, R64), the sticky fields of %seam (R134), and the fields of %tcause (R56).
-/
namespace Sys2Proof.Machine

/-- IEEE flags raised by an operation. -/
structure FFlags where
  nv : Bool
  dz : Bool
  ovf : Bool
  uf : Bool
  nx : Bool
  deriving DecidableEq, Repr

def FFlags.none : FFlags := ⟨false, false, false, false, false⟩
def FFlags.invalid : FFlags := ⟨true, false, false, false, false⟩
def FFlags.divZero : FFlags := ⟨false, true, false, false, false⟩
def FFlags.or (a b : FFlags) : FFlags := ⟨a.nv || b.nv, a.dz || b.dz, a.ovf || b.ovf, a.uf || b.uf, a.nx || b.nx⟩

/-- The bits of %fpstat that flags set (R64). -/
def FFlags.word (f : FFlags) : Word :=
  BitVec.ofNat 32 (f.nv.toNat + 2 * f.dz.toNat + 4 * f.ovf.toNat + 8 * f.uf.toNat + 16 * f.nx.toNat)
/-- SetFlags (R30). -/
def Warp.setFlags (w : Warp) (f : FFlags) : Warp := { w with fpstat := w.fpstat ||| f.word }

/-- Rounding modes (R63, R65). -/
inductive Rm where
  | rne
  | rtz
  | rup
  | rdn
  deriving DecidableEq, Repr

def rmOf (n : Nat) : Rm := if n = 0 then .rne else if n = 1 then .rtz else if n = 2 then .rup else .rdn
/-- %fpmode fields (R63). -/
def Warp.rm (w : Warp) : Rm := rmOf (bits w.fpmode.toNat 0 2)
def Warp.ftz (w : Warp) : Bool := w.fpmode.getLsbD 2
def Warp.fpinv (w : Warp) : Bool := w.fpmode.getLsbD 3
/-- The mode a CVT or FXCVT names, or the default (R106, R152). -/
def rmSel (dflt : Rm) : RmSel → Rm
  | .dflt => dflt
  | .rne => .rne
  | .rtz => .rtz
  | .rup => .rup
  | .rdn => .rdn

/-- %seam sticky bits and controls (R134). -/
def Warp.setOvf (w : Warp) : Warp := { w with seam := w.seam ||| 0x100 }
def Warp.setLost (w : Warp) : Warp := { w with seam := w.seam ||| 0x800 }
def Warp.ovfen (w : Warp) : Bool := w.seam.getLsbD 9
def Warp.wmode (w : Warp) : Bool := w.seam.getLsbD 10

/-- %tcause from its fields (R56). -/
def tcauseOf (fa fb idx len : Nat) (boundary slot : Bool) (cause : Nat) : Word :=
  BitVec.ofNat 32 (fa * 2 ^ 28 + fb * 2 ^ 24 + idx * 2 ^ 20 + len * 2 ^ 16 + boundary.toNat * 2 ^ 15 + 2 ^ 8 + slot.toNat * 2 ^ 7 + cause)

/-- A USW value that a field map forbids (R28): reserved bits or codes of %tcause (R56), %fpmode (R63), %fpstat (R64),
%seam (R134), or a %quantum above 255 (R25). -/
def uswBad (n : Nat) (x : Word) : Bool :=
  if n = 0x0A then decide (255 < x.toNat)
  else if n = 0x0C then bits x.toNat 12 20 != 0 || bits x.toNat 5 3 != 0
  else if n = 0x0E then bits x.toNat 4 28 != 0
  else if n = 0x0F then bits x.toNat 5 27 != 0
  else if n = 0x12 then bits x.toNat 9 6 != 0 || bits x.toNat 5 2 != 0 || decide (12 ≤ bits x.toNat 0 5)
  else false

end Sys2Proof.Machine
end

