-- ==== Sys2Proof/Machine/Ops.lean ====
section
/-!
DEFINITION. The shared operations of warp words: how a word issues and how its path goes on (R16, R44, R126), taking a
trap and returning from one (R55 to R60), block faults (R315), switching lanes off (R50, R141), page faults (R163, R307
to R312), splits (R48), parking and filling (R49 to R53).
-/
namespace Sys2Proof.Machine

/-- What a meaning answers. -/
abbrev Out := Host.Outcome State Fault Refusal
/-- The state that an effect answers. -/
def stateOf (s : State) : Out → State
  | .next t => t
  | .fault _ | .refused _ => s

/-- The block, core and partition of the warp at issue. -/
def State.myBlk (s : State) : Block := s.blk s.w.blk
def State.myCore (s : State) : Nat := coreOf s.w.uid
def State.myClu (s : State) : Nat := cluOf s.w.uid
def State.myDie (s : State) : Nat := dieOf s.w.uid
/-- The word of an instruction, as a trap reports it. -/
def wordOf (i : Instr) : Word := (encode i).getD 0

/-- The word at issue waits (R16), for a reason of R374 and its producer PC. -/
def State.stallOn (s : State) (why : Nat) (pc : Addr) : State := s.onW fun w => { w with stalled := true, why := (why, pc) }
/-- It waits for a unit. -/
def State.stall (s : State) : State := s.stallOn 12 0
/-- Address of the first operation in flight that meets a test, and of the last. -/
def Warp.producer (w : Warp) (f : Pend → Bool) : Addr := ((w.pend.find? f).map (·.pc)).getD 0
def Warp.lastProducer (w : Warp) (f : Pend → Bool) : Addr := ((w.pend.reverse.find? f).map (·.pc)).getD 0
/-- It waits on a flag at its limit (R17). -/
def State.stallFlag (s : State) (flag : Option Nat) : State := s.stallOn 5 (s.w.lastProducer fun p => p.flag == flag)
/-- It waits for a seam word in flight. -/
def State.stallSeam (s : State) : State := s.stallOn 4 (s.w.producer fun p => p.seam)

/-! ## Crossing accesses (R168) -/

/-- Read what is left of a load, and write its registers. -/
def State.partLoad (s : State) (u : Nat) (l : LoadPart) : State :=
  let r := l.todo.foldl (fun (a : List Byte × State) t =>
    let x := a.2.readLoc (coreOf u) l.lane.isSome t.2
    (a.1.set t.1 x.1, x.2)) (l.got, s.fetchLocs (coreOf u) l.lane.isSome (l.todo.map (·.2)))
  r.2.onWarp u fun w => w.putLoad l (ofBytes r.1)
/-- Perform stores; whole lines written at their homes are no longer poisoned (R321). -/
def State.storeLocs (s : State) (core : Nat) (l : List (Loc × Byte)) : State :=
  (s.writeLocs core l).clearCovered (core / 16 / 324) ((l.map (·.1)).filter (s.writesHome core))
/-- Perform those parts of a warp's crossing accesses that meet a test. -/
def State.performParts (s : State) (u : Nat) (which : Part → Bool) : State :=
  let ps := (s.warp u).parts.filter which
  if ps.isEmpty then s
  else
    let s := ps.foldl (fun s p => (p.loads.foldl (fun s l => s.partLoad u l) s).storeLocs (coreOf u) p.stores) s
    s.onWarp u fun w => { w with parts := w.parts.filter fun p => !which p }

/-! ## Fetching, and paths that are ready -/

/-- What an instruction fetch finds (R19). -/
inductive Fetch where
  | word (x : Word)
  | bad
  | absent
  /-- The fabric discards the request, or that of its walk (R329). -/
  | cut
  deriving DecidableEq, Repr

/-- The word at an address, as a translation on die d finds it. -/
def State.fetchBy (s : State) (d a : Nat) (walk : Walk) : Fetch :=
  if windowBase ≤ a || a % 4 != 0 then .bad
  else match walk with
    | .ok pa _ => if s.cutOff d pa then .cut else .word (BitVec.ofNat 32 (s.homeN d pa 4))
    | .notPresent _ _ => .absent
    | .noMap | .denied => if s.walkCut d a then .cut else .bad
/-- The word that a warp on a core fetches at an address. -/
def State.fetch (s : State) (core : Nat) (a : Nat) : Fetch := s.fetchBy (core / 16 / 324) a (s.coreTranslate core a .fetch)

/-- A byte that an access of a core asks another die or the stack for (log 44): a read of what the L1 and the RDC do not hold, a write
that passes them, an atomic. -/
def State.asks (s : State) (kind : AccKind) (l : Loc) : Bool := match kind with
  | .load => !s.heldNear s.myCore l
  | .store => s.writesHome s.myCore l
  | .atomic | .fetch | .engRead | .engWrite | .spill => true
/-- An access makes a request that the fabric discards (R329). -/
def State.severedLane (s : State) (kind : AccKind) (locs : List Loc) : Bool := locs.any fun l => s.locCut s.myCore l && s.asks kind l
/-- A run of n words: the words, or the first address that cannot be fetched, with the mark of an absent page. -/
def State.fetchRun (s : State) (core : Nat) : Nat → Nat → List Word ⊕ (Nat × Bool)
  | _, 0 => .inl []
  | a, n + 1 => match s.fetch core a with
    | .bad | .cut => .inr (a, false)
    | .absent => .inr (a, true)
    | .word x => match s.fetchRun core (a + 4) n with
      | .inl l => .inl (x :: l)
      | .inr r => .inr r
/-- The flags that hold the clause at an address (R15, R45). -/
def State.waitMask (s : State) (core : Nat) (pc : Addr) : BitVec 12 := match s.fetch core pc.toNat with
  | .word x => match decodeWord x with
    | .ok (.clause wait _ _ _) => wait
    | _ => 0
  | .bad | .absent | .cut => 0
/-- The tree barriers of a partition (R338). -/
def State.tree (s : State) (p tb : Nat) : TreeBar := (s.part p).trees.get TreeBar.fresh tb
def State.onTree (s : State) (p tb : Nat) (f : TreeBar → TreeBar) : State :=
  s.onPart p fun x => { x with trees := x.trees.put tb (f (x.trees.get TreeBar.fresh tb)) }
/-- A tree barrier as a cluster sees it: until the release of a phase has reached the cluster, the phase is not released there
(R340, R346). -/
def State.treeSeen (s : State) (p tb c : Nat) : TreeBar :=
  let t := s.tree p tb
  if t.left.contains c then { t with phase := t.phase - 1, mret := t.mretOld } else t
/-- A warp's latest arrival is not yet released (R343). -/
def TreeBar.waits (t : TreeBar) (w : Warp) (tb : Nat) : Bool := decide (t.phase < w.tbArr.get 0 tb)
/-- An access of a path with the mask `m` is one of this path's (R168, R171): they share a lane. A path that MarkLane has emptied inside its
clause has none left to tell its accesses by, so it goes on after every one of the warp, and any path after those it issues (log 70). -/
def Path.owns (p : Path) (m : Mask) : Bool := m == 0 || p.mask == 0 || m &&& p.mask != 0
/-- A path's FENCE waits: a load or atomic that the path has issued, as its lanes tell (R171), is in flight (R169). -/
def Warp.fenceWaits (w : Warp) (p : Path) (ord : FenceOrd) : Bool := ord != .rel && w.pend.any fun o => o.mem && p.owns o.owner
/-- What a path inside its clause can be held by while the other path issues (R169, R341). -/
inductive Inner where
  | free
  | fence
  | arrive
  deriving DecidableEq, Repr
/-- The hold of the next word of a path inside its clause. -/
def State.inner (s : State) (w : Warp) (p : Path) : Inner :=
  match (p.clause.bind fun c => c.words.head?).map decodeWord with
  | some (.ok (.fence g ord _)) => if w.passes g && w.fenceWaits p ord then .fence else .free
  | some (.ok (.tbarrive g tb)) =>
    if w.passes g && (s.treeSeen (s.launch (s.blk w.blk).launch).part tb.toNat (cluOf w.uid)).waits w tb.toNat then .arrive else .free
  | _ => .free
/-- A path stands at a clause boundary. -/
def atBoundary (p : Option Path) : Bool := match p with
  | some x => x.clause.isNone
  | none => true
/-- Memory holds entries and fewer than four are on chip (R52). -/
def Warp.needsRefill (w : Warp) : Bool := decide (w.stk.length < 4) && decide (0 < w.below) && !w.recHold
/-- A warp's path in a slot can start its next clause or go on in one, as far as its waits go (R45). -/
def State.pathCan (s : State) (w : Warp) (slot : Bool) : Bool :=
  match w.slotPath slot with
  | none => false
  | some p =>
    !p.held &&
      (if p.clause.isSome then s.inner w p == .free
       else p.waits.isEmpty && (List.range 12).all fun k => !(s.waitMask (coreOf w.uid) p.pc).getLsbD k || w.f.get 0 k == 0)
/-- A warp starts no further clause: it is stopped, wound up, saved, or its block's start has not come. -/
def State.startsNone (s : State) (w : Warp) : Bool :=
  w.stopped || w.winding || (s.blk w.blk).saving || (s.blk w.blk).hold.isSome
/-- A warp's path in a slot is ready (R45); a refill of the divergence stack keeps it waiting (R180). -/
def State.pathReady (s : State) (w : Warp) (slot : Bool) : Bool :=
  s.pathCan w slot && (!atBoundary (w.slotPath slot) || (!s.startsNone w && !w.needsRefill))
/-- A warp is ready (R180). -/
def State.ready (s : State) (u : Nat) : Bool :=
  let w := s.warp u
  !w.ended && !w.frozen && w.susp.isNone && (s.pathReady w false || s.pathReady w true)

/-! ## Block faults -/

/-- A requester leaves a fault entry (R315, R317). -/
def State.leaveEntry (s : State) (d : Nat) : Option Nat → State
  | some e => s.onDie d fun x => match x.fct.get none e with
    | some f => { x with fct := x.fct.put e (some { f with waiters := f.waiters - 1 }) }
    | none => x
  | none => s
/-- A warp that is wound up (R315): one suspended on a page fault leaves its entry and stands where it is, as does a path that a
TBARRIVE holds; the others stop at their next boundary. -/
def State.windUp (s : State) (u : Nat) : State :=
  let w := s.warp u
  let s := s.leaveEntry (dieOf u) (w.susp.bind (·.entry))
  let stay := fun (p : Path) => { p with held := p.held || s.inner w p == .arrive }
  s.onWarp u fun w => { w with winding := true, frozen := w.frozen || w.susp.isSome, susp := none, a := w.a.map stay, b := w.b.map stay }
/-- A block ends by fault (R60, R315): the first fault stands; its warps are to stop and its streams stop at their next
word. -/
def State.blockFault (s : State) (b : Nat) (x : ExitInfo) : State :=
  let s := s.onBlk b fun k => { k with fault := some (k.fault.getD x), m := { k.m with stopped := true },
                                        c := { k.c with stopped := true } }
  (s.blk b).warps.foldl (fun s u => s.windUp u) s

/-- The waits of a warp: those of its paths, and those of paths that have ended. -/
def Warp.waits (w : Warp) : List Wait := ((w.a.map (·.waits)).getD []) ++ ((w.b.map (·.waits)).getD []) ++ w.orphans
/-- A wait that outlives its path: all but TWAIT. -/
def Wait.outlives : Wait → Bool
  | .twait _ _ => false
  | .arriving _ _ | .barw _ _ _ | .awaitf _ _ _ | .tbar _ _ _ _ | .rendez _ | .hfree _ => true
/-- Lanes of every path, entry and waiting arrival leave (R50); records in memory follow at the next boundary (R53). A path with
no lane left empties its slot at its clause boundary: the words of a clause that has started all issue (R16, log 63). -/
def Warp.dropLanes (w : Warp) (m : Mask) : Warp :=
  let goes := fun (p : Path) => p.clause.isNone && p.mask &&& ~~~m == 0
  let cut := fun (p : Option Path) => match p with
    | some p => if goes p then none else some { p with mask := p.mask &&& ~~~m }
    | none => none
  let left := fun (p : Option Path) => match p with
    | some q => if goes q then q.waits.filter Wait.outlives else []
    | none => []
  { w with
    a := cut w.a, b := cut w.b, orphans := w.orphans ++ left w.a ++ left w.b
    stk := w.stk.map fun e => match e with
      | .frame j k r o => .frame j (k &&& ~~~m) (r &&& ~~~m) o
      | .pending pc k j => .pending pc (k &&& ~~~m) j
    delivery := if w.handling then w.delivery &&& ~~~m else w.delivery
    gone := w.gone ||| m
    updates := w.updates ++ (List.range w.below).map fun k => ⟨k, m⟩ }

/-- A warp ends: no lane of it remains (R51, R129). Its barriers count it no longer (R207) and its event is WEND. -/
def Warp.endNow (w : Warp) : Warp :=
  { w with a := none, b := none, orphans := w.waits.filter Wait.outlives, stk := [], below := 0, updates := [], ended := true, active := false }

/-! ## Barriers (R207, R210) -/

/-- Warps of a block that have not ended. -/
def State.liveWarps (s : State) (b : Nat) : List Nat := (s.blk b).warps.filter fun u => !(s.warp u).ended
/-- The status that BARW writes to s55 (R210). -/
def State.barStatus (s : State) (b : Nat) (err : Bool) : Word :=
  let k := s.blk b
  BitVec.ofNat 32 (err.toNat + 2 * (decide (k.m.st = .halted)).toNat + 4 * (decide (k.c.st = .halted)).toNat)
/-- A RENDEZ wait. -/
def Wait.isMeeting : Wait → Bool
  | .rendez _ => true
  | .arriving _ _ | .barw _ _ _ | .awaitf _ _ _ | .twait _ _ | .tbar _ _ _ _ | .hfree _ => false
/-- Drop some waits of a warp. -/
def Warp.dropWaits (w : Warp) (gone : Wait → Bool) : Warp :=
  let drop := fun (p : Path) => { p with waits := p.waits.filter fun x => !gone x }
  { w with a := w.a.map drop, b := w.b.map drop, orphans := w.orphans.filter fun x => !gone x }
/-- The tags of the BARWs of a warp that wait on a phase. -/
def Warp.barTags (w : Warp) (nb phase : Nat) : List Nat := w.waits.filterMap fun x => match x with
  | .barw n p t => if n = nb && p = phase then some t else none
  | .arriving _ _ | .awaitf _ _ _ | .twait _ _ | .tbar _ _ _ _ | .rendez _ | .hfree _ => none
/-- A wait is for one of some operations in flight. -/
def Wait.isTag (tags : List Nat) : Wait → Bool
  | .arriving _ t | .barw _ _ t | .awaitf _ _ t | .tbar _ _ _ t | .hfree t => tags.contains t
  | .twait _ _ | .rendez _ => false
/-- A BARW of a warp ends (R208): status, acquire at block scope, and the order of R216. -/
def State.barWake (s : State) (nb phase : Nat) (knows : Known) (err : Bool) (u : Nat) : State :=
  let tags := (s.warp u).barTags nb phase
  if tags.isEmpty then s
  else
    let st := s.barStatus (s.warp u).blk err
    (s.onWarp u fun w => (tags.foldl (fun w t => w.complete t) ((w.setS 55 st).dropWaits (Wait.isTag tags))).learns knows).acquire (coreOf u) 1
/-- A stream comes after what an agent of its block has come after. -/
def Stream.after (t : Stream) (x : Known) : Stream := { t with knows := t.knows.join x }
/-- A store comes before what an agent that knows `x` does next (R217). A store of another block's warp is taken to (log 10). -/
def StoreNote.known (o : StoreNote) (x : Known) : Bool := match o.warp with
  | some i => decide (o.num ≤ x.ops.get 0 i)
  | none => true
/-- The matrix stream passes a waiting barrier, or starts (R216, R217). -/
def Block.passed (k : Block) (x : Known) : Block :=
  let m := k.m.after x
  { k with m := m, stores := k.stores.filter fun o => !o.known m.knows, operands := [] }
/-- The phase of a barrier completes (R207), with its event of R219; its waiting warps and streams go on. -/
def State.barComplete (s : State) (b nb : Nat) (err : Bool) : State :=
  let r := (s.blk b).bars.get Bar.fresh nb
  let s := s.onBlk b fun k =>
    { k with bars := k.bars.put nb { Bar.fresh with phase := r.phase + 1, err := err } }
  let s := s.emitClu 0x31 (cluOfBlk b) (nb + 16 * err.toNat + 64 * (b % 4))
  let s := (s.blk b).warps.foldl (fun s u => s.barWake nb r.phase r.knows err u) s
  let go := fun (t : Stream) => { t with wait := none }
  s.onBlk b fun k =>
    let k := if k.m.wait == some (nb, r.phase) then { (k.passed r.knows) with m := go (k.m.after r.knows) } else k
    if k.c.wait == some (nb, r.phase) then { k with c := go (k.c.after r.knows) } else k
/-- The end of a warp lowers E of the phases that all-warps arrivals opened (R207). -/
def State.barWarpEnded (s : State) (b : Nat) : State :=
  (List.range 16).foldl (fun s nb =>
    let r := (s.blk b).bars.get Bar.fresh nb
    if r.arrivals = 0 || !r.allWarps then s
    else
      let s := s.onBlk b fun k => { k with bars := k.bars.put nb { r with expect := r.expect - 1 } }
      if r.expect - 1 ≤ r.arrivals then s.barComplete b nb false else s) s

/-- Exit-record fields of a fault tied to a warp. -/
def State.warpFault (s : State) (u code tcause : Nat) (esc : Bool) (pc info : DWord) (lanes_ : Mask) : State :=
  s.blockFault (s.warp u).blk { code := code, warp := some (s.warp u).index, esc := esc, tcause := tcause, pc := pc,
                                info := info, lanes := lanes_, lfm := (s.warp u).lfm }

/-- The OR of %lfm over the warps of a block (R313). -/
def State.blockLfm (s : State) (b : Nat) : Mask := (s.blk b).warps.foldl (fun a u => a ||| (s.warp u).lfm) 0
/-- Exit-record fields of a block fault other than TRAPF that names no lanes. -/
def State.exitAt (s : State) (b : Nat) (warp : Option Nat) (pc : Addr) (code info : Nat) : ExitInfo :=
  { code := code, warp := warp.map fun u => (s.warp u).index, esc := false, tcause := 0, pc := pc, info := BitVec.ofNat 64 info,
    lanes := 0, lfm := s.blockLfm b }
/-- A request of the warp at issue that belongs to no word in issue is discarded: a fetch, or one for a record of its divergence stack
(R329). -/
def State.requestCut (s : State) (a : Nat) : State :=
  s.blockFault s.w.blk (s.exitAt s.w.blk (some s.w.uid) ((s.w.path.map (·.pc)).getD 0) 3 a)

/-- RENDEZ completes when every warp that has not ended has issued it and every stream is idle, ended or halted (R206). -/
def Stream.quiet (t : Stream) : Bool := t.st != .running
def streamCode : StreamState → Nat
  | .idle => 0
  | .running => 1
  | .ended => 2
  | .halted => 3
/-- A stream of a block changes state, with STRM (R219). -/
def State.streamTo (s : State) (b : Nat) (matrix : Bool) (f : Stream → Stream) : State :=
  let s := s.onBlk b fun k => if matrix then { k with m := f k.m } else { k with c := f k.c }
  let t := if matrix then (s.blk b).m else (s.blk b).c
  s.emitClu 0x32 (cluOfBlk b) (t.pc.toNat % 2 ^ 48 + streamCode t.st * 2 ^ 48 + (!matrix).toNat * 2 ^ 51)
/-- The meeting of a block, if it is complete: what was stored before it is seen after it, so the L1s of its cores are drained and
their clean bytes go; a port operation of the block comes before it (R206). -/
def State.meet (s : State) (b : Nat) : State :=
  let k := s.blk b
  let live := s.liveWarps b
  if k.met.isEmpty || live.isEmpty || !live.all (fun u => k.met.contains (s.warp u).index) || !k.m.quiet || !k.c.quiet
      || (s.clu (cluOfBlk b)).port.any (·.blk == b) then s
  else
    let s := k.warps.foldl (fun s u => s.performParts u fun _ => true) s
    let cores := (k.warps.map coreOf).eraseDups
    let s := cores.foldl (fun s c => s.l1Drain c) s
    let s := cores.foldl (fun s c => s.l1Invalidate c) s
    let back := fun (s : State) (mx : Bool) (t : Stream) => if t.st = .idle then s
      else s.streamTo b mx fun t => { t with st := .idle, era := t.era + 1, wait := none }
    let s := back (back s true k.m) false k.c
    let all : Known := ⟨(k.warps.map fun u => (s.warp u).index).foldl (fun t i => t.set 0 i k.oseq) [], k.mseq⟩
    let s := s.onBlk b fun k => { (k.passed all) with c := k.c.after all, met := [], errMode := false }
    live.foldl (fun s u => s.onWarp u fun w => (w.dropWaits Wait.isMeeting).learns all) s

/-- Age order of R183: placement cycle, launch seq, block index, warp index. -/
def State.age (s : State) (u : Nat) : List Nat :=
  let w := s.warp u
  let b := s.blk w.blk
  [b.placedAt, (s.launch b.launch).seq, b.index, w.index]
def lexLt : List Nat → List Nat → Bool
  | a :: as, b :: bs => decide (a < b) || (a == b && lexLt as bs)
  | [], _ :: _ => true
  | _, [] => false
/-- The oldest of some warps. -/
def State.oldest (s : State) (l : List Nat) : Option Nat :=
  l.foldl (fun a u => match a with
    | none => some u
    | some v => if lexLt (s.age u) (s.age v) then some u else some v) none
/-- Resident warps of a core, by position (R178). -/
def State.resident (s : State) (core : Nat) : List Nat :=
  ((List.range 16).map (16 * core + ·)).filter fun u => (s.warp u).placed && !(s.warp u).ended
/-- Pending warps of a core that are ready. -/
def State.readyPending (s : State) (core : Nat) : List Nat := (s.resident core).filter fun u => !(s.warp u).active && s.ready u
/-- The pending warp that the next swap brings in: the one that became ready while it went out, else the oldest ready one (R181,
R182). -/
def State.nextIn (s : State) (core : Nat) : Option Nat :=
  let l := s.readyPending core
  match (s.core core).nextSwap with
  | some u => if l.contains u then some u else s.oldest l
  | none => s.oldest l
/-- The core's swap unit is free (R181). -/
def State.swapUnit (s : State) (core : Nat) : Bool := decide ((s.core core).swapFree ≤ s.cycle)
/-- A swap or a fill begins, with WSWAP: for 2 cycles the warp that comes in does not issue (R179, R181), the cycle of the YIELD that swaps
included (R185, log 89). A swap uses the first candidate up (R182), a fill only where it brings that warp in. -/
def State.swapBegins (s : State) (core v out : Nat) (yield : Bool) : State :=
  let s := (s.onWarp v fun w => { w with active := true }).onCore core fun x =>
    { x with swapFree := s.cycle + 2, incoming := some v, nextSwap := if out = 0xFF && x.nextSwap != some v then x.nextSwap else none }
  (s.countUnit 0 core 5 1).emitCore 0x20 core (v % 16 + out * 256 + yield.toNat * 65536)
/-- An active position is free and a pending warp is there: the oldest ready one fills it, or the oldest (R179). -/
def State.warpFill (s : State) (core : Nat) : State :=
  let res := s.resident core
  if 8 ≤ (res.filter fun u => (s.warp u).active).length then s
  else match (s.oldest (s.readyPending core)).or (s.oldest (res.filter fun u => !(s.warp u).active)) with
    | none => s
    | some u => s.swapBegins core u 0xFF false
/-- An active warp changes places with the next pending warp, if there is one (R181, R185). One that is not ready yet is noted, since it
may become ready while it goes out (R182). -/
def State.swapOut (s : State) (u : Nat) (yield : Bool) : State := match s.nextIn (coreOf u) with
  | none => s
  | some v =>
    let s := s.onWarp u fun w => { w with active := false, yieldSwap := false }
    (s.onCore (coreOf u) fun x => { x with outgoing := if s.ready u then none else some u }).swapBegins (coreOf u) v (u % 16) yield

/-! ## Tree barriers (R338 to R346) -/

/-- The blocks of a launch on a cluster. -/
def State.gangOn (s : State) (c l : Nat) : List Nat := (s.placedOn c).filter fun b => (s.blk b).launch == l
/-- A warp's latest arrival is at the phase being collected. -/
def Warp.hasArrived (w : Warp) (tb phase : Nat) : Bool := w.tbArr.get 0 tb == phase + 1
/-- A block's arrival at a phase is complete (R341): all of its warps that have not ended have arrived; with no warp left, all
have. -/
def State.blockArrived (s : State) (b tb phase : Nat) : Bool :=
  let live := s.liveWarps b
  (if live.isEmpty then (s.blk b).warps else live).all fun u => (s.warp u).hasArrived tb phase
/-- A cluster's input (R339); once true it stays true for its phase. A block that has ended is on no cluster. -/
def State.treeInput (s : State) (p tb c : Nat) : Bool :=
  let t := s.tree p tb
  (s.clu c).retired || (s.clu c).excuse.get true tb || t.arrived.contains c
    || (s.gangOn c (t.gang.getD 0)).all fun b => s.blockArrived b tb t.phase
/-- Clusters of a partition whose excuse bit is clear. -/
def State.treeMembers (s : State) (p tb : Nat) : List Nat :=
  (s.clusters.filter fun e => !e.2.retired && !e.2.excuse.get true tb && s.partOf (e.1 / 324) == some p).map (·.1)
/-- Saved blocks of a launch (R318). -/
def State.savedOf (s : State) (l : Nat) : List Saved := s.dies.flatMap fun e => e.2.saved.filter (·.blk.launch == l)
/-- A cluster's input becomes true, with TBIN (R347). -/
def State.treeIn (s : State) (p tb c : Nat) (excused : Bool) : State :=
  let t := s.tree p tb
  (s.onTree p tb fun t => { t with arrived := c :: t.arrived }).emitClu 0x83 c (tb + t.phase % 65536 * 8 + excused.toNat * 2 ^ 19)
/-- Test the inputs of the tree barriers that a launch holds. -/
def State.treeTest (s : State) (l : Nat) : State :=
  let p := (s.launch l).part
  ((s.part p).trees.filter fun e => e.2.gang == some l).foldl (fun s e =>
    (s.treeMembers p e.1).foldl (fun s c =>
      if (s.tree p e.1).arrived.contains c || !s.treeInput p e.1 c || ((s.gangOn c l).isEmpty && !(s.savedOf l).isEmpty) then s
      else s.treeIn p e.1 c false) s) s

/-- The end of a warp (R51, R129): WEND, its barriers, its meeting. Its position is filled at the end of the cycle (R179). -/
def State.warpEnded (s : State) (u : Nat) (fault : Bool) : State :=
  let s := s.performParts u fun _ => true
  let b := (s.warp u).blk
  let s := (s.onWarp u fun w => { w.endNow with faulted := fault }).emitWarp 0x24 u ((s.warp u).lfm.toNat + 2 ^ 32 * fault.toNat)
  ((s.barWarpEnded b).meet b).treeTest (s.blk b).launch

/-! ## A word issues -/

/-- Payload of PLACE, BBEGIN, SAVED and RESTORED (R283, R323). -/
def State.placePayload (s : State) (b : Nat) : Nat :=
  let k := s.blk b
  k.index % 2 ^ 32 + cluOfBlk b % 324 * 2 ^ 32 + (s.launch k.launch).seq % 2 ^ 23 * 2 ^ 41
/-- The first word of a block's first warp begins the block (R272). -/
def State.beginBlock (s : State) : State :=
  if s.myBlk.begun then s
  else (s.onBlk s.w.blk fun k => { k with begun := true }).emitClu 0x52 s.myClu (s.placePayload s.w.blk)
/-- The word at issue counts as issued (R46, R180, R184, R368): lane words and uniform words. A word that traps or ends its block has
issued too (R16, R55; log 84). -/
def State.counted (s : State) (lane : Bool) : State :=
  let s := s.beginBlock
  let s := if lane then s.wakeIsland s.myCore else s
  let t := s.tick s.myDie
  let s := s.countCore s.myCore (if lane then 2 else 3) 1
  let log := s.watching
  s.onW fun w => { w with cnt := w.cnt + 1, waitCount := 0, readyCount := 0, ranAt := s.cycle + 1, yieldUntil := 0, stalled := false, failed := false, pushed := none,
                          issued := if log then (t :: w.issued).take 65535 else w.issued,
                          aftd := if w.stopTick.isSome then w.aftd + 1 else w.aftd }

/-! ## Traps -/

/-- Take a trap on the path at issue (R55 to R57): cause, lanes, detail, the address for %trpc, and the boundary bit. With
%tvec = 0, or a handler active, it escalates to a block fault (R60). With the boundary bit set, fa, fb, index and length of %tcause are
15, 15, 0 and 0, for the BADLAND of a transfer word inside a clause too (R56, log 77). -/
def State.trapAt (s : State) (cause : Nat) (m : Mask) (info : DWord) (pc : Addr) (boundary : Bool) : State :=
  let w := s.w
  let esc := w.tvec == 0 || w.handling
  let s := s.emitWarp 0x23 w.uid (pc.toNat % 2 ^ 48 + cause * 2 ^ 48 + esc.toNat * 2 ^ 53)
  if esc then
    (s.warpFault w.uid 1 cause w.handling pc info m).warpEnded w.uid true
  else
    let c := ((w.path.bind (·.clause)).getD ⟨0, 0, 15, 15, []⟩)
    let tc := if boundary then tcauseOf 15 15 0 0 true w.cur cause
      else tcauseOf c.fa.toNat c.fb.toNat c.idx.toNat c.len.toNat false w.cur cause
    s.onW fun w =>
      let w := { w with trpc := pc, tcause := tc, tlanes := m, tinfo := info, stalled := false, failed := false,
                        delivery := (w.path.map Path.mask).getD 0 }
      (w.onPath fun p => { p with pc := w.tvec, clause := none, src := pc }).onOther fun p => { p with held := true }
/-- A trap of the word at issue, a lane word or a uniform word: the word counts as issued (log 84), and %trpc holds its address. -/
def State.trap (s : State) (lane : Bool) (cause : Nat) (m : Mask) (info : DWord) : State :=
  (s.counted lane).trapAt cause m info ((s.w.path.map (·.pc)).getD 0) false
/-- The path's mask. -/
def Warp.pmask (w : Warp) : Mask := (w.path.map Path.mask).getD 0
/-- The top bit of a word tells a uniform word from a lane word (R12). -/
def laneClass (word : Word) : Bool := !word.msb
/-- ILLEGAL raised by a word (R28, R57); a CLAUSE word inside a body is not counted (R46). -/
def State.illegal (s : State) (word : Word) : State :=
  if bits word.toNat 24 8 = 0x80 then s.trapAt 1 s.w.pmask (word.setWidth 64) ((s.w.path.map (·.pc)).getD 0) false
  else s.trap (laneClass word) 1 s.w.pmask (word.setWidth 64)
/-- The path stands at a boundary where no CLAUSE word stands: BADLAND (R19, R57). -/
def State.badLanding (s : State) (p : Path) : State := s.trapAt 2 p.mask (p.src &&& 0xFFFFFFFFFFFF) p.pc true

/-! ## Going on after a word -/

/-- The end test of R126 at the end word `last`: the next PC and the loop levels. -/
def Warp.endTest (w : Warp) (last : Addr) : Nat → Addr × Warp
  | 0 => (last + 4, w)
  | k + 1 =>
    if w.depth = 0 then (last + 4, w)
    else
      let l := w.loops.get ⟨0, 0, 0⟩ (w.depth - 1)
      if l.le != last then (last + 4, w)
      else
        let l' := { l with lc := l.lc - 1 }
        let w' := { w with loops := w.loops.put (w.depth - 1) l' }
        if l'.lc != 0 then (l.ls, w') else ({ w' with depth := w.depth - 1 }).endTest last k

/-- The path's next word (R16): the next of the clause, or the address the end test gives after its last. -/
def Warp.advance (w : Warp) : Warp :=
  match w.path with
  | none => w
  | some p =>
    match p.clause with
    | none => w
    | some c =>
      if c.idx = c.len then
        let r := w.endTest p.pc 4
        r.2.setPath (some { p with pc := r.1, clause := none, src := p.pc })
      else w.setPath (some { p with pc := p.pc + 4, clause := some { c with idx := c.idx + 1, words := c.words.drop 1 } })
/-- A taken transfer of the whole path (R120). -/
def Warp.goTo (w : Warp) (t : Addr) : Warp := w.onPath fun p => { p with pc := t, clause := none, src := p.pc }

/-- The word has issued and its path goes on. -/
def State.done (s : State) (lane : Bool) : State := (s.counted lane).onW Warp.advance
/-- The word has issued and its path goes to t. -/
def State.jump (s : State) (t : Addr) : State := (s.counted false).onW fun w => w.goTo t

/-- A seam word in flight is to raise SEAMOVF when it completes, so no later word issues (R16, R144). -/
def Warp.overflowing (w : Warp) : Bool := w.ovfen && w.pend.any fun p => p.ovf != 0
/-- A word of a path inside its clause that waits for no register (R19, R54): `body` is its effect. `i` is the word. -/
def State.word (s : State) (regs : List RegRef) (body : Path → Clause → State) : State :=
  match s.w.path with
  | none => s
  | some p =>
    match p.clause with
    | none => s.badLanding p
    | some c => if s.w.blocked regs then s.stallOn 4 (s.w.producer fun p => p.regs.any regs.contains)
      else if s.w.overflowing then s.stallSeam else body p c

/-- A guarded lane word (R14, R140): `body` receives the path and the active lanes. A register number that the binding forbids
(`never`) makes the word ILLEGAL, and a state that forbids it (`bad`) when some lane is active (R28). -/
def State.laneBound (s : State) (i : Instr) (g : Guard) (regs : List RegRef) (never bad : Bool) (body : Path → Mask → State) : State :=
  s.word (.p g.p.toNat :: regs) fun p _ =>
    let m := s.w.admitted p g
    if never || (bad && m != 0) then s.illegal (wordOf i)
    else
      let d := s.w.divergent p g
      if d != 0 then s.trap true 5 d ((wordOf i).setWidth 64) else body p m
def State.laneChecked (s : State) (i : Instr) (g : Guard) (regs : List RegRef) (bad : Bool) (body : Path → Mask → State) : State :=
  s.laneBound i g regs false bad body
def State.laneWord (s : State) (i : Instr) (g : Guard) (regs : List RegRef) (body : Path → Mask → State) : State :=
  s.laneChecked i g regs false body
/-- An unguarded lane word (L4, and the opcodes whose guard field is an operand). -/
def State.plainWord (s : State) (regs : List RegRef) (body : Path → Mask → State) : State :=
  s.word regs fun p _ => body p (p.mask &&& ~~~s.w.lfm)
/-- A guarded uniform word: with a failed guard the path only goes on. -/
def State.uniWord (s : State) (g : Guard) (regs : List RegRef) (body : Path → State) : State :=
  s.word (.q g.p.toNat :: regs) fun p _ => if s.w.passes g then body p else s.done false
/-- A clause-ending word (R18): out of its place it raises ILLEGAL, whatever its guard (R28). -/
def State.ctlWord (s : State) (i : Instr) (g : Guard) (regs : List RegRef) (body : Path → State) : State :=
  s.word (.q g.p.toNat :: regs) fun p c =>
    if c.idx != c.len then s.illegal (wordOf i) else if s.w.passes g then body p else s.done false

/-- A lane word that only changes the warp's registers: `f` is the effect on the active lanes, `dst` the registers it
will have written (pending until RESULT_WRITTEN, R54, log 4). -/
def State.laneOp (s : State) (i : Instr) (g : Guard) (src dst : List RegRef) (f : Warp → Mask → Warp) : State :=
  s.laneWord i g (src ++ dst) fun _ m =>
    if m = 0 then s.done true
    else (s.onW fun w => (f w m).addPend dst none .timed).done true
/-- The same for an unguarded lane word. -/
def State.plainOp (s : State) (src dst : List RegRef) (f : Warp → Mask → Warp) : State :=
  s.plainWord (src ++ dst) fun _ m =>
    if m = 0 then s.done true
    else (s.onW fun w => (f w m).addPend dst none .timed).done true
/-- A uniform word that only changes the warp's registers. -/
def State.uniOp (s : State) (g : Guard) (src dst : List RegRef) (f : Warp → Warp) : State :=
  s.uniWord g (src ++ dst) fun _ => (s.onW fun w => (f w).addPend dst none .timed).done false

/-! ## Page faults of warps -/

/-- Append a fault record to a die's queue (R309). -/
def State.faultRecord (s : State) (d entry va size seq clu core warp kind : Nat) : State :=
  let x := s.die d
  let n := bits x.fq.toNat 48 8
  let at_ := bits x.fq.toNat 0 48 + x.fqwp.toNat % (32 * 2 ^ n)
  let s := s.pokeN at_ 8 (entry * 2 ^ 50 + size * 2 ^ 48 + va % 2 ^ 48)
  let s := s.pokeN (at_ + 8) 8 (d * 2 ^ 56 + seq % 2 ^ 24 * 2 ^ 32 + clu * 2 ^ 20 + core * 2 ^ 16 + warp * 2 ^ 8 + kind)
  let s := s.pokeN (at_ + 16) 8 (s.tick d)
  let s := s.pokeN (at_ + 24) 8 0
  s.onDie d fun x => { x with fqwp := x.fqwp + 32 }
/-- The fault queue can take a record (R309). -/
def Die.ringRoom (x : Die) : Bool :=
  x.fqSet && decide ((x.fqwp - x.fqrp).toNat < 32 * 2 ^ bits x.fq.toNat 48 8)
/-- A walk has ended at a not-present leaf (R308): join the open entry, open the lowest free one with its record and
interrupt, or wait untabled. Answers the entry's number. -/
def State.openFault (s : State) (d page size seq clu core warp kind : Nat) : Option Nat × State :=
  let x := s.die d
  let same := fun (e : Nat) => match x.fct.get none e with
    | some f => f.va == page
    | none => false
  match (List.range 256).find? same with
  | some e => (some e, s.onDie d fun x => { x with fct := x.fct.put e ((x.fct.get none e).map fun f => { f with waiters := min 0xFFFF (f.waiters + 1) }) })
  | none =>
    match (List.range 256).find? fun e => (x.fct.get none e).isNone with
    | some e =>
      if x.ringRoom then
        let s := s.onDie d fun x => { x with fct := x.fct.put e (some ⟨page, size, 1⟩) }
        let s := (s.faultRecord d e page size seq clu core warp kind).interrupt (.fault d e)
        (some e, (s.countDie d 14 1).emitDie 0x70 d (page % 2 ^ 48 + e * 2 ^ 48 + size * 2 ^ 56))
      else (none, s)
    | none => (none, s)
/-- The page and size class of a not-present outcome. -/
def Walk.absent : Walk → Option (Nat × Nat)
  | .notPresent page size => some (page, size)
  | .ok _ _ | .noMap | .denied => none
def Walk.page (x : Walk) : Nat × Nat := x.absent.getD (0, 0)
/-- The walk of the warp at issue for an address joins or opens the entry of its page, if that is not present (R308). -/
def State.openWalk (s : State) (va : Nat) (kind : AccKind) : Option Nat × State := match (s.coreTranslate s.myCore va kind).absent with
  | none => (none, s)
  | some pg => s.openFault s.myDie pg.1 pg.2 (s.launch s.myBlk.launch).seq (s.myClu % 324) (s.myCore % 16) (s.w.uid % 16) (accCode kind)
/-- Suspend the warp at issue on the page of an address (R311); a warp that is wound up or saved stands where it is and leaves
the entry (R315, R317). -/
def State.suspendOn (s : State) (soft : Bool) (va : Nat) (kind : AccKind) (m : Mask) : State :=
  let r := s.openWalk va kind
  if s.w.winding || s.myBlk.saving then (r.2.leaveEntry s.myDie r.1).onW fun w => { w with frozen := true, stalled := false }
  else r.2.onW fun w => { w with susp := some ⟨r.1, BitVec.ofNat 64 va, kind, m, soft⟩, stalled := false }
def State.suspend (s : State) (va : Nat) (kind : AccKind) (m : Mask) : State := s.suspendOn false va kind m

/-- A block fault raised by the word at issue, which performs nothing (R155, R163, R314). The words after it in the clause
issue (R16), and the warp stops at its next boundary (R315). -/
def State.wordFault (s : State) (lane : Bool) (code : Nat) (info : Nat) (m : Mask) : State :=
  let pc := (s.w.path.map (·.pc)).getD 0
  (s.blockFault s.w.blk { code := code, warp := some s.w.index, esc := false, tcause := 0, pc := pc, info := BitVec.ofNat 64 info,
                          lanes := m, lfm := s.blockLfm s.w.blk }).done lane

/-! ## Switching lanes off -/

/-- MarkLane for some lanes (R30, R50, R141), with LMARK events: `why` gives each lane's address and reason. While bound,
the whole groups go, the added lanes with reason 4. -/
def State.markLanes (s : State) (m : Mask) (why : Nat → Nat × Nat) : State :=
  if m = 0 then s
  else
    let w := s.w
    let all := if w.bound then (groups w.groupN).foldl (fun a g =>
        if groupMask w.groupN g &&& m != 0 then a ||| groupMask w.groupN g else a) 0 else m
    let s := (lanesOf (all &&& ~~~w.lfm)).foldl (fun s i =>
      let r := if m.getLsbD i then why i else (0, 4)
      s.emitWarp 0x21 w.uid (r.1 % 2 ^ 48 + i * 2 ^ 48 + r.2 * 2 ^ 56)) s
    let n := (lanesOf (all &&& ~~~w.lfm)).length
    (s.countCore s.myCore 6 n).onW fun w => { (w.dropLanes all) with lfm := w.lfm ||| all }
/-- The warp ends when its last lane is gone (R51, R129). -/
def State.lanesGone (s : State) : State :=
  if s.w.gone == BitVec.allOnes 16 && !s.w.ended then s.warpEnded s.w.uid false else s
/-- The lanes that go when these are marked. -/
def Warp.markSet (w : Warp) (m : Mask) : Mask :=
  if w.bound then (groups w.groupN).foldl (fun a g =>
    if groupMask w.groupN g &&& m != 0 then a ||| groupMask w.groupN g else a) 0 else m

/-! ## Landing points, splits -/

/-- What a transfer finds at its target (R19, R120). -/
inductive Landing where
  | good
  | bad
  | absent
  | cut
  deriving DecidableEq, Repr

/-- Test an address as a landing point for the warp at issue. -/
def State.landing (s : State) (t : Addr) : Landing := match s.fetch s.myCore t.toNat with
  | .word x => if bits x.toNat 24 8 = 0x80 then .good else .bad
  | .absent => if s.w.failed then .bad else .absent
  | .bad => .bad
  | .cut => .cut

/-- Bytes of a spill record (R52). -/
def Entry.record : Entry → List Byte
  | .frame j m r o => bytesOf 8 (2 * 0 + j.toNat % 2 ^ 48) ++ bytesOf 8 ((o.getD 0).toNat % 2 ^ 48) ++ bytesOf 16 m.toNat ++ bytesOf 16 r.toNat ++ bytesOf 16 0
  | .pending pc m j => bytesOf 8 (2 ^ 63 + pc.toNat % 2 ^ 48) ++ bytesOf 8 ((j.getD 0).toNat % 2 ^ 48) ++ bytesOf 16 m.toNat ++ bytesOf 16 0 ++ bytesOf 16 0
/-- An entry from a record; none when a reserved field is not 0 (R52, R53). The bits of the masks from %width on count as reserved
(log 78). -/
def Entry.ofRecord (l : List Byte) : Option Entry :=
  let q := fun k => ofBytes ((l.drop (8 * k)).take 8)
  let m := ofBytes ((l.drop 16).take 16)
  let r := ofBytes ((l.drop 32).take 16)
  if bits (q 0) 48 15 != 0 || bits (q 1) 48 16 != 0 || decide (65536 ≤ m) || decide (65536 ≤ r) || q 6 != 0 || q 7 != 0 then none
  else
    let link : Option Addr := if q 1 = 0 then none else some (BitVec.ofNat 64 (q 1))
    if bits (q 0) 63 1 = 1 then
      (if r = 0 then some (.pending (BitVec.ofNat 64 (bits (q 0) 0 48)) (BitVec.ofNat 16 m) link) else none)
    else some (.frame (BitVec.ofNat 64 (bits (q 0) 0 48)) (BitVec.ofNat 16 m) (BitVec.ofNat 16 r) link)

/-- Address of the record at a depth (R52). -/
def Warp.spillAt (w : Warp) (depth : Nat) : Nat := (w.spill.toNat + 64 * depth) % 2 ^ 64
/-- The bytes of a record, through translation, for the warp at issue. -/
def State.spillReach (s : State) (depth : Nat) (kind : AccKind) : Reach :=
  let a := s.w.spillAt depth
  if a < windowBase then
    s.reachGlobal s.myCore a 64 kind
  else .noMap a
/-- The fabric discards a request for a record (R329): the bytes' own, or that of the walk. -/
def State.spillCut (s : State) (kind : AccKind) : Reach → Bool
  | .noMap va => s.walkCut s.myDie va
  | .ok locs => s.severedLane kind locs
  | .notPresent _ | .misattr | .bad _ => false
/-- The walk for a record. -/
def State.spillWalks (s : State) (depth : Nat) (kind : AccKind) : State := s.coreWalks s.myCore (s.w.spillAt depth) kind
/-- Write a record. -/
def State.spillWrite (s : State) (locs : List Loc) (l : List Byte) : State := s.writeLocs s.myCore (locs.zip l)

/-- Push entries, the last of the list on top; a push that finds four on chip writes the lowest to memory first (R52). The
pushes are all made or none: the limit N and every spill address are tested first (R53). -/
def State.pushAll (s : State) (es : List Entry) (ok : State → State) : State :=
  let w := s.w
  let depth := w.stk.length + w.below
  let p := w.path
  let pc := (p.map (·.pc)).getD 0
  let spills := w.stk.length + es.length - 4
  if w.stackLimit < depth + es.length then (s.counted false).trapAt 10 w.pmask 0 pc false
  else
    let reaches := (List.range spills).map fun k => (w.below + k, s.spillReach (w.below + k) .spill)
    let cut := reaches.find? fun r => s.spillCut .store r.2
    let s := (List.range spills).foldl (fun s k => s.spillWalks (w.below + k) .spill) s
    if let some r := cut then s.wordFault false 3 (w.spillAt r.1) w.pmask
    else match reaches.find? fun r => match r.2 with
        | .noMap _ | .misattr | .bad _ => true
        | .ok _ | .notPresent _ => false with
    | some r => (s.counted false).trapAt 10 w.pmask (BitVec.ofNat 64 (w.spillAt r.1)) pc false
    | none =>
      match reaches.find? fun r => match r.2 with
          | .notPresent _ => true
          | .ok _ | .noMap _ | .misattr | .bad _ => false with
      | some r => s.suspend (w.spillAt r.1) .spill w.pmask
      | none =>
        let all := es.reverse ++ w.stk
        let out := (all.drop 4).reverse
        let s := (reaches.zip out).foldl (fun s r => match r.1.2 with
          | .ok locs => s.spillWrite locs r.2.record
          | .noMap _ | .notPresent _ | .misattr | .bad _ => s) s
        (ok (s.onW fun w => { w with stk := all.take 4, below := w.below + spills })).onW fun w =>
          { w with pushed := if spills = 0 then w.pushed else some pc }

/-- The distinct next PCs of some lanes, in order of their lowest lane (R48). -/
def groupsOf (m : Mask) (next : Nat → Addr) : List (Addr × Mask) :=
  (lanesOf m).foldl (fun l i =>
    if l.any (·.1 == next i) then l.map fun g => if g.1 == next i then (g.1, g.2 ||| (1#16 <<< i)) else g
    else l ++ [(next i, 1#16 <<< i)]) []

/-- The next PC of the lanes of a splitting word that fall through, and the loop levels after its end test (R48, R126). -/
def Warp.fallPc (w : Warp) (p : Path) : Addr × Warp :=
  match p.clause with
  | some c => if c.idx = c.len then w.endTest p.pc 4 else (p.pc + 4, w)
  | none => w.endTest p.pc 4
/-- Split the path at issue by next PC (R48): `taken` are the lanes that take a target. A bad target comes before one on a page that is
not present (R124, log 80). -/
def State.split (s : State) (p : Path) (act : Mask) (join : Addr) (taken : Mask) (next : Nat → Addr) (badLanes : Mask → Mask)
    (badPc : Mask → Addr) : State :=
  let w0 := s.w
  let r := w0.fallPc p
  let anyFall := act &&& ~~~taken != 0
  let fall := r.1
  let w1 := if anyFall then r.2 else w0
  let npc := fun i => if taken.getLsbD i then next i else fall
  let gs := groupsOf act npc
  let targets := (groupsOf (act &&& taken) next).map fun g => (g, s.landing g.1)
  let joinBad := 2 ≤ gs.length && s.landing join == .bad
  let joinAbsent := 2 ≤ gs.length && s.landing join == .absent
  let bad := (targets.filter (·.2 == .bad)).foldl (fun m t => m ||| t.1.2) 0
  if let some t := targets.find? (·.2 == .cut) then s.wordFault false 3 t.1.1.toNat act
  else if 2 ≤ gs.length && s.landing join == .cut then s.wordFault false 3 join.toNat act
  else if joinBad then (s.counted false).trapAt 2 (badLanes act) p.pc join true
  else if bad != 0 then (s.counted false).trapAt 2 (badLanes bad) p.pc (badPc bad) true
  else match targets.find? (·.2 == .absent) with
    | some t => s.suspendOn true t.1.1.toNat .fetch (badLanes t.1.2)
    | none =>
      if joinAbsent then s.suspendOn true join.toNat .fetch (badLanes act)
      else match gs with
        | [] => s.done false
        | [(t, _)] => (s.counted false).onW fun w =>
            ({ w with loops := w1.loops, depth := w1.depth }).onPath fun p => { p with pc := t, clause := none, src := p.pc }
        | (t, m) :: (t2, m2) :: rest =>
          let mk := fun (t : Addr) (m : Mask) => ({ pc := t, mask := m, join := some join, clause := none, src := p.pc, waits := p.waits, held := false } : Path)
          let free := w0.other.isNone
          let pend := (if free then rest else (t2, m2) :: rest).reverse.map fun g => Entry.pending g.1 g.2 (some join)
          (s.pushAll (.frame join act 0 p.join :: pend) fun s =>
            (s.counted false).onW fun w =>
              let w := ({ w with loops := w1.loops, depth := w1.depth }).setPath (some (mk t m))
              if free then (if w.cur then { w with a := some (mk t2 m2) } else { w with b := some (mk t2 m2) }) else w)

end Sys2Proof.Machine
end

