-- ==== Sys2Proof/Machine/Boundary.lean ====
section
/-!
DEFINITION. A warp at a clause boundary: updates of records in memory (spec/03 R53), parking (R49), filling slots (R51),
refilling the stack (R52), the choice of the path that issues (R46), the CLAUSE word (R15, R16), and the completion of
operations in flight (R17, R54).
-/
namespace Sys2Proof.Machine

/-! ## The choice of a path -/

/-- The slot of a warp that issues at a boundary (R46). -/
def State.chooseOf (s : State) (w : Warp) : Option Bool :=
  let keeps := !w.yielded && (w.quantum == 0 || decide (w.cnt < w.quantum.toNat))
  if s.pathCan w w.cur && keeps then some w.cur
  else if s.pathCan w (!w.cur) then some (!w.cur)
  else if s.pathCan w w.cur then some w.cur
  else none
def State.choose (s : State) : Option Bool := s.chooseOf s.w
/-- Give issue to a slot; the count restarts when issue changes path. -/
def Warp.issueFrom (w : Warp) (slot : Bool) : Warp :=
  if slot = w.cur then w else { w with cur := slot, cnt := 0, yielded := false }

/-! ## Records in memory -/

/-- STACKOVF of a record: it belongs to no issued word, and goes to the path of a slot (R53). With no path ready it waits; with
no live path the block ends by fault (log 28). -/
def State.recordFault (s : State) (depth : Nat) : Option Bool → State
  | some k =>
    let s := s.onW fun w => w.issueFrom k
    match s.w.path with
    | some p => (s.trapAt 10 p.mask (BitVec.ofNat 64 (s.w.spillAt depth)) p.pc true).onW fun w => { w with recHold := w.handling }
    | none => s
  | none =>
    if s.w.a.isSome || s.w.b.isSome then s
    else
      let info := s.w.spillAt depth
      let s := s.emitWarp 0x23 s.w.uid (10 * 2 ^ 48 + 2 ^ 53)
      (s.warpFault s.w.uid 1 10 s.w.handling 0 (BitVec.ofNat 64 info) 0).warpEnded s.w.uid true
/-- Read a record, if its bytes can be read. -/
def State.readRecord (s : State) (locs : List Loc) : Option Entry × State :=
  let r := s.readLocs s.myCore false locs
  (Entry.ofRecord r.1, r.2)
/-- The bytes of a record for an update, which reads and writes it. After the entry of its page has closed with fail, the page
counts as not mapped (R53). -/
def State.updateReach (s : State) (depth : Nat) : Reach := match s.spillReach depth .spill, s.spillReach depth .load with
  | .ok l, .ok _ => .ok l
  | .notPresent va, _ | .ok _, .notPresent va => if s.w.failed then .noMap va else .notPresent va
  | .ok _, r => r
  | r, _ => r
/-- Read, change and write back the record at a depth; `go` continues after it, with what the change answered. A record that is
malformed or out of reach leaves the update unmade, and its STACKOVF goes to the path of a slot (R52, R53). -/
def State.editRecord (s : State) (depth : Nat) (slot : Option Bool) (f : Entry → Option Entry) (go : Bool → State → State) : State :=
  let t := (s.spillWalks depth .spill).spillWalks depth .load
  if s.spillCut .store (s.spillReach depth .spill) || s.spillCut .load (s.spillReach depth .load) then t.requestCut (s.w.spillAt depth)
  else match s.updateReach depth with
  | .ok locs =>
    let r := t.readRecord locs
    match r.1 with
    | none => r.2.recordFault depth slot
    | some e => match f e with
      | some e => go true (r.2.spillWrite locs e.record)
      | none => go false r.2
  | .notPresent va => t.suspendOn true va .spill s.w.pmask
  | .noMap _ | .misattr | .bad _ => t.recordFault depth slot
/-- Lanes leave an entry (R50). -/
def Entry.without (m : Mask) : Entry → Entry
  | .frame j k r o => .frame j (k &&& ~~~m) (r &&& ~~~m) o
  | .pending pc k j => .pending pc (k &&& ~~~m) j
/-- The lanes that pending updates take from the record at a depth. -/
def Warp.leaving (w : Warp) (depth : Nat) : Mask := (w.updates.filter (·.depth == depth)).foldl (fun m u => m ||| u.lanes) 0
/-- Entries in memory as they stand, lowest first, for the check of STITCH (R135): a record with no mapping, or malformed, is
left out (log 23). -/
def State.spilled (s : State) : List Entry :=
  (List.range s.w.below).filterMap fun k => match s.spillReach k .load with
    | .ok locs => (s.readRecord locs).1.map (Entry.without (s.w.leaving k))
    | .noMap _ | .notPresent _ | .misattr | .bad _ => none
/-- The lowest record in memory that lies on a page that is not present. -/
def State.spilledAbsent (s : State) : Option Nat := (List.range s.w.below).findSome? fun k => match s.spillReach k .load with
  | .notPresent va => some va
  | .ok _ | .noMap _ | .misattr | .bad _ => none

/-! ## Parking and filling -/

/-- The path of a slot leaves it. -/
def Warp.emptySlot (w : Warp) (slot : Bool) : Warp := if slot then { w with b := none } else { w with a := none }
/-- OR a mask into the topmost frame on chip with a join; none when there is no such frame. -/
def arriveAt (j : Addr) (m : Mask) : List Entry → Option (List Entry)
  | [] => none
  | .frame j' k r o :: t => if j' = j then some (.frame j' k (r ||| m) o :: t) else (arriveAt j m t).map (.frame j' k r o :: ·)
  | e :: t => (arriveAt j m t).map (e :: ·)
/-- Park in the topmost frame held in memory (R49, R52, R53), searching from depth k − 1 down. -/
def State.parkBelow (s : State) (slot : Bool) (p : Path) : Nat → State
  | 0 => s.onW fun w => w.emptySlot slot
  | k + 1 =>
    s.editRecord k (some slot) (fun e => match e with
      | .frame j m r o => if j = p.pc then some (.frame j m (r ||| p.mask) o) else none
      | .pending _ _ _ => none)
      fun found t => if found then t.onW fun w => w.emptySlot slot else t.parkBelow slot p k
/-- The path of a slot parks. -/
def State.park (s : State) (slot : Bool) (p : Path) : State :=
  match arriveAt p.pc p.mask s.w.stk with
  | some stk => s.onW fun w => { w.emptySlot slot with stk := stk }
  | none => if s.w.below = 0 then s.onW fun w => w.emptySlot slot else s.parkBelow slot p s.w.below
/-- A slot holds a path that is to park: it stands at a boundary at its own join, waits for nothing (log 83) and is not held.
A handler's path parks like any other, and the held path stays held (log 85). -/
def Warp.parks (w : Warp) (slot : Bool) : Option Path :=
  match w.slotPath slot with
  | some p => if p.clause.isNone && p.waits.isEmpty && p.join == some p.pc && !p.held then some p else none
  | none => none
/-- A path with no lane left stands at a boundary (R50). -/
def Warp.emptied (w : Warp) (slot : Bool) : Bool := match w.slotPath slot with
  | some p => p.clause.isNone && p.mask == 0
  | none => false
/-- It empties its slot, and its operations go on. -/
def Warp.vacate (w : Warp) (slot : Bool) : Warp :=
  { w.emptySlot slot with orphans := w.orphans ++ (((w.slotPath slot).map Path.waits).getD []).filter Wait.outlives }
/-- Every lane of the handler is gone, and no path runs it (R50, log 64). -/
def Warp.handlerGone (w : Warp) : Bool :=
  w.handling && w.delivery == 0 && !(((w.a.map Path.mask).getD 1) == 0) && !(((w.b.map Path.mask).getD 1) == 0)
/-- The top entry as a path, if it pops (R51). Its record keeps no transfer word, so a bad landing of the path names the path's
own PC (R57, log 65). -/
def Warp.popTop (w : Warp) : Option (Option Path × List Entry) := match w.stk with
  | .frame j m r o :: t => if r = m then some (if m = 0 then none else some ⟨j, m, o, none, j, [], false⟩, t) else none
  | .pending pc m j :: t => some (if m = 0 then none else some ⟨pc, m, j, none, pc, [], false⟩, t)
  | [] => none
/-- The slot that the next popped entry goes to: the issuing path's slot first. -/
def Warp.freeSlot (w : Warp) : Option Bool :=
  if w.path.isNone then some w.cur else if w.other.isNone then some (!w.cur) else none
def Warp.place (w : Warp) (slot : Bool) (p : Option Path) (t : List Entry) : Warp :=
  match p with
  | none => { w with stk := t }
  | some q => if slot then { w with b := some q, stk := t } else { w with a := some q, stk := t }

/-- A popped path takes the slot of the path that issued last, which is gone: issue changes path, and goes to the other live path
first (R46). -/
def Warp.passOn (w : Warp) (slot : Bool) : Warp :=
  if slot != w.cur then w else { w with cur := if w.other.isSome then !w.cur else w.cur, cnt := 0, yielded := false }

/-! ## Settling a boundary -/

/-- Outcome of settling: the path at issue may go on; a record is to be read back; or nothing issues now. -/
inductive Settled where
  | go (s : State)
  | refill (s : State)
  | stop (s : State)

/-- The path at issue stands inside its clause and may go on: nothing holds it but an interlock, a unit or a limit (R16, R44). -/
def State.goesOn (s : State) (slot : Bool) : Bool := match s.w.slotPath slot with
  | some p => p.clause.isSome && !p.held && s.inner s.w p == .free
  | none => false
/-- One move of the boundary: an emptied path leaves, a pending update, a park, a fill, or the choice of a path; `none` means that
there may be more to do. A path that a FENCE or a TBARRIVE holds inside its clause leaves issue to the other (R169, R341). -/
def State.settleOnce (s : State) : Settled ⊕ State :=
  let w := s.w
  if w.frozen then .inl (.stop s)
  else if s.goesOn w.cur then .inl (.go s)
  else if s.startsNone w then (if s.goesOn (!w.cur) then .inr (s.onW fun w => w.issueFrom (!w.cur)) else .inl (.stop s))
  else if w.emptied w.cur then .inr (s.onW fun w => w.vacate w.cur)
  else if w.emptied (!w.cur) then .inr (s.onW fun w => w.vacate (!w.cur))
  else if w.handlerGone then .inr (s.onW Warp.leaveHandler)
  else if w.gone == BitVec.allOnes 16 && w.a.isNone && w.b.isNone && !w.ended && w.placed then .inl (.stop (s.warpEnded w.uid false))
  else match (if w.recHold then none else w.updates.head?), w.parks w.cur, w.parks (!w.cur) with
    | some u, _, _ =>
      let t := s.editRecord u.depth s.choose (fun e => some (e.without u.lanes)) fun _ t => t.onW fun w => { w with updates := w.updates.drop 1 }
      if t.w.updates.length < w.updates.length then .inr t else .inl (.stop t)
    | none, some p, _ =>
      let t := s.park w.cur p
      if (t.w.slotPath w.cur).isNone then .inr t else .inl (.stop t)
    | none, none, some p =>
      let t := s.park (!w.cur) p
      if (t.w.slotPath (!w.cur)).isNone then .inr t else .inl (.stop t)
    | none, none, none => match w.freeSlot, w.popTop with
      | some k, some (p, t) => .inr (s.onW fun w => (w.passOn k).place k p t)
      | _, _ =>
        if w.needsRefill then .inl (.refill s)
        else if w.a.isNone && w.b.isNone then
          .inl (.stop (if w.stk.isEmpty && w.below == 0 && !w.ended && w.placed then s.warpEnded w.uid false else s))
        else match s.choose with
          | some k => .inl (.go (s.onW fun w => w.issueFrom k))
          | none => .inl (.stop s)
/-- Moves that a boundary can take: each pops, parks, updates or refills once. -/
def settleFuel (w : Warp) : Nat := 2 * (w.stk.length + w.updates.length) + 8
/-- Bring a warp to where its next word can issue. -/
def State.settle (s : State) : Nat → Settled
  | 0 => .stop s
  | n + 1 => match s.settleOnce with
    | .inl r => r
    | .inr t => t.settle n

/-! ## Meanings -/

/-- CLAUSE (R15, R16): a clause starts at a boundary once its flags are clear and its words are fetched (R311); inside a
body the word is ILLEGAL (R18). -/
def execClause (wait : BitVec 12) (fa fb len : BitVec 4) (s : State) : Out :=
  .next (match s.w.path with
    | none => s
    | some p => match p.clause with
      | some _ => s.illegal (wordOf (.clause wait fa fb len))
      | none =>
        if !(List.range 12).all fun k => !wait.getLsbD k || s.w.f.get 0 k == 0 then s.stallFlag ((List.range 12).find? fun k => wait.getLsbD k && s.w.f.get 0 k != 0)
        else match s.fetchRun s.myCore (p.pc.toNat + 4) (len.toNat + 1) with
          | .inr (a, absent) => if absent then s.suspend a .fetch p.mask
            else if s.fetch s.myCore a == .cut then s.requestCut a else s.badLanding p
          | .inl words =>
            ((s.onW fun w => { w.onPath fun p => { p with pc := p.pc + 4, clause := some ⟨0, len, fa, fb, words⟩ } with
                                stalled := false, failed := false, waitCount := 0, readyCount := 0, ranAt := s.cycle + 1, yieldUntil := 0 }).countCore s.myCore 4 1).emitWarp 0x25 s.w.uid (p.pc.toNat % 2 ^ 48))
/-- A word that is no instruction of a warp (R28): at a boundary a CLAUSE word with a reserved flag code raises ILLEGAL with
boundary = 1, and any other word is a bad landing (R19); inside a body it raises ILLEGAL. -/
def State.notAWord (s : State) (word : Word) : State := match s.w.path with
  | none => s
  | some p => match p.clause with
    | some _ => s.illegal word
    | none => if bits word.toNat 24 8 = 0x80 then s.trapAt 1 p.mask (word.setWidth 64) p.pc true else s.badLanding p
def execIllegalEncoding (word : Word) (s : State) : Out := .next (s.notAWord word)
/-- SPILL_REFILL (R52, R53): the next record comes back below the entries on chip. -/
def execSpillRefill (w : Nat) (s : State) : Out :=
  .next (s.focusOn w fun s =>
    if !s.w.needsRefill then s
    else
      let depth := s.w.below - 1
      let t := s.spillWalks depth .load
      if s.spillCut .load (s.spillReach depth .load) then t.requestCut (s.w.spillAt depth)
      else match s.spillReach depth .load with
      | .ok locs =>
        let r := t.readRecord locs
        match r.1 with
        | some e => r.2.onW fun w =>
            { w with stk := w.stk ++ [e.without (w.leaving depth)], below := depth, updates := w.updates.filter (·.depth != depth) }
        | none => r.2.recordFault depth s.choose
      | .notPresent va => t.suspend va .spill s.w.pmask
      | .noMap _ | .misattr | .bad _ => t.recordFault depth s.choose)

/-- FLAG_OPERATION_COMPLETE (R17, R54): a counted operation whose unit, if any, has answered completes, with what is left of it
(R168). -/
def execFlagOperationComplete (w tag : Nat) (s : State) : Out :=
  .next ((s.performParts w fun p => p.tag == some tag).onWarp w fun x => match x.pend.find? (·.tag == tag) with
    | some p => if p.kind == .counted then x.complete tag else x
    | none => x)
/-- RESULT_WRITTEN (R54): an uncounted result is written. A seam word that overflowed sets %seam.ovf, and raises SEAMOVF
while %seam.ovfen is 1 (R144). -/
def execResultWritten (w tag : Nat) (s : State) : Out :=
  .next (s.focusOn w fun s => match s.w.pend.find? (·.tag == tag) with
    | none => s
    | some p =>
      if p.kind != .timed then s
      else
        let s := s.onW fun w => w.complete tag
        if p.ovf = 0 then s
        else
          let s := s.onW fun w => w.setOvf
          if s.w.ovfen && !s.w.ended then s.trapAt 6 p.ovf 0 ((s.w.path.map (·.pc)).getD 0) false else s)

end Sys2Proof.Machine
end

