-- ==== Sys2Proof/Machine/Float.lean ====
section
/-!
DEFINITION. IEEE numbers as exact values (spec/04 R61 to R66): decoding, one rounding, and the operations of spec/05
R99 to R104 on bit patterns.
-/
namespace Sys2Proof.Machine

/-- Widths of a format's exponent and fraction (R61). -/
structure FFmt where
  ew : Nat
  fw : Nat
  deriving DecidableEq, Repr

def fp32 : FFmt := ⟨8, 23⟩
def fp64 : FFmt := ⟨11, 52⟩
def bf16 : FFmt := ⟨8, 7⟩
def fmtOf : Fmt → FFmt
  | .f32 => fp32
  | .f64 => fp64

/-- A number as an exact value: (−1)^neg · m · 2^e. -/
inductive FVal where
  | nan (signalling : Bool)
  | inf (neg : Bool)
  | fin (neg : Bool) (m : Nat) (e : Int)
  deriving DecidableEq, Repr

def FFmt.bias (f : FFmt) : Int := 2 ^ (f.ew - 1) - 1
/-- Exponent of the least subnormal. -/
def FFmt.eLow (f : FFmt) : Int := 1 - f.bias - f.fw
def FFmt.signBit (f : FFmt) : Nat := 2 ^ (f.ew + f.fw)
def FFmt.inf (f : FFmt) : Nat := (2 ^ f.ew - 1) * 2 ^ f.fw
/-- The canonical quiet NaN (R62). -/
def FFmt.nan (f : FFmt) : Nat := f.inf + 2 ^ (f.fw - 1)
def FFmt.withSign (f : FFmt) (neg : Bool) (x : Nat) : Nat := if neg then x + f.signBit else x

/-- The value of a code. -/
def FFmt.decode (f : FFmt) (x : Nat) : FVal :=
  let neg := x.testBit (f.ew + f.fw)
  let ex := bits x f.fw f.ew
  let fr := bits x 0 f.fw
  if ex = 2 ^ f.ew - 1 then (if fr = 0 then .inf neg else .nan (!fr.testBit (f.fw - 1)))
  else if ex = 0 then .fin neg fr f.eLow
  else .fin neg (2 ^ f.fw + fr) (ex - 1 + f.eLow)

/-- A code's exponent field is 0 and its fraction is not. -/
def FFmt.subnormal (f : FFmt) (x : Nat) : Bool := bits x f.fw f.ew == 0 && bits x 0 f.fw != 0
/-- FlushIn and FlushOut (R30) on a code. -/
def FFmt.flush (f : FFmt) (ftz : Bool) (x : Nat) : Nat := if ftz && f.subnormal x then x / f.signBit * f.signBit else x

/-- m · 2^−k rounded to an integer in a mode, and whether it was inexact. -/
def roundShift (rm : Rm) (neg : Bool) (m : Nat) (k : Int) : Nat × Bool :=
  if k ≤ 0 then (m * 2 ^ (-k).toNat, false)
  else if (m.log2 : Int) + 2 < k then
    (if m != 0 && ((rm == .rup && !neg) || (rm == .rdn && neg)) then 1 else 0, m != 0)
  else
    let p := 2 ^ k.toNat
    let q := m / p
    let r := m % p
    let up := match rm with
      | .rne => decide (p < 2 * r) || (2 * r == p && q % 2 == 1)
      | .rtz => false
      | .rup => r != 0 && !neg
      | .rdn => r != 0 && neg
    (if up then q + 1 else q, r != 0)

/-- Round (R30, R65, R66): the exact value to a code, with the flags. -/
def FFmt.round (f : FFmt) (rm : Rm) (neg : Bool) (m : Nat) (e : Int) : Nat × FFlags :=
  if m = 0 then (f.withSign neg 0, FFlags.none)
  else
    let top : Int := m.log2 + e
    let q : Int := max f.eLow (top - f.fw)
    let r := roundShift rm neg m (q - e)
    let code := (q - f.eLow).toNat * 2 ^ f.fw + r.1
    if f.inf ≤ code then
      let toInf := match rm with
        | .rne => true
        | .rtz => false
        | .rup => !neg
        | .rdn => neg
      (f.withSign neg (if toInf then f.inf else f.inf - 1), ⟨false, false, true, false, true⟩)
    else
      let wide := roundShift rm neg m (top - f.fw - e)
      let tiny := decide (top < f.eLow + f.fw) && !(decide (top = f.eLow + f.fw - 1) && wide.1 == 2 ^ (f.fw + 1))
      (f.withSign neg code, ⟨false, false, false, tiny && r.2, r.2⟩)

/-- FlushOut with its flags (R66). -/
def FFmt.out (f : FFmt) (ftz : Bool) (r : Nat × FFlags) : Nat × FFlags :=
  if ftz && f.subnormal r.1 then (f.flush true r.1, r.2.or ⟨false, false, false, true, true⟩) else r

/-- The canonical NaN, with NV when asked. -/
def FFmt.nanResult (f : FFmt) (nv : Bool) : Nat × FFlags := (f.nan, if nv then FFlags.invalid else FFlags.none)
def FVal.isNan : FVal → Bool
  | .nan _ => true
  | .inf _ | .fin _ _ _ => false
def FVal.isSig : FVal → Bool
  | .nan sg => sg
  | .inf _ | .fin _ _ _ => false
def FVal.isInf : FVal → Bool
  | .inf _ => true
  | .nan _ | .fin _ _ _ => false
def FVal.isZero : FVal → Bool
  | .fin _ m _ => m == 0
  | .nan _ | .inf _ => false
def FVal.neg : FVal → Bool
  | .nan _ => false
  | .inf n => n
  | .fin n _ _ => n
def FVal.negate : FVal → FVal
  | .nan sg => .nan sg
  | .inf n => .inf !n
  | .fin n m e => .fin (!n) m e
def signed (neg : Bool) (m : Nat) : Int := if neg then -(m : Int) else m

/-- The rounded sum of two finite values, with R65's sign of an exact zero. -/
def FFmt.sum (f : FFmt) (rm : Rm) (n1 : Bool) (m1 : Nat) (e1 : Int) (n2 : Bool) (m2 : Nat) (e2 : Int) : Nat × FFlags :=
  let e := if m1 = 0 then e2 else if m2 = 0 then e1 else min e1 e2
  let x := signed n1 (m1 * 2 ^ (e1 - e).toNat) + signed n2 (m2 * 2 ^ (e2 - e).toNat)
  if x = 0 then (f.withSign (if m1 = 0 && n1 == n2 then n1 else rm == .rdn) 0, FFlags.none)
  else f.round rm (decide (x < 0)) x.natAbs e

/-- FADD and FSUB (R99). -/
def FFmt.add (f : FFmt) (rm : Rm) (ftz sub : Bool) (a b : Nat) : Nat × FFlags :=
  let x := f.decode (f.flush ftz a)
  let y := f.decode (f.flush ftz b)
  if x.isNan || y.isNan then f.nanResult (x.isSig || y.isSig)
  else
    let y := if sub then y.negate else y
    match x, y with
    | .inf n, .inf k => if n = k then (f.withSign n f.inf, FFlags.none) else f.nanResult true
    | .inf n, _ => (f.withSign n f.inf, FFlags.none)
    | _, .inf n => (f.withSign n f.inf, FFlags.none)
    | .fin n1 m1 e1, .fin n2 m2 e2 => f.out ftz (f.sum rm n1 m1 e1 n2 m2 e2)
    | _, _ => f.nanResult false

/-- The product of two exact values (R99). -/
def FFmt.mulValues (f : FFmt) (rm : Rm) (ftz : Bool) (x y : FVal) : Nat × FFlags :=
  if x.isNan || y.isNan then f.nanResult (x.isSig || y.isSig)
  else if (x.isZero && y.isInf) || (x.isInf && y.isZero) then f.nanResult true
  else if x.isInf || y.isInf then (f.withSign (x.neg != y.neg) f.inf, FFlags.none)
  else match x, y with
    | .fin n1 m1 e1, .fin n2 m2 e2 => f.out ftz (f.round rm (n1 != n2) (m1 * m2) (e1 + e2))
    | _, _ => f.nanResult false
/-- FMUL (R99). -/
def FFmt.mul (f : FFmt) (rm : Rm) (ftz : Bool) (a b : Nat) : Nat × FFlags :=
  f.mulValues rm ftz (f.decode (f.flush ftz a)) (f.decode (f.flush ftz b))

/-- FMA (R100): one rounding. -/
def FFmt.fma (f : FFmt) (rm : Rm) (ftz negate : Bool) (a b c : Nat) : Nat × FFlags :=
  let x := f.decode (f.flush ftz a)
  let y := f.decode (f.flush ftz b)
  let z := f.decode (f.flush ftz c)
  if (x.isZero && y.isInf) || (x.isInf && y.isZero) then f.nanResult true
  else if x.isNan || y.isNan || z.isNan then f.nanResult (x.isSig || y.isSig || z.isSig)
  else
    let pn := (x.neg != y.neg) != negate
    if x.isInf || y.isInf then
      (if z.isInf && z.neg != pn then f.nanResult true else (f.withSign pn f.inf, FFlags.none))
    else match x, y, z with
      | .fin _ m1 e1, .fin _ m2 e2, .fin n3 m3 e3 => f.out ftz (f.sum rm pn (m1 * m2) (e1 + e2) n3 m3 e3)
      | _, _, .inf n => (f.withSign n f.inf, FFlags.none)
      | _, _, _ => f.nanResult false

/-- DDIV (R104): 130 extra bits and a sticky bit make one rounding enough. -/
def FFmt.div (f : FFmt) (rm : Rm) (ftz : Bool) (a b : Nat) : Nat × FFlags :=
  let x := f.decode (f.flush ftz a)
  let y := f.decode (f.flush ftz b)
  let n := x.neg != y.neg
  if x.isNan || y.isNan then f.nanResult (x.isSig || y.isSig)
  else if (x.isZero && y.isZero) || (x.isInf && y.isInf) then f.nanResult true
  else if x.isInf then (f.withSign n f.inf, FFlags.none)
  else if y.isInf then (f.withSign n 0, FFlags.none)
  else if y.isZero then (f.withSign n f.inf, FFlags.divZero)
  else match x, y with
    | .fin _ m1 e1, .fin _ m2 e2 =>
      let p := m1 * 2 ^ 130
      f.out ftz (f.round rm n (2 * (p / m2) + (if p % m2 = 0 then 0 else 1)) (e1 - e2 - 131))
    | _, _ => f.nanResult false

/-- Greatest r with r² ≤ n, by bits from 2^k down. -/
def isqrtFrom (n : Nat) : Nat → Nat → Nat
  | 0, r => r
  | k + 1, r => isqrtFrom n k (if (r + 2 ^ k) * (r + 2 ^ k) ≤ n then r + 2 ^ k else r)
def isqrt (n : Nat) : Nat := isqrtFrom n (n.log2 / 2 + 1) 0

/-- DSQRT (R104). -/
def FFmt.sqrt (f : FFmt) (rm : Rm) (ftz : Bool) (a : Nat) : Nat × FFlags :=
  let x := f.decode (f.flush ftz a)
  match x with
  | .nan sg => f.nanResult sg
  | .inf n => if n then f.nanResult true else (f.inf, FFlags.none)
  | .fin n m e =>
    if m = 0 then (f.withSign n 0, FFlags.none)
    else if n then f.nanResult true
    else
      let m' := if e % 2 = 0 then m else 2 * m
      let e' := if e % 2 = 0 then e else e - 1
      let p := m' * 2 ^ 140
      let r := isqrt p
      f.out ftz (f.round rm false (2 * r + (if r * r = p then 0 else 1)) (e' / 2 - 71))

/-- Codes in numeric order, with −0 below +0 (R101); with `same` the zeros are one value (R102). -/
def FFmt.order (f : FFmt) (same : Bool) (x : Nat) : Int :=
  let mag : Nat := bits x 0 (f.ew + f.fw)
  if x.testBit (f.ew + f.fw) then (if same then -(mag : Int) else -(mag : Int) - 1) else mag

/-- FMIN and FMAX (R101). -/
def FFmt.minMax (f : FFmt) (ftz isMax : Bool) (a b : Nat) : Nat × FFlags :=
  let a := f.flush ftz a
  let b := f.flush ftz b
  let x := f.decode a
  let y := f.decode b
  let fl := if x.isSig || y.isSig then FFlags.invalid else FFlags.none
  if x.isNan && y.isNan then (f.nan, fl)
  else if x.isNan then (b, fl)
  else if y.isNan then (a, fl)
  else
    let aFirst := f.order false a ≤ f.order false b
    (if aFirst != isMax then a else b, fl)

/-- FCMP (R102): the truth of the condition and its flags. -/
def FFmt.compare (f : FFmt) (ftz : Bool) (c : Cond) (a b : Nat) : Bool × FFlags :=
  let a := f.flush ftz a
  let b := f.flush ftz b
  let x := f.decode a
  let y := f.decode b
  let un := x.isNan || y.isNan
  let k := f.order true a
  let l := f.order true b
  let ordering := c == .lt || c == .le || c == .gt || c == .ge
  let nv := x.isSig || y.isSig || (un && ordering)
  let v := match c with
    | .eq => !un && k == l
    | .ne => un || k != l
    | .lt => !un && decide (k < l)
    | .le => !un && decide (k ≤ l)
    | .gt => !un && decide (l < k)
    | .ge => !un && decide (l ≤ k)
    | .un => un
    | .or => !un
  (v, if nv then FFlags.invalid else FFlags.none)

/-- FCLASS (R103): the one-hot mask. -/
def FFmt.classMask (f : FFmt) (x : Nat) : Nat := match f.decode x with
  | .nan sg => if sg then 2 ^ 8 else 2 ^ 9
  | .inf n => if n then 2 ^ 0 else 2 ^ 7
  | .fin n m _ =>
    if m = 0 then (if n then 2 ^ 3 else 2 ^ 4)
    else if f.subnormal x then (if n then 2 ^ 2 else 2 ^ 5)
    else (if n then 2 ^ 1 else 2 ^ 6)

/-- The FP32 image of a BF16 code (R61). -/
def bf16Image (x : Nat) : Nat := x % 65536 * 65536
/-- RoundRNE32 of an exact value (R30). -/
def rne32 (neg : Bool) (m : Nat) (e : Int) : Nat := (fp32.round .rne neg m e).1

/-! ## Conversions (R106) -/

/-- Floating-point to floating-point. -/
def cvtFloat (td ts : FFmt) (rm : Rm) (ftz : Bool) (a : Nat) : Nat × FFlags :=
  let a := ts.flush ftz a
  match ts.decode a with
  | .nan sg => td.nanResult sg
  | .inf n => (td.withSign n td.inf, FFlags.none)
  | .fin n m e => td.out ftz (td.round rm n m e)

/-- Limits of an integer type. -/
def intRange (signed_ : Bool) (n : Nat) : Int × Int :=
  if signed_ then (-(2 ^ (n - 1)), 2 ^ (n - 1) - 1) else (0, 2 ^ n - 1)

/-- Floating-point to integer. -/
def cvtToInt (ts : FFmt) (signed_ : Bool) (n : Nat) (rm : Rm) (ftz : Bool) (a : Nat) : Nat × FFlags :=
  let lim := intRange signed_ n
  match ts.decode (ts.flush ftz a) with
  | .nan _ => (0, FFlags.invalid)
  | .inf neg => (pattern n (if neg then lim.1 else lim.2), FFlags.invalid)
  | .fin neg m e =>
    let r := roundShift rm neg m (-e)
    let x := signed neg r.1
    if x < lim.1 then (pattern n lim.1, FFlags.invalid)
    else if lim.2 < x then (pattern n lim.2, FFlags.invalid)
    else (pattern n x, ⟨false, false, false, false, r.2⟩)

/-- Integer to floating-point. -/
def cvtFromInt (td : FFmt) (rm : Rm) (x : Int) : Nat × FFlags := td.round rm (decide (x < 0)) x.natAbs 0

def cvtFmt : CvtT → Option FFmt
  | .f32 => some fp32
  | .f64 => some fp64
  | .bf16 => some bf16
  | .i32 | .n32 | .i64 | .n64 => none
/-- Signedness and width of an integer type of CVT. -/
def cvtInt : CvtT → Bool × Nat
  | .i32 => (true, 32)
  | .n32 => (false, 32)
  | .i64 => (true, 64)
  | .n64 => (false, 64)
  | .f32 | .f64 | .bf16 => (false, 32)
/-- CVT of one value. -/
def cvtValue (td ts : CvtT) (rm : Rm) (ftz : Bool) (a : Nat) : Nat × FFlags :=
  match cvtFmt td, cvtFmt ts with
  | some d, some f => cvtFloat d f rm ftz (a % 2 ^ (1 + f.ew + f.fw))
  | none, some f => cvtToInt f (cvtInt td).1 (cvtInt td).2 rm ftz (a % 2 ^ (1 + f.ew + f.fw))
  | some d, none => cvtFromInt d rm (if (cvtInt ts).1 then toSigned (cvtInt ts).2 a else a)
  | none, none =>
    let lim := intRange (cvtInt td).1 (cvtInt td).2
    let x : Int := if (cvtInt ts).1 then toSigned (cvtInt ts).2 a else a
    (pattern (cvtInt td).2 (max lim.1 (min lim.2 x)), FFlags.none)

end Sys2Proof.Machine
end

