-- ==== Sys2Proof/Machine/Rotation.lean ====
section
/-!
DEFINITION. The 8-bit formats DM8 and MXINT8 (spec/04 R68 to R72), the signed block Hadamard rotation (R73 to R78).
-/
namespace Sys2Proof.Machine

/-! ## DM8 (R68 to R70) -/

/-- Body of a DM8 code as (10-exponent, F, w); none for the bodies 0 and 1. -/
def dmParts (b : Nat) : Option (Int × Nat × Nat) :=
  if b < 2 then none
  else
    let t := b.log2
    let k := 6 - t
    let w := t - 1
    some (if b.testBit (t - 1) then (k : Int) else -(k + 1 : Int), b % 2 ^ w, w)
/-- Magnitude of a body in units of 10^−6 ÷ 32. -/
def dmUnits (b : Nat) : Nat := match dmParts b with
  | none => if b = 0 then 0 else 32 * 10 ^ 12
  | some (e, f, w) => (2 ^ w + 9 * f) * 2 ^ (5 - w) * 10 ^ (e + 6).toNat
/-- F of a body; 0 for +0, 0x01, 0x02 and 0x03. -/
def dmF (b : Nat) : Nat := match dmParts b with
  | none => 0
  | some (_, f, _) => f
/-- DecodeDM8: the FP32 image of a code (R68). -/
def decodeDM8 (c : Nat) : Nat :=
  let b := c % 128
  if c = 0x80 then fp32.nan
  else
    let u := dmUnits b
    let q := u * 2 ^ 100 / (32 * 10 ^ 6)
    rne32 (c.testBit 7) (2 * q + (if u * 2 ^ 100 % (32 * 10 ^ 6) = 0 then 0 else 1)) (-101)

/-- An exact real z · 2^k, or NaN. -/
abbrev ExactR := Option (Int × Int)

/-- RoundDM8 (R70): the code and the saturation indication. -/
def roundDM8 (y : ExactR) : Nat × Bool := match y with
  | none => (0x80, false)
  | some (z, k) =>
    let up : Nat := 2 ^ k.toNat
    let dn : Nat := 2 ^ (-k).toNat
    let a := z.natAbs * up * (32 * 10 ^ 6)
    if 32 * 10 ^ 12 * dn < a then (if z < 0 then 0x81 else 0x01, true)
    else
      let best := (List.range 128).foldl (fun (best : Nat × Nat × Nat × Nat) b =>
        let u := dmUnits b * dn
        let d := (a - u) + (u - a)
        let cand := (d, dmF b % 2, u, b)
        if d < best.1 || (d == best.1 && (cand.2.1 < best.2.1 || (cand.2.1 == best.2.1 && u < best.2.2.1))) then cand else best)
        (a, 0, 0, 0)
      let b := best.2.2.2
      (if b = 0 then 0 else if z < 0 then b + 128 else b, false)

/-! ## MXINT8 (R71, R72) -/

/-- Beyond the FP32 codes: the image of −2^128, the one value of R71 that FP32 does not hold (log 72). -/
def mxLowest : Nat := 2 ^ 32
/-- DecodeMX: the image of an element code under a scale code, an FP32 code but for the code −128 under the scale 254. -/
def decodeMX (m x : Nat) : Nat :=
  if x = 0xFF then fp32.nan
  else if m % 256 = 0x80 && x = 254 then mxLowest
  else
    let v := toSigned 8 m
    rne32 (decide (v < 0)) v.natAbs ((x : Int) - 133)
/-- The exact value of an image. -/
def imageValue (x : Nat) : FVal := if x = mxLowest then .fin true (2 ^ 23) 105 else fp32.decode x

/-- floor(log2 |y|) of the largest of some reals; none when all are zero. -/
def topExp (ys : List (Int × Int)) : Option Int :=
  ys.foldl (fun (a : Option Int) (y : Int × Int) => if y.1 = 0 then a
    else
      let t : Int := y.1.natAbs.log2 + y.2
      match a with
      | none => some t
      | some u => some (max t u)) none
/-- QuantMX (R72): scale code, element codes, saturation indications. -/
def quantMX (ys : List ExactR) : Nat × List (Nat × Bool) :=
  if ys.any Option.isNone then (0xFF, ys.map fun _ => (0, false))
  else
    let zs := ys.map fun y => y.getD (0, 0)
    let x : Int := match topExp zs with
      | none => -127
      | some t => min 127 (max (-127) t)
    ((x + 127).toNat, zs.map fun y =>
      let t := (roundShift .rne (decide (y.1 < 0)) y.1.natAbs (-(y.2 + 6 - x))).1
      (pattern 8 (signed (decide (y.1 < 0)) (min t 127)), decide (127 < t)))

/-! ## The rotation -/

def mix64 (z : Nat) : Nat :=
  let m := 2 ^ 64
  let z := (z ^^^ (z >>> 30)) * 0xBF58476D1CE4E5B9 % m
  let z := (z ^^^ (z >>> 27)) * 0x94D049BB133111EB % m
  z ^^^ (z >>> 31)
/-- Sign bits of block j (R30, R74): bit i set means σ_i = −1. With B = 1 every sign is +. -/
def signBits (s0 : Nat) (j : Int) (b : Nat) : Nat :=
  if b = 1 then 0 else mix64 ((s0 + pattern 64 j * 0x9E3779B97F4A7C15) % 2 ^ 64)

/-- Align48 (R30) of finite FP32 values. -/
def align48 (ys : List (Bool × Nat × Int)) : List Int × Int :=
  let ex := fun (y : Bool × Nat × Int) => if y.2.1 < 2 ^ 23 then (-126 : Int) else y.2.2 + 23
  let e := ys.foldl (fun a y => max a (ex y)) (-126)
  (ys.map fun y =>
    let k := y.2.2 + 37 - e
    signed y.1 (if 0 ≤ k then y.2.1 * 2 ^ k.toNat else y.2.1 / 2 ^ (-k).toNat), e)
/-- One butterfly stage at distance d on a list whose length is a multiple of 2d. -/
def stage (d : Nat) (x : List Int) : List Int :=
  (List.range x.length).map fun i =>
    if i / d % 2 = 0 then x.getD i 0 + x.getD (i + d) 0 else x.getD (i - d) 0 - x.getD i 0
/-- log2 of a block size. -/
def rotLog (b : Nat) : Nat := if b = 64 then 6 else if b = 16 then 4 else 0
def butterfly (b : Nat) (x : List Int) : List Int := (List.range (rotLog b)).foldl (fun x k => stage (2 ^ k) x) x

/-- Finite images as exact values; none when one is a NaN or an infinity. -/
def finites (xs : List Nat) : Option (List (Bool × Nat × Int)) :=
  xs.foldr (fun x a => match imageValue x, a with
    | .fin n m e, some l => some ((n, m, e) :: l)
    | _, _ => none) (some [])
/-- The signs applied to some values. -/
def applySigns (sg : Nat) (l : List (Bool × Nat × Int)) : List (Bool × Nat × Int) :=
  (l.zip (List.range l.length)).map fun p => (p.1.1 != sg.testBit p.2, p.1.2)

/-- RotNarrow (R75, R76) of one block of FP32 values. -/
def rotNarrow (xs : List Nat) (s0 : Nat) (b : Nat) (j : Int) : List ExactR := match finites xs with
  | none => xs.map fun _ => none
  | some l =>
    let a := align48 (applySigns (signBits s0 j b) l)
    (butterfly b a.1).map fun z => some (z, a.2 - 37 - rotLog b / 2)
/-- RotWiden (R78) of one block of FP32 images. -/
def rotWiden (vs : List Nat) (s0 : Nat) (b : Nat) (j : Int) : List Nat := match finites vs with
  | none => vs.map fun _ => fp32.nan
  | some l =>
    let sg := signBits s0 j b
    let a := align48 (applySigns 0 l)
    let z := butterfly b a.1
    (z.zip (List.range z.length)).map fun p =>
      if p.1 = 0 then 0 else rne32 (decide (p.1 < 0) != sg.testBit p.2) p.1.natAbs (a.2 - 37 - rotLog b / 2)

def rotSize : RotB → Nat
  | .b1 => 1
  | .b16 => 16
  | .b64 => 64

/-- Consecutive runs of n elements. -/
def chunks {α : Type} (n count : Nat) (l : List α) : List (List α) := (List.range count).map fun k => (l.drop (n * k)).take n

/-- |y| of the largest of some reals, rounded to FP32 (R109, R251): NaN when one is NaN. -/
def maxMagnitude (ys : List ExactR) : Nat :=
  if ys.any Option.isNone then fp32.nan
  else
    ys.foldl (fun a y => match y with
      | none => a
      | some (z, k) => max a (rne32 false z.natAbs k)) 0

end Sys2Proof.Machine
end

