-- ==== Sys2Proof/Machine/Tile.lean ====
section
/-!
DEFINITION. Tensor layout records (spec/11 R220 to R224), trailers (R225 to R227), the accesses of engines (R253, R292,
R312), the records that the device writes (R259, R420), and the sum of the matrix engine (R81, R82).
-/
namespace Sys2Proof.Machine

/-! ## Accesses of engines -/

/-- What an engine access meets: a value, an error of R255 with its detail, a page that is not present, a poisoned line. -/
inductive Acc (α : Type) where
  | ok (x : α)
  | err (code : Nat) (detail : Nat)
  | absent (va : Nat) (kind : AccKind)
  | poison (pa : Nat)
  deriving DecidableEq, Repr

/-- A byte that an engine of cluster c reaches: ROW and ADDR of R255, which a request that the fabric discards takes too (R329). -/
def State.engLoc (s : State) (c : Nat) (k : Block) (va : Nat) (kind : AccKind) (reads : Bool) : Acc Loc :=
  match k.enginePlace va with
  | .bad _ => .err 11 va
  | .row core off => if reads && !s.rowOk (16 * c + core) off then .err 10 va else .ok (.loc (16 * c + core) off)
  | .global => match s.translate c va kind with
    | .ok pa leaf => if s.cutOff (c / 324) pa then .err 11 va else .ok (.glob pa (leaf.attr / 8 == 1))
    | .notPresent _ _ => .absent va kind
    | .noMap | .denied => .err 11 va
/-- The bytes of a run, or the first that cannot be reached. -/
def State.engLocs (s : State) (c : Nat) (k : Block) (kind : AccKind) (reads : Bool) : Nat → Nat → Acc (List Loc)
  | _, 0 => .ok []
  | va, n + 1 => match s.engLoc c k va kind reads with
    | .ok l => match s.engLocs c k kind reads (va + 1) n with
      | .ok t => .ok (l :: t)
      | r => r
    | .err a b => .err a b
    | .absent a k => .absent a k
    | .poison a => .poison a
/-- Key of a byte, for the record of operands (R217). -/
def State.keyOf (s : State) (d : Nat) : Loc → Nat
  | .loc c o => localKey c o
  | .glob pa _ => (s.homeOf d pa).getD 0
/-- A byte read by an engine (R253). -/
def State.engByte (s : State) (d : Nat) : Loc → Byte × State
  | .loc c o => (s.localRead c o, s)
  | .glob pa uc => s.lowRead d pa uc
def State.engEachByte (s : State) (d : Nat) : List Loc → List Byte × State
  | [] => ([], s)
  | l :: t =>
    let r := s.engByte d l
    let r' := r.2.engEachByte d t
    (r.1 :: r'.1, r'.2)
/-- The bytes of an access, each line as it stands at one time (R167, R288). -/
def State.engBytes (s : State) (d : Nat) (l : List Loc) : List Byte × State := (l.foldl (fun s x => (s.engByte d x).2) s).engEachByte d l
/-- The walks of an engine's access. -/
def State.engWalks (s : State) (c va n : Nat) (kind : AccKind) : State :=
  let s := s.cluWalks c va kind
  if (va + n - 1) / 65536 = va / 65536 then s else s.cluWalks c ((va + n - 1) / 65536 * 65536) kind
/-- The first poisoned line that a read touches (R321). -/
def State.engPoison (s : State) (d : Nat) (locs : List Loc) : Option Nat :=
  (locs.filterMap fun l => match l with
    | .glob pa _ =>
      if ((s.die d).rdc.get Line.empty (pa / 128)).has (pa % 128) then none
      else if s.poisoned d pa then some (pa / 128 * 128) else none
    | .loc _ _ => none).head?
/-- Read n bytes as a number, with the keys of the bytes. -/
def State.engLoad (s : State) (c : Nat) (k : Block) (va n : Nat) : Acc (Nat × List Nat) × State :=
  let s := s.engWalks c va n .engRead
  match s.engLocs c k .engRead true va n with
  | .ok locs => match s.engPoison (c / 324) locs with
    | some pa => (.poison pa, s)
    | none =>
      let r := s.engBytes (c / 324) locs
      (.ok (ofBytes r.1, locs.map (s.keyOf (c / 324))), r.2)
  | .err a b => (.err a b, s)
  | .absent a k => (.absent a k, s)
  | .poison a => (.poison a, s)
/-- A byte written by an engine (R292). -/
def State.engPut (s : State) (d : Nat) (b : Byte) : Loc → State
  | .loc c o => s.localWrite c o b
  | .glob pa _ => s.engWrite d pa b
/-- Write bytes in order, and note the places of those written; those written before an error or a hold stay. -/
def State.engStoreAll (s : State) (c : Nat) (k : Block) (done : List Loc) : List (Nat × Byte) → Acc Unit × List Loc × State
  | [] => (.ok (), done, s)
  | (va, b) :: t => match s.engLoc c k va .engWrite false with
    | .ok l => (s.engPut (c / 324) b l).engStoreAll c k (l :: done) t
    | .err a b => (.err a b, done, s)
    | .absent a k => (.absent a k, done, s)
    | .poison a => (.poison a, done, s)
/-- Go on with what was reached. -/
def Acc.bind {α β : Type} (r : Acc α × State) (f : α → State → Acc β × State) : Acc β × State := match r with
  | (.ok x, s) => f x s
  | (.err a b, s) => (.err a b, s)
  | (.absent a k, s) => (.absent a k, s)
  | (.poison a, s) => (.poison a, s)
/-- Do an access for each element of a list, in order, with an accumulator. -/
def State.engEach {α β : Type} (f : α → β → State → Acc β × State) : List α → β → State → Acc β × State
  | [], x, s => (.ok x, s)
  | a :: t, x, s => Acc.bind (f a x s) fun x s => State.engEach f t x s

/-- Write runs of bytes in order, from the one numbered `wrote` on (R312): how it ends, and how many are written then. A line written
whole is no longer poisoned (R321). -/
def State.engStores (s : State) (c : Nat) (k : Block) (wrote : Nat) (runs : List (Nat × List Byte)) : Acc Unit × Nat × State :=
  let l := runs.flatMap fun r => ((List.range r.2.length).zip r.2).map fun p => (r.1 + p.1, p.2)
  let s := runs.foldl (fun s r => s.engWalks c r.1 r.2.length .engWrite) s
  let r := s.engStoreAll c k [] (l.drop wrote)
  (r.1, wrote + r.2.1.length, r.2.2.clearCovered (c / 324) r.2.1)

/-! ## Records that the device writes (R420) -/

/-- Launch sequence number that a held record's fault names. -/
def State.recSeq (s : State) (r : Rec) : Nat := match r.kind with
  | .error l => (s.launch l).seq
  | .exit l _ => (s.launch l).seq
  | .tack _ => 0

/-- Physical bytes of a run for a unit of cluster c: not global, unmapped, denied or behind a cut (R329) is an error. -/
def State.physOf (s : State) (c : Nat) (kind : AccKind) : Nat → Nat → Acc (List Nat)
  | _, 0 => .ok []
  | va, n + 1 =>
    if windowBase ≤ va then .err 11 va
    else match s.translate c va kind with
      | .ok pa _ => if s.cutOff (c / 324) pa then .err 11 va
        else match s.physOf c kind (va + 1) n with
        | .ok t => .ok (pa :: t)
        | r => r
      | .notPresent _ _ => .absent va kind
      | .noMap | .denied => .err 11 va
/-- Read a number at a virtual address, for a unit that needs one; what cannot be reached reads 0 (log 16). -/
def State.vaRead (s : State) (c va n : Nat) : Nat := match s.physOf c .engRead va n with
  | .ok l => ofBytes (l.map fun pa => s.homeRead (c / 324) pa)
  | .err _ _ | .absent _ _ | .poison _ => 0
/-- Write bytes at a virtual address as a device does; what cannot be reached is not written (log 16). -/
def State.vaWrite (s : State) (c va : Nat) (l : List Byte) : State := match s.physOf c .engWrite va l.length with
  | .ok ps => (ps.zip l).foldl (fun s p => s.engWrite (c / 324) p.1 p.2) s
  | .err _ _ | .absent _ _ | .poison _ => s
/-- A field of a launch parameter block (R266), and writing one. -/
def State.lpbOf (s : State) (c l off n : Nat) : Nat := s.vaRead c ((s.launch l).lpb.toNat + off) n
def State.lpbSet (s : State) (c l off n x : Nat) : State := s.vaWrite c ((s.launch l).lpb.toNat + off) (bytesOf n x)
/-- One is added to the lost field of a launch (R266, R420). -/
def State.lostRecord (s : State) (c l : Nat) : State := s.lpbSet c l 116 4 (min (s.lpbOf c l 116 4 + 1) 0xFFFFFFFF)
/-- A record that cannot be written is dropped and counted (R420). An exit record's block then counts as ended. -/
def State.dropRecord (s : State) (r : Rec) : State := match r.kind with
  | .error l => s.lostRecord r.clu l
  | .exit l _ => s.lostRecord r.clu l
  | .tack n => s.onTack n fun t => { t with full := true }
/-- An error record is written, with ENGERR (R261), or the record of a STOP, with TKSTOPD and its skid and bound (R407). -/
def State.recordWritten (s : State) (r : Rec) : State := match r.kind with
  | .error _ => s.emitClu 0x44 r.clu (ofBytes (r.bytes.take 2) % 2 ^ 10 + ofBytes ((r.bytes.drop 8).take 6) * 2 ^ 10)
  | .tack n =>
    if ofBytes (r.bytes.take 8) / 2 ^ 60 = 1 then s.emit 0xB4 (n / 4) 0x1FF 0x1F (n % 4) (pay (ofBytes ((r.bytes.drop 48).take 8))) else s
  | .exit _ _ => s
/-- Try to write a record: whether it is written or dropped. A page that is not present holds it. A line written whole is no longer
poisoned (R321). -/
def State.tryRecord (s : State) (r : Rec) : Bool × State := match s.physOf r.clu .engWrite r.va r.bytes.length with
  | .ok ps =>
    let t := (ps.zip r.bytes).foldl (fun s p => s.engWrite (r.clu / 324) p.1 p.2) s
    (true, (t.clearCovered (r.clu / 324) (ps.map fun pa => .glob pa false)).recordWritten r)
  | .err _ _ | .poison _ => (true, s.dropRecord r)
  | .absent va _ =>
    let d := r.clu / 324
    let pg := (s.translate r.clu va .engWrite).page
    let f := s.openFault d pg.1 pg.2 (s.recSeq r) (r.clu % 324) 0xF 0xFF 5
    (false, f.2.onDie d fun x => { x with recq := x.recq ++ [{ r with entry := f.1 }] })

/-- Write an error record of a block (R259). -/
def State.errorRecord (s : State) (b : Nat) (word : Word) (source code granule handle : Nat) (pc : Addr) (detail : Nat) : State :=
  let k := s.blk b
  let c := cluOfBlk b
  let n := k.errors
  let area := s.lpbOf c k.launch 40 8 % 2 ^ 48
  let bytes := bytesOf 8 (word.toNat * 2 ^ 32 + min (n + 1) 0xFFFF * 2 ^ 16 + source * 2 ^ 8 + code)
    ++ bytesOf 8 (granule % 32 * 2 ^ 53 + handle % 32 * 2 ^ 48 + pc.toNat % 2 ^ 48)
    ++ bytesOf 8 (s.tick (c / 324)) ++ bytesOf 8 detail
  let s := s.onBlk b fun k => { k with errors := n + 1 }
  (s.tryRecord { kind := .error k.launch, clu := c, va := area + 32 * (n % 8), bytes := bytes, entry := none }).2

/-! ## Records of tensors -/

def Tlr.word (t : Tlr) (lo n : Nat) : Nat := bits t.raw.toNat lo n
def Tlr.tp (t : Tlr) : Bool := t.word 56 1 == 1
def Tlr.fmt (t : Tlr) : Nat := t.word 48 4
def Tlr.base (t : Tlr) : Nat := t.word 0 48
/-- Extent of dimension d; stride of dimensions 1 to 3 in bytes. -/
def Tlr.ext (t : Tlr) (d : Nat) : Nat := t.word (64 + 32 * d) 32
def Tlr.stride (t : Tlr) (d : Nat) : Nat := 16 * t.word (192 + 32 * (d - 1)) 32
def Tlr.fill (t : Tlr) : Nat := t.word 288 32
def Tlr.s0 (t : Tlr) : DWord := BitVec.ofNat 64 (t.word 320 64)
def Tlr.origin (t : Tlr) : Int := toSigned 32 (t.word 384 32)
def Tlr.axis (t : Tlr) : Nat := t.word 418 2
def Tlr.bcode (t : Tlr) : Nat := t.word 416 2
def Tlr.aux (t : Tlr) : Nat := t.word 448 48
/-- Element size in bytes (R221). -/
def elemSize (fmt : Nat) : Nat := match fmt with
  | 0 => 4
  | 1 => 2
  | 2 => 1
  | 3 => 1
  | _ => 8
/-- A record that R220 and R221 call TLRBAD. -/
def Tlr.bad (t : Tlr) : Bool :=
  t.word 57 7 != 0 || t.word 52 4 != 0 || t.word 420 4 != 0 || t.word 424 24 != 0 || t.word 496 16 != 0
    || (List.range 4).any (fun d => t.ext d == 0 || decide (0x7FFFFFFF < t.ext d))
    || t.base % 16 != 0 || t.aux % 16 != 0
    || (t.bcode != 0 && t.fmt != 2 && t.fmt != 3)
    || ((t.fmt == 3 || t.tp) && t.aux == 0)
    || (t.tp && t.fmt != 2 && t.fmt != 3)
    || (t.fmt == 3 && t.origin % 32 != 0)
/-- TLRBAD or FMTRES of a handle's record: code and detail. An unbound handle has no record (R231). -/
def recordError (h : Option Handle) : Option (Nat × Nat) := match h with
  | none => some (1, 0)
  | some h => if h.tlr.bad then some (1, h.tlr.addr.toNat) else if 5 ≤ h.tlr.fmt then some (2, h.tlr.fmt) else none

/-! ## Tiles -/

/-- Coordinates of a tile element (R231): row i, column j. -/
def Handle.coord (h : Handle) (i j d : Nat) : Int :=
  if d = 0 then h.c0 + (if h.transposed then i else j : Nat)
  else if d = 1 then h.c1 + (if h.transposed then j else i : Nat)
  else if d = 2 then h.c2 else h.c3
/-- Dimension along the rows' index and along the columns' index. -/
def Handle.rowDim (h : Handle) : Nat := if h.transposed then 0 else 1
def Handle.colDim (h : Handle) : Nat := if h.transposed then 1 else 0
/-- Coordinates inside the tensor, if they are. -/
def Handle.inside (h : Handle) (i j : Nat) : Option (List Nat) :=
  if (List.range 4).all fun d => decide (0 ≤ h.coord i j d) && decide (h.coord i j d < h.tlr.ext d) then
    some ((List.range 4).map fun d => (h.coord i j d).toNat)
  else none
/-- Address of an element (R221). -/
def Tlr.elemAddr (t : Tlr) (c : List Nat) : Nat :=
  t.base + elemSize t.fmt * c.getD 0 0 + t.stride 1 * c.getD 1 0 + t.stride 2 * c.getD 2 0 + t.stride 3 * c.getD 3 0
/-- Extents of the scale array, and the address of an element's scale (R223). -/
def Tlr.scaleExt (t : Tlr) (d : Nat) : Nat := if d = t.axis then (t.ext d + 31) / 32 else t.ext d
def Tlr.scaleAddr (t : Tlr) (c : List Nat) : Nat :=
  let g := fun d => if d = t.axis then c.getD d 0 / 32 else c.getD d 0
  t.aux + g 0 + t.scaleExt 0 * (g 1 + t.scaleExt 1 * (g 2 + t.scaleExt 2 * g 3))
/-- Start of the trailer array, and the address of a tile's trailer (R224). -/
def Tlr.trailers (t : Tlr) : Nat :=
  if t.fmt = 3 then t.aux + 16 * ((t.scaleExt 0 * t.scaleExt 1 * t.scaleExt 2 * t.scaleExt 3 + 15) / 16) else t.aux
def Tlr.trailerAddr (t : Tlr) (c : List Nat) : Nat :=
  let m0 := (t.ext 0 + 63) / 64
  let m1 := (t.ext 1 + 15) / 16
  t.trailers + 16 * (c.getD 0 0 / 64 + m0 * (c.getD 1 0 / 16 + m1 * (c.getD 2 0 + t.ext 2 * c.getD 3 0)))

/-- CRC-32C (R226): one byte more, and the bytes of a tile. -/
def crcBit : Nat → Nat → Nat
  | 0, x => x
  | n + 1, x => crcBit n (if x % 2 = 1 then x / 2 ^^^ 0x82F63B78 else x / 2)
def crcByte (x : Nat) (b : Byte) : Nat := crcBit 8 (x ^^^ b.toNat)
def crc32c (l : List Byte) : Nat := l.foldl crcByte 0xFFFFFFFF ^^^ 0xFFFFFFFF

/-- The 1,024 positions of the trailer tile of an element, in CRC order; none outside the tensor. -/
def Tlr.tilePositions (t : Tlr) (c : List Nat) : List (Option (List Nat)) :=
  (List.range 1024).map fun p =>
    let c1 := c.getD 1 0 / 16 * 16 + p / 64
    let c0 := c.getD 0 0 / 64 * 64 + p % 64
    if c0 < t.ext 0 && c1 < t.ext 1 then some [c0, c1, c.getD 2 0, c.getD 3 0] else none
/-- The codes at some positions of a trailer tile, last first, after those already read. -/
def State.codesFrom (s : State) (c : Nat) (k : Block) (t : Tlr) : List (Option (List Nat)) → List Nat → Acc Unit × List Nat × State
  | [], l => (.ok (), l, s)
  | none :: r, l => s.codesFrom c k t r (0 :: l)
  | some x :: r, l => match s.engLoad c k (t.elemAddr x) 1 with
    | (.ok e, s) => s.codesFrom c k t r (e.1 :: l)
    | (.err a b, s) => (.err a b, l, s)
    | (.absent a k, s) => (.absent a k, l, s)
    | (.poison a, s) => (.poison a, l, s)
/-- The codes of the trailer tile of an element, going on from those already read (R312). -/
def State.tileCodes (s : State) (c : Nat) (k : Block) (t : Tlr) (at_ : List Nat) (got : List Nat) : Acc Unit × List Nat × State :=
  s.codesFrom c k t ((t.tilePositions at_).drop got.length) got
/-- The bytes of codes gathered last first. -/
def codeBytes (l : List Nat) : List Byte := l.reverse.map (BitVec.ofNat 8 ·)
/-- Check the trailer of an element's tile (R227), with TRLCHK; the codes read stand where a page holds the check. -/
def State.checkTrailer (s : State) (c : Nat) (k : Block) (t : Tlr) (at_ : List Nat) (got : List Nat) : Acc Unit × List Nat × State :=
  let q := s.tileCodes c k t at_ got
  match q.1 with
  | .ok _ =>
    let r := Acc.bind (q.2.2.engLoad c k (t.trailerAddr at_) 16) fun r s =>
      let x := r.1
      let crc := crc32c (codeBytes q.2.1)
      let other := bits x 96 8 != t.fmt || bits x 104 24 != 0
      let bad := crc != bits x 64 32 || other
      let s := s.emitClu 0x46 c (t.trailerAddr at_ % 2 ^ 48 + bad.toNat * 2 ^ 48)
      if bad then (.err 5 (crc + bits x 96 8 * 2 ^ 32 + other.toNat * 2 ^ 40), s) else (.ok (), s)
    (r.1, q.2.1, r.2)
  | _ => q

/-- How a fetch reads an element: the raw code, or as an operand's image (R81). -/
def operandValue (fmt x scale : Nat) : Nat := match fmt with
  | 0 => x
  | 1 => bf16Image x
  | 2 => decodeDM8 x
  | 3 => decodeMX x scale
  | _ => x
/-- What an out-of-bounds element of a copy reads as (R222). -/
def fillCode (fmt fill : Nat) : Nat := match fmt with
  | 0 => fill
  | 1 => fill / 2 ^ 16
  | 4 =>
    if (fp32.decode fill).isNan then fp64.nan
    else match fp32.decode fill with
      | .inf n => fp64.withSign n fp64.inf
      | .fin n m e => (fp64.round .rne n m e).1
      | .nan _ => fp64.nan
  | _ => fill % 256
/-- Fetch one element (R253): its trailer tile first, when it has not been checked (R256). What the fetch has come to stands also
where it meets an error or a page that is not present. -/
def State.fetchElem (s : State) (c : Nat) (k : Block) (h : Handle) (raw : Bool) (i j : Nat) (f : Fetched) : Acc Unit × Fetched × State :=
  match h.inside i j with
  | none => (.ok (), { f with vals := (if raw then fillCode h.tlr.fmt h.tlr.fill else h.tlr.fill) :: f.vals }, s)
  | some x =>
    let t := h.tlr
    let tile := (x.getD 0 0 / 64, x.getD 1 0 / 16)
    let r := if t.tp && !f.checked.contains tile then s.checkTrailer c k t x f.codes else (.ok (), [], s)
    match r.1 with
    | .ok _ =>
      let f := if t.tp && !f.checked.contains tile then { f with checked := tile :: f.checked, codes := [] } else f
      let q := Acc.bind (r.2.2.engLoad c k (t.elemAddr x) (elemSize t.fmt)) fun e s =>
        if !raw && t.fmt = 3 then Acc.bind (s.engLoad c k (t.scaleAddr x) 1) fun y s => (.ok (operandValue 3 e.1 y.1, e.2 ++ y.2), s)
        else (.ok (if raw then e.1 else operandValue t.fmt e.1 0, e.2), s)
      match q.1 with
      | .ok v => (.ok (), { f with vals := v.1 :: f.vals, keys := v.2 ++ f.keys }, q.2)
      | .err a b => (.err a b, f, q.2)
      | .absent a k => (.absent a k, f, q.2)
      | .poison a => (.poison a, f, q.2)
    | .err a b => (.err a b, f, r.2.2)
    | .absent a k => (.absent a k, { f with codes := r.2.1 }, r.2.2)
    | .poison a => (.poison a, f, r.2.2)
/-- Fetch the elements at some positions of a tile, `cols` to a row, from row i0 on. -/
def State.fetchFrom (s : State) (c : Nat) (k : Block) (h : Handle) (raw : Bool) (i0 cols : Nat) : List Nat → Fetched → Acc Unit × Fetched × State
  | [], f => (.ok (), f, s)
  | p :: t, f => match s.fetchElem c k h raw (i0 + p / cols) (p % cols) f with
    | (.ok _, f, s) => s.fetchFrom c k h raw i0 cols t f
    | r => r
/-- Fetch rows × cols elements from row i0 on, row by row, going on from what has been fetched (R312). -/
def State.fetchTile (s : State) (c : Nat) (k : Block) (h : Handle) (raw : Bool) (i0 rows cols : Nat) (got : Fetched) : Acc Unit × Fetched × State :=
  s.fetchFrom c k h raw i0 cols ((List.range (rows * cols)).drop got.vals.length) got
/-- The values fetched, in order. -/
def Fetched.values (f : Fetched) : List Nat := f.vals.reverse

/-! ## Pinned lines (R254) -/

/-- The lines that a fetch of a die pins, from the keys of its bytes: in the RDC where another die is home, in the home L2 else. -/
def pinsOf (d : Nat) (keys : List Nat) : List (Bool × Nat) :=
  ((keys.filter (· < 2 ^ 48)).map fun k => (homeDie k != some d, k / 128)).eraseDups
/-- Where a line is pinned: a slice of a home L2, or the RDC of a die. -/
def pinPlace (d : Nat) (p : Bool × Nat) : Nat :=
  if p.1 then 6400 + d else 32 * (p.2 / 2 ^ 29) + l2Slice (128 * (p.2 % 2 ^ 29))
/-- Lines that may be pinned there at once: a quarter of it. -/
def pinLimit (place : Nat) : Nat := if place < 6400 then 4096 else 32768
/-- The engine operations of the panel, but one, with their dies. -/
def State.otherEngs (s : State) (c tag : Nat) : List (Nat × Eng) :=
  s.clusters.flatMap fun e => (e.2.engs.filter fun x => !(e.1 == c && x.tag == tag)).map fun x => (e.1 / 324, x)
/-- The place where a fetch of an operation must wait: its lines would pass the limit there, or an earlier fetch waits there. Lines of
one fetch alone do not pass it. -/
def State.pinFull (s : State) (c tag : Nat) (since : Nat) (new : List (Bool × Nat)) : Option Nat :=
  let l := (s.otherEngs c tag).filter fun e => !e.2.pins.isEmpty || e.2.pinWait.isSome
  if l.isEmpty then none
  else ((new.map (pinPlace (c / 324))).eraseDups).find? fun q =>
    let mine := (new.filter fun p => pinPlace (c / 324) p == q).map (·.2)
    let pinned := l.flatMap fun e => (e.2.pins.filter fun p => pinPlace e.1 p == q).map (·.2)
    l.any (fun e => e.2.pinWait.any fun w => w.2 == q && decide (w.1 < since))
      || (!pinned.isEmpty && decide (pinLimit q < (mine ++ pinned).eraseDups.length))

/-- Lines, in the numbers of `pinsOf`, that hold elements at some positions of a tile and their scales, `cols` positions to a row. -/
def State.tileLines (s : State) (c : Nat) (k : Block) (h : Handle) (cols : Nat) (ps : List Nat) : List Nat :=
  let at_ := ps.filterMap fun p => h.inside (p / cols) (p % cols)
  let vas := at_.map h.tlr.elemAddr ++ (if h.tlr.fmt = 3 then at_.map h.tlr.scaleAddr else [])
  let lines := vas.foldl (fun (l : List Nat) va => if l.head? = some (va / 128) then l else va / 128 :: l) []
  lines.filterMap fun v => match s.engLoc c k (128 * v) .engRead false with
    | .ok l => some (s.keyOf (c / 324) l / 128)
    | .err _ _ | .absent _ _ | .poison _ => none
/-- The lines that stay pinned of those that a command has fetched: those with elements that it has still to read, at the positions
`left`; of one place no more than may be pinned there (log 33). -/
def State.stillPinned (s : State) (c : Nat) (k : Block) (h : Handle) (cols : Nat) (left : List Nat) (pins : List (Bool × Nat)) : List (Bool × Nat) :=
  if pins.isEmpty || left.isEmpty then []
  else
    let lines := s.tileLines c k h cols left
    (pins.filter fun p => lines.contains p.2).foldl (fun l p =>
      let place := pinPlace (c / 324) p
      if pinLimit place ≤ (l.filter fun q => pinPlace (c / 324) q == place).length then l else l ++ [p]) []

/-- The K tag of an operand whose K dimension is `kd` (R80). -/
def Handle.kTag (h : Handle) (kd : Nat) : KTag :=
  let t := h.tlr
  { tagged := t.bcode != 0 && t.axis == kd, s0 := t.s0, bcode := t.bcode, origin := t.origin - h.coord 0 0 kd }
def KTag.equal (a b : KTag) : Bool :=
  if !a.tagged || !b.tagged then !a.tagged && !b.tagged
  else a.bcode == b.bcode && (a.bcode == 1 || (a.s0 == b.s0 && a.origin == b.origin))

/-! ## The matrix sum (R81, R245) -/

def chainOf : Shape → Nat
  | .q4 => 1
  | .f14 => 1
  | .f22 => 2
  | .f41 => 4
/-- Columns of the array in a shape: N. -/
def colsOf : Shape → Nat
  | .q4 => 16
  | .f14 => 64
  | .f22 => 32
  | .f41 => 16
def kPerSub (fmt : Nat) : Nat := if fmt = 1 then 16 else 32
def kOf (sh : Shape) (fmt : Nat) : Nat := chainOf sh * kPerSub fmt
/-- MatSum before the accumulator: the products rounded, then summed in increasing k. -/
def matSum (a w : List Nat) : Nat :=
  let ts := (a.zip w).map fun p => (fp32.mulValues .rne false (imageValue p.1) (imageValue p.2)).1
  match ts with
  | [] => 0
  | t :: r => r.foldl (fun p t => (fp32.add .rne false false p t).1) t
/-- The sums of one row against the latched weights. -/
def rowSums (row : List Nat) (w : Weights) : List Nat :=
  (List.range w.cols).map fun n => matSum row ((List.range row.length).map fun k => w.vals.getD (k * w.cols + n) 0)
/-- Key of an accumulator element of a cluster (R213). -/
def accKey (c g row col : Nat) : Nat := 4096 * (32 * c + g) + 64 * row + col
def State.accAt (s : State) (c g row col : Nat) : Word :=
  if (s.clu c).invalid.get false g then BitVec.ofNat 32 fp32.nan else s.acc.get 0 (accKey c g row col)
def State.accSet (s : State) (c g row col : Nat) (x : Word) : State := { s with acc := s.acc.set 0 (accKey c g row col) x }

/-- Undefined values for rectangles of granules: R217 and R240 leave them open, so they are free (log 10). -/
def State.scrub (s : State) (c : Nat) (gs : List Nat) (rows col0 cols : Nat) : State :=
  let d := s.draw
  (List.range (rows * cols)).foldl (fun s p =>
    let row := p / cols
    match gs[row / 64]? with
    | some g => s.accSet c g (row % 64) (col0 + p % cols) (Config.undefinedAcc (262144 * d.1 + p))
    | none => s) d.2

/-- Undefined values for some columns of rows, each a granule and a row of it. -/
def State.scrubRows (s : State) (c : Nat) (rows : List (Nat × Nat)) (col0 cols : Nat) : State :=
  let d := s.draw
  ((List.range rows.length).zip rows).foldl (fun s r => (List.range cols).foldl (fun s n =>
    s.accSet c r.2.1 r.2.2 (col0 + n) (Config.undefinedAcc (262144 * d.1 + 64 * r.1 + n))) s) d.2

/-- Mark the results of MMULs in flight undefined, each in the granules that are named for it (R217, R240). -/
def State.undefine (s : State) (c : Nat) (which : Mmul → List Nat) : State :=
  s.onClu c fun x => { x with engs := x.engs.map fun e => match e.op with
    | .mmul m => { e with op := .mmul { m with undef := ((which m).filter m.phys.contains ++ m.undef).eraseDups } }
    | .mcfg _ _ | .mwload _ _ _ _ _ _ | .mstore _ _ _ _ _ _ _ _ _ _ | .copy _ => e }
/-- Some rows of granules of a cluster no longer hold results of the MMULs whose operands are noted (R217). -/
def State.forgetRows (s : State) (c : Nat) (which : Nat × Nat → Bool) : State :=
  (s.placedOn c).foldl (fun s b => if (s.blk b).operands.isEmpty then s
    else s.onBlk b fun k => { k with operands := k.operands.map fun o => { o with outs := o.outs.filter fun r => !which r } }) s
/-- Stores of the warp at issue meet operands of a block's MMULs (R217): the results of those MMULs are undefined, where they still
stand. -/
def State.storedFor (s : State) (keys : List Nat) (b : Nat) : State :=
  let c := cluOfBlk b
  let hit := (s.blk b).operands.filter fun o => keys.any o.keys.contains
  let note := fun (k : Block) => { k.numbered with stores := { warp := if s.w.blk = b then some s.w.index else none, num := k.oseq + 1, keys := keys } :: k.stores }
  hit.foldl (fun s o => (s.undefine c fun m => if m.blk == b && m.stamp == o.stamp then m.phys else []).scrubRows c o.outs o.from_ o.cols) (s.onBlk b note)
/-- A warp has stored: every block with a matrix stream notes it (R217). -/
def State.warpStored (s : State) (locs : List Loc) : State :=
  let bs := (s.blocks.filter fun e => e.2.placed && e.2.mentry != 0).map (·.1)
  if bs.isEmpty || locs.isEmpty then s else bs.foldl (fun s b => s.storedFor (locs.map (s.keyOf s.myDie)) b) s

end Sys2Proof.Machine
end

