-- ==== Sys2Proof/Machine/Access.lean ====
section
/-!
DEFINITION. Access words (spec/07 R153 to R173): loads, stores, prefetch, atomics and fences. An access is performed when
its word issues (log 3).
-/
namespace Sys2Proof.Machine

/-! ## Resolving the lanes of a word (R163) -/

/-- One active lane's access: the lane, its address and what its bytes reach. -/
structure LaneAcc where
  lane : Nat
  addr : Addr
  reach : Reach
  deriving DecidableEq, Repr

/-- Lanes of some accesses. -/
def accMask (l : List LaneAcc) : Mask := l.foldl (fun m a => m ||| (1#16 <<< a.lane)) 0
def Reach.locs : Reach → List Loc
  | .ok l => l
  | .noMap _ | .notPresent _ | .misattr | .bad _ => []
/-- Faulting address of a reach that has one. -/
def Reach.unmapped : Reach → Option Nat
  | .noMap va => some va
  | .ok _ | .notPresent _ | .misattr | .bad _ => none
def Reach.absent : Reach → Option Nat
  | .notPresent va => some va
  | .ok _ | .noMap _ | .misattr | .bad _ => none
def Reach.reason : Reach → Nat
  | .bad r => r
  | .ok _ | .noMap _ | .notPresent _ | .misattr => 0

/-- Low 48 bits of an address, as a trap reports it. -/
def low48 (a : Addr) : DWord := a &&& 0xFFFFFFFFFFFF
/-- The addresses whose translations an access asks for: one for each 64 KiB of the global space that its bytes touch (R163). -/
def globalPages (a n : Nat) : List Nat :=
  let last := min (a + n - 1) (windowBase - 1)
  if windowBase ≤ a then [] else if last / 65536 = a / 65536 then [a] else [a, last / 65536 * 65536]
/-- The lanes of some accesses that touch a page that is not present. -/
def State.lanesOn (s : State) (l : List LaneAcc) (size : Nat) (kind : AccKind) (page : Option (Nat × Nat)) : Mask :=
  accMask (l.filter fun x => (globalPages x.addr.toNat size).any fun va => (s.coreTranslate s.myCore va kind).absent == page)
/-- The walks of a word that ends its block open the entries of the pages that are not present, and leave them (R163). -/
def State.walksOpen (s : State) (l : List LaneAcc) (size : Nat) (kind : AccKind) : State :=
  (l.flatMap fun x => globalPages x.addr.toNat size).foldl (fun s va =>
    let r := s.openWalk va kind
    r.2.leaveEntry s.myDie r.1) s
/-- WACCESS (R199): `kind` is 0 for a load, 1 for a store, 2 for an atomic. -/
def State.waccess (s : State) (a : Addr) (size kind : Nat) (uni : Bool) : State :=
  s.emitWarp 0x26 s.w.uid (a.toNat % 2 ^ 48 + Nat.log2 size * 2 ^ 48 + kind * 2 ^ 52 + uni.toNat * 2 ^ 54)
def accKindCode : AccKind → Nat
  | .load | .fetch | .engRead => 0
  | .store | .engWrite | .spill => 1
  | .atomic => 2
/-- The walks of a word's accesses, one for each 64 KiB (R303, R306). -/
def State.laneWalks (s : State) (vas : List Nat) (kind : AccKind) : State :=
  ((vas.map (· / 65536)).eraseDups).foldl (fun s p => s.coreWalks s.myCore (65536 * p) kind) s
/-- Steps 2 to 6 of R163 for the active lanes: a trap, a block fault or a suspension before any effect, else the violating
lanes are marked and `perform` receives the accesses that remain. A request that the fabric discards ends the block (R329). The word
shows its WACCESS as it issues, also where it traps or ends its block; suspended, it shows it when it issues again (log 86). Of several
pages that are not present it waits for the first of the lowest lane (log 87). -/
def State.resolve (s : State) (m : Mask) (size : Nat) (kind : AccKind) (aligned reads : Bool) (addr : Nat → Addr)
    (perform : State → List LaneAcc → State) : State :=
  let t := s.laneWalks ((lanesOf m).flatMap fun i => globalPages (addr i).toNat size) kind
  let seen := fun (s : State) => s.waccess (addr ((lanesOf m).headD 0)) size (accKindCode kind) false
  let accs := (lanesOf m).map fun i => (⟨i, addr i, s.reach s.myCore s.myBlk (addr i).toNat size kind reads⟩ : LaneAcc)
  let mis := if aligned then accs.filter fun a => a.addr.toNat % size != 0 else []
  let gone := accs.filter fun a => a.reach.unmapped.isSome
  let absent := accs.filter fun a => a.reach.absent.isSome
  let attr := accs.filter fun a => a.reach == .misattr
  let viol := accs.filter fun a => a.reach.reason != 0
  match mis, gone, absent, attr with
  | a :: _, _, _, _ => (seen t).trap true 3 (accMask mis) (low48 a.addr)
  | [], a :: _, _, _ => ((seen t).walksOpen accs size kind).wordFault true 3 (a.reach.unmapped.getD 0) (accMask gone)
  | [], [], a :: _, _ =>
    let va := a.reach.absent.getD 0
    t.suspend va kind (s.lanesOn accs size kind (s.coreTranslate s.myCore va kind).absent)
  | [], [], [], a :: _ => (seen t).trap true 4 (accMask attr) (low48 a.addr)
  | [], [], [], [] =>
    let out := s.w.markSet (accMask viol)
    let why := fun i => match viol.find? (·.lane == i) with
      | some a => (a.addr.toNat, a.reach.reason)
      | none => (0, 4)
    let left := accs.filter fun a => !out.getLsbD a.lane
    match left.filter fun a => s.severedLane kind a.reach.locs with
    | a :: r => (seen t).wordFault true 3 a.addr.toNat (accMask (a :: r))
    | [] => perform (seen (t.markLanes (accMask viol) why)) left

/-- The lanes that read a poisoned line, with the line: the first that the lowest such lane reads (R314, R321). -/
def State.poisonedLanes (s : State) (l : List LaneAcc) (cached : Bool) : Option (Nat × Mask) :=
  let lines := fun (a : LaneAcc) => if cached then s.poisonAt s.myCore a.reach.locs
    else a.reach.locs.filterMap fun x => match x with
      | .glob pa _ => if s.poisoned s.myDie pa then some (pa / 128 * 128) else none
      | .loc _ _ => none
  match l.flatMap lines with
  | [] => none
  | pa :: _ => some (pa, accMask (l.filter fun a => (lines a).contains pa))
/-- A poisoned byte is read: the block ends by fault (R321). -/
def State.poisonFault (s : State) (lane : Bool) (pa : Nat) (m : Mask) : State := (s.emitDie 0x76 s.myDie pa).wordFault lane 9 pa m

/-- Active warps of the core with a global load in flight (R186). -/
def State.loadingWarps (s : State) : List Nat := (s.resident s.myCore).filter fun u => (s.warp u).active && (s.warp u).pend.any (·.load)
/-- The load cap holds the word: it would give one more warp a global load in flight. -/
def State.capped (s : State) (m : Mask) (addr : Nat → Addr) : Bool :=
  (lanesOf m).any (fun i => (addr i).toNat < windowBase) && !(s.w.pend.any (·.load)) &&
    decide ((s.core s.myCore).loadCap ≤ s.loadingWarps.length)
def State.globalLanes (l : List LaneAcc) : Bool := l.any fun a => a.addr.toNat < windowBase

/-! ## Crossing accesses (R168, log 70) -/

/-- The 128-byte line of global memory or the 64-byte row of local memory on which a byte lies. -/
def Loc.unit : Loc → Nat × Nat
  | .glob pa _ => (0, pa / 128)
  | .loc core off => (core + 1, off / 64)
/-- How many bytes of an access its first part holds; all of them where it crosses no boundary. -/
def firstPart (l : List Loc) : Nat := (l.takeWhile fun x => (l.head?.map Loc.unit) == some x.unit).length
/-- Some access of a word crosses a boundary. -/
def crosses (l : List (List Loc)) : Bool := l.any fun x => firstPart x < x.length
/-- The choice that a draw makes for a lane: whether byte k of n bytes in the first part is performed when the word issues. -/
def atIssue (choice n k : Nat) : Bool := choice % 3 == 0 || (choice % 3 == 1) == decide (k < n)
/-- The draw for a word with a crossing access: the choice of each lane. -/
def State.drawParts (s : State) (ls : List (List Loc)) : (Nat → Nat) × State :=
  if crosses ls then (Config.partLater s.draw.1, s.draw.2) else (fun _ => 0, s)
/-- Read the part of a load that is performed now; what is left of it, if anything is. -/
def State.loadNow (s : State) (choice : Nat) (l : LoadPart) (locs : List Loc) : List LoadPart × State :=
  let n := firstPart locs
  let now := fun k => n == locs.length || atIssue choice n k
  let ps := (List.range locs.length).zip locs
  let r := ps.foldl (fun (a : List Byte × State) p =>
    if now p.1 then
      let x := a.2.readLoc s.myCore l.lane.isSome p.2
      (a.1 ++ [x.1], x.2)
    else (a.1 ++ [0], a.2)) ([], s.fetchLocs s.myCore l.lane.isSome ((ps.filter fun p => now p.1).map (·.2)))
  let l := { l with got := r.1, todo := ps.filter fun p => !now p.1 }
  (if l.todo.isEmpty then [] else [l], r.2.onW fun w => w.putLoad l (ofBytes r.1))
/-- The bytes of the stores of a word in lane order, those performed now and those left; of the latter a byte that a later lane writes
now is dropped (R157). -/
def storeNow (choice : Nat → Nat) : List (Nat × List (Loc × Byte)) → List (Loc × Byte) × List (Loc × Byte)
  | [] => ([], [])
  | (i, l) :: t =>
    let n := firstPart (l.map (·.1))
    let ps := (List.range l.length).zip l
    let now := fun k => n == l.length || atIssue (choice i) n k
    let r := storeNow choice t
    let late := ((ps.filter fun p => !now p.1).map (·.2)).filter fun x => !(r.1.map (·.1)).contains x.1
    (((ps.filter fun p => now p.1).map (·.2)) ++ r.1, late ++ r.2)
/-- A word leaves parts of its accesses for later (R168). -/
def State.leaveParts (s : State) (tag : Option Nat) (stores : List (Loc × Byte)) (loads : List LoadPart) : State :=
  if stores.isEmpty && loads.isEmpty then s
  else s.onW fun w => { w with parts := w.parts ++ [{ owner := w.pmask, since := s.cycle, tag := tag, stores := stores, loads := loads }] }
/-- Perform the stores of a word, by lane: what a warp has stored counts at its issue (R217). -/
def State.storeLanes (s : State) (l : List (Nat × List (Loc × Byte))) : State :=
  let d := s.drawParts (l.map fun e => e.2.map (·.1))
  let r := storeNow d.1 l
  ((d.2.storeLocs s.myCore r.1).leaveParts none r.2 []).warpStored (l.flatMap fun e => e.2.map (·.1))

/-! ## Loads and stores (R156 to R159) -/

/-- The part of a load or atomic that holds the word at issue: flag A at its limit, or the load cap. -/
def State.holdLoad (s : State) (m : Mask) (addr : Nat → Addr) : Option State :=
  if s.w.atLimit s.w.flagA then some (s.stallFlag s.w.flagA)
  else if s.capped m addr then some (s.stallOn 6 0)
  else none

/-- A load or atomic counts in flag A and keeps what its registers held in `old`; with every lane marked, its count returns at once
(R17, R129, R164). -/
def Warp.countMem (w old : Warp) (dst : List RegRef) (l : List LaneAcc) : Warp :=
  if l.isEmpty then w else (w.addMem dst old.flagA (State.globalLanes l)).remember old dst (accMask l)
/-- LD: k registers from vd on, extended with the sign from `sign` bits where there is one. -/
def State.load (s : State) (i : Instr) (g : Guard) (size scale : Nat) (va : Reg) (ab : BitVec 3) (disp : BitVec 6) (vd : Reg) (k : Nat)
    (sign : Option Nat) : State :=
  let dst := (List.range k).map fun j => RegRef.v (vd.toNat + j)
  s.laneWord i g ([.v va.toNat, .s (2 * ab.toNat), .s (2 * ab.toNat + 1)] ++ dst) fun _ m =>
    if m = 0 then s.done true
    else
      let addr := s.w.laneAddr va ab scale disp
      match s.holdLoad m addr with
      | some t => t
      | none => s.resolve m size .load false true addr fun s l =>
        match s.poisonedLanes l true with
        | some (pa, bad) => s.poisonFault true pa bad
        | none =>
          let w := s.w
          let d := s.drawParts (l.map fun a => a.reach.locs)
          let r := l.foldl (fun (q : List LoadPart × State) a =>
            let x := q.2.loadNow (d.1 a.lane) ⟨some a.lane, vd.toNat, k, sign, [], []⟩ a.reach.locs
            (q.1 ++ x.1, x.2)) ([], d.2)
          ((r.2.leaveParts (some w.nextTag) [] r.1).onW fun w' => w'.countMem w dst l).done true

/-- A destination of k registers. -/
def putRegs (vd : Reg) (k : Nat) (w : Warp) (i x : Nat) : Warp := w.putLoad ⟨some i, vd.toNat, k, none, [], []⟩ x

def execLdI8 (g : Guard) (vd va : Reg) (ab : BitVec 3) (disp : BitVec 6) (s : State) : Out :=
  .next (s.load (.ldI8 g vd va ab disp) g 1 1 va ab disp vd 1 (some 8))
def execLdN8 (g : Guard) (vd va : Reg) (ab : BitVec 3) (disp : BitVec 6) (s : State) : Out :=
  .next (s.load (.ldN8 g vd va ab disp) g 1 1 va ab disp vd 1 none)
def execLdI16 (g : Guard) (vd va : Reg) (ab : BitVec 3) (disp : BitVec 6) (s : State) : Out :=
  .next (s.load (.ldI16 g vd va ab disp) g 2 2 va ab disp vd 1 (some 16))
def execLdN16 (g : Guard) (vd va : Reg) (ab : BitVec 3) (disp : BitVec 6) (s : State) : Out :=
  .next (s.load (.ldN16 g vd va ab disp) g 2 2 va ab disp vd 1 none)
def execLdB32 (g : Guard) (vd va : Reg) (ab : BitVec 3) (disp : BitVec 6) (s : State) : Out :=
  .next (s.load (.ldB32 g vd va ab disp) g 4 4 va ab disp vd 1 none)
def execLdB64 (g : Guard) (vd va : Reg) (ab : BitVec 3) (disp : BitVec 6) (s : State) : Out :=
  .next (s.load (.ldB64 g vd va ab disp) g 8 8 va ab disp vd 2 none)
def execLdB128 (g : Guard) (vd va : Reg) (ab : BitVec 3) (disp : BitVec 6) (s : State) : Out :=
  .next (s.load (.ldB128 g vd va ab disp) g 16 16 va ab disp vd 4 none)

/-- The value of k registers of a lane. -/
def Warp.regsNat (w : Warp) (r : Reg) (k i : Nat) : Nat :=
  (List.range k).foldl (fun x j => x + (w.V (r.toNat + j) i).toNat * 2 ^ (32 * j)) 0
/-- ST: the low bytes of the source registers, in increasing lane order (R157). -/
def State.store (s : State) (i : Instr) (g : Guard) (size : Nat) (vs va : Reg) (ab : BitVec 3) (disp : BitVec 6) : State :=
  let k := (size + 3) / 4
  s.laneWord i g ([.v va.toNat, .s (2 * ab.toNat), .s (2 * ab.toNat + 1)] ++ (List.range k).map fun j => .v (vs.toNat + j)) fun _ m =>
    if m = 0 then s.done true
    else
      let addr := s.w.laneAddr va ab size disp
      s.resolve m size .store false false addr fun s l =>
        (s.storeLanes (l.map fun a => (a.lane, a.reach.locs.zip (bytesOf size (s.w.regsNat vs k a.lane))))).done true
def execStN8 (g : Guard) (vs va : Reg) (ab : BitVec 3) (disp : BitVec 6) (s : State) : Out :=
  .next (s.store (.stN8 g vs va ab disp) g 1 vs va ab disp)
def execStN16 (g : Guard) (vs va : Reg) (ab : BitVec 3) (disp : BitVec 6) (s : State) : Out :=
  .next (s.store (.stN16 g vs va ab disp) g 2 vs va ab disp)
def execStB32 (g : Guard) (vs va : Reg) (ab : BitVec 3) (disp : BitVec 6) (s : State) : Out :=
  .next (s.store (.stB32 g vs va ab disp) g 4 vs va ab disp)
def execStB64 (g : Guard) (vs va : Reg) (ab : BitVec 3) (disp : BitVec 6) (s : State) : Out :=
  .next (s.store (.stB64 g vs va ab disp) g 8 vs va ab disp)
def execStB128 (g : Guard) (vs va : Reg) (ab : BitVec 3) (disp : BitVec 6) (s : State) : Out :=
  .next (s.store (.stB128 g vs va ab disp) g 16 vs va ab disp)
/-- Bring the line of a physical address into a level (R158): the L1 of a core with a carve, the RDC for a line homed elsewhere, the
home L2. -/
def State.prefetch (s : State) (core : Nat) (lv : PrefLv) (pa : Nat) : State :=
  let d := core / 16 / 324
  match lv with
  | .l1 => if s.carve core = 0 || ((s.core core).l1.get Line.empty (pa / 128)).valid == BitVec.allOnes 128 then s else s.l1Fill core (pa / 128)
  | .l2 => s.visitAt d pa
  | .rdc => if s.homedOn d pa then s.visitAt d pa
    else if ((s.die d).rdc.get Line.empty (pa / 128)).valid == BitVec.allOnes 128 then s else (s.rdcRoom d (pa / 128)).rdcFill d (pa / 128)
/-- PREF (R158): an address of a window, with no translation, uncached or over a cut is left out. Under a binding a guarded PREF that would
split a group raises SEAMDIV like every guarded LM word (R140, log 88). -/
def execPref (g : Guard) (lv : PrefLv) (va : Reg) (ab : BitVec 3) (disp : BitVec 6) (s : State) : Out :=
  .next (s.laneWord (.pref g lv va ab disp) g [.v va.toNat, .s (2 * ab.toNat), .s (2 * ab.toNat + 1)] fun _ m =>
    ((lanesOf m).foldl (fun s i =>
      let a := (s.w.laneAddr va ab 128 disp i).toNat
      if windowBase ≤ a then s
      else match s.coreTranslate s.myCore a .load with
        | .ok pa leaf =>
          let t := s.coreWalks s.myCore a .load
          if leaf.attr / 8 = 1 || s.cutOff s.myDie pa then t else t.prefetch s.myCore lv pa
        | .noMap | .denied | .notPresent _ _ => s) s).done true)

/-! ## Atomics (R160 to R162, R293) -/

/-- The new value of an atomic of N bits. -/
def atomNew (op : AtomOp) (n old b expected : Nat) : Nat := match op with
  | .add => (old + b) % 2 ^ n
  | .smin => if toSigned n b < toSigned n old then b else old
  | .smax => if toSigned n old < toSigned n b then b else old
  | .umin => min old b
  | .umax => max old b
  | .and => old &&& b
  | .or => old ||| b
  | .xor => old ^^^ b
  | .exch => b
  | .cas => if old = expected then b else old
  | .fadd => ((if n = 32 then fp32 else fp64).add .rne false false old b).1
/-- Code of an operation in R23. -/
def atomCode : AtomOp → Nat
  | .add => 0 | .smin => 1 | .smax => 2 | .umin => 3 | .umax => 4 | .and => 5 | .or => 6 | .xor => 7 | .exch => 8 | .cas => 9 | .fadd => 10
/-- One atomic at its place: local memory, or the home of a global line (R293), with ATOMH of R302. -/
def State.atomAt (s : State) (locs : List Loc) (op : AtomOp) (n b expected : Nat) : Nat × State := match locs with
  | .glob pa _ :: _ =>
    let s := s.flushLine s.myCore pa
    let old := s.homeN s.myDie pa (n / 8)
    let s := ((List.range (n / 8)).zip (bytesOf (n / 8) (atomNew op n old b expected))).foldl
      (fun s x => s.homeWrite s.myDie (pa + x.1) x.2) (s.visitAt s.myDie pa)
    (old, match (s.homeOf s.myDie pa).bind homeDie with
      | some h => s.emitDie 0x64 h (pa % 2 ^ 48 + atomCode op * 2 ^ 48 + s.myDie * 2 ^ 52)
      | none => s)
  | _ =>
    let old := ofBytes (s.readLocs s.myCore false locs).1
    (old, s.writeLocs s.myCore (locs.zip (bytesOf (n / 8) (atomNew op n old b expected))))
/-- A lane atomic that misses the L1 on a line with a kept tag is a victim hit (R187). -/
def State.atomMiss (s : State) (locs : List Loc) : State := match locs with
  | .glob pa uc :: _ =>
    if !uc && s.carve s.myCore != 0 && !((s.core s.myCore).l1.get Line.empty (pa / 128)).has (pa % 128) then s.victimHit s.myCore (pa / 128) else s
  | _ => s
/-- Take the elements of a list in the order that numbers draw them. -/
def drawn {α : Type} : List Nat → List α → List α
  | [], l => l
  | k :: t, l => match l with
    | [] => []
    | x :: xs =>
      let j := k % (xs.length + 1)
      ((x :: xs).getD j x) :: drawn t ((x :: xs).take j ++ (x :: xs).drop (j + 1))

/-- Release and acquire parts of an order suffix (R23). -/
def ordReleases (o : AtomOrd) : Bool := match o with
  | .rel | .ar => true
  | .rlx | .acq => false
def ordAcquires (o : AtomOrd) : Bool := match o with
  | .acq | .ar => true
  | .rlx | .rel => false

/-- ATOM: scopes as State.release; a local address reads every scope as .blk (R162). -/
def State.atom (s : State) (i : Instr) (g : Guard) (op : AtomOp) (ord : AtomOrd) (scope : Nat) (t : Wd) (vd va : Reg) (ab : BitVec 3) : State :=
  let n := wdBits t
  let k := n / 32
  let dst := (List.range k).map fun j => RegRef.v (vd.toNat + j)
  let src := if op == .cas then (List.range (2 * k)).map fun j => RegRef.v (vd.toNat + j) else dst
  s.laneWord i g ([.v va.toNat, .s (2 * ab.toNat), .s (2 * ab.toNat + 1)] ++ src) fun _ m =>
    if m = 0 then s.done true
    else
      let addr := s.w.laneAddr va ab 1 0
      match s.holdLoad m addr with
      | some t => t
      | none => s.resolve m (n / 8) .atomic true true addr fun s l =>
        match s.poisonedLanes l false with
        | some (pa, bad) => s.poisonFault true pa bad
        | none =>
          let w := s.w
          let sc := if State.globalLanes l then scope else 1
          let s := if ordReleases ord then (s.release s.myCore sc).publish s.w.uid else s
          let d := s.draw
          let s := (drawn (Config.laneOrder d.1) l).foldl (fun s a =>
            let b := s.w.regsNat (if op == .cas then BitVec.ofNat 6 (vd.toNat + k) else vd) k a.lane
            let r := (s.atomMiss a.reach.locs).atomAt a.reach.locs op n b (s.w.regsNat vd k a.lane)
            r.2.onW fun w => putRegs vd k w a.lane r.1) d.2
          let s := if ordAcquires ord then (s.acquire s.myCore sc).learn s.w.uid else s
          let s := s.warpStored (l.flatMap fun a => a.reach.locs)
          (s.onW fun w' => w'.countMem w dst l).done true

def execAtomB32Die (g : Guard) (op : AtomOp) (ord : AtomOrd) (vd va : Reg) (ab : BitVec 3) (s : State) : Out :=
  .next (s.atom (.atomB32Die g op ord vd va ab) g op ord 2 .w32 vd va ab)
def execAtomB32Dev (g : Guard) (op : AtomOp) (ord : AtomOrd) (vd va : Reg) (ab : BitVec 3) (s : State) : Out :=
  .next (s.atom (.atomB32Dev g op ord vd va ab) g op ord 3 .w32 vd va ab)
def execAtomB32Sys (g : Guard) (op : AtomOp) (ord : AtomOrd) (vd va : Reg) (ab : BitVec 3) (s : State) : Out :=
  .next (s.atom (.atomB32Sys g op ord vd va ab) g op ord 4 .w32 vd va ab)
def execAtomB64Die (g : Guard) (op : AtomOp) (ord : AtomOrd) (vd va : Reg) (ab : BitVec 3) (s : State) : Out :=
  .next (s.atom (.atomB64Die g op ord vd va ab) g op ord 2 .w64 vd va ab)
def execAtomB64Dev (g : Guard) (op : AtomOp) (ord : AtomOrd) (vd va : Reg) (ab : BitVec 3) (s : State) : Out :=
  .next (s.atom (.atomB64Dev g op ord vd va ab) g op ord 3 .w64 vd va ab)
def execAtomB64Sys (g : Guard) (op : AtomOp) (ord : AtomOrd) (vd va : Reg) (ab : BitVec 3) (s : State) : Out :=
  .next (s.atom (.atomB64Sys g op ord vd va ab) g op ord 4 .w64 vd va ab)

/-! ## Uniform accesses -/

/-- The steps of R163 for one uniform access: a violation is the block fault UACC (R155). `word` says that the word is a load, store or
atomic, which shows its WACCESS as it issues (R199). -/
def State.resolveUni (s : State) (p : Path) (a : Addr) (size : Nat) (kind : AccKind) (aligned reads word : Bool)
    (perform : State → List Loc → State) : State :=
  let u := s.laneWalks (globalPages a.toNat size) kind
  let t := if word then u.waccess a size (accKindCode kind) true else u
  if aligned && a.toNat % size != 0 then t.trap false 3 p.mask (low48 a)
  else match s.reach s.myCore s.myBlk a.toNat size kind reads with
    | .noMap va => (t.walksOpen [⟨0, a, .ok []⟩] size kind).wordFault false 3 va p.mask
    | .notPresent va => u.suspend va kind p.mask
    | .misattr => t.trap false 4 p.mask (low48 a)
    | .bad _ => t.wordFault false 2 a.toNat p.mask
    | .ok locs =>
      if s.severedLane kind locs then t.wordFault false 3 a.toNat p.mask
      else match if reads then s.poisonedLanes [⟨0, a, .ok locs⟩] (kind != .atomic) else none with
      | some (pa, _) => t.poisonFault false pa p.mask
      | none => perform t locs
/-- Address of ULD and UST (R153). -/
def Warp.uniAddr (w : Warp) (sa : Reg) (size : Nat) (imm : BitVec 8) : Addr := w.SP sa.toNat + BitVec.ofNat 64 (size * imm.toNat)
def State.uld (s : State) (g : Guard) (t : Wd) (sd sa : Reg) (imm : BitVec 8) : State :=
  s.uniWord g (sPair sa ++ sRef t sd) fun p =>
    if s.w.atLimit s.w.flagB then s.stallFlag s.w.flagB
    else
      let size := wdBits t / 8
      let a := s.w.uniAddr sa size imm
      s.resolveUni p a size .load false true true fun s locs =>
        let flag := s.w.flagB
        let d := s.drawParts [locs]
        let r := d.2.loadNow (d.1 0) ⟨none, sd.toNat, size / 4, none, [], []⟩ locs
        ((r.2.leaveParts (some s.w.nextTag) [] r.1).onW fun w => w.addMem (sRef t sd) flag false).done false
def execUldB32 (g : Guard) (sd sa : Reg) (imm : BitVec 8) (s : State) : Out := .next (s.uld g .w32 sd sa imm)
def execUldB64 (g : Guard) (sd sa : Reg) (imm : BitVec 8) (s : State) : Out := .next (s.uld g .w64 sd sa imm)
def State.ust (s : State) (g : Guard) (t : Wd) (ss sa : Reg) (imm : BitVec 8) : State :=
  s.uniWord g (sPair sa ++ sRef t ss) fun p =>
    let size := wdBits t / 8
    let a := s.w.uniAddr sa size imm
    s.resolveUni p a size .store false false true fun s locs =>
      (s.storeLanes [(0, locs.zip (bytesOf size (s.w.sNat t ss)))]).done false
def execUstB32 (g : Guard) (ss sa : Reg) (imm : BitVec 8) (s : State) : Out := .next (s.ust g .w32 ss sa imm)
def execUstB64 (g : Guard) (ss sa : Reg) (imm : BitVec 8) (s : State) : Out := .next (s.ust g .w64 ss sa imm)

/-- The value of k uniform registers. -/
def Warp.sregsNat (w : Warp) (r k : Nat) : Nat := (List.range k).foldl (fun x j => x + (w.S (r + j)).toNat * 2 ^ (32 * j)) 0
def scopeOf : AtomScope → Nat
  | .die => 2
  | .dev => 3
  | .sys => 4
def State.uatom (s : State) (g : Guard) (op : AtomOp) (scope : AtomScope) (ord : AtomOrd) (t : Wd) (sd sa : Reg) : State :=
  let n := wdBits t
  let k := n / 32
  let src := (List.range (if op == .cas then 2 * k else k)).map fun j => RegRef.s (sd.toNat + j)
  s.uniWord g (sPair sa ++ src) fun p =>
    if s.w.atLimit s.w.flagB then s.stallFlag s.w.flagB
    else
      let a := s.w.SP sa.toNat
      s.resolveUni p a (n / 8) .atomic true true true fun s locs =>
        let flag := s.w.flagB
        let sc := if a.toNat < windowBase then scopeOf scope else 1
        let s := if ordReleases ord then (s.release s.myCore sc).publish s.w.uid else s
        let r := s.atomAt locs op n (s.w.sregsNat (if op == .cas then sd.toNat + k else sd.toNat) k) (s.w.sregsNat sd.toNat k)
        let s := (if ordAcquires ord then (r.2.acquire s.myCore sc).learn s.w.uid else r.2).warpStored locs
        (s.onW fun w => (w.putS t sd r.1).addMem (sRef t sd) flag false).done false
def execUatomB32 (g : Guard) (op : AtomOp) (scope : AtomScope) (ord : AtomOrd) (sd sa : Reg) (s : State) : Out :=
  .next (s.uatom g op scope ord .w32 sd sa)
def execUatomB64 (g : Guard) (op : AtomOp) (scope : AtomScope) (ord : AtomOrd) (sd sa : Reg) (s : State) : Out :=
  .next (s.uatom g op scope ord .w64 sd sa)

/-! ## FENCE (R169, R170) -/

def fenceScope : FenceScope → Nat
  | .warp => 0
  | .blk => 1
  | .die => 2
  | .dev => 3
  | .sys => 4
/-- The release and acquire actions of a FENCE of the warp at issue (R170); at the scope of the warp there is nothing to do. -/
def State.fenceRelease (s : State) (n : Nat) : State := if n = 0 then s else (s.release s.myCore n).publish s.w.uid
def State.fenceAcquire (s : State) (n : Nat) : State := if n = 0 then s else (s.acquire s.myCore n).learn s.w.uid
/-- FENCE: an acquiring fence waits for the path's loads and atomics in flight to complete, and the other path issues meanwhile. -/
def execFence (g : Guard) (ord : FenceOrd) (scope : FenceScope) (s : State) : Out :=
  let n := fenceScope scope
  .next (s.uniWord g [] fun p =>
    if s.w.fenceWaits p ord then s.stallOn 7 ((s.w.path.map (·.pc)).getD 0)
    else
      let s := if ord != .acq then s.fenceRelease n else s
      (if ord != .rel then s.fenceAcquire n else s).done false)

end Sys2Proof.Machine
end

