-- ==== Sys2Proof/Machine/Cluster.lean ====
section
/-!
DEFINITION. The cluster from the side of its warps: numbered barriers, FORK and RENDEZ (spec/10 R205 to R210), racks
(R211, R212), accumulator granules (R213, R214), and the engine commands that warps issue (spec/11 R228 to R240).
-/
namespace Sys2Proof.Machine

/-! ## Numbered barriers -/

/-- An arrival (R207): none when its count disagrees with the phase or is out of range. `knows` is what it comes after (R216). -/
def State.arrival (s : State) (b nb count : Nat) (all : Bool) (party : Nat) (knows : Known) : Option State :=
  let k := s.blk b
  let r := k.bars.get Bar.fresh nb
  let e := if r.arrivals = 0 then count else r.expect
  if count != e || (!all && (count == 0 || decide (258 < count))) then none
  else
    let r' := { r with arrivals := r.arrivals + 1, expect := e, allWarps := if r.arrivals = 0 then all else r.allWarps,
                       knows := r.knows.join knows }
    let s := s.onBlk b fun k => { k with bars := k.bars.put nb r' }
    let s := s.emitClu 0x30 (cluOfBlk b) (nb + party * 16 + b % 4 * 64 + (r.arrivals + 1) * 256 + e * 2 ^ 17 + k.errMode.toNat * 2 ^ 26)
    some (if k.errMode || e ≤ r.arrivals + 1 then s.barComplete b nb k.errMode else s)
/-- The info of BARCNT (R314). -/
def State.barInfo (s : State) (b nb count : Nat) : Nat :=
  nb * 2 ^ 28 + ((s.blk b).bars.get Bar.fresh nb).expect % 512 * 2 ^ 16 + count % 512
/-- The count of a warp's arrival: its own, or the warps of the block that have not ended. -/
def State.barCount (s : State) (b : Nat) (count : Option Nat) : Nat := count.getD (s.liveWarps b).length
/-- A warp has operations up to a number in the accumulator port's queue. -/
def Cluster.portPending (c : Cluster) (u n : Nat) : Bool := c.port.any fun o => o.warp == u && decide (o.num ≤ n)
/-- What the warp at issue does now waits until its port operations are performed (R240). -/
def State.defers (s : State) : Bool := !s.w.due.isEmpty || (s.clu s.myClu).portPending s.w.uid s.myBlk.oseq
/-- It is to be done once they are. -/
def State.addDue (s : State) (pc : Addr) (kind : DueKind) : State :=
  let d : Due := { after := s.myBlk.oseq, pc := pc, kind := kind, knows := s.before s.w.uid }
  s.onW fun w => { w with due := w.due ++ [d] }
/-- BARW and BARA (R208): release at block scope, the arrival, and for BARW the wait at the next boundary. The warp's port operations
are performed before the arrival counts (R216, R240): until then the rest of the clause issues, and later clauses of a BARA's path. -/
def State.barWord (s : State) (g : Guard) (nb : Nat) (cnt : Bool) (sa : Reg) (wait : Bool) : State :=
  s.uniWord g ((if cnt then [.s sa.toNat] else []) ++ (if wait then [.s 55] else [])) fun p =>
    let count := if cnt then some (s.w.S sa.toNat).toNat else none
    let n := s.barCount s.w.blk count
    let phase := (s.myBlk.bars.get Bar.fresh nb).phase
    let t := s.release s.myCore 1
    let t := if wait then t.onW fun w => w.addPend [.s 55] none .unit else t
    let tag := t.w.nextTag - 1
    let t := t.done false
    let x : Wait := if s.defers then .arriving nb tag else .barw nb phase tag
    let t := if wait then t.onW fun w => w.onPath fun p => { p with waits := p.waits ++ [x] } else t
    if s.defers then t.addDue p.pc (.arrive nb count (if wait then some tag else none))
    else match t.arrival s.w.blk nb n (!cnt) 0 (s.before s.w.uid) with
      | some r => r
      | none => s.wordFault false 4 (s.barInfo s.w.blk nb n) 0
def execBarw (g : Guard) (nb : BitVec 4) (cnt : Bool) (sa : Reg) (s : State) : Out := .next (s.barWord g nb.toNat cnt sa true)
def execBara (g : Guard) (nb : BitVec 4) (cnt : Bool) (sa : Reg) (s : State) : Out := .next (s.barWord g nb.toNat cnt sa false)

/-! ## FORK and RENDEZ -/

/-- Start an idle stream at its entry (R205): it comes after what the FORK comes after. -/
def State.startStream (s : State) (b : Nat) (matrix : Bool) (x : Known) : State :=
  let k := s.blk b
  let t := if matrix then k.m else k.c
  if t.st != .idle then s
  else
    let s := s.onBlk b fun k => if matrix then k.passed x else { k with c := k.c.after x }
    s.streamTo b matrix fun t => { t with st := .running, pc := if matrix then k.mentry else k.centry, wait := none, held := none, word := none }
/-- Start the named streams. -/
def State.startStreams (s : State) (b : Nat) (m c : Bool) (x : Known) : State :=
  let s := if m then s.startStream b true x else s
  if c then s.startStream b false x else s
/-- The arrival of a BARW that waited for port operations counts now. -/
def Wait.arrived (tag nb phase : Nat) : Wait → Wait
  | .arriving n t => if t = tag then .barw nb phase t else .arriving n t
  | x => x
/-- What a warp is to do after its port operations, done now (R205, R208). -/
def State.dueDone (s : State) (u : Nat) (d : Due) : State :=
  let b := (s.warp u).blk
  match d.kind with
  | .fork m c tag => (s.startStreams b m c d.knows).onWarp u fun w => w.answered tag
  | .arrive nb count tag =>
    let n := s.barCount b count
    let phase := (s.blk b).bars.get Bar.fresh nb |>.phase
    let turn := fun (p : Path) => { p with waits := p.waits.map (Wait.arrived (tag.getD 0) nb phase) }
    let t := if tag.isSome then s.onWarp u fun w => { w with a := w.a.map turn, b := w.b.map turn, orphans := w.orphans.map (Wait.arrived (tag.getD 0) nb phase) } else s
    match t.arrival b nb n count.isNone 0 d.knows with
    | some r => r
    | none =>
      let t := match tag with
        | some k => s.onWarp u fun w => (w.dropWaits (Wait.isTag [k])).complete k
        | none => s
      t.blockFault b (s.exitAt b (some u) d.pc 4 (s.barInfo b nb n))
/-- A warp does what its port operations no longer hold, the oldest first. -/
def State.dueTurn (s : State) (u : Nat) : Nat → State
  | 0 => s
  | n + 1 => match (s.warp u).due with
    | [] => s
    | d :: t =>
      if (s.clu (cluOf u)).portPending u d.after then s
      else ((s.onWarp u fun w => { w with due := t }).dueDone u d).dueTurn u n
/-- FORK (R205): what the path has accessed before it comes before what a stream that it starts accesses, its port operations too. -/
def execFork (g : Guard) (which : ForkSel) (s : State) : Out :=
  let m := which != .c
  let c := which != .m
  .next (s.uniWord g [] fun p =>
    if (m && s.myBlk.mentry == 0) || (c && s.myBlk.centry == 0) then s.illegal (wordOf (.fork g which))
    else if s.w.atLimit s.w.flagB then s.stallFlag s.w.flagB
    else
      let t := s.release s.myCore 1
      if s.defers then (((t.onW fun w => w.addPend [] w.flagB .unit).done false).addDue p.pc (.fork m c s.w.nextTag))
      else ((t.startStreams s.w.blk m c (s.before s.w.uid)).onW fun w => w.addPend [] w.flagB .counted).done false)
def execRendez (g : Guard) (s : State) : Out :=
  .next (s.uniWord g [] fun p =>
    let b := s.w.blk
    let s := (s.done false).onW fun w => w.onPath fun q => { q with waits := q.waits ++ [.rendez p.pc] }
    (s.onBlk b fun k => { k with met := if k.met.contains s.w.index then k.met else s.w.index :: k.met }).meet b)

/-! ## Engine commands -/

/-- The command is accepted and counts in flag B (R229); registers it writes later are pending. -/
def Warp.addCmd (w : Warp) (regs : List RegRef) : Warp :=
  let w := w.addPend [] w.flagB .counted
  if regs.isEmpty then w else w.addPend regs none .unit
/-- The tag of the registers that the command just added writes later. -/
def Warp.lastTag (w : Warp) : Nat := w.nextTag - 1
/-- The warp-command error path (R229, R259): code 14, and the block fault ENGCMD. -/
def State.cmdError (s : State) (i : Instr) (detail granule handle : Nat) : State :=
  let pc := (s.w.path.map (·.pc)).getD 0
  let n := s.myBlk.errors
  (s.errorRecord s.w.blk (wordOf i) 3 14 granule handle pc detail).wordFault false 5 (n % 8) 0
/-- An engine command whose guard passes; at the limit of flag B it waits. -/
def State.cmdWord (s : State) (g : Guard) (regs : List RegRef) (body : Path → State) : State :=
  s.uniWord g regs fun p => if s.w.atLimit s.w.flagB then s.stallFlag s.w.flagB else body p
/-- The command has its effect and is accepted. -/
def State.accepted (s : State) : State := (s.onW fun w => w.addCmd []).done false

def execSeed (g : Guard) (b : RotB) (hs : BitVec 3) (sa : Reg) (s : State) : Out :=
  .next (s.cmdWord g (sPair sa) fun _ =>
    if s.myBlk.seeds ≤ hs.toNat then s.illegal (wordOf (.seed g b hs sa))
    else (s.onBlk s.w.blk fun k => { k with hs := k.hs.put hs.toNat ⟨s.w.SP sa.toNat, b⟩ }).accepted)

/-- THBIND (R231): the record is read as a load of the path and latched with the origin and the orientation. -/
def State.bind (s : State) (i : Instr) (g : Guard) (th : Nat) (sa sb : Reg) (t : Bool) : State :=
  s.cmdWord g (sPair sa ++ (List.range 4).map fun k => .s (sb.toNat + k)) fun p =>
    let a := s.w.SP sa.toNat
    let c := fun k => (s.w.S (sb.toNat + k)).toInt
    if a.toNat % 64 != 0 then s.cmdError i a.toNat 0 th
    else s.resolveUni p a 64 .load false true false fun s locs =>
      let r := s.readLocs s.myCore false locs
      let h : Handle := { tlr := ⟨BitVec.ofNat 512 (ofBytes r.1), a⟩, c0 := c 0, c1 := c 1, c2 := c 2, c3 := c 3, transposed := t }
      (r.2.onBlk s.w.blk fun k => { k with handles := k.handles.put th (some h) }).accepted
def execThbind (g : Guard) (th : BitVec 5) (sa sb : Reg) (s : State) : Out :=
  .next (s.bind (.thbind g th sa sb) g th.toNat sa sb false)
def execThbindT (g : Guard) (th : BitVec 5) (sa sb : Reg) (s : State) : Out :=
  .next (s.bind (.thbindT g th sa sb) g th.toNat sa sb true)

/-! ## Racks (R211, R232 to R236) -/

/-- The cluster-window form of an address that a rack or the port uses (R232), when the block can use it. -/
def State.engineAddr (s : State) (a : Addr) : Option Nat :=
  match s.myBlk.toCluster (s.myCore % 16) a.toNat with
  | some t => match s.myBlk.enginePlace t with
    | .bad _ => none
    | .global | .row _ _ => some t
  | none => none
def State.rackOf (s : State) (c rk : Nat) : Rack := (s.clu c).racks.get Rack.free rk
def State.onRack (s : State) (c rk : Nat) (f : Rack → Rack) : State :=
  s.onClu c fun x => { x with racks := x.racks.put rk (f (x.racks.get Rack.free rk)) }
/-- Counters compared modulo 2^32: a is past b (R235). -/
def past (a b : Word) : Bool := decide (1 ≤ (a - b).toNat) && decide ((a - b).toNat ≤ 2 ^ 31)
/-- The rack is the block's, and set up. -/
def Rack.mine (r : Rack) (b : Nat) : Bool := r.owner == some b && r.slots != 0
/-- Address of slot k. -/
def Rack.slotAddr (r : Rack) (k : Word) : Nat := r.base.toNat + k.toNat % r.slots * (128 * r.size)

def execRkinit (g : Guard) (rk : BitVec 5) (sa sb : Reg) (s : State) : Out :=
  let i := Instr.rkinit g rk sa sb
  .next (s.cmdWord g (sPair sa ++ [.s sb.toNat]) fun _ =>
    let a := s.w.SP sa.toNat
    let x := (s.w.S sb.toNat).toNat
    let r := s.rackOf s.myClu rk.toNat
    let n := bits x 0 7
    let size := bits x 16 16
    if a.toNat % 128 != 0 then s.cmdError i a.toNat 0 0
    else match s.engineAddr a with
      | none => s.cmdError i a.toNat 0 0
      | some t =>
        if n == 0 || decide (64 < n) || size == 0 || bits x 7 9 != 0 then s.cmdError i x 0 0
        else if r.owner.isSome && r.owner != some s.w.blk then s.cmdError i rk.toNat 0 0
        else if r.owner == some s.w.blk && r.ic != r.fc then s.cmdError i rk.toNat 0 0
        else (s.onRack s.myClu rk.toNat fun _ =>
          { Rack.free with owner := some s.w.blk, slots := n, size := size, base := BitVec.ofNat 64 t }).accepted)

/-- CPY (R233): the command waits, counted in flag B, until the copy engine accepts it. The path's accesses before it come before the
copy (R212). -/
def State.cpyWord (s : State) (i : Instr) (g : Guard) (rk th : Nat) (sb : Reg) (sealing : Bool) : State :=
  s.cmdWord g (if sealing then sPair sb else [.s sb.toNat]) fun p =>
    let x := s.w.S sb.toNat
    if !(s.rackOf s.myClu rk).mine s.w.blk then s.cmdError i rk 0 th
    else if (s.myBlk.handles.get none th).isNone then s.cmdError i th 0 th
    else if !sealing && bits x.toNat 24 8 != 0 then s.cmdError i x.toNat 0 th
    else
      let s := ((s.release s.myCore 1).publish s.w.uid).onW fun w => w.addPend [] w.flagB .unit
      let req : CpyReq := { after := s.myBlk.oseq, warp := s.w.uid, tag := s.w.lastTag, blk := s.w.blk, pc := p.pc, word := wordOf i, rk := rk, h := th,
                            sealing := sealing, x := x, y := s.w.S (sb.toNat + 1) }
      (s.onClu s.myClu fun c => { c with cpyWait := c.cpyWait ++ [req] }).done false
def execCpy (g : Guard) (rk th : BitVec 5) (sb : Reg) (s : State) : Out :=
  .next (s.cpyWord (.cpy g rk th sb) g rk.toNat th.toNat sb false)
def execCpySeal (g : Guard) (rk th : BitVec 5) (sb : Reg) (s : State) : Out :=
  .next (s.cpyWord (.cpySeal g rk th sb) g rk.toNat th.toNat sb true)

/-- Payload of CSTART and CDONE (R261). -/
def copyPayload (dst : Nat) (rack : Option (Nat × Nat)) : Nat := match rack with
  | some (rk, slot) => dst % 2 ^ 48 + 2 ^ 48 + rk * 2 ^ 49 + slot * 2 ^ 54
  | none => dst % 2 ^ 48
/-- fc passes the slots that are performed, in order (R211), with RACKFILL. -/
def State.rackFill (s : State) (c rk : Nat) : Nat → State
  | 0 => s
  | n + 1 =>
    let k := s.rackOf c rk
    match k.copies.find? fun e => e.num == k.fc && e.done with
    | some e =>
      if k.ic == k.fc then s
      else
        let s := s.onRack c rk fun k => { k with fc := k.fc + 1 }
        (s.emitClu 0x36 c (rk + e.num.toNat % k.slots * 32)).rackFill c rk n
    | none => s
/-- The AWAITFs of a warp on a rack that end now (R235): status, acquire at block scope. -/
def State.awaitWake (s : State) (c rk u : Nat) : State :=
  let k := s.rackOf c rk
  (s.warp u).waits.foldl (fun s x => match x with
    | .awaitf r n tag =>
      if r = rk && past k.fc n then
        let failed := k.failed.contains n
        ((s.onWarp u fun w => ((w.setS 55 (BitVec.ofNat 32 failed.toNat)).dropWaits (Wait.isTag [tag])).complete tag).acquire (coreOf u) 1).learn u
      else s
    | .arriving _ _ | .barw _ _ _ | .twait _ _ | .tbar _ _ _ _ | .rendez _ | .hfree _ => s) s
/-- A copy into a rack slot has been performed. -/
def State.slotDone (s : State) (c rk : Nat) (num : Word) (failed : Bool) : State :=
  let s := s.onRack c rk fun k => { k with copies := k.copies.map fun e => if e.num == num then { e with done := true, failed := failed } else e,
                                           failed := if failed then num :: k.failed else k.failed.filter (· != num) }
  let s := s.rackFill c rk 65
  match (s.rackOf c rk).owner with
  | some b => (s.blk b).warps.foldl (fun s u => s.awaitWake c rk u) s
  | none => s
def execAwaitf (g : Guard) (rk : BitVec 5) (sa : Reg) (s : State) : Out :=
  .next (s.cmdWord g [.s sa.toNat, .s 55] fun _ =>
    if !(s.rackOf s.myClu rk.toNat).mine s.w.blk then s.cmdError (.awaitf g rk sa) rk.toNat 0 0
    else
      let n := s.w.S sa.toNat
      let s := s.onW fun w => w.addCmd [.s 55]
      let tag := s.w.lastTag
      ((s.done false).onW fun w => w.onPath fun p => { p with waits := p.waits ++ [.awaitf rk.toNat n tag] }).awaitWake s.myClu rk.toNat s.w.uid)
/-- RELSLOT (R236): what the path has accessed before it, its port operations too, comes before the copy that fills the slot next
(R212). -/
def execRelslot (g : Guard) (rk : BitVec 5) (s : State) : Out :=
  .next (s.cmdWord g [] fun _ =>
    let k := s.rackOf s.myClu rk.toNat
    if !k.mine s.w.blk || k.lc == k.fc then s.cmdError (.relslot g rk) rk.toNat 0 0
    else
      let n := s.myBlk.oseq
      let busy := (s.clu s.myClu).portPending s.w.uid n
      ((s.release s.myCore 1).onRack s.myClu rk.toNat fun k =>
        { k with lc := k.lc + 1, after := if busy then k.after ++ [(s.w.uid, n)] else k.after }).accepted)

/-! ## Granules (R213, R214, R237, R238) -/

/-- Physical granules of a cluster that no block owns; a grant takes the lowest (log 92). -/
def Cluster.freeGranules (c : Cluster) : List Nat := (List.range 32).filter fun g => (c.owner.get none g).isNone
/-- First of k consecutive unused indices, lowest first. -/
def Block.freeRun (b : Block) (k : Nat) : Option Nat :=
  (List.range 33).find? fun i => decide (i + k ≤ 32) && (List.range k).all fun j => (b.gmap.get none (i + j)).isNone
/-- The answer of an ACALLOC. -/
def State.acAnswer (s : State) (r : AcReq) (x : Word) (q : Bool) : State :=
  s.onWarp r.warp fun w => ((w.setS r.sd x).setQ r.qd q).complete r.tag
/-- Zero a granule and mark it valid. -/
def State.zeroGranule (s : State) (c g : Nat) : State :=
  let s := { s with acc := s.acc.filter fun e => e.1 / 4096 != 32 * c + g }
  s.onClu c fun x => { x with invalid := x.invalid.set false g false }
/-- Meet a request, or fail it for want of a run of indices; none while granules are missing (R237). -/
def State.acMeet (s : State) (c : Nat) (r : AcReq) : Option State :=
  match (s.blk r.blk).freeRun r.k with
  | none => some (s.acAnswer r 0xFFFFFFFF false)
  | some i =>
    let free := (s.clu c).freeGranules
    if free.length < r.k then none
    else
      let gs := free.take r.k
      let s := gs.foldl (fun s g => (s.zeroGranule c g).onClu c fun x =>
        { x with owner := x.owner.put g (some r.blk), gstamp := x.gstamp.del g, gport := x.gport.del g, gread := x.gread.del g }) s
      let s := s.onBlk r.blk fun b => { b with gmap := (gs.zip (List.range r.k)).foldl (fun t p => t.put (i + p.2) (some p.1)) b.gmap }
      some ((s.emitClu 0x34 c (r.k + (free.length - r.k) * 64)).acAnswer r (BitVec.ofNat 32 i) true)
/-- From when every placed block waits on ACALLOC (R214). -/
def State.acMark (s : State) (c at_ : Nat) : State :=
  let bs := s.placedOn c
  let all := !bs.isEmpty && bs.all fun b => (s.clu c).acq.any (·.blk == b)
  s.onClu c fun x => { x with acSince := if all then some (x.acSince.getD at_) else none }
def execAcalloc (g : Guard) (sd sa : Reg) (qd : BitVec 3) (s : State) : Out :=
  .next (s.cmdWord g [.s sa.toNat, .s sd.toNat, .q qd.toNat] fun _ =>
    let k := (s.w.S sa.toNat).toNat
    let c := s.myClu
    if k == 0 || decide (32 < k) then s.cmdError (.acalloc g sd sa qd) k 0 0
    else
      let s := s.onW fun w => w.addCmd [.s sd.toNat, .q qd.toNat]
      let r : AcReq := { warp := s.w.uid, blk := s.w.blk, k := k, sd := sd.toNat, qd := qd.toNat, tag := s.w.lastTag }
      let s := s.done false
      if (s.myBlk.freeRun k).isNone then s.acAnswer r 0xFFFFFFFF false
      else match if (s.clu c).acq.isEmpty then s.acMeet c r else none with
        | some t => t
        | none =>
          let s := s.emitClu 0x33 c (k + (s.clu c).freeGranules.length * 64)
          (s.onClu c fun x => { x with acq := x.acq ++ [r] }).acMark c s.cycle)
/-- ACALLOC_GRANT (R213): the request that came first. -/
def execAcallocGrant (c : Nat) (s : State) : Out :=
  .next (match (s.clu c).acq with
    | [] => s
    | r :: t => match s.acMeet c r with
      | some s => (s.onClu c fun x => { x with acq := t }).acMark c s.cycle
      | none => s)
/-- ACALLOC_DEADLOCK_FAIL (R214): the oldest request of the youngest block, after 64 cycles. -/
def execAcallocDeadlockFail (c : Nat) (s : State) : Out :=
  let x := s.clu c
  .next (match x.acSince with
    | none => s
    | some since =>
      if s.cycle < since + 64 then s
      else
        let key := fun (r : AcReq) => [(s.launch (s.blk r.blk).launch).seq, (s.blk r.blk).index]
        match x.acq.foldl (fun (a : Option AcReq) r => match a with
          | none => some r
          | some q => if lexLt (key q) (key r) then some r else some q) none with
        | none => s
        | some r =>
          let s := (s.onClu c fun x => { x with acq := x.acq.filter fun q => !(q.warp == r.warp && q.tag == r.tag), acSince := none }).acMark c (s.cycle + 1)
          ((s.countClu c 11 1).emitClu 0x35 c (r.k + (s.launch (s.blk r.blk).launch).seq % 2 ^ 32 * 2 ^ 16)).acAnswer r 0xFFFFFFFF false)

/-- Granules that an engine operation has begun to use. -/
def EngOp.granules : EngOp → List Nat
  | .mmul m => m.phys
  | .mstore _ _ _ _ _ _ phys _ _ _ => phys
  | .mcfg _ _ | .mwload _ _ _ _ _ _ | .copy _ => []
def execAcfree (g : Guard) (sa sb : Reg) (s : State) : Out :=
  let i := Instr.acfree g sa sb
  .next (s.cmdWord g [.s sa.toNat, .s sb.toNat] fun _ =>
    let first := (s.w.S sa.toNat).toNat
    let n := (s.w.S sb.toNat).toNat
    if n == 0 || decide (32 < first + n) then s.cmdError i n first 0
    else match (List.range n).find? fun j => (s.myBlk.gmap.get none (first + j)).isNone with
      | some j => s.cmdError i (first + j) first 0
      | none => (s.onBlk s.w.blk fun b => { b with gmap := (List.range n).foldl (fun t j => t.del (first + j)) b.gmap }).accepted)
/-- GRANULE_RETURN (R238): an unmapped granule that no operation uses any more. -/
def execGranuleReturn (c g : Nat) (s : State) : Out :=
  let x := s.clu c
  .next (match x.owner.get none g with
    | none => s
    | some b =>
      if (s.blk b).gmap.any (fun e => e.2 == some g) || x.engs.any (fun e => e.op.granules.contains g)
          || x.port.any (fun o => o.phys.contains g) then s
      else (s.onClu c fun x => { x with owner := x.owner.del g }).forgetRows c fun o => o.1 == g)

/-! ## The accumulator port (R239, R240) -/

/-- Take a port operation into the queue; the path's accesses before it are performed (R240). -/
def State.portTake (s : State) (p : Path) (i : Instr) (kind : PortKind) (addr g r0 nr : Nat) (phys : List Nat) (sd : Option Reg) : State :=
  let s := s.onW fun w => w.addCmd (match sd with
    | some r => [.s r.toNat]
    | none => [])
  let s := (s.release s.myCore 1).onBlk s.w.blk Block.numbered
  let o : PortOp := { kind := kind, warp := s.w.uid, blk := s.w.blk, pc := p.pc, word := wordOf i, addr := BitVec.ofNat 64 addr, g := g,
                      r0 := r0, nr := nr, phys := phys, sd := (sd.map (·.toNat)).getD 0, tag := s.w.lastTag, seen := s.w.knows.mm,
                      num := s.myBlk.oseq, held := none, heldVa := 0, wrote := 0 }
  (s.onClu s.myClu fun c => { c with port := c.port ++ [o] }).done false
/-- ACRD and ACWR at issue: the descriptor, the index and the address. -/
def State.portWord (s : State) (i : Instr) (gd : Guard) (kind : PortKind) (sd : Option Reg) (sa sb : Reg) : State :=
  s.cmdWord gd (sPair sa ++ [.s sb.toNat] ++ (match sd with
    | some r => [.s r.toNat]
    | none => [])) fun p =>
    let x := (s.w.S sb.toNat).toNat
    let a := s.w.SP sa.toNat
    let g := bits x 0 5
    let r0 := bits x 6 6
    let nr := bits x 12 6
    if bits x 18 14 != 0 || bits x 5 1 != 0 || decide (63 < r0 + nr) then s.cmdError i x g 0
    else match s.myBlk.gmap.get none g with
      | none => s.cmdError i x g 0
      | some ph =>
        if a.toNat % 4 != 0 then s.cmdError i a.toNat g 0
        else match s.engineAddr a with
          | none => s.cmdError i a.toNat g 0
          | some t => s.portTake p i kind t g r0 (nr + 1) [ph] sd
def execAcrd (g : Guard) (sd sa sb : Reg) (s : State) : Out := .next (s.portWord (.acrd g sd sa sb) g .acrd (some sd) sa sb)
def execAcwr (g : Guard) (sa sb : Reg) (s : State) : Out := .next (s.portWord (.acwr g sa sb) g .acwr none sa sb)
def execAczero (g : Guard) (sa : Reg) (s : State) : Out :=
  let i := Instr.aczero g sa
  .next (s.cmdWord g [.s sa.toNat] fun p =>
    let x := (s.w.S sa.toNat).toNat
    let first := bits x 0 5
    let n := bits x 5 5 + 1
    if bits x 10 22 != 0 || decide (32 < first + n) then s.cmdError i x first 0
    else match (List.range n).mapM fun j => s.myBlk.gmap.get none (first + j) with
      | some phys => s.portTake p i .aczero 0 first 0 0 phys none
      | none => s.cmdError i x first 0)

/-- A fault entry for an engine access that meets a page that is not present (R308, R312). -/
def State.engFault (s : State) (c b va : Nat) (kind : AccKind) : Option Nat × State :=
  let pg := (s.translate c va kind).page
  s.openFault (c / 324) pg.1 pg.2 (s.launch (s.blk b).launch).seq (c % 324) 0xF 0xFF (accCode kind)
/-- A poisoned byte was read by an engine: the block ends with POISON (R321). -/
def State.engPoisoned (s : State) (b : Nat) (warp : Option Nat) (pc : Addr) (pa : Nat) : State :=
  (s.emitDie 0x76 (dieOfBlk b) pa).blockFault b (s.exitAt b warp pc 9 pa)
/-- The first operation of the port is finished, and with it what waited for it: arrivals, FORKs (R240), a meeting (R206). -/
def State.portPop (s : State) (c : Nat) (o : PortOp) : State :=
  let s := (s.onClu c fun x => { x with port := x.port.drop 1 }).onWarp o.warp fun w => if o.kind == .acrd then w.complete o.tag else w
  (s.dueTurn o.warp (s.warp o.warp).due.length).meet o.blk
/-- The warp-command error path of a port operation that has begun (R239, R312). -/
def State.portError (s : State) (c : Nat) (o : PortOp) (detail : Nat) : State :=
  let n := (s.blk o.blk).errors
  let s := s.errorRecord o.blk o.word 3 14 o.g 0 o.pc detail
  (s.blockFault o.blk (s.exitAt o.blk (some o.warp) o.pc 5 (n % 8))).portPop c o
/-- The granules of an operation against an MMUL or MSTORE on which it is unordered (R217, R240). -/
def State.portUnordered (s : State) (c : Nat) (o : PortOp) : List Nat := o.phys.filter fun g => decide (o.seen < (s.clu c).gstamp.get 0 g)
/-- The write of some rows of granules by the port is noted. A granule on which it is unordered against an MMUL is left undefined, and
what the MMUL has still to write there (R240, R260). -/
def State.portWrote (s : State) (c : Nat) (o : PortOp) (row : Nat → Bool) (unordered : List Nat) : State :=
  let s := s.onClu c fun x => { x with gport := o.phys.foldl (fun t g => t.put g (((s.warp o.warp).index, o.num) :: t.get [] g)) x.gport }
  let s := s.forgetRows c fun r => o.phys.contains r.1 && row r.2
  if unordered.isEmpty then s
  else (s.undefine c fun m => if m.blk == o.blk && decide (o.seen < m.stamp) then unordered else []).scrub c unordered (64 * unordered.length) 0 64
/-- An ACRD has written the rows of a granule: it is noted while the block has a matrix stream. -/
def State.portRead (s : State) (c : Nat) (o : PortOp) (runs : List (Nat × List Byte)) : State :=
  if (s.blk o.blk).mentry = 0 then s
  else
    let n : AcRead := { warp := (s.warp o.warp).index, num := o.num, runs := runs }
    s.onClu c fun x => { x with gread := o.phys.foldl (fun t g => t.put g (n :: t.get [] g)) x.gread }
/-- The rows of an ACWR from the one numbered `i` on: how they end, and how many have come into the granule (R312). -/
def State.portRows (s : State) (c : Nat) (k : Block) (o : PortOp) (i : Nat) : Nat → Acc Unit × Nat × State
  | 0 => (.ok (), i, s)
  | n + 1 => match s.engLoad c k (o.addr.toNat + 256 * i) 256 with
    | (.ok x, s) =>
      ((List.range 64).foldl (fun s j => s.accSet c (o.phys.headD 0) (o.r0 + i) j (BitVec.ofNat 32 (bits x.1 (32 * j) 32))) s).portRows c k o (i + 1) n
    | (.err a b, s) => (.err a b, i, s)
    | (.absent a k, s) => (.absent a k, i, s)
    | (.poison a, s) => (.poison a, i, s)
/-- ACCUMULATOR_PORT_DONE (R239): the first operation of the queue. -/
def execAccumulatorPortDone (c : Nat) (s : State) : Out :=
  .next (match (s.clu c).port with
    | [] => s
    | o :: _ =>
      if o.held.isSome then s
      else
        let k := s.blk o.blk
        let g := o.phys.headD 0
        let un := s.portUnordered c o
        let stop := fun (r : Acc Unit × Nat × State) (ok : State → State) => match r with
          | (.ok (), _, s) => ok s
          | (.err _ a, _, s) => s.portError c o a
          | (.poison pa, _, s) => (s.engPoisoned o.blk (some o.warp) o.pc pa).portPop c o
          | (.absent va kind, n, s) =>
            let f := s.engFault c o.blk va kind
            f.2.onClu c fun x => { x with port := match x.port with
              | q :: t => { q with held := some f.1, heldVa := va, wrote := n } :: t
              | [] => [] }
        match o.kind with
        | .acrd =>
          let d := s.draw
          let val := fun (s : State) r n => if !un.isEmpty then Config.undefinedAcc (262144 * d.1 + 64 * r + n) else s.accAt c g r n
          let runs := (List.range o.nr).map fun i => (o.addr.toNat + 256 * i,
            (List.range 64).flatMap fun n => bytesOf 4 (val s (o.r0 + i) n).toNat)
          stop ((if un.isEmpty then s else d.2).engStores c k o.wrote runs) fun s =>
            (((s.onWarp o.warp fun w => w.setS o.sd (BitVec.ofNat 32 ((s.clu c).invalid.get false g).toNat)).acquire (coreOf o.warp) 1).portRead c o runs).portPop c o
        | .acwr => stop (s.portRows c k o o.wrote (o.nr - o.wrote)) fun s =>
            (s.portWrote c o (fun r => decide (o.r0 ≤ r) && decide (r < o.r0 + o.nr)) un).portPop c o
        | .aczero => ((o.phys.foldl (fun s g => s.zeroGranule c g) s).portWrote c o (fun _ => true) un).portPop c o)

end Sys2Proof.Machine
end

