-- ==== Sys2Proof/Machine/Control.lean ====
section
/-!
DEFINITION. Control words (spec/06 R120 to R133): transfers, splits, loops, the end of lanes, traps and their return,
and waiting.
-/
namespace Sys2Proof.Machine

/-! ## Whole-path transfers (R120) -/

/-- Move the path at issue to T: BADLAND on a bad target, a page fault on an absent one, before any effect. -/
def State.transfer (s : State) (p : Path) (t : Addr) (also : Warp → Warp) : State := match s.landing t with
  | .good => (s.onW also).jump t
  | .bad => (s.counted false).trapAt 2 p.mask (p.pc &&& 0xFFFFFFFFFFFF) t true
  | .absent => s.suspendOn true t.toNat .fetch p.mask
  | .cut => s.wordFault false 3 t.toNat p.mask
/-- A + 4·offset. -/
def offTo (a : Addr) (off : BitVec 21) : Addr := a + (off.signExtend 64 <<< 2)

def execBr (g : Guard) (off : BitVec 21) (s : State) : Out :=
  .next (s.ctlWord (.br g off) g [] fun p => s.transfer p (offTo p.pc off) id)
def execJmp (off : BitVec 21) (s : State) : Out :=
  .next (s.ctlWord (.jmp off) Guard.always [] fun p => s.transfer p (offTo p.pc off) id)
def execCall (g : Guard) (off : BitVec 21) (s : State) : Out :=
  .next (s.ctlWord (.call g off) g [.s 62, .s 63] fun p => s.transfer p (offTo p.pc off) fun w => w.setSP 62 (p.pc + 4))
def execJmpi (g : Guard) (sa : Reg) (s : State) : Out :=
  .next (s.ctlWord (.jmpi g sa) g (sPair sa) fun p => s.transfer p (s.w.SP sa.toNat) id)
def execRet (g : Guard) (sa : Reg) (s : State) : Out :=
  .next (s.ctlWord (.ret g sa) g (sPair sa) fun p => s.transfer p (s.w.SP sa.toNat) id)

/-! ## Splits (R122 to R124) -/

/-- Lanes of the bound groups whose lanes on the path would go to different PCs (R140). -/
def Warp.tornGroups (w : Warp) (p : Path) (next : Nat → Addr) : Mask :=
  if !w.bound then 0
  else (groups w.groupN).foldl (fun m g =>
    if 2 ≤ (groupsOf (groupMask w.groupN g &&& p.mask) next).length then m ||| groupMask w.groupN g else m) 0
/-- A + 4·join offset. -/
def joinTo (a : Addr) (join : BitVec 8) : Addr := a + (join.setWidth 64 <<< 2)

def execBrl (p : Guard) (target : BitVec 12) (join : BitVec 8) (s : State) : Out :=
  .next (s.word [.p p.p.toNat] fun x c =>
    if c.idx != c.len then s.illegal (wordOf (.brl p target join))
    else
      let t := x.pc + (target.signExtend 64 <<< 2)
      let taken := x.mask &&& s.w.guardMask p
      let torn := s.w.tornGroups x fun i => if taken.getLsbD i then t else (s.w.fallPc x).1
      if torn != 0 then s.trap false 5 torn ((wordOf (.brl p target join)).setWidth 64)
      else s.split x x.mask (joinTo x.pc join) taken (fun _ => t) (fun _ => x.mask) fun _ => t)
def execJmpl (g : Guard) (va : Reg) (join : BitVec 8) (s : State) : Out :=
  .next (s.ctlWord (.jmpl g va join) g (vPair va) fun x =>
    let next := fun i => s.w.VP va.toNat i
    let torn := s.w.tornGroups x next
    if torn != 0 then s.trap false 5 torn ((wordOf (.jmpl g va join)).setWidth 64)
    else s.split x x.mask (joinTo x.pc join) x.mask next id fun bad => next ((lanesOf bad).headD 0))

/-! ## Loops (R125 to R127) -/

def execLoop (g : Guard) (sa : Reg) (imm : BitVec 8) (s : State) : Out :=
  .next (s.word [.q g.p.toNat, .s sa.toNat] fun p c =>
    let le := p.pc + (imm.setWidth 64 <<< 2)
    if c.idx != c.len then s.illegal (wordOf (.loop g sa imm))
    else if !s.w.passes g || s.w.S sa.toNat == 0 then s.transfer p (le + 4) id
    else if 4 ≤ s.w.depth then s.trap false 9 p.mask (p.pc &&& 0xFFFFFFFFFFFF)
    else (s.onW fun w => { w with loops := w.loops.put w.depth ⟨p.pc + 4, le, w.S sa.toNat⟩, depth := w.depth + 1 }).done false)
def execLbrk (g : Guard) (s : State) : Out :=
  .next (s.ctlWord (.lbrk g) g [] fun p =>
    if s.w.depth = 0 then s.trap false 9 p.mask 0
    else s.transfer p ((s.w.loops.get ⟨0, 0, 0⟩ (s.w.depth - 1)).le + 4) fun w => { w with depth := w.depth - 1 })

/-! ## Ending, trapping and returning (R129 to R131, R58) -/

def execExit (g : Guard) (s : State) : Out :=
  .next (s.ctlWord (.exit g) g [] fun p =>
    ((s.counted false).onW fun w =>
      let w := ((w.onPath fun p => { p with clause := none }).discard p.mask).dropLanes p.mask
      if w.handling then w.leaveHandler else w).lanesGone)
def execTrap (g : Guard) (code : BitVec 8) (s : State) : Out :=
  .next (s.ctlWord (.trap g code) g [] fun p => s.trap false 11 p.mask (code.setWidth 64))

/-- The position in the interrupted clause at which RESUME continues (R56, R58): the address, the index, the length − 1. -/
def Warp.resumeAt (w : Warp) (skip : Bool) : Addr × Nat × Nat :=
  let idx := bits w.tcause.toNat 20 4
  let len := bits w.tcause.toNat 16 4
  if skip then (w.trpc + 4, idx + 1, len) else (w.trpc, idx, len)
/-- The path that leaves a handler (R58) with the rest of its clause; the end test follows a skipped last word (R126). -/
def Warp.resumed (w : Warp) (skip : Bool) (words : List Word) : Warp :=
  let tc := w.tcause
  let r := w.resumeAt skip
  let w := w.leaveHandler
  if tc.getLsbD 15 then w.goTo r.1
  else if r.2.1 ≤ r.2.2 then
    w.onPath fun p => { p with pc := r.1, clause := some ⟨BitVec.ofNat 4 r.2.1, BitVec.ofNat 4 r.2.2, BitVec.ofNat 4 (bits tc.toNat 28 4),
                                                         BitVec.ofNat 4 (bits tc.toNat 24 4), words⟩ }
  else if skip && r.2.1 == r.2.2 + 1 then
    let e := w.endTest (r.1 - 4) 4
    e.2.onPath fun p => { p with pc := e.1, clause := none, src := r.1 - 4 }
  else w.goTo r.1
/-- RESUME in either mode. The mask is tested before the boundary bit, so a RESUME.skip that is wrong in both ways is recorded with
cause 12 (R58, R60, log 66). The rest of the clause is fetched as a clause is: an absent page suspends the warp at the RESUME, and
where a word cannot be fetched the path has left the handler and lands badly at its new PC (R19, R58). -/
def State.resumeWord (s : State) (i : Instr) (g : Guard) (skip : Bool) : State :=
  s.ctlWord i g [] fun p =>
    let w := s.w
    if !w.handling then s.illegal (wordOf i)
    else if p.mask != w.delivery then
      let s := (s.counted false).emitWarp 0x23 w.uid (p.pc.toNat % 2 ^ 48 + 12 * 2 ^ 48 + 2 ^ 53)
      (s.warpFault w.uid 1 12 true p.pc 0 p.mask).warpEnded w.uid true
    else if skip && w.tcause.getLsbD 15 then s.illegal (wordOf i)
    else
      let r := w.resumeAt skip
      let n := if w.tcause.getLsbD 15 then 0 else r.2.2 + 1 - r.2.1
      match s.fetchRun s.myCore r.1.toNat n with
      | .inl words => (s.counted false).onW fun w => w.resumed skip words
      | .inr (a, absent) =>
        if absent then s.suspend a .fetch p.mask
        else if s.fetch s.myCore a == .cut then s.wordFault false 3 a p.mask
        else ((s.counted false).onW fun w => w.leaveHandler.goTo r.1).badLanding { p with pc := r.1, src := p.pc }
def execResume (g : Guard) (s : State) : Out := .next (s.resumeWord (.resume g) g false)
def execResumeSkip (g : Guard) (s : State) : Out := .next (s.resumeWord (.resumeSkip g) g true)

/-! ## Yielding and waiting (R132, R133) -/

/-- YIELD (R46, R185): the quantum ends, and the warp is swapped with a ready pending warp or ranks youngest for 16 cycles. While
the swap unit is busy the swap waits for it (log 67). -/
def execYieldQ (g : Guard) (s : State) : Out :=
  .next (s.ctlWord (.yieldQ g) g [] fun _ =>
    let s := (s.done false).onW fun w => { w with yielded := true }
    match s.nextIn s.myCore with
    | some _ => if s.swapUnit s.myCore then s.swapOut s.w.uid true else s.onW fun w => { w with yieldSwap := true }
    | none => s.onW fun w => { w with yieldUntil := s.cycle + 17 })
/-- TWAIT (R133): the wait falls at the boundary after the word. -/
def execTwait (g : Guard) (sa : Reg) (s : State) : Out :=
  .next (s.ctlWord (.twait g sa) g (sPair sa) fun q =>
    let t := s.w.SP sa.toNat
    let s := s.done false
    if s.tick s.myDie < t.toNat then s.onW fun w => w.onPath fun p => { p with waits := p.waits ++ [.twait t q.pc] } else s)
/-- TWAIT_WAKE (R133). -/
def execTwaitWake (w : Nat) (s : State) : Out :=
  let now := s.tick (dieOf w)
  let due := fun (x : Wait) => match x with
    | .twait t _ => decide (t.toNat ≤ now)
    | .arriving _ _ | .barw _ _ _ | .awaitf _ _ _ | .tbar _ _ _ _ | .rendez _ | .hfree _ => false
  let wake := fun (p : Path) => { p with waits := p.waits.filter fun x => !due x }
  .next (s.onWarp w fun x => { x with a := x.a.map wake, b := x.b.map wake })
/-- NOP (R132). -/
def execNop (g : Guard) (s : State) : Out := .next (s.uniWord g [] fun _ => s.done false)

end Sys2Proof.Machine
end

