-- ==== Sys2Proof/Machine/Sfu.lean ====
section
/-!
DEFINITION. The SFU operations (spec/05 R105). The exact result is bracketed by two adjacent FP32 values, computed from
512-bit fixed-point values; which of the two is given is a free value (log 8).
-/
namespace Sys2Proof.Machine

/-- The operations of the SFU. -/
inductive SfuOp where
  | rcp
  | rsq
  | exp2
  | log2
  | sin
  | cos
  deriving DecidableEq, Repr

/-- Number of an operation, for the free choice. -/
def SfuOp.code : SfuOp → Nat
  | .rcp => 0
  | .rsq => 1
  | .exp2 => 2
  | .log2 => 3
  | .sin => 4
  | .cos => 5

/-- Fixed-point one: 2^512, and ln 2 and π in that scale, rounded down. -/
def fixOne : Nat := 2 ^ 512
def fixLn2 : Nat := 0xb17217f7d1cf79abc9e3b39803f2f6af40f343267298b62d8a0d175b8baafa2be7b876206debac98559552fb4afa1b10ed2eae35c138214427573b291169b825
def fixPi : Nat := 0x3243f6a8885a308d313198a2e03707344a4093822299f31d0082efa98ec4e6c89452821e638d01377be5466cf34e90c6cc0ac29b7c97c50dd3f84d5b5b5470917

/-- The exact magnitude of a result, or a bracket of it: `exact m e` is m · 2^e; `near m e` lies above m · 2^e by less
than one unit of m; `under c` lies just below the FP32 magnitude code c. -/
inductive Mag where
  | exact (m : Nat) (e : Int)
  | near (m : Nat) (e : Int)
  | under (c : Nat)
  | above (c : Nat)
  deriving DecidableEq, Repr

/-- The result of a finite case: one of the bracketing codes, ±∞ with OF above the range (R105). -/
def sfuPick (op : SfuOp) (x : Word) (neg : Bool) (m : Mag) : Nat × FFlags :=
  let lo := match m with
    | .exact m e => fp32.round .rtz false m e
    | .near m e => fp32.round .rtz false (2 * m + 1) (e - 1)
    | .under c => (c - 1, ⟨false, false, false, false, true⟩)
    | .above c => (c, ⟨false, false, false, false, true⟩)
  if lo.2.ovf || (lo.2.nx && lo.1 == fp32.inf - 1) then (fp32.withSign neg fp32.inf, ⟨false, false, true, false, false⟩)
  else (fp32.withSign neg (if lo.2.nx && Config.sfuUpper op.code x then lo.1 + 1 else lo.1), FFlags.none)

/-- 1 ÷ (m · 2^e). -/
def rcpMag (m : Nat) (e : Int) : Mag :=
  if 2 ^ 200 % m = 0 then .exact (2 ^ 200 / m) (-200 - e) else .near (2 ^ 200 / m) (-200 - e)
/-- 1 ÷ √(m · 2^e). -/
def rsqMag (m : Nat) (e : Int) : Mag :=
  let m' := if e % 2 = 0 then m else 2 * m
  let e' := if e % 2 = 0 then e else e - 1
  let r := isqrt (2 ^ 300 / m')
  if r * r * m' = 2 ^ 300 then .exact r (-150 - e' / 2) else .near r (-150 - e' / 2)
/-- Σ x^k / k!, by Horner's rule from the term k. -/
def expSeries (x : Nat) : Nat → Nat → Nat
  | 0, acc => acc
  | k + 1, acc => expSeries x k (fixOne + acc * x / fixOne / (k + 1))
/-- 2^x for x = ±m · 2^e. -/
def exp2Mag (neg : Bool) (m : Nat) (e : Int) : Mag :=
  if m = 0 then .exact 1 0
  else if 0 ≤ e || m % 2 ^ (-e).toNat = 0 then
    let n : Nat := if 0 ≤ e then m * 2 ^ (min e 200).toNat else m / 2 ^ (-e).toNat
    .exact 1 (if neg then -(min n 1000 : Nat) else (min n 1000 : Nat))
  else if (m.log2 : Int) + e < -25 then (if neg then .under 0x3F800000 else .above 0x3F800000)
  else
    let p := 2 ^ (-e).toNat
    let n : Nat := m / p
    let f := m % p
    if 1000 < n then .near 1 (if neg then -1000 else 1000)
    else
      let frac := if neg then p - f else f
      let y := expSeries (frac * fixLn2 / p) 90 fixOne
      .near y ((if neg then -(n : Int) - 1 else n) - 512)
/-- Σ z^(2k) / (2k + 1), by Horner's rule. -/
def logSeries (z2 : Nat) : Nat → Nat → Nat
  | 0, acc => acc
  | k + 1, acc => logSeries z2 k (fixOne / (2 * k + 1) + acc * z2 / fixOne)
/-- log2 of m · 2^e, with its sign. -/
def log2Mag (m : Nat) (e : Int) : Bool × Mag :=
  let t := m.log2
  if m = 2 ^ t then
    let n := (t : Int) + e
    (decide (n < 0), .exact n.natAbs 0)
  else
    let z := (m - 2 ^ t) * fixOne / (m + 2 ^ t)
    let ln := 2 * (z * logSeries (z * z / fixOne) 170 0 / fixOne)
    let y : Int := (ln * fixOne / fixLn2 : Nat) + ((t : Int) + e) * fixOne
    (decide (y < 0), .near (if y < 0 then y.natAbs - 1 else y.natAbs) (-512))
/-- Σ (−1)^k x^(2k) · a! / (2k + a)!, by Horner's rule: `a` is 1 for sin x ÷ x, 0 for cos x. -/
def trigSeries (a : Nat) (x2 : Nat) : Nat → Nat → Nat
  | 0, acc => acc
  | k + 1, acc => trigSeries a x2 k (fixOne - acc * x2 / fixOne / ((2 * k + 1 + a) * (2 * k + 2 + a)))
/-- sin or cos of m · 2^e, with its sign. -/
def trigMag (cosine : Bool) (x m : Nat) (e : Int) : Bool × Mag :=
  if (m.log2 : Int) + e < -13 then (false, .under (if cosine then 0x3F800000 else x))
  else
    let big := if 0 ≤ e then m * 2 ^ e.toNat * fixOne else m * fixOne / 2 ^ (-e).toNat
    let half := fixPi / 2
    let k := big / half
    let r := big - k * half
    let turn := (k + (if cosine then 1 else 0)) % 4
    let useCos := turn % 2 == 1
    let s2 := r * r / fixOne
    let y := if useCos then trigSeries 0 s2 70 fixOne else r * trigSeries 1 s2 70 fixOne / fixOne
    (decide (2 ≤ turn), .near y (-512))

/-- An SFU operation on an FP32 code (R105). -/
def sfu (op : SfuOp) (ftz : Bool) (a : Word) : Nat × FFlags :=
  let x := fp32.flush ftz a.toNat
  let out := fun (r : Nat × FFlags) => (fp32.flush ftz r.1, r.2)
  match fp32.decode x with
  | .nan sg => fp32.nanResult sg
  | .inf n => match op with
    | .rcp => (fp32.withSign n 0, FFlags.none)
    | .rsq | .log2 => if n then fp32.nanResult true else (if op == .rsq then 0 else fp32.inf, FFlags.none)
    | .exp2 => (if n then 0 else fp32.inf, FFlags.none)
    | .sin | .cos => fp32.nanResult true
  | .fin n m e =>
    if m = 0 then match op with
      | .rcp | .rsq => (fp32.withSign n fp32.inf, FFlags.divZero)
      | .exp2 | .cos => (0x3F800000, FFlags.none)
      | .log2 => (fp32.withSign true fp32.inf, FFlags.divZero)
      | .sin => (x, FFlags.none)
    else match op with
      | .rcp => out (sfuPick op a n (rcpMag m e))
      | .rsq => if n then fp32.nanResult true else out (sfuPick op a false (rsqMag m e))
      | .exp2 => out (sfuPick op a false (exp2Mag n m e))
      | .log2 => if n then fp32.nanResult true
        else
          let r := log2Mag m e
          out (sfuPick op a r.1 r.2)
      | .sin =>
        let r := trigMag false (x % 2 ^ 31) m e
        out (sfuPick op a (r.1 != n) r.2)
      | .cos =>
        let r := trigMag true (x % 2 ^ 31) m e
        out (sfuPick op a r.1 r.2)

end Sys2Proof.Machine
end

