-- ==== Sys2Proof/Machine/LaneFp.lean ====
section
/-!
DEFINITION. Floating-point lane instructions (spec/05 R99 to R106).
-/
namespace Sys2Proof.Machine

/-- Flags of the active lanes, and the lanes that raised invalid. -/
def flagsOf (m : Mask) (r : Nat → FFlags) : FFlags := (lanesOf m).foldl (fun a i => a.or (r i)) FFlags.none
def invalidLanes (m : Mask) (r : Nat → FFlags) : Mask := m &&& maskOf fun i => (r i).nv

/-- The effect of a floating-point lane word on its active lanes: results and flags, then the FPINV trap (R67). -/
def State.fpFinish (s : State) (m : Mask) (dst : List RegRef) (flag : Option Nat) (kind : PendKind) (put : Warp → Warp)
    (flags : Nat → FFlags) : State :=
  if m = 0 then s.done true
  else
    let bad := invalidLanes m flags
    let s := s.onW fun w =>
      let x := ((put w).setFlags (flagsOf m flags)).addFp dst flag kind
      if kind == .counted then x.remember w dst m else x
    if s.w.fpinv && bad != 0 then s.trap true 8 bad 0 else s.done true

/-- A guarded floating-point word whose lane results are numbers of width `t`. -/
def State.fpLane (s : State) (i : Instr) (g : Guard) (src : List RegRef) (t : Wd) (vd : Reg) (f : Nat → Nat × FFlags) : State :=
  s.laneWord i g (src ++ vRef t vd) fun _ m =>
    s.fpFinish m (vRef t vd) none .timed (fun w => w.putV t vd m fun l => (f l).1) fun l => (f l).2
/-- The same for the long-latency operations, which flag A counts (R17, R84). -/
def State.fpLong (s : State) (i : Instr) (g : Guard) (src : List RegRef) (t : Wd) (vd : Reg) (f : Nat → Nat × FFlags) : State :=
  s.laneWord i g (src ++ vRef t vd) fun _ m =>
    if m != 0 && s.w.atLimit s.w.flagA then s.stallFlag s.w.flagA
    else s.fpFinish m (vRef t vd) s.w.flagA .counted (fun w => w.putV t vd m fun l => (f l).1) fun l => (f l).2

/-- A three-register floating-point word. -/
def State.fp3 (s : State) (i : Instr) (g : Guard) (t : Fmt) (vd va vb : Reg) (f : Nat → Nat → Nat × FFlags) : State :=
  let wd := wdOf t.wide
  s.fpLane i g (vRef wd va ++ vRef wd vb) wd vd fun l => f (s.w.vNat wd va l) (s.w.vNat wd vb l)
/-- An SFU operation. -/
def State.sfuOp (s : State) (i : Instr) (g : Guard) (op : SfuOp) (vd va : Reg) : State :=
  s.fpLong i g [.v va.toNat] .w32 vd fun l => sfu op s.w.ftz (s.w.V va.toNat l)

def execFadd (g : Guard) (t : Fmt) (vd va vb : Reg) (s : State) : Out :=
  .next (s.fp3 (.fadd g t vd va vb) g t vd va vb ((fmtOf t).add s.w.rm s.w.ftz false))
def execFsub (g : Guard) (t : Fmt) (vd va vb : Reg) (s : State) : Out :=
  .next (s.fp3 (.fsub g t vd va vb) g t vd va vb ((fmtOf t).add s.w.rm s.w.ftz true))
def execFmul (g : Guard) (t : Fmt) (vd va vb : Reg) (s : State) : Out :=
  .next (s.fp3 (.fmul g t vd va vb) g t vd va vb ((fmtOf t).mul s.w.rm s.w.ftz))
def execFmin (g : Guard) (t : Fmt) (vd va vb : Reg) (s : State) : Out :=
  .next (s.fp3 (.fmin g t vd va vb) g t vd va vb ((fmtOf t).minMax s.w.ftz false))
def execFmax (g : Guard) (t : Fmt) (vd va vb : Reg) (s : State) : Out :=
  .next (s.fp3 (.fmax g t vd va vb) g t vd va vb ((fmtOf t).minMax s.w.ftz true))
/-- FCMP (R102): the result is a predicate. -/
def execFcmp (g : Guard) (c : Cond) (t : Fmt) (pd : BitVec 3) (va vb : Reg) (s : State) : Out :=
  let wd := wdOf t.wide
  let r := fun l => (fmtOf t).compare s.w.ftz c (s.w.vNat wd va l) (s.w.vNat wd vb l)
  .next (s.laneWord (.fcmp g c t pd va vb) g (vRef wd va ++ vRef wd vb ++ [.p pd.toNat]) fun _ m =>
    s.fpFinish m [.p pd.toNat] none .timed (fun w => w.setP pd.toNat m (maskOf fun l => (r l).1)) fun l => (r l).2)
/-- FCLASS (R103): raw bits, no flag. -/
def execFclass (g : Guard) (t : Fmt) (vd va : Reg) (s : State) : Out :=
  .next (s.laneOp (.fclass g t vd va) g (vRef (wdOf t.wide) va) [.v vd.toNat] fun w m =>
    w.putV .w32 vd m fun l => (fmtOf t).classMask (w.vNat (wdOf t.wide) va l))
def execDdiv (g : Guard) (vd va vb : Reg) (s : State) : Out :=
  .next (s.fpLong (.ddiv g vd va vb) g (vPair va ++ vPair vb) .w64 vd fun l =>
    fp64.div s.w.rm s.w.ftz (s.w.vNat .w64 va l) (s.w.vNat .w64 vb l))
def execDsqrt (g : Guard) (vd va : Reg) (s : State) : Out :=
  .next (s.fpLong (.dsqrt g vd va) g (vPair va) .w64 vd fun l => fp64.sqrt s.w.rm s.w.ftz (s.w.vNat .w64 va l))
def execRcp (g : Guard) (vd va : Reg) (s : State) : Out := .next (s.sfuOp (.rcp g vd va) g .rcp vd va)
def execRsq (g : Guard) (vd va : Reg) (s : State) : Out := .next (s.sfuOp (.rsq g vd va) g .rsq vd va)
def execExp2 (g : Guard) (vd va : Reg) (s : State) : Out := .next (s.sfuOp (.exp2 g vd va) g .exp2 vd va)
def execLog2 (g : Guard) (vd va : Reg) (s : State) : Out := .next (s.sfuOp (.log2 g vd va) g .log2 vd va)
def execSin (g : Guard) (vd va : Reg) (s : State) : Out := .next (s.sfuOp (.sin g vd va) g .sin vd va)
def execCos (g : Guard) (vd va : Reg) (s : State) : Out := .next (s.sfuOp (.cos g vd va) g .cos vd va)
/-- CVT (R106). -/
def execCvt (g : Guard) (rm : RmSel) (td ts : CvtT) (vd va : Reg) (s : State) : Out :=
  .next (s.fpLane (.cvt g rm td ts vd va) g (vRef (wdOf ts.wide) va) (wdOf td.wide) vd fun l =>
    cvtValue td ts (rmSel s.w.rm rm) s.w.ftz (s.w.vNat (wdOf ts.wide) va l))
/-- FMA (R100), unguarded. -/
def State.fma (s : State) (t : Fmt) (neg : Bool) (vd va vb vc : Reg) : State :=
  let wd := wdOf t.wide
  let r := fun l => (fmtOf t).fma s.w.rm s.w.ftz neg (s.w.vNat wd va l) (s.w.vNat wd vb l) (s.w.vNat wd vc l)
  s.plainWord (vRef wd va ++ vRef wd vb ++ vRef wd vc ++ vRef wd vd) fun _ m =>
    s.fpFinish m (vRef wd vd) none .timed (fun w => w.putV wd vd m fun l => (r l).1) fun l => (r l).2
def execFmaF32 (neg : Bool) (vd va vb vc : Reg) (s : State) : Out := .next (s.fma .f32 neg vd va vb vc)
def execFmaF64 (neg : Bool) (vd va vb vc : Reg) (s : State) : Out := .next (s.fma .f64 neg vd va vb vc)

end Sys2Proof.Machine
end

