-- ==== Sys2Proof/Machine/LaneInt.lean ====
section
/-!
DEFINITION. Integer lane instructions (spec/05 R85 to R98).
-/
namespace Sys2Proof.Machine

/-! ## Values -/

/-- Number of bits of a form, and whether it saturates or is signed (R85). -/
def addBits (t : AddT) : Nat := if t.wide then 64 else 32
/-- The result of ADD or SUB in a type (R85), from the operands' patterns. -/
def addResult (t : AddT) (sub : Bool) (a b : Nat) : Nat :=
  let n := addBits t
  match t with
  | .b32 | .b64 => pattern n (if sub then (a : Int) - b else a + b)
  | .n32 | .n64 =>
    let x : Int := if sub then (a : Int) - b else a + b
    (min (max x 0) (2 ^ n - 1)).toNat
  | .i32 | .i64 =>
    let x : Int := if sub then toSigned n a - toSigned n b else toSigned n a + toSigned n b
    pattern n (min (max x (-(2 ^ (n - 1)))) (2 ^ (n - 1) - 1))

def intBits (t : IntT) : Nat := if t.wide then 64 else 32
/-- A pattern read in a type. -/
def intVal (t : IntT) (x : Nat) : Int := match t with
  | .i32 => toSigned 32 x
  | .i64 => toSigned 64 x
  | .n32 | .n64 => x
/-- Bits [2N−1:N] of the exact product (R87). -/
def mulHigh (t : IntT) (a b : Nat) : Nat :=
  let n := intBits t
  pattern n (intVal t a * intVal t b / 2 ^ n)
/-- SHL of N bits by a full 32-bit count (R91). -/
def shlResult (n a c : Nat) : Nat := if n ≤ c then 0 else a * 2 ^ c % 2 ^ n
/-- SHR in a type by a full 32-bit count (R91). -/
def shrResult (t : IntT) (a c : Nat) : Nat :=
  let n := intBits t
  if n ≤ c then pattern n (if intVal t a < 0 then -1 else 0) else pattern n (intVal t a / 2 ^ c)
/-- BFE (R92): position and length from vb. -/
def bfeResult (signed : Bool) (a b : Nat) : Nat :=
  let p := bits b 0 8
  let l := min 32 (bits b 8 8)
  let f := a / 2 ^ p % 2 ^ l
  if l = 0 then 0 else if signed && f.testBit (l - 1) then pattern 32 ((f : Int) - 2 ^ l) else f
/-- BFI (R92): bits p … min(p + l, 32) − 1 of d come from a. -/
def bfiResult (d a b : Nat) : Nat :=
  let p := bits b 0 8
  let l := min 32 (bits b 8 8)
  (List.range 32).foldl (fun x k => if (if p ≤ k && k < min (p + l) 32 then a.testBit (k - p) else d.testBit k) then x + 2 ^ k else x) 0
/-- Number of one bits, and of leading zeros, of an n-bit pattern (R93). -/
def popcount (n x : Nat) : Nat := ((List.range n).filter x.testBit).length
def leadingZeros (n x : Nat) : Nat := if x = 0 then n else n - 1 - Nat.log2 x
/-- MIN and MAX in a type (R94). -/
def minResult (t : IntT) (a b : Nat) : Nat := if intVal t b < intVal t a then b else a
def maxResult (t : IntT) (a b : Nat) : Nat := if intVal t a < intVal t b then b else a
/-- ABS modulo 2^N (R94). -/
def absResult (n a : Nat) : Nat := pattern n (toSigned n a).natAbs
/-- An integer comparison (R22, R97); codes 6 and 7 belong to FCMP. -/
def condHolds (c : Cond) (a b : Int) : Bool := match c with
  | .eq => a == b
  | .ne => a != b
  | .lt => decide (a < b)
  | .le => decide (a ≤ b)
  | .gt => decide (b < a)
  | .ge => decide (b ≤ a)
  | .un | .or => false
/-- A signed immediate of nine bits as a 32-bit pattern (R95). -/
def imm32 (imm : BitVec 9) : Word := imm.signExtend 32

/-! ## Shapes -/

/-- A three-register lane word of one width. -/
def State.lane3 (s : State) (i : Instr) (g : Guard) (t : Wd) (vd va vb : Reg) (f : Nat → Nat → Nat) : State :=
  s.laneOp i g (vRef t va ++ vRef t vb) (vRef t vd) fun w m => w.putV t vd m fun l => f (w.vNat t va l) (w.vNat t vb l)
/-- A lane word with one source. -/
def State.lane2 (s : State) (i : Instr) (g : Guard) (td ta : Wd) (vd va : Reg) (f : Nat → Nat) : State :=
  s.laneOp i g (vRef ta va) (vRef td vd) fun w m => w.putV td vd m fun l => f (w.vNat ta va l)
/-- A shift by a 32-bit register count. -/
def State.laneShift (s : State) (i : Instr) (g : Guard) (t : Wd) (vd va vb : Reg) (f : Nat → Nat → Nat) : State :=
  s.laneOp i g (vRef t va ++ [.v vb.toNat]) (vRef t vd) fun w m => w.putV t vd m fun l => f (w.vNat t va l) (w.V vb.toNat l).toNat
/-- A lane word with an immediate. -/
def State.laneImm (s : State) (i : Instr) (g : Guard) (vd va : Reg) (f : Word → Word) : State :=
  s.laneOp i g [.v va.toNat] [.v vd.toNat] fun w m => w.setV vd.toNat m fun l => f (w.V va.toNat l)
/-- Carry words: predicate pc is the carry in and out (R86, R89); with p7 the carry in is 1 and the carry out is dropped. -/
def State.laneCarry (s : State) (t : Wd) (vd : Reg) (src : List RegRef) (pc : BitVec 3) (f : Warp → Nat → Nat → Int) (carry : Int → Bool) : State :=
  s.plainOp (.p pc.toNat :: src) (.p pc.toNat :: vRef t vd) fun w m =>
    let x := fun l => f w l (if (w.P pc.toNat).getLsbD l then 1 else 0)
    (w.putV t vd m fun l => pattern (wdBits t) (x l)).setP pc.toNat m (maskOf fun l => carry (x l))

/-! ## Meanings -/

def execAdd (g : Guard) (t : AddT) (vd va vb : Reg) (s : State) : Out :=
  .next (s.lane3 (.add g t vd va vb) g (wdOf t.wide) vd va vb (addResult t false))
def execSub (g : Guard) (t : AddT) (vd va vb : Reg) (s : State) : Out :=
  .next (s.lane3 (.sub g t vd va vb) g (wdOf t.wide) vd va vb (addResult t true))
def execAddc (t : Wd) (vd va vb : Reg) (pc : BitVec 3) (s : State) : Out :=
  .next (s.laneCarry t vd (vRef t va ++ vRef t vb) pc (fun w l c => (w.vNat t va l : Int) + w.vNat t vb l + c) fun x => decide (2 ^ wdBits t ≤ x))
def execSubb (t : Wd) (vd va vb : Reg) (pc : BitVec 3) (s : State) : Out :=
  .next (s.laneCarry t vd (vRef t va ++ vRef t vb) pc (fun w l c => (w.vNat t va l : Int) - w.vNat t vb l - c) fun x => decide (x < 0))
def execMul (g : Guard) (t : Wd) (vd va vb : Reg) (s : State) : Out :=
  .next (s.lane3 (.mul g t vd va vb) g t vd va vb fun a b => a * b)
def execMulh (g : Guard) (t : IntT) (vd va vb : Reg) (s : State) : Out :=
  .next (s.lane3 (.mulh g t vd va vb) g (wdOf t.wide) vd va vb (mulHigh t))
def execMadc (vd va vb : Reg) (pc : BitVec 3) (s : State) : Out :=
  .next (s.laneCarry .w64 vd ([.v va.toNat, .v vb.toNat] ++ vPair vd) pc
    (fun w l c => (w.V va.toNat l).toNat * (w.V vb.toNat l).toNat + ((w.VP vd.toNat l).toNat : Int) + c) fun x => decide (2 ^ 64 ≤ x))
def execAndL (g : Guard) (t : Wd) (vd va vb : Reg) (s : State) : Out :=
  .next (s.lane3 (.andL g t vd va vb) g t vd va vb fun a b => a &&& b)
def execOrL (g : Guard) (t : Wd) (vd va vb : Reg) (s : State) : Out :=
  .next (s.lane3 (.orL g t vd va vb) g t vd va vb fun a b => a ||| b)
def execXorL (g : Guard) (t : Wd) (vd va vb : Reg) (s : State) : Out :=
  .next (s.lane3 (.xorL g t vd va vb) g t vd va vb fun a b => a ^^^ b)
def execShl (g : Guard) (t : Wd) (vd va vb : Reg) (s : State) : Out :=
  .next (s.laneShift (.shl g t vd va vb) g t vd va vb (shlResult (wdBits t)))
def execShr (g : Guard) (t : IntT) (vd va vb : Reg) (s : State) : Out :=
  .next (s.laneShift (.shr g t vd va vb) g (wdOf t.wide) vd va vb (shrResult t))
def execBfe (g : Guard) (signed : Bool) (vd va vb : Reg) (s : State) : Out :=
  .next (s.lane3 (.bfe g signed vd va vb) g .w32 vd va vb (bfeResult signed))
def execBfi (g : Guard) (vd va vb : Reg) (s : State) : Out :=
  .next (s.laneOp (.bfi g vd va vb) g [.v vd.toNat, .v va.toNat, .v vb.toNat] [.v vd.toNat] fun w m =>
    w.putV .w32 vd m fun l => bfiResult (w.vNat .w32 vd l) (w.vNat .w32 va l) (w.vNat .w32 vb l))
def execPopc (g : Guard) (t : Wd) (vd va : Reg) (s : State) : Out :=
  .next (s.lane2 (.popc g t vd va) g .w32 t vd va (popcount (wdBits t)))
def execClz (g : Guard) (t : Wd) (vd va : Reg) (s : State) : Out :=
  .next (s.lane2 (.clz g t vd va) g .w32 t vd va (leadingZeros (wdBits t)))
def execMinL (g : Guard) (t : IntT) (vd va vb : Reg) (s : State) : Out :=
  .next (s.lane3 (.minL g t vd va vb) g (wdOf t.wide) vd va vb (minResult t))
def execMaxL (g : Guard) (t : IntT) (vd va vb : Reg) (s : State) : Out :=
  .next (s.lane3 (.maxL g t vd va vb) g (wdOf t.wide) vd va vb (maxResult t))
def execAbs (g : Guard) (t : Wd) (vd va : Reg) (s : State) : Out :=
  .next (s.lane2 (.abs g t vd va) g t t vd va (absResult (wdBits t)))
/-- SEL (R96): the guard field is the selector, and the word is unguarded. -/
def execSel (ps : Guard) (t : Wd) (vd va vb : Reg) (s : State) : Out :=
  .next (s.plainOp (.p ps.p.toNat :: vRef t va ++ vRef t vb) (vRef t vd) fun w m =>
    w.putV t vd m fun l => if (w.guardMask ps).getLsbD l then w.vNat t va l else w.vNat t vb l)
def execCmp (g : Guard) (c : Cond) (t : IntT) (pd : BitVec 3) (va vb : Reg) (s : State) : Out :=
  .next (s.laneOp (.cmp g c t pd va vb) g (vRef (wdOf t.wide) va ++ vRef (wdOf t.wide) vb) [.p pd.toNat] fun w m =>
    w.setP pd.toNat m (maskOf fun l => condHolds c (intVal t (w.vNat (wdOf t.wide) va l)) (intVal t (w.vNat (wdOf t.wide) vb l))))
def execMovUniform (g : Guard) (t : Wd) (vd va : Reg) (s : State) : Out :=
  .next (s.laneOp (.movUniform g t vd va) g (sRef t va) (vRef t vd) fun w m => w.putV t vd m fun _ => w.sNat t va)
def execMovLane (g : Guard) (vd : Reg) (s : State) : Out :=
  .next (s.laneOp (.movLane g vd) g [] [.v vd.toNat] fun w m => w.putV .w32 vd m fun l => l)
def execAddImm (g : Guard) (vd va : Reg) (imm : BitVec 9) (s : State) : Out :=
  .next (s.laneImm (.addImm g vd va imm) g vd va fun a => a + imm32 imm)
def execAndImm (g : Guard) (vd va : Reg) (imm : BitVec 9) (s : State) : Out :=
  .next (s.laneImm (.andImm g vd va imm) g vd va fun a => a &&& imm32 imm)
def execOrImm (g : Guard) (vd va : Reg) (imm : BitVec 9) (s : State) : Out :=
  .next (s.laneImm (.orImm g vd va imm) g vd va fun a => a ||| imm32 imm)
def execXorImm (g : Guard) (vd va : Reg) (imm : BitVec 9) (s : State) : Out :=
  .next (s.laneImm (.xorImm g vd va imm) g vd va fun a => a ^^^ imm32 imm)
def execShlImm (g : Guard) (vd va : Reg) (n : BitVec 5) (s : State) : Out :=
  .next (s.laneImm (.shlImm g vd va n) g vd va fun a => BitVec.ofNat 32 (shlResult 32 a.toNat n.toNat))
def execShrImm (g : Guard) (signed : Bool) (vd va : Reg) (n : BitVec 5) (s : State) : Out :=
  .next (s.laneImm (.shrImm g signed vd va n) g vd va fun a => BitVec.ofNat 32 (shrResult (if signed then .i32 else .n32) a.toNat n.toNat))
def execMovImm (g : Guard) (vd : Reg) (imm : BitVec 9) (s : State) : Out :=
  .next (s.laneOp (.movImm g vd imm) g [] [.v vd.toNat] fun w m => w.setV vd.toNat m fun _ => imm32 imm)
/-- MADW (R88): an exact product, negated if asked, added to the pair. -/
def State.madw (s : State) (signed neg : Bool) (vd va vb vc : Reg) : State :=
  s.plainOp ([.v va.toNat, .v vb.toNat] ++ vPair vc) (vPair vd) fun w m =>
    w.putV .w64 vd m fun l =>
      let a := intVal (if signed then .i32 else .n32) (w.vNat .w32 va l)
      let b := intVal (if signed then .i32 else .n32) (w.vNat .w32 vb l)
      pattern 64 ((if neg then -(a * b) else a * b) + w.vNat .w64 vc l)
def execMadwI32 (neg : Bool) (vd va vb vc : Reg) (s : State) : Out := .next (s.madw true neg vd va vb vc)
def execMadwN32 (neg : Bool) (vd va vb vc : Reg) (s : State) : Out := .next (s.madw false neg vd va vb vc)

end Sys2Proof.Machine
end

