-- ==== Sys2Proof/Machine/Cross.lean ====
section
/-!
DEFINITION. Cross-lane instructions (spec/05 R111 to R115).
-/
namespace Sys2Proof.Machine

/-! ## SHFL and BCAST (R111 to R113) -/

/-- Each active lane reads the lane `from_` names. -/
def State.shuffle (s : State) (i : Instr) (g : Guard) (t : Wd) (vd va : Reg) (extra : List RegRef) (from_ : Warp → Nat → Nat) : State :=
  s.laneOp i g (vRef t va ++ extra) (vRef t vd) fun w m => w.putV t vd m fun l => w.vNat t va (from_ w l)
/-- Offset W >> k. -/
def shflDist (k : Reg) : Nat := Config.width / 2 ^ k.toNat
def execShflFwd (g : Guard) (t : Wd) (vd va k : Reg) (s : State) : Out :=
  .next (s.shuffle (.shflFwd g t vd va k) g t vd va [] fun _ l => (l + shflDist k) % Config.width)
def execShflBack (g : Guard) (t : Wd) (vd va k : Reg) (s : State) : Out :=
  .next (s.shuffle (.shflBack g t vd va k) g t vd va [] fun _ l => (l + Config.width - shflDist k) % Config.width)
def execShflSwap (g : Guard) (t : Wd) (vd va k : Reg) (s : State) : Out :=
  .next (s.shuffle (.shflSwap g t vd va k) g t vd va [] fun _ l => l ^^^ shflDist k)
def execShflFrom (g : Guard) (t : Wd) (vd va vb : Reg) (s : State) : Out :=
  .next (s.shuffle (.shflFrom g t vd va vb) g t vd va [.v vb.toNat] fun w l => (w.V vb.toNat l).toNat % Config.width)
def execBcast (g : Guard) (t : Wd) (vd va n : Reg) (s : State) : Out :=
  .next (s.shuffle (.bcast g t vd va n) g t vd va [] fun _ _ => n.toNat)
def execBcastLow (g : Guard) (t : Wd) (vd va : Reg) (s : State) : Out :=
  .next (s.laneOp (.bcastLow g t vd va) g (vRef t va) (vRef t vd) fun w m =>
    w.putV t vd m fun _ => w.vNat t va ((lanesOf m).headD 0))

/-! ## VOTE (R114) -/

/-- The lanes of A whose possibly inverted predicate holds. -/
def Warp.voters (w : Warp) (ps : BitVec 3) (inv : Bool) (m : Mask) : Mask := m &&& (if inv then ~~~(w.P ps.toNat) else w.P ps.toNat)
/-- Number of lanes of a mask. -/
def laneCount (m : Mask) : Nat := (lanesOf m).length
/-- A VOTE that writes a register. -/
def State.voteV (s : State) (i : Instr) (g : Guard) (vd : Reg) (ps : BitVec 3) (inv : Bool) (f : Mask → Nat → Nat) : State :=
  s.laneOp i g [.p ps.toNat] [.v vd.toNat] fun w m => w.putV .w32 vd m (f (w.voters ps inv m))
/-- A VOTE that writes a predicate. -/
def State.voteP (s : State) (i : Instr) (g : Guard) (pd ps : BitVec 3) (inv : Bool) (extra : List RegRef) (f : Warp → Mask → Mask → Bool) : State :=
  s.laneOp i g (.p ps.toNat :: extra) [.p pd.toNat] fun w m =>
    w.setP pd.toNat m (if f w m (w.voters ps inv m) then BitVec.allOnes 16 else 0)
def execVoteCount (g : Guard) (vd : Reg) (ps : BitVec 3) (inv : Bool) (s : State) : Out :=
  .next (s.voteV (.voteCount g vd ps inv) g vd ps inv fun c _ => laneCount c)
def execVoteRank (g : Guard) (vd : Reg) (ps : BitVec 3) (inv : Bool) (s : State) : Out :=
  .next (s.voteV (.voteRank g vd ps inv) g vd ps inv fun c l => ((lanesOf c).filter (· < l)).length)
def execVoteMask (g : Guard) (vd : Reg) (ps : BitVec 3) (inv : Bool) (s : State) : Out :=
  .next (s.voteV (.voteMask g vd ps inv) g vd ps inv fun c _ => c.toNat)
def execVoteAtleast (g : Guard) (pd ps : BitVec 3) (inv : Bool) (st : Reg) (s : State) : Out :=
  .next (s.voteP (.voteAtleast g pd ps inv st) g pd ps inv [.s st.toNat] fun w _ c => decide ((w.S st.toNat).toNat ≤ laneCount c))
def execVoteEvery (g : Guard) (pd ps : BitVec 3) (inv : Bool) (s : State) : Out :=
  .next (s.voteP (.voteEvery g pd ps inv) g pd ps inv [] fun _ m c => c == m)
def execVoteAgree (g : Guard) (pd ps : BitVec 3) (inv : Bool) (s : State) : Out :=
  .next (s.voteP (.voteAgree g pd ps inv) g pd ps inv [] fun _ m c => c == 0 || c == m)

/-! ## LRED (R115) -/

/-- Identity of a form. -/
def redIdentity : RedOp → Nat
  | .addF32 => 2 ^ 31
  | .addF64 => 2 ^ 63
  | .addB32 | .addB64 => 0
  | .minI32 => 2 ^ 31 - 1
  | .maxI32 => 2 ^ 31
  | .minF32 | .maxF32 => fp32.nan
/-- The step function of a form. -/
def redStep (rm : Rm) (ftz : Bool) (op : RedOp) (a b : Nat) : Nat × FFlags := match op with
  | .addF32 => fp32.add rm ftz false a b
  | .addF64 => fp64.add rm ftz false a b
  | .addB32 => ((a + b) % 2 ^ 32, FFlags.none)
  | .addB64 => ((a + b) % 2 ^ 64, FFlags.none)
  | .minI32 => (minResult .i32 a b, FFlags.none)
  | .maxI32 => (maxResult .i32 a b, FFlags.none)
  | .minF32 => fp32.minMax ftz false a b
  | .maxF32 => fp32.minMax ftz true a b
/-- One round at distance d: the values of the lower d lanes, the flags, and the lanes that raised invalid. -/
def redRound (step : Nat → Nat → Nat × FFlags) (d : Nat) (x : List Nat × FFlags × Mask) : List Nat × FFlags × Mask :=
  let r := (List.range d).map fun i => step (x.1.getD i 0) (x.1.getD (i + d) 0)
  (r.map (·.1), r.foldl (fun a y => a.or y.2) x.2.1, x.2.2 ||| maskOf fun i => (r.getD i (0, FFlags.none)).2.nv)
/-- The tree: s = W/2, W/4, …, 1. -/
def redTree (step : Nat → Nat → Nat × FFlags) (u : List Nat) : List Nat × FFlags × Mask :=
  [8, 4, 2, 1].foldl (fun x d => redRound step d x) (u, FFlags.none, 0)
def execLred (g : Guard) (op : RedOp) (vd va : Reg) (s : State) : Out :=
  let wd := wdOf op.wide
  .next (s.laneWord (.lred g op vd va) g (vRef wd va ++ vRef wd vd) fun _ m =>
    if m = 0 then s.done true
    else
      let r := redTree (redStep s.w.rm s.w.ftz op) (lanes.map fun l => if m.getLsbD l then s.w.vNat wd va l else redIdentity op)
      let s := s.onW fun w => ((w.putV wd vd m fun _ => r.1.headD 0).setFlags r.2.1).addFp (vRef wd vd) none .timed
      if s.w.fpinv && r.2.2 != 0 then s.trap true 8 r.2.2 0 else s.done true)

end Sys2Proof.Machine
end

