-- ==== Sys2Proof/Machine/Narrow.lean ====
section
/-!
DEFINITION. NARROW and WIDEN (spec/05 R107 to R110).
-/
namespace Sys2Proof.Machine

/-- Lanes of a unit (R108). -/
def unitLanes (q : Q8) (b : RotB) : Nat := match q, b with
  | .dm8, .b1 => 1
  | .dm8, .b16 => 4
  | .mx8, .b1 => 8
  | .mx8, .b16 => 8
  | .dm8, .b64 => 16
  | .mx8, .b64 => 16
/-- Lowest lanes of the units whose lanes are all active. -/
def unitsOf (l : Nat) (m : Mask) : List Nat :=
  ((List.range (16 / l)).map (l * ·)).filter fun k => (List.range l).all fun i => m.getLsbD (k + i)

/-- Element e of the source of NARROW, as FP32 (R107). -/
def Warp.narrowSource (w : Warp) (bf : Bool) (va : Nat) (e : Nat) : Nat :=
  if bf then bf16Image (bits (w.V (va + e % 4 / 2) (e / 4)).toNat (16 * (e % 2)) 16) else (w.V (va + e % 4) (e / 4)).toNat
/-- The exact reals of the unit at lane k. -/
def Warp.narrowReals (w : Warp) (r : SeedReg) (bf : Bool) (va l k : Nat) : List ExactR :=
  let b := rotSize r.b
  let base := (w.SP 58).toNat
  let xs := (List.range (4 * l)).map fun e => w.narrowSource bf va (4 * k + e)
  ((chunks b (4 * l / b) xs).zip (List.range (4 * l / b))).flatMap fun p =>
    rotNarrow p.1 r.s0.toNat b (base + 4 * k / b + p.2 : Nat)
/-- Codes with saturation indications, and the scale of each group of 32 elements. -/
def quantise (q : Q8) (ys : List ExactR) : List (Nat × Bool) × List Nat := match q with
  | .dm8 => (ys.map roundDM8, [])
  | .mx8 =>
    let g := (chunks 32 (ys.length / 32) ys).map quantMX
    (g.flatMap (·.2), g.map (·.1))
/-- The two FP32 magnitudes' running maximum (R109): a NaN first, else the larger magnitude; of equal ones, or where s56 holds the larger,
s56 stays as it is, with its sign (log 73). -/
def runningMax (a m : Word) : Word :=
  if (fp32.decode a.toNat).isNan then a
  else if (fp32.decode m.toNat).isNan then m
  else if a.toNat % 2 ^ 31 < m.toNat % 2 ^ 31 then m else a

/-- One unit of NARROW. -/
def Warp.narrowUnit (w w0 : Warp) (r : SeedReg) (tr : Bool) (q : Q8) (bf : Bool) (vd va l k : Nat) : Warp :=
  let ys := w0.narrowReals r bf va l k
  let c := quantise q ys
  let m := maskOf fun i => k ≤ i && i < k + l
  let code := fun i t => (c.1.getD (4 * (i - k) + t) (0, false)).1
  let w := w.setV vd m fun i => BitVec.ofNat 32 (code i 0 + 256 * code i 1 + 65536 * code i 2 + 16777216 * code i 3)
  let w := match q with
    | .dm8 => w
    | .mx8 => w.setV (vd + 1) m fun i => BitVec.ofNat 32 (c.2.getD ((i - k) / 8) 0)
  if tr then
    let n := (c.1.filter (·.2)).length
    (w.setS 56 (runningMax (w.S 56) (BitVec.ofNat 32 (maxMagnitude ys)))).setS 57 (BitVec.ofNat 32 (min ((w.S 57).toNat + n) (2 ^ 32 - 1)))
  else w

def execNarrow (g : Guard) (tr : Bool) (q : Q8) (bf : Bool) (hs : BitVec 3) (vd va : Reg) (s : State) : Out :=
  let src := if bf then vPair va else vQuad va
  let dst := match q with
    | .dm8 => [RegRef.v vd.toNat]
    | .mx8 => vPair vd
  let out := dst ++ (if tr then [.s 56, .s 57] else [])
  let r := s.myBlk.hs.get SeedReg.fresh hs.toNat
  .next (s.laneChecked (.narrow g tr q bf hs vd va) g (src ++ [.s 58, .s 59] ++ out) (decide (s.myBlk.seeds ≤ hs.toNat)) fun _ m =>
    if m = 0 then s.done true
    else
      let l := unitLanes q r.b
      (s.onW fun w => ((unitsOf l m).foldl (fun x k => x.narrowUnit w r tr q bf vd.toNat va.toNat l k) w).addPend out none .timed).done true)

/-- The FP32 images of the codes of the unit at lane k (R107). -/
def Warp.widenImages (w : Warp) (q : Q8) (va l k : Nat) : List Nat :=
  (List.range (4 * l)).map fun e =>
    let c := bits (w.V va (k + e / 4)).toNat (8 * (e % 4)) 8
    match q with
    | .dm8 => decodeDM8 c
    | .mx8 => decodeMX c (bits (w.V (va + 1) (k + e / 32 * 8)).toNat 0 8)
/-- One unit of WIDEN. -/
def Warp.widenUnit (w w0 : Warp) (r : SeedReg) (q : Q8) (vd va l k : Nat) : Warp :=
  let b := rotSize r.b
  let base := (w0.SP 58).toNat
  let vs := w0.widenImages q va l k
  let out := ((chunks b (4 * l / b) vs).zip (List.range (4 * l / b))).flatMap fun p =>
    rotWiden p.1 r.s0.toNat b (base + 4 * k / b + p.2 : Nat)
  let m := maskOf fun i => k ≤ i && i < k + l
  (List.range 4).foldl (fun w t => w.setV (vd + t) m fun i => BitVec.ofNat 32 (out.getD (4 * (i - k) + t) 0)) w

def execWiden (g : Guard) (q : Q8) (hs : BitVec 3) (vd va : Reg) (s : State) : Out :=
  let src := match q with
    | .dm8 => [RegRef.v va.toNat]
    | .mx8 => vPair va
  let r := s.myBlk.hs.get SeedReg.fresh hs.toNat
  .next (s.laneChecked (.widen g q hs vd va) g (src ++ [.s 58, .s 59] ++ vQuad vd) (decide (s.myBlk.seeds ≤ hs.toNat)) fun _ m =>
    if m = 0 then s.done true
    else
      let l := unitLanes q r.b
      (s.onW fun w => ((unitsOf l m).foldl (fun x k => x.widenUnit w r q vd.toNat va.toNat l k) w).addPend (vQuad vd) none .timed).done true)

end Sys2Proof.Machine
end

