-- ==== Sys2Proof/Machine/Streams.lean ====
section
/-!
DEFINITION. The two streams of a block and the engines they drive (spec/11 R241 to R260). A word of a stream waits where it
stands until the operations it must follow are performed (log 17).
-/
namespace Sys2Proof.Machine

/-! ## Streams -/

def State.streamOf (s : State) (b : Nat) (matrix : Bool) : Stream := if matrix then (s.blk b).m else (s.blk b).c
def State.onStreamOf (s : State) (b : Nat) (matrix : Bool) (f : Stream → Stream) : State :=
  s.onBlk b fun k => if matrix then { k with m := f k.m } else { k with c := f k.c }
/-- The stream fetches its next word now. -/
def State.streamGoes (s : State) (b : Nat) (matrix : Bool) : Bool :=
  let t := s.streamOf b matrix
  t.st == .running && t.wait.isNone && t.held.isNone && !t.stopped && !(s.blk b).saving
/-- The word is done and the stream goes to the next. -/
def State.streamNext (s : State) (b : Nat) (matrix : Bool) : State :=
  s.onStreamOf b matrix fun t => { t with pc := t.pc + 4, word := none }
/-- Every phase in progress completes with its error bit set, and the block is in error mode (R210). -/
def State.errorMode (s : State) (b : Nat) : State :=
  let s := s.onBlk b fun k => { k with errMode := true }
  (List.range 16).foldl (fun s nb => if ((s.blk b).bars.get Bar.fresh nb).arrivals = 0 then s else s.barComplete b nb true) s
/-- The stream error path (R257), for a command that began in an era of its stream: one that began before the stream's last meeting,
or fails after its halt, halts nothing. -/
def State.opError (s : State) (b : Nat) (matrix : Bool) (era : Nat) (word : Word) (pc : Addr) (code detail g h : Nat) (bad : List Nat) : State :=
  let first := (s.streamOf b matrix).st != .halted && (s.streamOf b matrix).era == era
  let s := if first then s.streamTo b matrix fun t => { t with st := .halted, wait := none, word := none } else s
  let s := s.errorRecord b word (if matrix then 0 else 1) code g h pc detail
  let s := s.onClu (cluOfBlk b) fun x => { x with invalid := bad.foldl (fun t g => t.set false g true) x.invalid }
  if first then (s.errorMode b).meet b else s
/-- The stream error path of the word at which a stream stands. -/
def State.streamError (s : State) (b : Nat) (matrix : Bool) (word : Word) (pc : Addr) (code detail g h : Nat) (bad : List Nat) : State :=
  s.opError b matrix (s.streamOf b matrix).era word pc code detail g h bad
/-- The word at which a stream stands (R243): the one that it has fetched, which it fetches once (R241), or what a fetch finds. -/
def State.streamFetch (s : State) (b : Nat) (matrix : Bool) : Fetch :=
  let t := s.streamOf b matrix
  match t.word with
  | some x => .word x
  | none => s.fetchBy (dieOfBlk b) t.pc.toNat (s.translate (cluOfBlk b) t.pc.toNat .fetch)
/-- The fetch asks the home L2 for the word's line, with its walk (R286, R303). -/
def State.streamFetches (s : State) (b : Nat) (matrix : Bool) : State :=
  let t := s.streamOf b matrix
  if t.word.isSome then s
  else
    let s := s.cluWalks (cluOfBlk b) t.pc.toNat .fetch
    match s.translate (cluOfBlk b) t.pc.toNat .fetch with
    | .ok pa _ => s.visitAt (dieOfBlk b) pa
    | .noMap | .denied | .notPresent _ _ => s
/-- The fetch has no mapping, or is discarded (R329): code ADDR, word 0. -/
def State.streamFetchBad (s : State) (b : Nat) (matrix : Bool) : State :=
  let pc := (s.streamOf b matrix).pc
  s.streamError b matrix 0 pc 11 pc.toNat 0 0 []
/-- The page is not present: the sequencer holds at the word. -/
def State.streamFetchAbsent (s : State) (b : Nat) (matrix : Bool) : State :=
  let f := s.engFault (cluOfBlk b) b (s.streamOf b matrix).pc.toNat .fetch
  f.2.onStreamOf b matrix fun t => { t with held := some f.1 }

/-- An ill-formed word halts the stream (R241). -/
def State.illFormed (s : State) (b : Nat) (matrix : Bool) (word : Word) : State :=
  s.streamError b matrix word (s.streamOf b matrix).pc 9 0 0 0 []
/-- A word of one of the streams, issued by the agent in focus; `body` receives the block. A warp does not know it (R28), and
to the other stream it is ill-formed. -/
def State.streamWord (s : State) (i : Instr) (matrix : Bool) (body : Nat → Addr → State) : State :=
  let run := fun (b : Nat) (mx : Bool) =>
    if !s.streamGoes b mx then s
    else if mx != matrix then s.illFormed b mx (wordOf i)
    else body b (s.streamOf b mx).pc
  match s.focus with
  | .warp => s.notAWord (wordOf i)
  | .matrix b => run b true
  | .copy b => run b false
def execIllFormedStreamWord (word : Word) (s : State) : Out :=
  .next (match s.focus with
    | .warp => s.notAWord word
    | .matrix b => if s.streamGoes b true then s.illFormed b true word else s
    | .copy b => if s.streamGoes b false then s.illFormed b false word else s)

/-- The matrix operations and the copy-stream operations of a block. -/
def EngOp.matrixOf (b : Nat) : EngOp → Bool
  | .mcfg k _ | .mwload k _ _ _ _ _ | .mstore k _ _ _ _ _ _ _ _ _ => k == b
  | .mmul m => m.blk == b
  | .copy _ => false
def EngOp.copyOf (b : Nat) : EngOp → Bool
  | .copy x => x.blk == b && x.rack.isNone
  | .mcfg _ _ | .mwload _ _ _ _ _ _ | .mstore _ _ _ _ _ _ _ _ _ _ | .mmul _ => false
/-- MCFG or MWLOAD. -/
def EngOp.config : EngOp → Bool
  | .mcfg _ _ | .mwload _ _ _ _ _ _ => true
  | .mmul _ | .mstore _ _ _ _ _ _ _ _ _ _ | .copy _ => false
def State.matrixOps (s : State) (b : Nat) : List Eng := (s.clu (cluOfBlk b)).engs.filter fun e => e.op.matrixOf b
def State.copyOps (s : State) (b : Nat) : List Eng := (s.clu (cluOfBlk b)).engs.filter fun e => e.op.copyOf b
/-- Begin an engine operation, in an era of its stream. -/
def State.engBegin (s : State) (c era : Nat) (op : EngOp) : State :=
  s.onClu c fun x => { x with engs := x.engs ++ [Eng.new x.nextTag era op], nextTag := x.nextTag + 1 }
def State.engDrop (s : State) (c tag : Nat) : State := s.onClu c fun x => { x with engs := x.engs.filter (·.tag != tag) }
def State.onEng (s : State) (c tag : Nat) (f : Eng → Eng) : State :=
  s.onClu c fun x => { x with engs := x.engs.map fun e => if e.tag == tag then f e else e }
def State.engUpdate (s : State) (c tag : Nat) (op : EngOp) : State := s.onEng c tag fun e => { e with op := op }
/-- Hold an operation on a page, with how far it has come (R312). -/
def State.engHold (s : State) (c b tag va : Nat) (kind : AccKind) (got : Fetched) (wrote : Nat) : State :=
  let f := s.engFault c b va kind
  f.2.onEng c tag fun e => { e with held := some f.1, heldVa := va, got := got, wrote := wrote }
/-- A fetch of an operation waits for the pin limit, with PINWAIT when it begins to wait (R254, R261). -/
def State.pinWaits (s : State) (c : Nat) (e : Eng) (place : Nat) : State :=
  if e.pinWait.isSome then s
  else (s.onEng c e.tag fun e => { e with pinWait := some (s.cycle, place) }).emitClu 0x45 c
    (if place < 6400 then place % 32 else 32)
/-- An operation fetches, going on from where it was held (R312): its lines are pinned, or it waits where they would pass the limit
(R254). `run` is the fetch, and `left` tells the positions of the tile, `cols` to a row, whose elements are then still to be read; an
error, a poisoned line and the end of the fetch each have their own sequel. -/
def State.fetching (s : State) (c b : Nat) (e : Eng) (h : Handle) (cols : Nat) (left : Fetched → List Nat) (run : Fetched → State → Acc Unit × Fetched × State) (ok : Fetched → State → State)
    (err : Nat → Nat → State → State) (poison : Nat → State → State) : State :=
  let r := run e.got s
  let pins := (e.pins ++ pinsOf (c / 324) r.2.1.keys).eraseDups
  match s.pinFull c e.tag ((e.pinWait.map (·.1)).getD s.cycle) pins with
  | some place => s.pinWaits c e place
  | none =>
    let kept := r.2.2.stillPinned c (s.blk b) h cols (left r.2.1) pins
    let t := r.2.2.onEng c e.tag fun e => { e with pins := kept, pinWait := none }
    match r.1 with
    | .ok _ => ok r.2.1 t
    | .err code detail => err code detail t
    | .absent va kind => t.engHold c b e.tag va kind r.2.1 0
    | .poison pa => poison pa t
/-- An operation stores, from the byte at which it was held on (R312). -/
def State.storing (s : State) (c b : Nat) (e : Eng) (got : Fetched) (runs : List (Nat × List Byte)) (ok : State → State)
    (err : Nat → Nat → State → State) : State :=
  let r := s.engStores c (s.blk b) e.wrote runs
  match r.1 with
  | .ok _ => ok r.2.2
  | .err code detail => err code detail r.2.2
  | .absent va kind => r.2.2.engHold c b e.tag va kind got r.2.1
  | .poison _ => r.2.2
/-- The operations that began before one of a tag. -/
def earlier (l : List Eng) (tag : Nat) : List Eng := l.takeWhile (·.tag != tag)
/-- A matrix word begins, with MCMD (R261). -/
def State.mcmd (s : State) (b : Nat) (pc : Addr) (opc sub : Nat) : State :=
  s.emitClu 0x40 (cluOfBlk b) (pc.toNat % 2 ^ 48 + opc * 2 ^ 48 + sub * 2 ^ 55)
def State.handleOf (s : State) (b h : Nat) : Option Handle := (s.blk b).handles.get none h
def Handle.none : Handle := ⟨⟨0, 0⟩, 0, 0, 0, 0, false⟩

/-! ## Barriers and the ends of streams (R249, R252) -/

/-- The operations of the stream that are not yet performed. -/
def State.streamOps (s : State) (b : Nat) (matrix : Bool) : List Eng := if matrix then s.matrixOps b else s.copyOps b
/-- What comes before a stream's next operation (R216): what it is ordered after, and for the matrix stream the MMULs and MSTOREs begun. -/
def State.streamBefore (s : State) (b : Nat) (matrix : Bool) : Known :=
  (s.streamOf b matrix).knows.join ⟨[], if matrix then (s.blk b).mseq else 0⟩
/-- A stream arrival (R209), once the stream's earlier operations are performed. -/
def State.streamBar (s : State) (i : Instr) (matrix : Bool) (nb e : Nat) (wait : Bool) : State :=
  s.streamWord i matrix fun b pc =>
    if !(s.streamOps b matrix).isEmpty then s
    else
      let phase := ((s.blk b).bars.get Bar.fresh nb).phase
      let t := if matrix then s.mcmd b pc (if wait then 0x64 else 0x65) 0 else s
      let t := (t.streamNext b matrix).onStreamOf b matrix fun x => { x with wait := if wait then some (nb, phase) else none }
      match t.arrival b nb e false (if matrix then 1 else 2) (s.streamBefore b matrix) with
      | some r => r
      | none => t.blockFault b (s.exitAt b none pc 4 (s.barInfo b nb e))
def execMbarw (nb : BitVec 4) (e : BitVec 9) (s : State) : Out := .next (s.streamBar (.mbarw nb e) true nb.toNat e.toNat true)
def execMbara (nb : BitVec 4) (e : BitVec 9) (s : State) : Out := .next (s.streamBar (.mbara nb e) true nb.toNat e.toNat false)
def execCbar (nb : BitVec 4) (e : BitVec 9) (s : State) : Out := .next (s.streamBar (.cbar nb e) false nb.toNat e.toNat false)
def execCbarW (nb : BitVec 4) (e : BitVec 9) (s : State) : Out := .next (s.streamBar (.cbarW nb e) false nb.toNat e.toNat true)
/-- MEND and CEND: the stream ends once every operation it issued is performed. -/
def State.streamEnd (s : State) (i : Instr) (matrix : Bool) : State :=
  s.streamWord i matrix fun b pc =>
    if !(s.streamOps b matrix).isEmpty then s
    else ((if matrix then s.mcmd b pc 0x66 0 else s).streamTo b matrix fun t => { t with st := .ended, word := none }).meet b
def execMend (s : State) : Out := .next (s.streamEnd .mend true)
def execCend (s : State) : Out := .next (s.streamEnd .cend false)

/-! ## MCFG and MWLOAD (R245, R246) -/

def execMcfg (shape : Shape) (s : State) : Out :=
  .next (s.streamWord (.mcfg shape) true fun b pc =>
    if (s.matrixOps b).any fun e => e.op.config || e.held.isSome then s
    else ((s.mcmd b pc 0x60 0).engBegin (cluOfBlk b) (s.blk b).m.era (.mcfg b shape)).streamNext b true)
/-- MCFG_APPLY: after every earlier MMUL has written its last row. -/
def execMcfgApply (c : Nat) (s : State) : Out :=
  .next (match (s.clu c).engs.find? fun e => match e.op with
      | .mcfg _ _ => true
      | .mwload _ _ _ _ _ _ | .mmul _ | .mstore _ _ _ _ _ _ _ _ _ _ | .copy _ => false with
    | some e => match e.op with
      | .mcfg b shape =>
        if (earlier (s.clu c).engs e.tag).any fun x => x.op.matrixOf b then s
        else (s.onClu c fun x => { x with shape := shape, weights := [] }).engDrop c e.tag
      | .mwload _ _ _ _ _ _ | .mmul _ | .mstore _ _ _ _ _ _ _ _ _ _ | .copy _ => s
    | none => s)
def execMwload (h : BitVec 5) (a : BitVec 2) (s : State) : Out :=
  let i := Instr.mwload h a
  .next (s.streamWord i true fun b pc =>
    let c := cluOfBlk b
    if (s.matrixOps b).any fun e => e.op.config || e.held.isSome then s
    else
      let hd := s.handleOf b h.toNat
      let fmt := (hd.getD Handle.none).tlr.fmt
      let s := s.mcmd b pc 0x61 a.toNat
      let bad := fun code detail => s.streamError b true (wordOf i) pc code detail 0 h.toNat []
      match recordError hd with
      | some e => bad e.1 e.2
      | none =>
        if fmt == 0 || decide (3 < fmt) then bad 3 (16 * fmt)
        else if (s.clu c).shape != .q4 && a != 0 then bad 6 0
        else (s.engBegin c (s.blk b).m.era (.mwload b pc (wordOf i) h.toNat (hd.getD Handle.none) a.toNat)).streamNext b true)

/-! ## MMUL (R247) -/

/-- Columns of the granule that an MMUL writes: the first, and how many. -/
def outCols (sh : Shape) (sub : Nat) : Nat × Nat := (if sh = .q4 then 16 * sub else 0, colsOf sh)
/-- Physical granules of a run of indices, or the first index that is unused or past 31. -/
def Block.granuleRun (b : Block) (g n : Nat) : List Nat ⊕ Nat :=
  match (List.range n).find? fun i => decide (32 ≤ g + i) || (b.gmap.get none (g + i)).isNone with
  | some i => .inr (g + i)
  | none => .inl ((List.range n).filterMap fun i => b.gmap.get none (g + i))
/-- An ACRD turns out to be unordered against an operation on its granule: the words that it wrote and that stand as it left them
become undefined (R240, log 10). -/
def State.unread (s : State) (c : Nat) (k : Block) (x : AcRead) : State :=
  let d := s.draw
  let words := x.runs.flatMap fun r => (List.range (r.2.length / 4)).map fun i => (r.1 + 4 * i, ofBytes ((r.2.drop (4 * i)).take 4))
  ((List.range words.length).zip words).foldl (fun s w => match s.engLoad c k w.2.1 4 with
    | (.ok v, t) => if v.1 = w.2.2 then (t.engStores c k 0 [(w.2.1, bytesOf 4 (Config.undefinedAcc (262144 * d.1 + w.1)).toNat)]).2.2 else s
    | _ => s) d.2
/-- An MMUL or MSTORE begins on some granules (R217, R240): its number, and the granules on which a port write is unordered against it,
which are left undefined; so are the values of an ACRD that is. -/
def State.granuleUse (s : State) (b : Nat) (phys : List Nat) : List Nat × Nat × State :=
  let c := cluOfBlk b
  let k := s.blk b
  let late := fun (p : Nat × Nat) => decide (k.m.knows.ops.get 0 p.1 < p.2)
  let un := phys.filter fun g => ((s.clu c).gport.get [] g).any late
  let reads := phys.flatMap fun g => ((s.clu c).gread.get [] g).filter fun x => late (x.warp, x.num)
  let n := k.mseq + 1
  let s := s.onBlk b fun k => { k with mseq := n }
  let s := s.onClu c fun x => { x with gstamp := phys.foldl (fun t g => t.put g n) x.gstamp, gread := phys.foldl (fun t g => t.del g) x.gread }
  let s := reads.foldl (fun s x => s.unread c k x) s
  (un, n, if un.isEmpty then s else s.scrub c un (64 * un.length) 0 64)
/-- FMTBAD and the checks that R247 lists, in its order: code and detail. -/
def State.mmulError (s : State) (b : Nat) (hd : Option Handle) (g n sub fmt : Nat) : Option (Nat × Nat) :=
  let x := s.clu (cluOfBlk b)
  let h := hd.getD Handle.none
  if x.shape != .q4 && sub != 0 then some (6, 0)
  else match x.weights.get none sub with
    | none => some (6, 0)
    | some w => match recordError hd with
      | some e => some e
      | none =>
        let f := h.tlr.fmt
        if f != fmt || (f == 1) != (w.fmt == 1) then some (3, f + 16 * w.fmt)
        else match (s.blk b).granuleRun g n with
          | .inr i => some (7, i)
          | .inl _ =>
            let t := h.kTag h.colDim
            if t.equal w.tag then none
            else some (4, pattern 16 t.origin + pattern 16 w.tag.origin * 2 ^ 16 + (t.s0 ^^^ w.tag.s0).toNat % 65536 * 2 ^ 32
                          + t.bcode * 2 ^ 48 + w.tag.bcode * 2 ^ 50)
def mfmtCode : MFmt → Nat
  | .bf16 => 1
  | .dm8 => 2
  | .mx8 => 3
/-- An MMUL of the same sub-array, or any in the fused shapes, has rows still to enter. -/
def mmulBusy (sh : Shape) (sub : Nat) (l : List Eng) : Bool := l.any fun e => match e.op with
  | .mmul m => decide (m.entered < m.rows) && (sh != .q4 || m.sub == sub)
  | .mcfg _ _ | .mwload _ _ _ _ _ _ | .mstore _ _ _ _ _ _ _ _ _ _ | .copy _ => false
def execMmul (h gr : BitVec 5) (m : BitVec 8) (a : BitVec 2) (fmt : MFmt) (ov : Bool) (s : State) : Out :=
  let i := Instr.mmul h gr m a fmt ov
  .next (s.streamWord i true fun b pc =>
    let c := cluOfBlk b
    let x := s.clu c
    let rows := m.toNat + 1
    let n := (rows + 63) / 64
    let ops := s.matrixOps b
    if ops.any (fun e => e.op.config || e.held.isSome) || mmulBusy x.shape a.toNat ops then s
    else
      let hd := s.handleOf b h.toNat
      let s := s.mcmd b pc 0x62 a.toNat
      match s.mmulError b hd gr.toNat n a.toNat (mfmtCode fmt) with
      | some e =>
        let bad := (List.range n).filterMap fun j => (s.blk b).gmap.get none (gr.toNat + j)
        s.streamError b true (wordOf i) pc e.1 e.2 gr.toNat h.toNat bad
      | none =>
        let phys := match (s.blk b).granuleRun gr.toNat n with
          | .inl l => l
          | .inr _ => []
        let wts := (x.weights.get none a.toNat).getD ⟨0, ⟨false, 0, 0, 0⟩, [], 0⟩
        let u := s.granuleUse b phys
        let cs := outCols x.shape a.toNat
        let op : Mmul := { blk := b, pc := pc, word := wordOf i, h := hd.getD Handle.none, g := gr.toNat, phys := phys, rows := rows,
                           total := rows, sub := a.toNat, ov := ov, shape := x.shape, wts := wts, stamp := u.2.1,
                           row := none, entered := 0, written := 0, sums := [], undef := u.1 }
        let s := u.2.2.onBlk b fun k => { k with operands := ⟨u.2.1, [], cs.1, cs.2, []⟩ :: k.operands }
        (s.engBegin c (s.blk b).m.era (.mmul op)).streamNext b true)

/-- An error met while an MMUL fetches (R256, R257): rows that have entered go on to be written. -/
def State.mmulFail (s : State) (c : Nat) (e : Eng) (m : Mmul) (code detail : Nat) : State :=
  let s := if m.written = m.entered then s.engDrop c e.tag
    else s.onEng c e.tag fun x => { x with op := .mmul { m with rows := m.entered, row := none }, pins := [] }
  s.opError m.blk true e.era m.word m.pc code detail m.g (bits m.word.toNat 19 5) m.phys
/-- The operands that an MMUL reads are noted; where a warp's store to one is unordered against it, every output element is undefined,
the rows already written too (R217). -/
def State.operandsRead (s : State) (c tag : Nat) (m : Mmul) (keys : List Nat) : State :=
  let k := s.blk m.blk
  let hit := k.stores.any fun o => keys.any o.keys.contains
  let s := s.onBlk m.blk fun k => { k with operands := k.operands.map fun o => if o.stamp = m.stamp then { o with keys := keys ++ o.keys } else o }
  if hit then
    let outs := ((k.operands.find? (·.stamp == m.stamp)).map (·.outs)).getD []
    let cs := outCols m.shape m.sub
    (s.engUpdate c tag (.mmul { m with undef := m.phys })).scrubRows c outs cs.1 cs.2
  else s
/-- An operation of the block's matrix stream that comes before one of a tag stores and has not finished: what it stores comes before
the fetches of later operations (R215). -/
def State.storesFirst (s : State) (c b tag : Nat) : Bool := (earlier (s.clu c).engs tag).any fun x => match x.op with
  | .mstore k _ _ _ _ _ _ _ _ _ => k == b
  | .mcfg _ _ | .mwload _ _ _ _ _ _ | .mmul _ | .copy _ => false
/-- Fetch the next row of an MMUL, when it has not been fetched. -/
def State.mmulFetch (s : State) (c : Nat) (e : Eng) (m : Mmul) : State :=
  match m.row with
  | some _ => s
  | none =>
    if s.storesFirst c m.blk e.tag then s
    else
      let cols := kOf m.shape m.h.tlr.fmt
      let note := fun (f : Fetched) (s : State) => s.operandsRead c e.tag m f.keys
      s.fetching c m.blk e m.h cols (fun f => (List.range (m.rows * cols)).drop (m.entered * cols + f.vals.length)) (fun got s =>
          let r := s.fetchTile c (s.blk m.blk) m.h false m.entered 1 cols got
          (r.1, r.2.1, note r.2.1 r.2.2))
        (fun f s => s.onEng c e.tag fun x =>
          { x with got := { Fetched.none with checked := f.checked }
                   op := match x.op with
                     | .mmul m => .mmul { m with row := some f.values }
                     | .mcfg _ _ | .mwload _ _ _ _ _ _ | .mstore _ _ _ _ _ _ _ _ _ _ | .copy _ => x.op })
        (fun code detail s => s.mmulFail c e m code detail)
        fun pa s => (s.engPoisoned m.blk none m.pc pa).engDrop c e.tag
/-- The MMUL of a tag, with its record. -/
def State.mmulAt (s : State) (c tag : Nat) : Option (Mmul × Eng) :=
  ((s.clu c).engs.find? (·.tag == tag)).bind fun e => match e.op with
    | .mmul m => some (m, e)
    | .mcfg _ _ | .mwload _ _ _ _ _ _ | .mstore _ _ _ _ _ _ _ _ _ _ | .copy _ => none
/-- MMUL_ROW_ENTER: the row enters once it has been fetched. -/
def execMmulRowEnter (c tag : Nat) (s : State) : Out :=
  .next (match s.mmulAt c tag with
    | none => s
    | some (m, e) =>
      if e.held.isSome || m.rows ≤ m.entered then s
      else
        let s := s.mmulFetch c e m
        match s.mmulAt c tag with
        | none => s
        | some (m, _) => match m.row with
          | none => s
          | some row =>
            ((s.onEng c tag fun x =>
              { x with op := .mmul { m with row := none, entered := m.entered + 1, sums := m.sums ++ [rowSums row m.wts] } }).rowEnters c).countClu c 9 1)
/-- An earlier operation must write, or be read, before the rows of an MMUL. -/
def writesFirst (m : Mmul) (l : List Eng) : Bool := l.any fun e => match e.op with
  | .mmul q => q.blk == m.blk && (m.shape != .q4 || q.sub == m.sub)
  | .mstore k _ _ _ _ _ _ _ _ _ => k == m.blk
  | .mcfg _ _ | .mwload _ _ _ _ _ _ | .copy _ => false
/-- A row holds results of an MMUL now, and no longer those that it has overwritten (R217). -/
def State.rowHolds (s : State) (m : Mmul) (g row : Nat) : State :=
  let cs := outCols m.shape m.sub
  let inside := fun (o : Operand) => decide (cs.1 ≤ o.from_) && decide (o.from_ + o.cols ≤ cs.1 + cs.2)
  let change := fun (o : Operand) =>
    if o.stamp = m.stamp then { o with outs := (g, row) :: o.outs }
    else if m.ov && inside o then { o with outs := o.outs.filter (· != (g, row)) } else o
  s.onBlk m.blk fun k => { k with operands := k.operands.map change }
/-- Write one row of results. -/
def State.mmulPut (s : State) (c : Nat) (m : Mmul) (row : Nat) (sums : List Nat) : State :=
  match m.phys[row / 64]? with
  | none => s
  | some g =>
    let cs := outCols m.shape m.sub
    let s := s.rowHolds m g (row % 64)
    if m.undef.contains g then
      let d := s.draw
      (List.range cs.2).foldl (fun s n => s.accSet c g (row % 64) (cs.1 + n) (Config.undefinedAcc (262144 * d.1 + n))) d.2
    else (List.range cs.2).foldl (fun s n =>
      let p := sums.getD n 0
      let x := if m.ov then p else (fp32.add .rne false false (s.accAt c g (row % 64) (cs.1 + n)).toNat p).1
      s.accSet c g (row % 64) (cs.1 + n) (BitVec.ofNat 32 x)) s
/-- MMUL_ROW_WRITE. -/
def execMmulRowWrite (c tag : Nat) (s : State) : Out :=
  .next (match s.mmulAt c tag with
    | none => s
    | some (m, _) =>
      if m.entered ≤ m.written || writesFirst m (earlier (s.clu c).engs tag) then s
      else
        let s := s.mmulPut c m m.written (m.sums.headD [])
        let m' := { m with written := m.written + 1, sums := m.sums.drop 1 }
        let s := if m'.written = m.total then s.emitClu 0x41 c (m.g + (m.total - 1) * 32 + m.ov.toNat * 2 ^ 13) else s
        if m'.written = m.rows then s.engDrop c tag else s.engUpdate c tag (.mmul m'))

/-! ## MSTORE (R248) -/

/-- FP32 to BF16 as MSTORE and the fill of a copy give it. -/
def toBf16 (x : Nat) : Nat := match fp32.decode x with
  | .nan _ => bf16.nan
  | .inf n => bf16.withSign n bf16.inf
  | .fin n m e => (bf16.round .rne n m e).1
def execMstore (h gr : BitVec 5) (r : BitVec 8) (cc : Reg) (s : State) : Out :=
  let i := Instr.mstore h gr r cc
  .next (s.streamWord i true fun b pc =>
    let c := cluOfBlk b
    let rows := r.toNat + 1
    let n := (rows + 63) / 64
    if (s.matrixOps b).any (fun e => e.op.config || e.held.isSome) then s
    else
      let hd := s.handleOf b h.toNat
      let t := (hd.getD Handle.none).tlr
      let s := s.mcmd b pc 0x63 0
      let bad := fun code detail => s.streamError b true (wordOf i) pc code detail gr.toNat h.toNat []
      match recordError hd with
      | some e => bad e.1 e.2
      | none =>
        if 1 < t.fmt || t.bcode != 0 then bad 3 (16 * t.fmt)
        else match (s.blk b).granuleRun gr.toNat n with
          | .inr j => bad 7 j
          | .inl phys =>
            let u := s.granuleUse b phys
            (u.2.2.engBegin c (s.blk b).m.era (.mstore b pc (wordOf i) h.toNat (hd.getD Handle.none) gr.toNat phys rows (cc.toNat + 1) u.2.1)).streamNext b true)
/-- The bytes that an MSTORE writes; of elements that overlap the last in row order stands (R221, log 91). -/
def State.mstoreRuns (s : State) (c : Nat) (h : Handle) (phys : List Nat) (rows cols : Nat) : List (Nat × List Byte) :=
  (List.range (rows * cols)).filterMap fun p =>
    let i := p / cols
    let j := p % cols
    match h.inside i j, phys[i / 64]? with
    | some x, some g =>
      let v := (s.accAt c g (i % 64) j).toNat
      some (h.tlr.elemAddr x, if h.tlr.fmt = 0 then bytesOf 4 v else bytesOf 2 (toBf16 v))
    | _, _ => none

/-! ## Tile fetch (R253) -/

/-- TILE_FETCH: the weights of an MWLOAD, the next row of an MMUL, or the rows of an MSTORE whose record has been fetched. A
copy reads its source when it is performed. -/
def execTileFetch (c tag : Nat) (s : State) : Out :=
  .next (match (s.clu c).engs.find? (·.tag == tag) with
    | none => s
    | some e =>
      if e.held.isSome then s
      else match e.op with
        | .mwload b pc word hn h sub =>
          if s.storesFirst c b tag || (earlier (s.clu c).engs tag).any (fun x => x.op.matrixOf b && x.held.isSome) then s
          else
            let sh := (s.clu c).shape
            let n := kOf sh h.tlr.fmt * colsOf sh
            s.fetching c b e h (colsOf sh) (fun f => (List.range n).drop f.vals.length)
              (fun got s => s.fetchTile c (s.blk b) h false 0 (kOf sh h.tlr.fmt) (colsOf sh) got)
              (fun f s => (s.onClu c fun x =>
                { x with weights := x.weights.put sub (some ⟨h.tlr.fmt, h.kTag h.rowDim, f.values, colsOf sh⟩) }).engDrop c tag)
              (fun code detail s => (s.engDrop c tag).opError b true e.era word pc code detail 0 hn [])
              fun pa s => (s.engPoisoned b none pc pa).engDrop c tag
        | .mmul m => if m.rows ≤ m.entered then s else s.mmulFetch c e m
        | .mstore b pc word hn h g phys rows cols _ =>
          if (earlier (s.clu c).engs tag).any fun x => x.op.matrixOf b then s
          else s.storing c b e Fetched.none (s.mstoreRuns c h phys rows cols) (fun s => s.engDrop c tag)
            fun code detail s => (s.engDrop c tag).opError b true e.era word pc code detail g hn []
        | .mcfg _ _ | .copy _ => s)

/-! ## Copies (R233, R234, R250, R251) -/

/-- Block size of a destination's B code. -/
def bOfCode (x : Nat) : Nat := if x = 3 then 64 else if x = 2 then 16 else 1
/-- The origin of a tile begins a trailer tile, rows along d1. -/
def Handle.atTrailer (h : Handle) : Bool := !h.transposed && h.c0 % 64 == 0 && h.c1 % 16 == 0
/-- Detail of SEALBAD. -/
def Handle.corner (h : Handle) : Nat := pattern 32 h.c0 + pattern 32 h.c1 * 2 ^ 32
/-- Extent of a CCPY tile of R rows along a dimension. -/
def Handle.tileExt (h : Handle) (rows d : Nat) : Nat := if d = h.rowDim then rows else if d = h.colDim then 64 else 1
/-- SEALBAD of a conversion (R251). -/
def Handle.cvtMisaligned (h : Handle) (rows : Nat) : Bool :=
  let t := h.tlr
  let n := max (bOfCode t.bcode) (if t.fmt = 3 then 32 else 1)
  (h.coord 0 0 t.axis - t.origin) % (n : Int) != 0 || h.tileExt rows t.axis % n != 0
    || (t.tp && (!h.atTrailer || rows % 16 != 0))
/-- Port operations that a CPY is to come after are in the queue: the warp's own before it, and those before the RELSLOTs of its rack
(R212). -/
def Cluster.cpyHeld (c : Cluster) (r : CpyReq) : Bool :=
  c.portPending r.warp r.after || (c.racks.get Rack.free r.rk).after.any fun p => c.portPending p.1 p.2
/-- The first waiting CPY of a block whose rack has room and has no earlier CPY waiting (R211), once what it comes after is performed. -/
def Cluster.nextCpy (c : Cluster) (b : Nat) : List CpyReq → List Nat → Option CpyReq
  | [], _ => none
  | r :: t, seen =>
    let k := c.racks.get Rack.free r.rk
    if r.blk == b && !seen.contains r.rk && (k.ic - k.lc).toNat < k.slots && !c.cpyHeld r then some r else c.nextCpy b t (r.rk :: seen)
/-- The copy stream of a block stands at a CCPY that may begin. -/
def State.ccpyReady (s : State) (b : Nat) : Bool :=
  s.streamGoes b false && (s.copyOps b).isEmpty && match s.streamFetch b false with
    | .word x => match decodeWord x with
      | .ok (.ccpyPlain _ _ _) | .ok (.ccpyCvt _ _ _ _) => true
      | _ => false
    | .bad | .absent | .cut => false
/-- A source of the copy engine has a command that it can take: block slot k's copy stream is 2·k, its CPYs 2·k + 1. -/
def State.copyWants (s : State) (c src : Nat) : Bool :=
  let b := 4 * c + src / 2
  if src % 2 = 0 then s.ccpyReady b else ((s.clu c).nextCpy b (s.clu c).cpyWait []).isSome
/-- The sources of the copy engine in the order in which it tries them now (R203). -/
def State.copyOrder (s : State) (c : Nat) : List Nat := (List.range 8).map fun k => ((s.clu c).copyNext + k) % 8
/-- The copy engine has no command; one that a page holds keeps it from none (R312). -/
def State.copyFree (s : State) (c : Nat) : Bool := !((s.clu c).engs.any fun e => e.held.isNone && match e.op with
  | .copy _ => true
  | .mcfg _ _ | .mwload _ _ _ _ _ _ | .mmul _ | .mstore _ _ _ _ _ _ _ _ _ _ => false)
/-- The copy engine takes the command of a source next: one command at a time, round-robin (R203). -/
def State.copyTakes (s : State) (c src : Nat) : Bool :=
  s.copyFree c && !((s.copyOrder c).takeWhile (· != src)).any fun k => s.copyWants c k
/-- The engine has taken a command of a source. -/
def State.copyTaken (s : State) (c src : Nat) : State := s.onClu c fun x => { x with copyNext := (src + 1) % 8 }
/-- CPY_ACCEPT (R203, R211): when a block's CPYs are next, slot ic of the rack of the first is assigned, and the copy begins with the
handle as bound now. -/
def execCpyAccept (c : Nat) (s : State) : Out :=
  .next (match if s.copyFree c then (s.copyOrder c).find? (s.copyWants c) else none with
    | none => s
    | some src =>
      if src % 2 = 0 then s
      else match (s.clu c).nextCpy (4 * c + src / 2) (s.clu c).cpyWait [] with
        | none => s
        | some r =>
          let k := s.rackOf c r.rk
          let op : CopyOp := { blk := r.blk, pc := r.pc, word := r.word, h := r.h, src := (s.handleOf r.blk r.h).getD Handle.none,
                               kind := if r.sealing then .sealing r.x r.y else .plain (bits r.x.toNat 16 8 + 1) (bits r.x.toNat 0 16 + 1),
                               rack := some (r.rk, k.ic), warp := r.warp }
          let s := s.onRack c r.rk fun k => { k with ic := k.ic + 1, after := [], copies := (k.copies.filter fun e => e.num.toNat % k.slots != k.ic.toNat % k.slots)
                                                                                  ++ [⟨k.ic, false, false⟩] }
          let s := s.onClu c fun x => { x with cpyWait := x.cpyWait.filter fun q => !(q.warp == r.warp && q.tag == r.tag) }
          let s := (s.engBegin c 0 (.copy op)).copyTaken c src
          let s := s.emitClu 0x42 c (copyPayload (k.slotAddr k.ic) (some (r.rk, k.ic.toNat % k.slots)))
          s.onWarp r.warp fun w => w.answered r.tag)
/-- First destination address of a copy. -/
def State.copyDst (s : State) (c : Nat) (x : CopyOp) : Nat × Option (Nat × Nat) :=
  let of := fun (y : Handle) =>
    y.tlr.base + elemSize y.tlr.fmt * y.c0.toNat + y.tlr.stride 1 * y.c1.toNat + y.tlr.stride 2 * y.c2.toNat + y.tlr.stride 3 * y.c3.toNat
  match x.rack, x.kind with
  | some (rk, n), _ => ((s.rackOf c rk).slotAddr n, some (rk, n.toNat % (s.rackOf c rk).slots))
  | none, .ccpy y _ => (of y, none)
  | none, .cvt y _ _ => (of y, none)
  | none, _ => (0, none)
/-- A copy is performed, or has failed: CDONE, and the slot of its rack. -/
def State.copyDone (s : State) (c tag : Nat) (x : CopyOp) (failed : Bool) : State :=
  let p := s.copyDst c x
  let s := ((s.engDrop c tag).countClu c 10 1).emitClu 0x43 c (copyPayload p.1 p.2 + failed.toNat * 2 ^ 60)
  match x.rack with
  | some (rk, n) => s.slotDone c rk n failed
  | none => s
/-- A copy meets an error: a failed copy for CPY, the stream error path for CCPY (R234, R257). -/
def State.copyFail (s : State) (c tag : Nat) (x : CopyOp) (code detail : Nat) : State := match x.rack with
  | some _ => (s.errorRecord x.blk x.word 2 code 0 x.h x.pc detail).copyDone c tag x true
  | none =>
    let era := (((s.clu c).engs.find? (·.tag == tag)).map (·.era)).getD 0
    (s.copyDone c tag x true).opError x.blk false era x.word x.pc code detail 0 x.h []
/-- A CCPY word, once the copy engine takes it. The copy begins, with CSTART (R261); then `check` gives the errors that need no fetch. -/
def State.ccpyWord (s : State) (i : Instr) (sn dn : Nat) (check : Handle → Handle → Nat → Option (Nat × Nat))
    (kind : Nat → Handle → CopyKind) (legal : Nat → Bool) : State :=
  s.streamWord i false fun b pc =>
    if !(s.copyOps b).isEmpty || !s.copyTakes (cluOfBlk b) (2 * (b % 4)) then s
    else if !legal b then s.illFormed b false (wordOf i)
    else
      let c := cluOfBlk b
      let hs := s.handleOf b sn
      let hd := s.handleOf b dn
      let x := hs.getD Handle.none
      let y := hd.getD Handle.none
      let tag := (s.clu c).nextTag
      let op : CopyOp := { blk := b, pc := pc, word := wordOf i, h := sn, src := x, kind := kind b y, rack := none, warp := 0 }
      let t := ((s.emitClu 0x42 c (copyPayload (s.copyDst c op).1 none)).engBegin c (s.blk b).c.era (.copy op)).copyTaken c (2 * (b % 4))
      let bad := fun (e : Nat × Nat) h => t.copyFail c tag { op with h := h } e.1 e.2
      match recordError hs, recordError hd with
      | some e, some f => if f.1 < e.1 then bad f dn else bad e sn
      | some e, none => bad e sn
      | none, some f => bad f dn
      | none, none => match check x y b with
        | some e => bad e (if e.1 = 3 then sn else dn)
        | none => t.streamNext b false
def execCcpyPlain (sr d : BitVec 5) (r : BitVec 8) (s : State) : Out :=
  .next (s.ccpyWord (.ccpyPlain sr d r) sr.toNat d.toNat
    (fun x y _ => if x.tlr.fmt != y.tlr.fmt then some (3, x.tlr.fmt + 16 * y.tlr.fmt) else none)
    (fun _ y => .ccpy y (r.toNat + 1)) fun _ => true)
/-- The seed register of a CCPY.cvt, read when the copy begins. -/
def State.seedOf (s : State) (b : Nat) (hs : BitVec 3) : SeedReg := (s.blk b).hs.get SeedReg.fresh hs.toNat
def execCcpyCvt (sr d : BitVec 5) (r : BitVec 8) (hs : BitVec 3) (s : State) : Out :=
  .next (s.ccpyWord (.ccpyCvt sr d r hs) sr.toNat d.toNat
    (fun x y b =>
      let q := s.seedOf b hs
      if 1 < x.tlr.fmt || (y.tlr.fmt != 2 && y.tlr.fmt != 3) then some (3, x.tlr.fmt + 16 * y.tlr.fmt)
      else if y.cvtMisaligned (r.toNat + 1) then some (12, y.corner)
      else if y.tlr.bcode == 0 || bOfCode y.tlr.bcode != rotSize q.b || y.tlr.s0 != q.s0 then some (13, (y.tlr.s0 ^^^ q.s0).toNat % 2 ^ 32)
      else none)
    (fun b y => .cvt y (r.toNat + 1) (s.seedOf b hs)) fun b => decide (hs.toNat < (s.blk b).seeds))

/-- The reals of a converting copy, row-major, 64 to a row: each rotation block along the axis of the destination. -/
def cvtReals (d : Handle) (rows : Nat) (r : SeedReg) (xs : List Nat) : Tbl ExactR :=
  let t := d.tlr
  let n := rotSize r.b
  let alongRows := t.axis == d.rowDim
  let alongCols := t.axis == d.colDim
  let len := if alongRows then rows else if alongCols then 64 else 1
  let lines := if alongRows then 64 else if alongCols then rows else rows * 64
  let pos := fun line k => if alongRows then 64 * k + line else if alongCols then 64 * line + k else line
  let start := (d.coord 0 0 t.axis - t.origin) / (n : Int)
  (List.range (lines * (len / n))).foldl (fun (tb : Tbl ExactR) q =>
    let line := q / (len / n)
    let blk := q % (len / n)
    let ps := (List.range n).map fun k => pos line (n * blk + k)
    (ps.zip (rotNarrow (ps.map fun p => xs.getD p 0) r.s0.toNat n (start + blk))).foldl (fun (tb : Tbl ExactR) e => tb.put e.1 e.2) tb) []
/-- Codes and saturation marks by position, and the scales with their addresses. -/
def cvtCodes (d : Handle) (rows : Nat) (ys : Tbl ExactR) : Tbl (Nat × Bool) × List (Nat × List Byte) :=
  let t := d.tlr
  if t.fmt = 2 then (ys.map fun e => (e.1, roundDM8 e.2), [])
  else
    let alongRows := t.axis == d.rowDim
    let len := if alongRows then rows else 64
    let lines := if alongRows then 64 else rows
    let pos := fun line k => if alongRows then 64 * k + line else 64 * line + k
    (List.range (lines * (len / 32))).foldl (fun (a : Tbl (Nat × Bool) × List (Nat × List Byte)) q =>
      let line := q / (len / 32)
      let ps := (List.range 32).map fun k => pos line (32 * (q % (len / 32)) + k)
      let g := quantMX (ps.map fun p => ys.get none p)
      let p0 := ps.headD 0
      ((ps.zip g.2).foldl (fun (tb : Tbl (Nat × Bool)) e => tb.put e.1 e.2) a.1,
       match d.inside (p0 / 64) (p0 % 64) with
       | some x => a.2 ++ [(t.scaleAddr x, [BitVec.ofNat 8 g.1])]
       | none => a.2)) ([], [])
/-- Bytes of a trailer (R225). -/
def trailerBytes (mx sat crc fmt : Nat) : List Byte := bytesOf 4 mx ++ bytesOf 4 sat ++ bytesOf 4 crc ++ bytesOf 4 fmt
/-- The trailers of a conversion. -/
def cvtTrailers (d : Handle) (rows : Nat) (ys : Tbl ExactR) (codes : Tbl (Nat × Bool)) : List (Nat × List Byte) :=
  if !d.tlr.tp then []
  else (List.range (rows / 16)).filterMap fun k =>
    match d.inside (16 * k) 0 with
    | none => none
    | some x =>
      let ps := (List.range 1024).map fun p => 1024 * k + p
      let cb := ps.map fun p => if (d.inside (p / 64) (p % 64)).isSome then BitVec.ofNat 8 (codes.get (0, false) p).1 else (0 : Byte)
      let sat := (ps.filter fun p => (codes.get (0, false) p).2).length
      some (d.tlr.trailerAddr x, trailerBytes (maxMagnitude (ps.map fun p => ys.get none p)) sat (crc32c cb) d.tlr.fmt)
/-- The element writes of a tile: value of each position, out-of-bounds elements left out; of elements that overlap the last in row order
stands (R221, log 91). -/
def tileRuns (d : Handle) (rows : Nat) (val : Nat → Nat) : List (Nat × List Byte) :=
  (List.range (rows * 64)).filterMap fun p => (d.inside (p / 64) (p % 64)).map fun x =>
    (d.tlr.elemAddr x, bytesOf (elemSize d.tlr.fmt) (val p))
/-- Perform a copy: its reads, checks and writes. -/
def State.copyRun (s : State) (c : Nat) (e : Eng) (x : CopyOp) : State :=
  let h := x.src
  let slot := match x.rack with
    | some (rk, n) => ((s.rackOf c rk).slotAddr n, 128 * (s.rackOf c rk).size)
    | none => (0, 0)
  let fail := fun (code detail : Nat) (s : State) => s.copyFail c e.tag x code detail
  let lost := fun (pa : Nat) (s : State) => (s.engPoisoned x.blk (x.rack.map fun _ => x.warp) x.pc pa).copyDone c e.tag x true
  let write := fun (f : Fetched) (runs : List (Nat × List Byte)) (s : State) =>
    s.storing c x.blk e f runs (fun s => s.copyDone c e.tag x false) fail
  let tile := fun (raw : Bool) (rows cols : Nat) (runs : Fetched → List (Nat × List Byte)) =>
    s.fetching c x.blk e h cols (fun f => (List.range (rows * cols)).drop f.vals.length)
      (fun got s => s.fetchTile c (s.blk x.blk) h raw 0 rows cols got) (fun f s => write f (runs f) s) fail lost
  match x.kind with
  | .plain rows cols => match recordError (some h) with
    | some r => fail r.1 r.2 s
    | none =>
      let z := elemSize h.tlr.fmt
      if slot.2 < rows * cols * z then fail 8 (rows * cols * z) s
      else tile true rows cols fun f => [(slot.1, f.values.flatMap fun v => bytesOf z v)]
  | .sealing mx sat => match recordError (some h) with
    | some r => fail r.1 r.2 s
    | none =>
      match (if h.tlr.tp && h.atTrailer then h.inside 0 0 else none) with
      | none => fail 12 h.corner s
      | some at_ =>
        s.fetching c x.blk e h 64 (fun _ => []) (fun got s =>
            let r := s.tileCodes c (s.blk x.blk) h.tlr at_ got.vals
            (r.1, { got with vals := r.2.1 }, r.2.2))
          (fun f s =>
            let t := trailerBytes mx.toNat sat.toNat (crc32c (codeBytes f.vals)) h.tlr.fmt
            write f [(h.tlr.trailerAddr at_, t), (slot.1, t)] s) fail lost
  | .ccpy d rows => tile true rows 64 fun f =>
    let vals := (f.values.zip (List.range f.values.length)).map fun p => (p.2, p.1)
    tileRuns d rows fun p => Tbl.get 0 vals p
  | .cvt d rows r => tile false rows 64 fun f =>
    let ys := cvtReals d rows r f.values
    let codes := cvtCodes d rows ys
    tileRuns d rows (fun p => (codes.1.get (0, false) p).1) ++ codes.2 ++ cvtTrailers d rows ys codes.1
/-- COPY_PERFORMED. -/
def execCopyPerformed (c tag : Nat) (s : State) : Out :=
  .next (match (s.clu c).engs.find? (·.tag == tag) with
    | none => s
    | some e => match e.op with
      | .copy x => if e.held.isSome then s else s.copyRun c e x
      | .mcfg _ _ | .mwload _ _ _ _ _ _ | .mmul _ | .mstore _ _ _ _ _ _ _ _ _ _ => s)

/-- An operation whose fault entry closed with fail (R312). -/
def State.engFailed (s : State) (c : Nat) (e : Eng) (va : Nat) : State := match e.op with
  | .mwload b pc word hn _ _ => (s.engDrop c e.tag).opError b true e.era word pc 11 va 0 hn []
  | .mmul m => s.mmulFail c e m 11 va
  | .mstore b pc word hn _ g _ _ _ _ => (s.engDrop c e.tag).opError b true e.era word pc 11 va g hn []
  | .copy x => s.copyFail c e.tag x 11 va
  | .mcfg _ _ => s

end Sys2Proof.Machine
end

