-- ==== Sys2Proof/Machine/Launch.lean ====
section
/-!
DEFINITION. Launches and blocks on a die (spec/13 R265 to R275), placement on clusters (spec/09 R178, R189, R195 to R197,
spec/10 R200 to R202), power gating (R218), and the end of a block (spec/15 R313 to R315).
-/
namespace Sys2Proof.Machine

/-! ## Descriptors -/

/-- A kernel descriptor (R265). -/
structure Kernel where
  entry : Nat
  mentry : Nat
  centry : Nat
  porter : Nat
  warps : Nat
  localSize : Nat
  heat : Nat
  seeds : Nat
  reserved : Bool
  deriving DecidableEq, Repr

/-- The cluster whose TLB a die's command processor uses. -/
def dcp (d : Nat) : Nat := 324 * d
def State.kernelAt (s : State) (c kd : Nat) : Kernel :=
  let q := fun k => s.vaRead c (kd + 8 * k) 8
  let hi := fun k => bits (q k) 48 16 != 0
  { entry := q 0 % 2 ^ 48, mentry := q 1 % 2 ^ 48, centry := q 2 % 2 ^ 48, porter := q 3 % 2 ^ 48, warps := bits (q 4) 0 32,
    localSize := bits (q 4) 32 32, heat := bits (q 5) 0 8, seeds := bits (q 5) 8 8,
    reserved := hi 0 || hi 1 || hi 2 || hi 3 || bits (q 5) 16 48 != 0 || q 6 != 0 || q 7 != 0 }
/-- Warps that a block of a heat class may have (R178). -/
def warpLimit (heat : Nat) : Nat := if heat = 0 then 256 else if heat = 1 then 128 else 64
/-- A descriptor that breaks R265; too many warps are reason 3. -/
def Kernel.bad (k : Kernel) : Bool :=
  k.reserved || k.entry % 64 != 0 || k.warps == 0 || k.localSize % 64 != 0 || decide (196608 < k.localSize) || decide (2 < k.heat)
    || decide (8 < k.seeds)

/-! ## Room on a cluster (R202) -/

/-- Warps of a block that run on active core number a of A (R201). -/
def warpsOn (n total a : Nat) : Nat := if n ≤ a then 0 else (n - a + total - 1) / total
/-- Rows that a core has below its carve (R190). -/
def rowLimit (carve : Nat) : Nat := 3072 - 512 * carve
/-- The lowest row base of a run that avoids some runs. -/
def firstFit (limit rows : Nat) (runs : List (Nat × Nat)) : Option Nat :=
  ((0 :: runs.map fun r => r.1 + r.2).filter fun b =>
    b + rows ≤ limit && runs.all fun r => b + rows ≤ r.1 || r.1 + r.2 ≤ b).foldl (fun (a : Option Nat) b => match a with
      | none => some b
      | some x => some (min x b)) none
/-- Row bases of n equal runs on a core, if they fit. -/
def fitRuns (limit rows : Nat) : Nat → List (Nat × Nat) → Option (List Nat)
  | 0, _ => some []
  | n + 1, runs => (firstFit limit rows runs).bind fun b => (fitRuns limit rows n ((b, rows) :: runs)).map (b :: ·)
/-- Runs allocated on %core `core` of a cluster to blocks other than `but`. -/
def State.runsBut (s : State) (c core : Nat) (but : Option Nat) : List (Nat × Nat) :=
  ((s.placedOn c).filter fun b => some b != but && (activeCores (s.blk b).heat).contains core).map fun b =>
    ((s.blk b).rowBase.get 0 core, ((s.blk b).localSize + 63) / 64)
def State.runsOn (s : State) (c core : Nat) : List (Nat × Nat) := s.runsBut c core none
/-- Free warp positions of a core. -/
def State.freePositions (s : State) (core : Nat) : List Nat :=
  ((List.range 16).map (16 * core + ·)).filter fun u => !(s.warp u).placed
/-- Blocks of a kernel that an empty cluster can hold. -/
def Kernel.capacity (k : Kernel) (carve : Nat) : Nat :=
  let cores := activeCores k.heat
  ((List.range 5).filter fun n =>
    (k.heat == 0 || n ≤ 1) && (k.mentry == 0 || n ≤ 1) && n * warpsOn k.warps cores.length 0 ≤ 16
      && (fitRuns (rowLimit carve) ((k.localSize + 63) / 64) n []).isSome).foldl max 0

/-! ## Acceptance (R268) and completion (R273) -/

/-- Words of a launch parameter block. -/
def State.lpbWord (s : State) (c lpb k : Nat) : Nat := s.vaRead c (lpb + 8 * k) 8
/-- The first reason of R268 that refuses a launch; 0 for none. -/
def State.refusal (s : State) (p lpb : Nat) (c : Nat) : Nat :=
  let q := s.lpbWord c lpb
  let hi := fun k => bits (q k) 48 16 != 0
  let readable := match s.physOf c .engRead lpb 256 with
    | .ok _ => true
    | .err _ _ | .absent _ _ | .poison _ => false
  let flags := bits (q 3) 32 32
  let gang := flags.testBit 6
  let carve := bits flags 8 2
  let max_ := bits (q 3) 0 32
  let count := bits (q 2) 32 32
  let stack := bits (q 8) 0 32
  let kd := q 0 % 2 ^ 48
  let k := s.kernelAt c kd
  let pk := s.kernelAt c k.porter
  let room := ((List.range (Config.dies * 324)).filter fun x => s.partOf (x / 324) == some p && !(s.clu x).retired).length
  if lpb % 256 != 0 || !readable || hi 0 || hi 5 || hi 6 || hi 7 || hi 9 || hi 11 || bits flags 11 21 != 0 || bits (q 8) 40 24 != 0
      || (List.range 17).any (fun j => q (15 + j) != 0) || carve == 3 || stack < 4 || decide (1024 < stack)
      || kd % 64 != 0 || q 5 % 32 != 0 || q 6 % 64 != 0 || q 7 % 64 != 0 || decide (max_ < count) then 1
  else if k.bad || (k.porter != 0 && (pk.bad || pk.warps != 1 || pk.heat != 0 || pk.porter != 0)) then 2
  else if warpLimit k.heat < k.warps then 3
  else if (gang && (max_ != count || k.porter != 0)) || (!gang && bits (q 8) 32 8 != 0) then 4
  else if gang && decide (room * k.capacity carve < count) then 5
  else if k.porter != 0 && s.launches.any (fun e => e.2.part == p && (e.2.state == 1 || e.2.state == 2) && (s.kernelAt c (s.lpbOf c e.1 0 8 % 2 ^ 48)).porter != 0) then 6
  else 0
/-- The kernel, the flags word and the block count of a launch, as die d reads them. -/
def State.kernelOf (s : State) (d l : Nat) : Kernel := s.kernelAt (dcp d) (s.lpbOf (dcp d) l 0 8 % 2 ^ 48)
def State.flagsOf (s : State) (d l : Nat) : Nat := s.lpbOf (dcp d) l 28 4
def State.ticketOf (s : State) (d l : Nat) : Nat × Nat := (s.lpbOf (dcp d) l 16 4, s.lpbOf (dcp d) l 20 4)
/-- The tree barriers of a launch's tbm (R266). -/
def State.tbmOf (s : State) (d l : Nat) : List Nat := (List.range 8).filter fun k => (s.lpbOf (dcp d) l 68 1).testBit k
def State.carveOf (s : State) (d l : Nat) : Nat := bits (s.flagsOf d l) 8 2
/-- The kernel of a saved block, as far as the room that it needs goes. -/
def Saved.kernel (x : Saved) : Kernel :=
  { entry := 0, mentry := x.blk.mentry.toNat, centry := 0, porter := 0, warps := x.blk.nwarps, localSize := x.blk.localSize,
    heat := x.blk.heat, seeds := 0, reserved := false }
/-- The launch of a dispatch that waits for a cluster to wake. -/
def State.wakeLaunch (s : State) (d : Nat) : Wake → Nat
  | .block l _ _ => l
  | .saved => ((s.die d).saved.head?.map (·.blk.launch)).getD 0
/-- The blocks that wait for a cluster to wake, as kernels, with their carves. -/
def State.wakers (s : State) (c : Nat) : List (Kernel × Nat) := (s.clu c).wake.filterMap fun w =>
  let d := c / 324
  (match w with
    | .block l _ p => some (if p then s.kernelAt (dcp d) (s.kernelOf d l).porter else s.kernelOf d l)
    | .saved => (s.die d).saved.head?.map Saved.kernel).map fun k => (k, s.carveOf d (s.wakeLaunch d w))
/-- The runs of a core once blocks of some kernels have got theirs. -/
def runsWith (limit : Nat) (ks : List Kernel) (runs : List (Nat × Nat)) : List (Nat × Nat) := ks.foldl (fun r k =>
  let rows := (k.localSize + 63) / 64
  ((firstFit limit rows r).getD 0, rows) :: r) runs
/-- n more blocks of a kernel fit on a cluster together, whatever its gating state and reservation (R202). Blocks that wait for it to wake
have their places. -/
def State.fits (s : State) (c : Nat) (k : Kernel) (carve n : Nat) : Bool :=
  let x := s.clu c
  let placed := s.placedOn c
  let waits := s.wakers c
  let ks := waits.map (·.1)
  let cores := activeCores k.heat
  let active := (List.range cores.length).zip cores
  !x.retired && placed.length + ks.length + n ≤ 4
    && (placed.isEmpty || x.carve == carve) && waits.all (·.2 == carve)
    && (if k.heat = 0 then placed.all (fun b => (s.blk b).heat == 0) && ks.all (·.heat == 0) else placed.isEmpty && ks.isEmpty && n ≤ 1)
    && (k.mentry == 0 || (n ≤ 1 && placed.all (fun b => (s.blk b).mentry == 0) && ks.all (·.mentry == 0)))
    && active.all fun p => n * warpsOn k.warps cores.length p.1 + (ks.map fun w => warpsOn w.warps cores.length p.1).sum
        ≤ (s.freePositions (16 * c + p.2)).length
    && (fitRuns (rowLimit carve) ((k.localSize + 63) / 64) n (runsWith (rowLimit carve) ks (s.runsOn c p.2))).isSome
/-- How many more blocks a cluster can take; `who` is the launch that may use a reserved cluster. -/
def State.roomOn (s : State) (c : Nat) (k : Kernel) (carve : Nat) (who : Option Nat) : Nat :=
  if (s.clu c).reserved.isSome && (s.clu c).reserved != who then 0
  else ((List.range 5).filter fun n => s.fits c k carve n).foldl max 0
/-- Write dval to done (R273, step 3), and LDONE. -/
def State.writeDone (s : State) (d l : Nat) : State :=
  let c := dcp d
  let done := s.lpbOf c l 72 8 % 2 ^ 48
  let s := if done = 0 then s else s.vaWrite c done (bytesOf 8 (s.lpbOf c l 80 8))
  s.emitDie 0x57 d ((s.launch l).seq % 2 ^ 32 + s.lpbOf c l 113 1 * 2 ^ 32 + (s.launch l).state * 2 ^ 40)
/-- An index of a launch is claimed and not placed, or waits for a cluster to wake. -/
def State.unplaced (s : State) (l : Nat) : Bool :=
  s.dies.any (fun e => e.2.claimed.any (·.1 == l)) || s.clusters.any fun e => e.2.wake.any fun
    | .block q _ _ => q == l
    | .saved => false
/-- Porters of a launch that still wait to be placed. -/
def State.portersAway (s : State) (l : Nat) : Nat :=
  (s.dies.map fun e => (e.2.porters.filter (· == l)).length).sum + (s.clusters.map fun e => (e.2.wake.filter fun
    | .block q _ p => p && q == l
    | .saved => false).length).sum
/-- A launch's conditions of R273 hold, so it completes: system-scope release, state 3, done. -/
def State.tryComplete (s : State) (d l : Nat) : State :=
  let t := s.ticketOf d l
  if (s.launch l).state != 2 || t.1 != t.2 || s.lpbOf (dcp d) l 108 4 != 0 || (s.launch l).portersLeft != 0 || s.unplaced l then s
  else
    let dies := match (s.launch l).die with
      | some x => [x]
      | none => s.diesOf (s.launch l).part
    let s := dies.foldl (fun s x => if (s.dies.any (·.1 == x)) then s.rdcDrain x else s) s
    let s := (s.onLaunch l fun x => { x with state := 3 }).lpbSet (dcp d) l 112 1 3
    let s := dies.foldl (fun s x => if (s.die x).spawns.contains l then s.onDie x fun y => { y with spawns := y.spawns.filter (· != l) } else s) s
    s.writeDone d l
/-- A launch is known: accepted or refused (R268). -/
def State.takeLaunch (s : State) (d p lpb : Nat) (queue prev die parent : Option Nat) (prio : Option Nat) : Nat × Nat × State :=
  let c := dcp d
  let l := s.launches.length
  let r := s.refusal p lpb c
  let x : Launch := { Launch.none with
    lpb := BitVec.ofNat 64 lpb, part := p, queue := queue.getD 64, prev := prev, die := die, parent := parent, recheck := true }
  let s := { s with launches := s.launches.put l x }
  let flags := s.flagsOf d l
  let s := s.onLaunch l fun x => { x with prio := prio.getD (bits flags 4 2) }
  if r = 0 then
    let n := (s.part p).seq + 1
    let s := (s.onPart p fun x => { x with seq := n }).onLaunch l fun x => { x with state := 1, seq := n }
    (l, 0, (s.lpbSet c l 104 4 n).lpbSet c l 112 1 1)
  else
    let s := (s.lpbSet c l 112 1 4).lpbSet c l 114 2 r
    (l, r, s.writeDone d l)
/-- The lowest die of a partition, whose command processor reads the queues. -/
def State.firstDie (s : State) (p : Nat) : Nat := (s.diesOf p).headD 0
/-- LAUNCH_ACCEPT (R268, R411, R413): the entry at a queue's head. The queue table and the rings lie at physical addresses
(log 18). -/
def execLaunchAccept (p queue : Nat) (s : State) : Out :=
  let x := s.part p
  let d := s.firstDie p
  let desc := x.queues.toNat + 64 * queue
  let ring := s.peekN desc 8
  let head := s.peekN (desc + 8) 8
  let tail := s.peekN (desc + 16) 8
  let size := 2 ^ bits ring 48 5
  .next (if !x.formed || x.draining || 64 ≤ queue || head == tail then s
    else
      let lpb := s.peekN (bits ring 0 48 + 8 * (head % size)) 8
      let prev := (s.launches.filter fun e => e.2.part == p && e.2.queue == queue).getLast?.map (·.1)
      (s.takeLaunch d p lpb (some queue) prev none none none).2.2.pokeN (desc + 8) 8 (head + 1))

/-- The dies that place blocks of a launch. -/
def State.launchDies (s : State) (l : Nat) : List Nat := match (s.launch l).die with
  | some d => [d]
  | none => s.diesOf (s.launch l).part
/-- Device-scope acquire actions of a command processor: the clean bytes of its die's L1s and RDC go (R170, log 62). -/
def State.dieAcquire (s : State) (d : Nat) : State :=
  (((s.cores.map (·.1)).filter (· / 16 / 324 == d)).foldl (fun s u => s.l1Invalidate u) s).rdcInvalidate d
/-- A compare and swap of a die's command processor on the word at an address, at its home L2, with ATOMH (R276, R302). -/
def State.ticketSwap (s : State) (d va : Nat) : State := match s.translate (dcp d) va .engWrite with
  | .ok pa _ =>
    let t := s.visitAt d pa
    match (s.homeOf d pa).bind homeDie with
    | some h => t.emitDie 0x64 h (pa % 2 ^ 48 + atomCode .cas * 2 ^ 48 + d * 2 ^ 52)
    | none => t
  | .noMap | .denied | .notPresent _ _ => s
/-- LAUNCH_BEGIN_DISPATCH (R269): a read of the dependence acquires at device scope on the dies that serve the launch. -/
def execLaunchBeginDispatch (l : Nat) (s : State) : Out :=
  let x := s.launch l
  let d := (s.launchDies l).headD 0
  let prev := match x.prev with
    | some q => (s.launch q).state
    | none => 3
  let serial := (s.flagsOf d l).testBit 10
  let wadr := s.lpbOf (dcp d) l 88 8 % 2 ^ 48
  .next (if x.state != 1 || (serial && prev < 3) || prev < 2 then s
    else if wadr != 0 && !x.recheck then s
    else
      let met := wadr = 0 || s.lpbOf (dcp d) l 96 8 ≤ s.vaRead (dcp d) wadr 8
      let s := if wadr = 0 then s else (s.launchDies l).foldl (fun s x => s.dieAcquire x) s
      if !met then s.onLaunch l fun y => { y with recheck := false }
      else
      let s := (s.onLaunch l fun y => { y with state := 2 }).lpbSet (dcp d) l 112 1 2
      let s := if (s.kernelOf d l).porter = 0 then s
        else
          let ds := s.launchDies l
          (ds.foldl (fun s x => (s.onDie x fun y => { y with porters := y.porters ++ [l], mailbox := [], mailLaunch := some l }).dieAcquire x) s).onLaunch l
            fun y => { y with portersLeft := ds.length }
      s.tryComplete d l)
/-- DEPENDENCE_RECHECK (R269): the DCPs read the dependence again. -/
def execDependenceRecheck (l : Nat) (s : State) : Out := .next (s.onLaunch l fun x => { x with recheck := true })

/-! ## Claims (R270, R271) -/

/-- Clusters of a die. -/
def clustersOf (d : Nat) : List Nat := (List.range Config.clusters).map (324 * d + ·)
/-- Blocks of a launch on a die's pending list: claimed indices and saved blocks (R271, R319). -/
def State.pendingOf (s : State) (d l : Nat) : Nat :=
  ((s.die d).claimed.filter (·.1 == l)).length + ((s.die d).saved.filter (·.blk.launch == l)).length
/-- The cycle in which a block dispatched to a cluster now is placed (R218). -/
def State.placedFrom (s : State) (c : Nat) : Nat :=
  let x := s.clu c
  match x.gate with
  | .on | .idling => s.cycle
  | .gating => x.gateSince + 575
  | .gated => s.cycle + 511
  | .waking => x.gateSince + 511
/-- A block dispatched to a cluster now is placed after the blocks of its launch that wait on the die for a cluster to wake: a die places
indices in increasing order (R271). -/
def State.follows (s : State) (l c : Nat) : Bool := s.clusters.all fun e => e.2.wake.all fun
  | .block q _ _ => q != l || e.1 / 324 != c / 324 || e.1 == c || lexLt [s.placedFrom e.1, e.1] [s.placedFrom c, c]
  | .saved => true
/-- The length of a die's pending list (R271). -/
def State.pendingLen (s : State) (d : Nat) : Nat :=
  (s.die d).claimed.length + (s.die d).saved.length + ((s.clusters.filter (·.1 / 324 == d)).map fun e => (e.2.wake.filter fun
    | .block _ _ p => !p
    | .saved => false).length).sum
/-- Blocks of a launch that a die could take together, less those on its pending list (R271). -/
def State.freePlaces (s : State) (d l : Nat) : Nat :=
  let k := s.kernelOf d l
  let carve := s.carveOf d l
  ((clustersOf d).map fun c => s.roomOn c k carve (some l)).sum - s.pendingOf d l
/-- A dispatching launch that die d serves has unclaimed indices and room. -/
def State.claimable (s : State) (d l : Nat) : Bool :=
  let t := s.ticketOf d l
  (s.launch l).state == 2 && (s.launchDies l).contains d && t.1 != t.2 && decide (0 < s.freePlaces d l)
/-- Reserve clusters of a die for a gang while it has more unclaimed blocks than its reservations hold (R274). -/
def State.reserve (s : State) (d l need : Nat) : List Nat → Nat → State
  | [], _ => s
  | c :: t, got =>
    if need ≤ got then s
    else
      let n := if (s.clu c).reserved.isNone then s.roomOn c (s.kernelOf d l) (s.carveOf d l) none else 0
      if n = 0 then s.reserve d l need t got
      else (s.onClu c fun x => { x with reserved := some l }).reserve d l need t (got + n)
/-- Blocks of a gang that a die's reserved clusters hold, less those on its pending list (R274). -/
def State.reservedRoom (s : State) (d l : Nat) : Nat :=
  (((clustersOf d).filter fun c => (s.clu c).reserved == some l).map fun c => s.roomOn c (s.kernelOf d l) (s.carveOf d l) (some l)).sum
    - s.pendingOf d l
/-- Take a batch of indices by compare and swap on the ticket word, then acquire (R276, log 62). -/
def State.claim (s : State) (d l : Nat) : State :=
  let t := s.ticketOf d l
  let batch := bits (s.flagsOf d l) 0 4 + 1
  let gang := (s.flagsOf d l).testBit 6
  let room := if gang then s.reservedRoom d l else s.freePlaces d l
  let k := min (min batch (t.2 - t.1)) (min room (16 - s.pendingLen d))
  if k = 0 then s
  else
    let s := (s.lpbSet (dcp d) l 16 4 (t.1 + k)).ticketSwap d ((s.launch l).lpb.toNat + 16)
    let s := s.onDie d fun x => { x with claimed := x.claimed ++ (List.range k).map fun i => (l, t.1 + i)
                                         served := x.served.put (s.launch l).prio ((s.launch l).queue + 1) }
    (s.emitDie 0x50 d (t.1 + k * 2 ^ 32 + (s.launch l).seq % 2 ^ 24 * 2 ^ 40)).dieAcquire d
/-- A tree barrier is held by another gang that has not completed (R338). -/
def State.treeTaken (s : State) (p l tb : Nat) : Bool := match (s.tree p tb).gang with
  | some g => g != l && (s.launch g).state == 2
  | none => false
/-- A gang may go on with its reservation: no other is in reservation, none of a lower seq still has to be, and its tree barriers
are free (R274, R338). -/
def State.gangMay (s : State) (d l : Nat) : Bool :=
  let x := s.launch l
  ((s.part x.part).reserving.isNone || (s.part x.part).reserving == some l)
    && !(s.launches.any fun e => e.2.part == x.part && e.2.state == 2 && (s.flagsOf d e.1).testBit 6 && e.2.start.isNone && e.2.seq < x.seq)
    && !(s.tbmOf d l).any fun tb => s.treeTaken x.part l tb
/-- A launch could claim on the die now, as far as the launches of other priorities go. -/
def State.mayClaim (s : State) (d l : Nat) : Bool := s.claimable d l && (!(s.flagsOf d l).testBit 6 || s.gangMay d l)
/-- A launch of a lower priority number has an index that the die could claim now (R270). A gang that may not reserve yet has none. -/
def State.outranked (s : State) (d l : Nat) : Bool :=
  s.launches.any fun e => e.2.part == (s.launch l).part && e.2.prio < (s.launch l).prio && s.mayClaim d e.1
/-- It is the launch's turn on the die: of its priority's launches that may claim, its queue is the next of the round, and within
the queue the launch has the lowest seq (R270). -/
def State.itsTurn (s : State) (d l : Nat) : Bool :=
  let x := s.launch l
  let away := fun (q : Nat) => (q + 65 - (s.die d).served.get 0 x.prio) % 65
  s.launches.all fun e => e.1 == l || e.2.part != x.part || e.2.prio != x.prio || !s.mayClaim d e.1
    || away x.queue < away e.2.queue || (x.queue == e.2.queue && x.seq ≤ e.2.seq)
/-- A gang takes a tree barrier: it is at its first phase, and no cluster holds blocks of the gang yet (R339). -/
def State.newTree (s : State) (p tb l : Nat) : State :=
  let s := s.onTree p tb fun _ => { TreeBar.fresh with gang := some l }
  { s with clusters := s.clusters.mapV fun c x => if s.partOf (c / 324) == some p then { x with excuse := x.excuse.set true tb true } else x }
/-- TICKET_CLAIM (R270, R271, R274): launches of a higher priority come first, those of one priority take turns by queue, and gangs
reserve in order of seq. -/
def execTicketClaim (d l : Nat) (s : State) : Out :=
  let x := s.launch l
  .next (if !s.mayClaim d l || (s.die d).dcpStopped || s.outranked d l || !s.itsTurn d l then s
    else if !(s.flagsOf d l).testBit 6 then s.claim d l
    else
      let t := s.ticketOf d l
      let s := (s.tbmOf d l).foldl (fun s tb => if (s.tree x.part tb).gang == some l then s else s.newTree x.part tb l) s
      ((s.onPart x.part fun y => { y with reserving := some l }).reserve d l (t.2 - t.1) (clustersOf d) (s.reservedRoom d l)).claim d l)

/-! ## Placement (R272, R179, R189, R197, R42) -/

/-- Clear the row valid bits of a run of rows of a core. -/
def State.clearRows (s : State) (core base rows : Nat) : State :=
  { s with rowValid := s.rowValid.filter fun e => !(4096 * core + base ≤ e.1 && e.1 < 4096 * core + base + rows) }
/-- Allocate a block's runs and clear the valid bits of its rows and of lent memory. -/
def State.allocate (s : State) (c slot : Nat) (k : Kernel) (carve : Nat) : State :=
  let rows := (k.localSize + 63) / 64
  let s := (activeCores k.heat).foldl (fun s core =>
    let base := (firstFit (rowLimit carve) rows (s.runsBut c core (some (4 * c + slot)))).getD 0
    (s.onBlk (4 * c + slot) fun b => { b with rowBase := b.rowBase.put core base }).clearRows (16 * c + core) base rows) s
  ((List.range 16).filter fun x => !(activeCores k.heat).contains x).foldl (fun s core => s.clearRows (16 * c + core) 0 4096) s
/-- The state of a warp when it first issues (R42, R267). A bad landing at the kernel entry names the entry itself (R57, log 65). -/
def State.startWarp (s : State) (b w u : Nat) : State :=
  let k := s.blk b
  let d := dieOfBlk b
  let c := dcp d
  let args := s.lpbOf c k.launch 8 8
  let n := s.lpbOf c k.launch 64 4
  let base := s.lpbOf c k.launch 56 8 % 2 ^ 48
  let warps := (s.kernelOf d k.launch).warps
  let active := ((s.resident (coreOf u)).filter fun x => (s.warp x).active).length < 8
  let x : Warp := { Warp.empty with
    uid := u, placed := true, blk := b, index := w,
    s := Tbl.set 0 1 (BitVec.ofNat 32 (args / 2 ^ 32)) (Tbl.set 0 0 (BitVec.ofNat 32 args) []),
    a := some { pc := k.entry, mask := BitVec.allOnes 16, join := none, clause := none, src := k.entry, waits := [], held := false },
    blkId := BitVec.ofNat 32 (if k.porter then d else k.index), grid := BitVec.ofNat 32 (s.launch k.launch).seq,
    hclass := BitVec.ofNat 32 k.heat, spill := BitVec.ofNat 64 (base + 64 * n * (warps * k.index + w)),
    capbase := (s.part (s.launch k.launch).part).capbase, stackLimit := n, porter := k.porter, active := active }
  if u = s.w.uid then { s with w := x } else { s with warps := s.warps.put u x }
/-- A free position on the core of warp w of a block. -/
def State.positionFor (s : State) (c heat w : Nat) : Nat :=
  let cores := activeCores heat
  (s.freePositions (16 * c + cores.getD (w % cores.length) 0)).headD 0
/-- Change the blocks that count in live, of a launch and of its parent (R266, R281). -/
def State.liveAdd (s : State) (d l : Nat) (up : Bool) : State :=
  let one := fun (s : State) (x : Nat) =>
    let n := s.lpbOf (dcp d) x 108 4
    s.lpbSet (dcp d) x 108 4 (if up then n + 1 else n - 1)
  match (s.launch l).parent with
  | some q => one (one s l) q
  | none => one s l
/-- A cluster takes a block: the carve of R190, its L1s emptied when that changes, and the matrix engine of R203. -/
def State.openCluster (s : State) (c carve : Nat) (matrix : Bool) : State :=
  let empty := (s.placedOn c).isEmpty
  let s := if empty && (s.clu c).carve != carve then
      ((List.range 16).map (16 * c + ·)).foldl (fun s core => if (s.core core).l1.isEmpty then s
        else (s.l1Drain core).onCore core fun x => { x with l1 := [] }) s
    else s
  s.onClu c fun x => { x with carve := if empty then carve else x.carve, gate := .on,
                              shape := if matrix then .q4 else x.shape, weights := if matrix then [] else x.weights }
/-- A start tick that no count reaches: a block of a gang waits until the gang's start is fixed (R274). -/
def notYet : Nat := 2 ^ 65
/-- Set a block on a cluster that fits it (R202): its slot, runs, warps and streams; `index` is its grid index, or max + d for
a porter. The block takes the lowest free slot (log 35). -/
def State.placeBlock (s : State) (c l index : Nat) (porter : Bool) : State :=
  let d := dieOfClu c
  let k0 := s.kernelOf d l
  let k := if porter then s.kernelAt (dcp d) k0.porter else k0
  let carve := s.carveOf d l
  let kd := if porter then k0.porter else s.lpbOf (dcp d) l 0 8 % 2 ^ 48
  let slot := ((List.range 4).find? fun i => !(s.blk (4 * c + i)).placed).getD 0
  let b := 4 * c + slot
  let s := s.openCluster c carve (k.mentry != 0)
  let flags := s.flagsOf d l
  let start := s.lpbOf (dcp d) l 32 8
  let hold := if flags.testBit 6 then some ((s.launch l).start.getD notYet)
    else if flags.testBit 7 && s.tick d < start then some start else none
  let s := s.onBlk b fun _ => { Block.empty with
    placed := true, launch := l, index := index, porter := porter, kd := BitVec.ofNat 64 kd, entry := BitVec.ofNat 64 k.entry,
    mentry := BitVec.ofNat 64 k.mentry, centry := BitVec.ofNat 64 k.centry, nwarps := k.warps, localSize := k.localSize, heat := k.heat,
    seeds := k.seeds, hold := hold, placedAt := s.cycle }
  let s := s.allocate c slot k carve
  let s := (List.range k.warps).foldl (fun s w =>
    let u := s.positionFor c k.heat w
    (s.startWarp b w u).onBlk b fun x => { x with warps := x.warps ++ [u] }) s
  let s := (s.liveAdd d l true).acMark c s.cycle
  let s := if flags.testBit 6 then s.onClu c fun x => { x with excuse := s.tbmOf d l |>.foldl (fun t k => t.set true k false) x.excuse } else s
  s.emitClu 0x51 c (s.placePayload b)
/-- A dispatch reaches a cluster (R218): it is placed now, or once the cluster has woken. -/
def State.dispatchTo (s : State) (c : Nat) (what : Wake) (place : State → State) : State :=
  let x := s.clu c
  match x.gate with
  | .on => place s
  | .idling =>
    let s := if s.cycle = x.gateSince + 4096 then (s.countFixed 1 c 7 1).emitClu 0x37 c 3 else s
    place s
  | .gating | .waking => s.onClu c fun x => { x with wake := x.wake ++ [what] }
  | .gated => s.onClu c fun x => { x with wake := [what], gate := .waking, gateSince := s.cycle }
def State.dispatch (s : State) (c l index : Nat) (porter : Bool) : State :=
  s.dispatchTo c (.block l index porter) fun s => s.placeBlock c l index porter
/-- The cluster that the DCP chooses (R272); one that is waking comes with the gated ones (log 98). -/
def State.chooseCluster (s : State) (d : Nat) (k : Kernel) (carve : Nat) (who : Option Nat) : Option Nat :=
  let ok := (clustersOf d).filter fun c => 0 < s.roomOn c k carve who
  let powered := ok.filter fun c => match (s.clu c).gate with
    | .on | .idling | .gating => true
    | .gated | .waking => false
  (powered ++ ok).head?
/-- A gang's reservations end on every die when the whole gang is placed (R274). -/
def State.unreserve (s : State) (d l : Nat) : State :=
  let t := s.ticketOf d l
  if t.1 != t.2 || s.unplaced l || s.dies.any (fun e => e.2.saved.any (·.blk.launch == l)) then s
  else { s with clusters := s.clusters.mapV fun _ x => if x.reserved == some l then { x with reserved := none } else x }
/-- BLOCK_PLACE (R271, R272): the porter first, then claimed indices in increasing order, none that would be placed before an earlier one
whose cluster wakes; saved blocks come before them (R319). A gang's blocks are placed as they are claimed and held until its start
(R274). -/
def execBlockPlace (d l : Nat) (s : State) : Out :=
  let x := s.die d
  let k := s.kernelOf d l
  let gang := (s.flagsOf d l).testBit 6
  .next (if x.dcpStopped || (s.launch l).state != 2 || s.outranked d l then s
    else if x.porters.contains l then
      match s.chooseCluster d (s.kernelAt (dcp d) k.porter) (s.carveOf d l) none with
      | none => s
      | some c => if !s.follows l c then s else (s.onDie d fun y => { y with porters := y.porters.filter (· != l) }).dispatch c l (s.lpbOf (dcp d) l 24 4 + d) true
    else if x.saved.any (·.blk.launch == l) then s
    else match (x.claimed.filter (·.1 == l)).map (·.2) with
      | [] => s
      | i :: t => match s.chooseCluster d k (s.carveOf d l) (if gang then some l else none) with
        | none => s
        | some c =>
          let n := t.foldl min i
          if !s.follows l c then s else ((s.onDie d fun y => { y with claimed := y.claimed.filter fun e => e != (l, n) }).dispatch c l n false).unreserve d l)

/-! ## Start ticks (R274, R275) -/

/-- TIMED_START: the block may issue from its start tick on. -/
def execTimedStart (b : Nat) (s : State) : Out :=
  .next (match (s.blk b).hold with
    | some t => if t ≤ s.tick (dieOfBlk b) then s.onBlk b fun k => { k with hold := none } else s
    | none => s)
/-- Blocks of a launch that are placed. -/
def State.blocksOf (s : State) (l : Nat) : List Nat := (s.blocks.filter fun e => e.2.placed && e.2.launch == l).map (·.1)
/-- Set or clear the excuse bits of a gang's tree barriers on the clusters of its partition (R339), and test the inputs. -/
def State.excuseAll (s : State) (l : Nat) (tbs : List Nat) : State :=
  let p := (s.launch l).part
  let bits_ := fun (c : Nat) (x : Cluster) => tbs.foldl (fun t k => t.set true k (x.retired || (s.gangOn c l).isEmpty)) x.excuse
  let one := fun (c : Nat) (x : Cluster) => if s.partOf (c / 324) == some p then { x with excuse := bits_ c x } else x
  let s1 := { s with clusters := s.clusters.mapV one }
  (tbs.foldl (fun s tb => s.onTree p tb fun t => { t with arrived := [] }) s1).treeTest l
/-- GANG_RESERVE: every index is claimed and no block of the gang is saved, so the start tick is fixed. -/
def execGangReserve (l : Nat) (s : State) : Out :=
  let x := s.launch l
  let d0 := (s.launchDies l).headD 0
  let t := s.ticketOf d0 l
  .next (if x.state != 2 || x.start.isSome || !(s.flagsOf d0 l).testBit 6 || t.1 != t.2
      || s.dies.any (fun e => e.2.saved.any (·.blk.launch == l)) then s
    else
      let holds := (s.clusters.filter fun e => e.2.reserved == some l).map fun e => e.1 / 324
      let placed := (s.blocksOf l).map dieOfBlk
      let d := (holds ++ placed).foldl min ((holds ++ placed).headD d0)
      let now := s.tick d
      let start := s.lpbOf (dcp d) l 32 8
      let at_ := if (s.flagsOf d l).testBit 7 && now + 2000 < start then start else now + 2000
      let s := (s.onLaunch l fun y => { y with start := some at_ }).onPart x.part fun y =>
        { y with reserving := if y.reserving == some l then none else y.reserving }
      (((s.blocksOf l).foldl (fun s b => s.onBlk b fun k => { k with hold := some at_ }) s)).excuseAll l (s.tbmOf d0 l))
/-- GANG_START: each die's blocks of the gang may issue from tick T on, once all are placed. -/
def execGangStart (l : Nat) (s : State) : Out :=
  .next (match (if s.unplaced l then none else (s.launch l).start) with
    | some t => (s.blocksOf l).foldl (fun s b => if t ≤ s.tick (dieOfBlk b) && (s.blk b).hold == some t then s.onBlk b fun k => { k with hold := none } else s) s
    | none => s)

/-! ## Power gating (R218) -/

/-- The cluster is idle: no block, no operation, no copy. -/
def State.cluIdle (s : State) (c : Nat) : Bool := (s.placedOn c).isEmpty && (s.clu c).engs.isEmpty && (s.clu c).port.isEmpty
/-- A cluster that has become idle starts to count. -/
def State.idleFrom (s : State) (c : Nat) : State :=
  if s.cluIdle c && (s.clu c).gate == .on && !(s.clu c).retired then s.onClu c fun x => { x with gate := .idling, gateSince := s.cycle } else s
/-! ## The end of a block (R313 to R315) -/

/-- A path goes nowhere: it stands at a boundary, or inside its clause where it is held. -/
def pathRests (p : Option Path) : Bool := atBoundary p || (p.map Path.held).getD false
/-- A warp that starts no further clause stands where it stops (R315, R317, R395). -/
def Warp.rests (w : Warp) : Bool := w.ended || w.frozen || (pathRests w.a && pathRests w.b)
/-- Operations of a warp that only mark a wait: those of BARW, AWAITF and TBARWAIT, and unmet ACALLOC requests. -/
def State.waitTags (s : State) (u : Nat) : List Nat :=
  ((s.warp u).waits.filterMap fun x => match x with
    | .arriving _ t | .barw _ _ t | .awaitf _ _ t | .tbar _ _ _ t => some t
    | .twait _ _ | .rendez _ | .hfree _ => none) ++ ((s.clu (cluOf u)).acq.filter (·.warp == u)).map (·.tag)
/-- The word at issue of a warp waits for a register of an operation that does not end by itself (R60, R315): it stands where it is,
unless the wait ends. -/
def State.stuck (s : State) (u : Nat) : Bool :=
  let w := s.warp u
  w.winding && w.stalled && w.why.1 == 4 && w.pend.any fun p => p.pc == w.why.2 && !p.regs.isEmpty && (s.waitTags u).contains p.tag
/-- Every operation that a warp has issued is complete, but for waits and commands that no unit has accepted. -/
def State.settledOps (s : State) (u : Nat) : Bool :=
  let w := s.warp u
  w.pend.all fun p => (s.waitTags u).contains p.tag
    || (s.clu (cluOf u)).cpyWait.any (fun r => r.warp == u && r.tag == p.tag)
/-- No engine operation of a block is in flight. -/
def State.enginesDone (s : State) (b : Nat) : Bool :=
  let x := s.clu (cluOfBlk b)
  x.engs.all (fun e => match e.op with
    | .copy y => y.blk != b
    | .mcfg k _ | .mwload k _ _ _ _ _ | .mstore k _ _ _ _ _ _ _ _ _ => k != b
    | .mmul m => m.blk != b) && x.port.all fun o => o.blk != b
/-- The block can end now: by R206, or wound up by R315. -/
def State.blockOver (s : State) (b : Nat) : Bool :=
  let k := s.blk b
  let quiet := fun (t : Stream) => t.quiet || (k.fault.isSome && t.stopped)
  k.placed && k.warps.all (fun u => (if k.fault.isSome then (s.warp u).rests || s.stuck u else (s.warp u).ended) && s.settledOps u)
    && quiet k.m && quiet k.c && s.enginesDone b
/-- Bytes of the exit record (R313). -/
def State.exitBytes (s : State) (b : Nat) : List Byte :=
  let k := s.blk b
  let c := cluOfBlk b
  let f := k.fault.getD { code := 0, warp := none, esc := false, tcause := 0, pc := 0, info := 0, lanes := 0, lfm := 0 }
  bytesOf 8 (c / 324 * 2 ^ 56 + c % 324 * 2 ^ 47 + f.warp.getD 0 * 2 ^ 39 + f.warp.isSome.toNat * 2 ^ 38 + f.esc.toNat * 2 ^ 37
      + f.tcause * 2 ^ 32 + (s.launch k.launch).seq % 2 ^ 24 * 2 ^ 8 + f.code)
    ++ bytesOf 8 f.pc.toNat ++ bytesOf 8 f.info.toNat ++ bytesOf 16 f.lanes.toNat
    ++ bytesOf 16 (if f.code = 1 then f.lfm else s.blockLfm b).toNat ++ bytesOf 8 (s.tick (c / 324))
/-- The block stops counting in live, once its record is written or dropped (R313, R420). -/
def State.exitDone (s : State) (d l : Nat) (porter : Bool) : State :=
  let s := s.liveAdd d l false
  let s := if porter then s.onLaunch l fun x => { x with portersLeft := x.portersLeft - 1 } else s
  let s := s.tryComplete d l
  match (s.launch l).parent with
  | some q => s.tryComplete d q
  | none => s
/-- The tree barriers of a partition that gangs hold: number and gang. -/
def State.heldTrees (s : State) (p : Nat) : List (Nat × Nat) := (s.part p).trees.filterMap fun t => t.2.gang.map fun l => (t.1, l)
/-- The regions that hold blocks of a launch. -/
def State.regionsWith (s : State) (l : Nat) : List Nat := ((s.blocksOf l).map fun b => regionOf (dieOfBlk b)).eraseDups
/-- A gang waits on a tree barrier: some warp of it has arrived at the phase being collected. -/
def State.gangWaits (s : State) (p tb l : Nat) : Bool :=
  (s.blocksOf l).any fun b => (s.blk b).warps.any fun u => (s.warp u).hasArrived tb (s.tree p tb).phase
/-- The region holds blocks of a gang that waits on a tree barrier (R360). -/
def State.holdsWaiting (s : State) (r : Nat) : Bool :=
  s.parts.any fun p => (s.heldTrees p.1).any fun t => s.gangWaits p.1 t.1 t.2 && (s.regionsWith t.2).contains r
/-- CADSET for the regions whose %cad is no longer what it was (R366). -/
def State.cadEvents (s old : State) (cause : Nat) : State :=
  (List.range 16).foldl (fun s r => if s.cad r = old.cad r then s
    else s.emitDie 0x91 (lowestDie r) (r + s.cad r * 16 + cause * 512)) s
/-- A region that holds no such gang has slack 0 at once. -/
def State.slackOff (s : State) (r : Nat) : State :=
  if (s.region r).slack = 0 || s.holdsWaiting r then s else (s.onRegion r fun x => { x with slack := 0 }).cadEvents s 2
/-- Change the marks of the STOPs that are not recorded. -/
def State.onMarks (s : State) (f : Stop → StopMark → List StopMark) : State :=
  if s.dies.all fun d => d.2.tk.all fun t => t.2.stops.isEmpty then s
  else { s with dies := s.dies.mapV fun _ d => { d with tk := d.tk.mapV fun _ t => { t with stops := t.stops.map fun x =>
    { x with warps := x.warps.flatMap (f x) } } } }
/-- The tick at which a warp that a STOP has reached stopped or ended by itself: that of the delivery, or of its last word. -/
def Warp.stoppedAt (w : Warp) : Nat := max (w.stopTick.getD 0) (w.issued.headD 0)
/-- Words of a stopped warp after a delivery, and at or after the accepting event's tick (R398). -/
def Warp.stopWords (w : Warp) (x : Stop) (m : StopMark) : Nat × Nat :=
  (min (w.aftd - m.base) 16, min (w.issued.filter fun t => x.ev.tick ≤ t).length 0xFFFF)
/-- Warps that stand stopped leave their STOPs with what the record is to say of them. -/
def State.keepMark (s : State) (x : Stop) (m : StopMark) : StopMark :=
  let w := s.warp m.uid
  { m with left := some (if w.ended then .ended w.stoppedAt else .kept (w.stopWords x m).1 (w.stopWords x m).2 w.stoppedAt) }
/-- Racks, granules, requests and the slot of a block are released; its warps leave their positions, which the clock fills (R179); a STOP
that has reached them counts their end (R406). -/
def State.freeBlock (s : State) (b : Nat) : State :=
  let c := cluOfBlk b
  let ws := (s.blk b).warps
  let s := s.onClu c fun x => { x with
    owner := x.owner.filter fun e => e.2 != some b
    racks := x.racks.filter fun e => e.2.owner != some b
    cpyWait := x.cpyWait.filter fun r => r.blk != b
    acq := x.acq.filter fun r => r.blk != b
    engs := x.engs.filter fun e => !e.op.matrixOf b && !e.op.copyOf b
    shape := if (s.blk b).mentry = 0 then x.shape else .q4
    weights := if (s.blk b).mentry = 0 then x.weights else [] }
  let s := s.onMarks fun _ m => if m.left.isSome || !ws.contains m.uid then [m]
    else [{ m with left := some (.ended (if (s.warp m.uid).ended then (s.warp m.uid).stoppedAt else s.tick (c / 324))) }]
  let s := ws.foldl (fun s u =>
    (s.leaveEntry (c / 324) ((s.warp u).susp.bind (·.entry))).onWarp u fun w => { Warp.empty with uid := w.uid }) s
  let s := { s with blocks := s.blocks.del b }
  let gone := fun (u : Option Nat) => u.any ws.contains
  let s := ((ws.map coreOf).eraseDups).foldl (fun s core => s.onCore core fun x =>
    { x with loadCap := if (s.freePositions core).length = 16 then 8 else x.loadCap
             incoming := if gone x.incoming then none else x.incoming, outgoing := if gone x.outgoing then none else x.outgoing
             nextSwap := if gone x.nextSwap then none else x.nextSwap }) s
  ((s.acMark c s.cycle).idleFrom c).slackOff (regionOf (c / 324))
/-- End a block: its accesses are performed at device scope, its resources released, its record written. WEND shows the end by the block's
fault for every warp that had not ended, a retirement's included (R199, log 90). -/
def State.finishBlock (s : State) (b : Nat) : State :=
  let k := s.blk b
  let c := cluOfBlk b
  let d := c / 324
  let code := (k.fault.map (·.code)).getD 0
  let s := k.warps.foldl (fun s u => s.performParts u fun _ => true) s
  let s := ((k.warps.map coreOf).eraseDups).foldl (fun s core => s.l1Drain core) s
  let s := s.rdcDrain d
  let s := (k.warps.filter fun u => !(s.warp u).ended).foldl (fun s u => s.emitWarp 0x24 u ((s.warp u).lfm.toNat + 2 ^ 32)) s
  let at_ := s.lpbOf (dcp d) k.launch 48 8 % 2 ^ 48 + 64 * k.index
  let r : Rec := { kind := .exit k.launch k.porter, clu := c, va := at_, bytes := s.exitBytes b, entry := none }
  let seq := (s.launch k.launch).seq
  let s := s.freeBlock b
  let s := if k.saving then s.onDie d fun x => { x with slotsUsed := x.slotsUsed.filter (· != k.saveSlot) } else s
  let s := s.treeTest k.launch
  let s := if code = 0 then s
    else s.lpbSet (dcp d) k.launch 113 1 (min (s.lpbOf (dcp d) k.launch 113 1 + 1) 255)
  let w := s.tryRecord r
  let s := if w.1 then w.2.exitDone d k.launch k.porter else w.2
  s.emitClu 0x53 c (k.index % 2 ^ 32 + c % 324 * 2 ^ 32 + (code != 0).toNat * 2 ^ 41 + seq % 2 ^ 22 * 2 ^ 42)
/-- BLOCK_END. -/
def execBlockEnd (b : Nat) (s : State) : Out := .next (if s.blockOver b then s.finishBlock b else s)

end Sys2Proof.Machine
end

