-- ==== Sys2Proof/Machine/Fabric.lean ====
section
/-!
DEFINITION. The fabric (spec/16 R324 to R331), the banded latency table (R336, R337) and the timebase (R332 to R335), and the
span ports (spec/23 R418).
-/
namespace Sys2Proof.Machine

/-! ## Sites and links -/

/-- The time and the source of an event of a site (R334, R347). -/
def State.emitSite (s : State) (site ty p : Nat) : State :=
  let d := dieOfSite site
  if isCompute site then s.emitDie ty d p else s.emitAt site (s.baseTick d) ty d 0x1FF 0x1E 0x1F (pay p)
def State.siteTick (s : State) (site : Nat) : Nat := if isCompute site then s.tick (dieOfSite site) else s.baseTick (dieOfSite site)

/-! ## Packets -/

/-- The next site of a packet. -/
def Pkt.next (p : Pkt) (site : Nat) : Nat := p.legs.headD (xyNext site p.dst)
/-- The FWD that a packet carries, or answers. -/
def Pkt.ofFwd (p : Pkt) : Option Packet := p.fwd.or (p.answer.map (·.1))
/-- A packet with no detour is discarded: an event is reported to its automaton, and a request of a warp, or the answer to it, ends the
warp's block with XLATE (R329). -/
def State.discard (s : State) (site : Nat) (p : Pkt) : State :=
  let s := s.onSite site fun x => { x with ndropped := x.ndropped + 1 }
  let s := match p.event with
    | some (n, _) => { s with dropq := s.dropq ++ [n] }
    | none => s
  match p.ofFwd with
  | some q => (s.blockFault (s.warp q.warp).blk (s.exitAt (s.warp q.warp).blk (some q.warp)
      (((s.warp q.warp).pend.find? (·.tag == q.tag)).map (·.pc) |>.getD 0) 3 p.addr.toNat)).onWarp q.warp fun w => w.answered q.tag
  | none => s
/-- A packet that must cross a failed link goes to the spill area, in the order of injection (R330), or is discarded. -/
def State.spillPkt (s : State) (site : Nat) (p : Pkt) : State :=
  if (s.detour site (p.next site)).isNone then s.discard site p
  else s.onSite site fun x => { x with spilled := p.insert x.spilled, nspilled := x.nspilled + 1 }
/-- One end of a link that fails: its event, the packet under way, which has not arrived, and the packets that wait for the link. -/
def State.linkEnd (s : State) (site next : Nat) : State :=
  let dir := dirTo site next
  let s := s.emitSite site 0x80 (site % 20 + site / 20 * 2 ^ 5 + dir * 2 ^ 10 + (s.detour site next).isNone.toNat * 2 ^ 12)
  let fly := ((s.link site dir).flying.map (·.1)).toList
  let s := s.onLink site dir fun l => { l with flying := none }
  let mine := (s.site site).waiting.filter fun p => p.dst != site && p.next site == next
  let s := s.onSite site fun x => { x with waiting := x.waiting.filter fun p => !(p.dst != site && p.next site == next) }
  (fly ++ mine).foldl (fun s p => s.spillPkt site p) s
/-- A link fails (R325): both ends mark it, and do as R329 says. -/
def State.failLink (s : State) (site dir : Nat) : State := match neighbour site dir with
  | none => s
  | some next =>
    if (s.link site dir).failed then s
    else
      let down := fun (l : Link) => { l with failed := true, lost := none, retries := 0 }
      (((s.onLink site dir down).onLink next (dirTo next site) down).linkEnd site next).linkEnd next site

/-- A packet reaches its destination. The answer to a FWD is its status (R280). -/
def State.deliver (s : State) (p : Pkt) : State :=
  let s := match p.event with
    | some e => { s with evq := s.evq ++ [e] }
    | none => s
  (match p.answer with
    | some (q, st) => s.onWarp q.warp fun w => (w.setS q.sd (BitVec.ofNat 32 st)).answered q.tag
    | none => s).mailed p
/-- A packet comes in at a site over a link: it has arrived there, or waits for its next hop, or at its destination for the older packets
of its channel and pair that a detour still keeps (R326, R330). -/
def State.arrive (s : State) (site came : Nat) (p : Pkt) : State :=
  let p := { p with legs := p.legs.drop 1, came := some came }
  if site = p.dst && p.legs.isEmpty && !s.overtakes p then s.deliver p else s.onSite site fun x => { x with waiting := x.waiting ++ [p] }
/-- FLIT_RECEIVE (R325): a flit over the link that leaves the site in the direction. The last flit of a packet brings the packet; a flit
that fails is sent again, and the eighth retry that fails, fails the link. A flit with no packet under way is one of the traffic that the
model performs at once (log 44). -/
def execFlitReceive (site dir : Nat) (ok : Bool) (s : State) : Out :=
  let l := s.link site dir
  .next (match neighbour site dir with
    | none => s
    | some next =>
      if l.failed || l.lost.isSome then s
      else if !ok then (if 8 ≤ l.retries then s.failLink site dir else s.onLink site dir fun l => { l with retries := l.retries + 1 })
      else match l.flying with
        | none => s.onLink site dir fun l => { l with retries := 0 }
        | some (p, n) =>
          let s := s.onLink site dir fun l => { l with retries := 0, flying := if n ≤ 1 then none else some (p, n - 1) }
          if n ≤ 1 then s.arrive next site p else s)
/-- LANE_LOCK_LOST, LANE_LOCK_REGAINED, LANE_LOCK_TIMEOUT (R325). -/
def execLaneLockLost (site dir : Nat) (s : State) : Out :=
  let l := s.link site dir
  .next (if (neighbour site dir).isNone || l.failed || l.lost.isSome then s
    else s.onLink site dir fun l => { l with lost := some (s.siteTick site) })
def execLaneLockRegained (site dir : Nat) (s : State) : Out :=
  .next (if (s.link site dir).lost.isSome then s.onLink site dir fun l => { l with lost := none } else s)
def execLaneLockTimeout (site dir : Nat) (s : State) : Out :=
  .next (match (s.link site dir).lost with
    | some t => if t + 1000 ≤ s.siteTick site then s.failLink site dir else s
    | none => s)

/-- Rank of a virtual channel at an output whose last of response and request was a response, or not (R327). -/
def vcRank (responded : Bool) (vc : Nat) : Nat :=
  if responded && vc = vcResponse then vcRequest else if responded && vc = vcRequest then vcResponse else vc
/-- The packet that an output serves next: the first of the first channel. -/
def firstPkt (responded : Bool) (l : List Pkt) : Option Pkt := l.foldl (fun (a : Option Pkt) p => match a with
  | none => some p
  | some q => if vcRank responded p.vc < vcRank responded q.vc then some p else some q) none
/-- The link from a site to a neighbour has a credit for a channel: the buffer at its far end has room (R327, log 44). -/
def State.credit (s : State) (site next vc : Nat) : Bool :=
  decide (((s.site next).waiting.filter fun p => p.came == some site && p.vc == vc && p.dst != next).length ≤ Config.extraCredits vc)
/-- The packet that an output of a site can start: its link is whole, carries none, and has credit. -/
def State.outputNext (s : State) (site dir : Nat) : Option Pkt := match neighbour site dir with
  | none => none
  | some next =>
    let l := s.link site dir
    if l.failed || l.flying.isSome || l.lost.isSome then none
    else firstPkt l.responded ((s.site site).waiting.filter fun p => p.dst != site && p.next site == next && s.credit site next p.vc)
/-- PACKET_FORWARD (R326): the first output of a site, from the north on, that can, starts a packet. A packet that stands at its
destination is delivered first, once no older one of its channel and pair is on the way, and one that has come for a failed link goes to the spill area. -/
def execPacketForward (site : Nat) (s : State) : Out :=
  let l := (s.site site).waiting
  let without := fun (p : Pkt) => s.onSite site fun x => { x with waiting := dropPkt p.num x.waiting }
  .next (match (l.filter (·.dst == site)).find? fun p => !s.overtakes p,
      (l.filter (·.dst != site)).find? fun p => !s.whole site (p.next site) with
    | some p, _ => (without p).deliver p
    | none, some p => (without p).spillPkt site p
    | none, none => match (List.range 4).findSome? fun dir => (s.outputNext site dir).map fun p => (dir, p) with
      | none => s
      | some (dir, p) => (without p).onLink site dir fun x =>
          { x with flying := some (p, p.flits), responded := if p.vc = vcResponse then true else if p.vc = vcRequest then false else x.responded })
/-- SPILL_REINJECT (R329, R330): the oldest spilled packet takes the detour on the reroute VC. -/
def execSpillReinject (site : Nat) (s : State) : Out :=
  .next (match (s.site site).spilled with
    | [] => s
    | p :: t =>
      let s := s.onSite site fun x => { x with spilled := t }
      let s := match s.detour site (p.next site) with
        | none => s.discard site p
        | some legs =>
          let q := { p with vc := vcReroute, rerouted := true, legs := legs ++ p.legs.drop 1, came := none }
          s.onSite site fun x => { x with waiting := x.waiting ++ [q] }
      if t.isEmpty then
        let x := s.site site
        (s.onSite site fun x => { x with nspilled := 0, ndropped := 0 }).emitSite site 0x81 (x.nspilled % 2 ^ 24 + x.ndropped % 2 ^ 24 * 2 ^ 24)
      else s)

/-! ## The banded latency table (R336, R337) -/

/-- Band of a distance. -/
def bandOf (d : Nat) : Nat := if d = 0 then 0 else if d ≤ 2 then 1 else if d ≤ 8 then 2 else if d ≤ 18 then 3 else 4
/-- Latency bounds of a routed distance, and the release skew bound of a band. -/
def latLow (d : Nat) : Nat := [18, 64, 96, 200, 380].getD (bandOf d) 0
def latHigh (d : Nat) : Nat := if 38 < d then 880 + 28 * (d - 38) else [60, 120, 250, 460, 880].getD (bandOf d) 0
def skewOf (d : Nat) : Nat := [1, 3, 6, 12, 20].getD (bandOf d) 0
/-- The routed distance that the table lists for two dies. -/
def State.routed (s : State) (a b : Nat) : Nat := s.routes.get (manhattan a b) (200 * a + b)
/-- The four words of BLT. -/
def State.bltWords (s : State) (die a b : Nat) : List Word :=
  if 200 ≤ a || 200 ≤ b || !s.samePart die a || !s.samePart die b then [0xFFFFFFFF, 0, 0, 0]
  else
    let r := s.routed a b
    [BitVec.ofNat 32 (r * 65536 + bandOf r), BitVec.ofNat 32 (latLow r), BitVec.ofNat 32 (latHigh r), BitVec.ofNat 32 (skewOf (manhattan a b))]
/-- Registers s(r) to s(r + 3) receive four words. -/
def Warp.setS4 (w : Warp) (r : Nat) (l : List Word) : Warp := (List.range 4).foldl (fun w k => w.setS (r + k) (l.getD k 0)) w
def sQuad (r : Reg) : List RegRef := (List.range 4).map fun k => .s (r.toNat + k)
def execBlt (g : Guard) (sd sa sb : Reg) (s : State) : Out :=
  .next (s.uniWord g ([.s sa.toNat, .s sb.toNat] ++ sQuad sd) fun _ =>
    let die := fun (r : Reg) => if s.w.S r.toNat = 0xFFFFFFFF then s.myDie else (s.w.S r.toNat).toNat
    (s.onW fun w => (w.setS4 sd.toNat (s.bltWords s.myDie (die sa) (die sb))).addPend (sQuad sd) none .timed).done false)

/-! ## The timebase (R332 to R335) -/

/-- θ of an exchange, in sixteenths of a tick, from stamps in sixteenths. -/
def theta (t1 t2 t3 t4 : Int) : Int := ((t1 - t2) + (t4 - t3)) / 2
def inLock (x : Int) : Bool := decide (-16 ≤ x) && decide (x ≤ 16)
/-- Ticks by which the counter of a die, or of the base die of its home memory site, is ahead of the reference. -/
def State.ahead (s : State) (base : Bool) (unit : Nat) : Int := (if base then (s.die unit).baseSlew else (s.die unit).slew) - s.refSlew
/-- The counter that an exchange sets right. -/
def State.counterOf (s : State) (base : Bool) (unit : Nat) : Nat := if base then s.baseTick unit else s.tick unit
/-- TIMING_EXCHANGE (R332, R334): once in 4,096 ticks the offset of a die, or of the base die of its home memory site, is measured. The
stamps are those of the counters: the last is taken now, and their sum tells the offset, the delay being the same both ways. What is
to be worked off is the offset, in whole ticks. Its packets pass on the event channel at once (log 44), and none is made while the way to
the reference or back is cut (R328). -/
def execTimingExchange (base : Bool) (unit : Nat) (t1 t2 t3 t4 : Int) (s : State) : Out :=
  let x := theta t1 t2 t3 t4
  let ok := inLock x
  let off := BitVec.ofInt 32 x
  let now := s.counterOf base unit
  let was := if base then (s.die unit).baseLocked else (s.die unit).locked
  let last := if base then (s.die unit).baseExchange else (s.die unit).exchange
  let site := if base then homeSite unit else siteOf unit
  let t := s.onDie unit fun y =>
    if base then { y with baseOff := off, baseLocked := ok, baseOwed := -s.ahead base unit, baseExchange := now / 4096 }
    else { y with tickoff := off, locked := ok, owed := -s.ahead base unit, exchange := now / 4096 }
  .next (if (base && unit == refDie) || now / 4096 ≤ last || t4 / 16 != now || t4 < t1 || t3 < t2 || x != 16 * s.ahead base unit
      || !s.routeOk site refSite || !s.routeOk refSite site then s
    else if was == ok then t
    else
      let t := if ok then t else t.interrupt (.tlock unit base)
      t.emitSite site 0x82 (off.toNat + (!ok).toNat * 2 ^ 32 + base.toNat * 2 ^ 33))
/-- The exchange of a unit as the clock makes it. -/
def State.exchange (s : State) (base : Bool) (unit : Nat) : Out :=
  let now : Int := s.counterOf base unit
  execTimingExchange base unit (16 * now) (16 * (now - s.ahead base unit)) (16 * (now - s.ahead base unit)) (16 * now) s
/-- The 1 GHz count goes up with the next cycle, and 1,024 of its ticks have passed since the last slew: a tick can be added, or
dropped without the count going back. -/
def State.slewable (s : State) (last : Int) : Bool :=
  decide (2 * s.cycle / 5 < 2 * (s.cycle + 1) / 5) && decide (last + 1024 ≤ s.rawTick)
/-- The tick that works off what is owed. -/
def slewBy (owed : Int) : Int := if 0 < owed then 1 else if owed < 0 then -1 else 0
/-- TICK_SLEW: one tick is added or dropped, while the last exchange leaves any to work off. -/
def execTickSlew (base : Bool) (unit : Nat) (s : State) : Out :=
  let x := s.die unit
  .next (if base then
      (if unit == refDie || !s.slewable x.baseSlewAt || x.baseOwed == 0 then s
       else s.onDie unit fun y =>
         { y with baseSlew := y.baseSlew + slewBy y.baseOwed, baseOwed := y.baseOwed - slewBy y.baseOwed, baseSlewAt := s.rawTick })
    else if !s.slewable x.slewAt || x.owed == 0 then s
    else s.onDie unit fun y => { y with slew := y.slew + slewBy y.owed, owed := y.owed - slewBy y.owed, slewAt := s.rawTick })
/-- The reference works off what other panels' time leaves it, a tick at most in each 4,096, half way between the exchanges, so that the
dies follow one tick before the next comes (R335, log 74). -/
def State.refSlews (s : State) : State :=
  let at_ := s.refTick % 4096
  if s.refOwed = 0 || !s.slewable s.refSlewAt || decide (s.rawTick < s.refSlewAt + 4000) || at_ < 2048 || 2080 ≤ at_ then s
  else { s with refSlew := s.refSlew + slewBy s.refOwed, refOwed := s.refOwed - slewBy s.refOwed, refSlewAt := s.rawTick }

/-! ## Span ports (R4, R335, R418) -/

/-- The site of span port n: on the memory sites of the south edge, then of the north edge (R4). -/
def spanSite (n : Nat) : Option Nat := if n < 10 then some (2 * n + 1) else if n < 20 then some (20 * 19 + 2 * (n - 10)) else none
def State.span (s : State) (n : Nat) : Span := s.spans.get Span.idle n
def State.onSpan (s : State) (n : Nat) (f : Span → Span) : State := { s with spans := s.spans.put n (f (s.span n)) }
/-- The offset of the panel from the master that an exchange gives, in ticks; half ticks are left. -/
def ptpOffset (t1 t2 t3 t4 : Int) : Int := ((t2 - t1) - (t4 - t3)).tdiv 2
/-- A message of the delay request-response exchange on a port, at a time of its base die (R335): two steps, with the times taken at the
port. A master sends Sync and Follow_Up and answers Delay_Req; a slave asks behind a Follow_Up, and the answer gives the offset. -/
def Span.take (x : Span) (now : Int) : PtpMsg → Span
  | .role m => { x with master := m, t1 := none, t2 := none, t3 := none }
  | .sync n => if x.master then { x with ptpSent := x.ptpSent ++ [.sync n, .followUp n now] }
    else { x with seq := n, t1 := none, t2 := some now, t3 := none }
  | .followUp n t => if x.master || x.seq != n || x.t2.isNone then x
    else { x with t1 := some t, t3 := some now, ptpSent := x.ptpSent ++ [.delayReq n] }
  | .delayReq n => if x.master then { x with ptpSent := x.ptpSent ++ [.delayResp n now] } else x
  | .delayResp n t4 => match x.t1, x.t2, x.t3 with
    | some t1, some t2, some t3 => if x.master || x.seq != n then x else { x with offset := ptpOffset t1 t2 t3 t4, t1 := none, t2 := none, t3 := none }
    | _, _, _ => x
/-- The answer that ends a slave's exchange. -/
def Span.ends (x : Span) : PtpMsg → Bool
  | .delayResp n _ => !x.master && x.seq == n && x.t1.isSome && x.t2.isSome && x.t3.isSome
  | .role _ | .sync _ | .followUp _ _ | .delayReq _ => false
/-- PTP_MESSAGE (R335): a message on a span port; the offset that ends an exchange is what the reference has to work off. -/
def execPtpMessage (port : Nat) (m : PtpMsg) (s : State) : Out :=
  .next (match spanSite port with
    | none => s
    | some site =>
      let t := s.onSpan port fun x => x.take (s.siteTick site) m
      if (s.span port).ends m then { t with refOwed := -(t.span port).offset } else t)
/-- The partition that a span port belongs to: that of its site's region (R418). -/
def State.spanOwner (s : State) (port : Nat) : Option Nat := (spanSite port).bind fun x => (s.region (regionOfSite x)).part
/-- SPAN_FRAME (R418): the service cores of the port's partition send a frame from a buffer at an offset of the port's home stack, or one
that arrives goes into it. What the descriptor rings look like is not given (log 96). -/
def execSpanFrame (port : Nat) (at_ : Nat) (io : SpanIo) (s : State) : Out :=
  let d := ((spanSite port).map dieOfSite).getD 0
  let pa := 2 ^ 36 * d + at_
  .next (if (s.spanOwner port).isNone then s
    else match io with
      | .send n => if Config.stackBytes < at_ + n then s
        else s.onSpan port fun x => { x with sent := x.sent ++ [(List.range n).map fun k => s.homeRead d (pa + k)] }
      | .receive l => if Config.stackBytes < at_ + l.length then s
        else (s.homeStore d pa l).onSpan port fun x => { x with received := x.received ++ [l] })

end Sys2Proof.Machine
end

