-- ==== Sys2Proof/Machine/Porter.lean ====
section
/-!
DEFINITION. GROW, the porter mailbox and child launches (spec/13 R276 to R281), and the heaps (spec/14 R298 to R301).
-/
namespace Sys2Proof.Machine

/-- An operation counted in flag B that is performed as its word issues: registers pending until it completes (R17, log 4). -/
def State.countedB (s : State) (regs : List RegRef) : State := (s.onW fun w => w.addPend regs w.flagB .counted).done false
/-- An operation counted in flag B that a unit answers. -/
def State.askedB (s : State) (regs : List RegRef) : State := (s.onW fun w => w.addPend regs w.flagB .unit).done false

/-! ## GROW (R276) -/

def execGrow (g : Guard) (sd sa : Reg) (qd : BitVec 3) (s : State) : Out :=
  .next (s.cmdWord g [.s sa.toNat, .s sd.toNat, .q qd.toNat] fun _ =>
    let k := (s.w.S sa.toNat).toNat
    let d := s.myDie
    let l := s.myBlk.launch
    let s := s.release s.myCore 3
    let c := (s.ticketOf d l).2
    let max_ := s.lpbOf (dcp d) l 24 4
    let s := if max_ < c + k then s.onW fun w => (w.setS sd.toNat 0xFFFFFFFF).setQ qd.toNat false
      else (((s.lpbSet (dcp d) l 20 4 (c + k)).ticketSwap d ((s.launch l).lpb.toNat + 16)).emitDie 0x54 d (c + (c + k) * 2 ^ 32)).onW fun w =>
        (w.setS sd.toNat (BitVec.ofNat 32 c)).setQ qd.toNat true
    s.countedB [.s sd.toNat, .q qd.toNat])

/-! ## SPAWN (R281) -/

def execSpawn (g : Guard) (sd sa : Reg) (s : State) : Out :=
  .next (s.cmdWord g (sPair sa ++ [.s sd.toNat]) fun _ =>
    if !s.w.porter then s.illegal (wordOf (.spawn g sd sa))
    else
      let d := s.myDie
      let l := s.myBlk.launch
      let a := s.w.SP sa.toNat
      let s := s.release s.myCore 3
      let r : Nat × Nat × State := if 16 ≤ (s.die d).spawns.length then (2, 0, s)
        else
          let x := s.launch l
          let t := s.takeLaunch d x.part a.toNat none none (some d) (some l) (some x.prio)
          if t.2.1 = 0 then (0, (t.2.2.launch t.1).seq, t.2.2.onDie d fun y => { y with spawns := y.spawns ++ [t.1] }) else (1, 0, t.2.2)
      ((r.2.2.emitDie 0x56 d (r.1 + r.2.1 % 2 ^ 32 * 2 ^ 32)).onW fun w => w.setS sd.toNat (BitVec.ofNat 32 r.1)).countedB [.s sd.toNat])

/-! ## PKTRX and FWD (R277 to R280) -/

def execPktrx (g : Guard) (sd : Reg) (qd : BitVec 3) (s : State) : Out :=
  let regs := ((List.range 16).map fun k => RegRef.s (sd.toNat + k)) ++ [.q qd.toNat]
  .next (s.cmdWord g regs fun _ =>
    if !s.w.porter then s.illegal (wordOf (.pktrx g sd qd))
    else
      let d := s.myDie
      let l := s.myBlk.launch
      match (s.die d).mailbox with
      | p :: t =>
        let s := (s.onDie d fun x => { x with mailbox := t }).acquire s.myCore 3
        (s.onW fun w => (((List.range 16).foldl (fun w k => w.setS (sd.toNat + k) (p.words.getD k 0)) w).setQ qd.toNat true)).countedB regs
      | [] =>
        let t := s.ticketOf d l
        let last := t.1 == t.2 && s.lpbOf (dcp d) l 108 4 ≤ (s.launch l).portersLeft - s.portersAway l
        (s.onW fun w => (w.setS sd.toNat (BitVec.ofNat 32 last.toNat)).setQ qd.toNat false).countedB regs)

/-- A packet of a warp's path has not been answered. -/
def State.fwdOut (s : State) (u : Nat) (slot : Bool) : Bool :=
  let mine := fun (p : Packet) => p.warp == u && p.slot == slot
  let holds := fun (x : Pkt) => x.fwd.any mine || x.answer.any fun a => mine a.1
  s.dies.any (fun e => e.2.fwdq.any mine) || s.sites.any (fun e => (e.2.waiting ++ e.2.spilled).any holds)
    || s.links.any fun e => e.2.flying.any fun f => holds f.1
/-- FWD: the packet goes to the die's mailbox, over the fabric when it is another die's; a die outside the partition is
answered at once. -/
def execFwd (g : Guard) (sd sa sb : Reg) (s : State) : Out :=
  .next (s.cmdWord g (((List.range 16).map fun k => .s (sa.toNat + k)) ++ [.s sb.toNat, .s sd.toNat]) fun _ =>
    if s.fwdOut s.w.uid s.w.cur then s.stall
    else
      let d := s.myDie
      let t := (s.w.S sb.toNat).toNat
      let words := (List.range 16).map fun k => s.w.S (sa.toNat + k)
      let s := s.release s.myCore 3
      if 200 ≤ t || !s.samePart d t then (s.onW fun w => w.setS sd.toNat 2).countedB [.s sd.toNat]
      else
        let slot := s.w.cur
        let s := s.askedB [.s sd.toNat]
        let p : Packet := { words := words, src := d, warp := s.w.uid, slot := slot, sd := sd.toNat, tag := s.w.lastTag }
        if t = d then s.onDie d fun x => { x with fwdq := x.fwdq ++ [p] }
        else s.inject { Pkt.plain (siteOf d) (siteOf t) vcRequest 3 with fwd := some p, warp := some s.w.uid })
/-- MAILBOX_PACKET: the next packet that has reached die n's mailbox; the porter of the running launch may be a saved one (R319). The status
goes back to another die over the fabric. -/
def execMailboxPacket (n : Nat) (s : State) : Out :=
  let x := s.die n
  .next (match x.fwdq with
    | [] => s
    | p :: t =>
      let live := match x.mailLaunch with
        | some l => (s.launch l).state == 2 && ((s.blocks.any fun e => e.2.placed && e.2.porter && e.2.launch == l && dieOfBlk e.1 == n)
          || x.saved.any fun y => y.blk.porter && y.blk.launch == l)
        | none => false
      let st := if !live then 2 else if 64 ≤ x.mailbox.length then 1 else 0
      let s := s.onDie n fun x => { x with fwdq := t, mailbox := if st = 0 then x.mailbox ++ [p] else x.mailbox }
      let s := s.emitDie 0x55 n (p.src + (st != 0).toNat * 2 ^ 8 + (s.die n).mailbox.length % 128 * 2 ^ 9)
      if p.src = n then s.onWarp p.warp fun w => (w.setS p.sd (BitVec.ofNat 32 st)).answered p.tag
      else s.inject { Pkt.plain (siteOf n) (siteOf p.src) vcResponse 1 with answer := some (p, st), warp := some p.warp })

/-! ## Heaps (R298 to R301, R412) -/

/-- An entry of the heap table that die d's control page names: h, offset, virtual base. -/
def State.heapEntry (s : State) (d i : Nat) : Nat × Nat × Nat :=
  let at_ := bits (s.die d).heaps.toNat 0 48 + 16 * i
  let a := s.peekN at_ 8
  (a % 64, a / 64 * 64 % 2 ^ 48, s.peekN (at_ + 8) 8)
/-- Table index of the heap that a selector names, and the die that manages it: member 0 of the set for a striped heap. -/
def State.heapOf (s : State) (d : Nat) (sel : Nat) : Option (Nat × Nat) :=
  if sel < 200 then (if s.samePart d sel then some (sel, sel) else none)
  else if sel = 0xFFFFFFFF then some (d, d)
  else if 0x80000000 ≤ sel && sel < 0x80000000 + 64 then
    let set := sel - 0x80000000
    let at_ := bits (s.die d).sets.toNat 0 48 + 16 * set
    if s.peekN at_ 1 = 0 then none
    else
      let home := s.peekN (s.peekN (at_ + 8) 8 % 2 ^ 48) 8 / 2 ^ 56
      if s.samePart d home then some (200 + set, home) else none
  else none
/-- The allocator's state of a heap of a die's table; before its first request, and when the table's entry is another than the one that the
heap was set up with, every byte is free (R298). -/
def State.heapAt (s : State) (d home idx : Nat) : Heap :=
  let x := s.heapState.get Heap.down (264 * home + idx)
  let e := s.heapEntry d idx
  if x.up && x.setup == e then x
  else
    let h := e.1
    let c := min h 32
    { up := true, setup := e, free := (List.range (2 ^ (h - c))).map fun k => (k * 2 ^ c, c), used := [] }
/-- Smallest class that holds a size (R299). -/
def classOf (size : Nat) : Nat := ((List.range 33).find? fun c => decide (6 ≤ c) && decide (max size 64 ≤ 2 ^ c)).getD 33
/-- Split a block of class k down to class c, keeping the lower half each time. -/
def splitTo (off c : Nat) : Nat → Tbl Nat → Tbl Nat
  | 0, t => t
  | k + 1, t => if k + 1 ≤ c then t else splitTo off c k (t.put (off + 2 ^ k) k)
/-- Allocate a block of a class: the lowest of the smallest free class that holds it. -/
def Heap.alloc (h : Heap) (c : Nat) : Option (Nat × Heap) :=
  let k := (h.free.filter fun e => c ≤ e.2).foldl (fun a e => min a e.2) 64
  match h.free.find? (·.2 == k) with
  | some (off, _) => some (off, { h with free := splitTo off c k (h.free.del off), used := h.used.put off c })
  | none => none
/-- Merge a freed block with its buddies. -/
def mergeFree : Nat → Nat → Nat → Nat → Tbl Nat → Tbl Nat
  | 0, off, c, _, t => t.put off c
  | n + 1, off, c, top, t =>
    let buddy := if off / 2 ^ c % 2 = 0 then off + 2 ^ c else off - 2 ^ c
    if c < top && t.get 64 buddy == c then mergeFree n (min off buddy) (c + 1) top (t.del buddy) else t.put off c
/-- Free the block at an offset, if one begins there. -/
def Heap.dealloc (x : Heap) (off h : Nat) : Option Heap :=
  let c := x.used.get 64 off
  if c = 64 then none else some { x with used := x.used.del off, free := mergeFree 32 off c (min h 32) x.free }

/-- A heap of the die's partition whose region holds an address: table index, managing die, offset. -/
def State.heapHolding (s : State) (d p : Nat) : Option (Nat × Nat × Nat) :=
  ((List.range 264).filterMap fun i =>
    let e := s.heapEntry d i
    match s.heapOf d (if i < 200 then i else 0x80000000 + (i - 200)) with
    | some (_, home) => if e.1 != 0 && decide (e.2.2 ≤ p) && decide (p < e.2.2 + 2 ^ e.1) then some (i, home, p - e.2.2) else none
    | none => none).head?
/-- Block fault of a heap request (R299, R300): tied to its warp and word. -/
def State.heapFault (s : State) (r : HeapReq) (code info : Nat) : State :=
  let b := (s.warp r.warp).blk
  (s.blockFault b (s.exitAt b (some r.warp) r.pc code info)).onWarp r.warp fun w => w.answered r.tag

/-- HALLOC: the request goes to the heap's allocator; a selector that names none is a block fault, and so is a die that is cut off (R329),
with the base of the heap. -/
def State.halloc (s : State) (g : Guard) (sd sa : Reg) (qd : BitVec 3) (must : Bool) : State :=
  s.cmdWord g (sPair sa ++ [.s (sa.toNat + 2)] ++ sPair sd ++ [.q qd.toNat]) fun p =>
    let d := s.myDie
    let sel := s.w.S (sa.toNat + 2)
    let size := s.w.SP sa.toNat
    match s.heapOf d sel.toNat with
    | none => s.wordFault false 7 sel.toNat 0
    | some (idx, home) =>
      if (s.heapEntry d idx).1 = 0 then s.wordFault false 7 sel.toNat 0
      else if !s.dieReach d home then s.wordFault false 3 (s.heapEntry d idx).2.2 0
      else
        let s := s.askedB (sPair sd ++ [.q qd.toNat])
        let r : HeapReq := { warp := s.w.uid, tag := s.w.lastTag, pc := p.pc, free := false, heap := idx, size := size, sel := sel, must := must,
                             sd := sd.toNat, qd := qd.toNat, p := 0 }
        s.onDie home fun x => { x with heapq := x.heapq ++ [r] }
def execHalloc (g : Guard) (sd sa : Reg) (qd : BitVec 3) (s : State) : Out := .next (s.halloc g sd sa qd false)
def execHallocF (g : Guard) (sd sa : Reg) (qd : BitVec 3) (s : State) : Out := .next (s.halloc g sd sa qd true)
/-- HFREE: the path's next clause waits for the answer. -/
def execHfree (g : Guard) (sa : Reg) (s : State) : Out :=
  .next (s.cmdWord g (sPair sa) fun p =>
    let a := s.w.SP sa.toNat
    if a = 0 then s.countedB []
    else
      let d := s.myDie
      let s := s.release s.myCore 3
      let home := ((s.heapHolding d a.toNat).map (·.2.1)).getD d
      if !s.dieReach d home then s.wordFault false 3 a.toNat 0
      else
      let s := s.askedB []
      let tag := s.w.lastTag
      let r : HeapReq := { warp := s.w.uid, tag := tag, pc := p.pc, free := true, heap := 0, size := 0, sel := 0, must := false, sd := 0, qd := 0, p := a }
      (s.onW fun w => w.onPath fun p => { p with waits := p.waits ++ [.hfree tag] }).onDie home fun x => { x with heapq := x.heapq ++ [r] })

/-- Serve an HFREE. -/
def State.serveFree (s : State) (n : Nat) (r : HeapReq) : State :=
  let d := dieOf r.warp
  let old := match s.heapHolding d r.p.toNat with
    | some (i, home, off) =>
      let e := s.heapEntry d i
      ((s.heapAt d home i).dealloc off e.1).map fun x => (264 * home + i, x)
    | none => none
  let ev := fun (s : State) (bad : Bool) => s.emit 0x61 n (cluOf r.warp % 324) (coreOf r.warp % 16) (r.warp % 16)
    (pay (r.p.toNat % 2 ^ 48 + bad.toNat * 2 ^ 48 + d * 2 ^ 49))
  let s := s.onWarp r.warp fun w => w.dropWaits (Wait.isTag [r.tag])
  match old with
  | some (k, x) => (ev { s with heapState := s.heapState.put k x } false).onWarp r.warp fun w => w.answered r.tag
  | none => (ev s true).heapFault r 7 r.p.toNat
/-- Serve a HALLOC (R299). -/
def State.serveAlloc (s : State) (n : Nat) (r : HeapReq) : State :=
  let d := dieOf r.warp
  let e := s.heapEntry d r.heap
  let c := classOf r.size.toNat
  let got := if 2 ^ 32 < r.size.toNat || min 32 e.1 < c then none else (s.heapAt d n r.heap).alloc c
  let ev := fun (s : State) (a : Nat) (bad : Bool) => s.emit 0x60 n (cluOf r.warp % 324) (coreOf r.warp % 16) (r.warp % 16)
    (pay (a % 2 ^ 48 + (c - 6) % 32 * 2 ^ 48 + bad.toNat * 2 ^ 53 + (decide (200 ≤ r.heap)).toNat * 2 ^ 54 + d * 2 ^ 55))
  let put := fun (s : State) (a : Nat) (q : Bool) => s.onWarp r.warp fun w => ((w.setSP r.sd (BitVec.ofNat 64 a)).setQ r.qd q).answered r.tag
  match got with
  | some (off, h) =>
    let s := { s with heapState := s.heapState.put (264 * n + r.heap) h }
    put ((ev s (e.2.2 + off) false).acquire (coreOf r.warp) 3) (e.2.2 + off) true
  | none => if r.must then (ev s 0 true).heapFault r 6 r.size.toNat else put (ev s 0 true) 0 false
/-- HEAP_ALLOCATOR_SERVE (R301): one request of die n's allocator. -/
def execHeapAllocatorServe (n : Nat) (s : State) : Out :=
  .next (match (s.die n).heapq with
    | [] => s
    | r :: t =>
      let s := s.onDie n fun x => { x with heapq := t }
      if r.free then s.serveFree n r else s.serveAlloc n r)

end Sys2Proof.Machine
end

