-- ==== Sys2Proof/Machine/Observe.lean ====
section
/-!
DEFINITION. Observation (spec/20 R367 to R379): counters and their snapshot, sketches, stall samples and the trace ring; and the
plain registers of a die's control page (spec/23 R412).
-/
namespace Sys2Proof.Machine

/-! ## Counters (R367 to R369) -/

/-- The die of a counter. -/
def ctrDie (key : Nat) : Nat :=
  let u := key % 2 ^ 40 / 16
  if key / 2 ^ 40 = 0 then u / 5184 else if key / 2 ^ 40 = 1 then u / 324 else u
/-- The pair that CNTR writes (R369): an identifier of level, shadow and index. -/
def State.cntrValue (s : State) (core id : Nat) : DWord :=
  let level := bits id 30 2
  let idx := bits id 0 4
  let unit := if level = 0 then core else if level = 1 then core / 16 else core / 5184
  if level = 3 || bits id 24 6 != 0 || bits id 4 19 != 0 || ctrCount level ≤ idx then BitVec.allOnes 64
  else
    let c := s.counters.get Counter.off (ctrKey level unit idx)
    let sh := bits id 23 1 == 1
    let wrap := if sh then c.swrap else c.wrap
    (if sh then c.shadow else c.value).setWidth 64 ||| (BitVec.ofNat 64 wrap.toNat <<< 48)
def execCntr (g : Guard) (sd sa : Reg) (s : State) : Out :=
  .next (s.uniWord g (.s sa.toNat :: sPair sd) fun _ =>
    let r := s.cntrValue s.myCore (s.w.S sa.toNat).toNat
    (s.onW fun w => (w.setSP sd.toNat r).addPend (sPair sd) none .timed).done false)
/-- The counter that csel selects, if there is one (R412). -/
def State.selected (s : State) (d : Nat) : Option Nat :=
  let x := (s.die d).csel.toNat
  let level := bits x 30 2
  let c := 324 * d + bits x 20 9
  if level = 3 || ctrCount level ≤ bits x 0 4 || (level ≤ 1 && 324 ≤ bits x 20 9) then none
  else some (ctrKey level (if level = 0 then 16 * c + bits x 16 4 else if level = 1 then c else d) (bits x 0 4))
/-- A write of a control word (R367): `cctl` of the die's page. -/
def State.cctl (s : State) (d : Nat) (ctl : Word) : State :=
  match s.selected d with
  | none => s
  | some key =>
    if bits ctl.toNat 10 22 != 0 then s
    else
      let c := s.counters.get Counter.off key
      let c := if ctl.getLsbD 9 then { c with value := 0, wrap := false } else c
      let c := if ctrFixed (key / 2 ^ 40) (key % 16) then c else { c with en := ctl.getLsbD 8, sel := ctl.extractLsb' 0 8 }
      { s with counters := s.counters.put key c }
/-- COUNTER_CLEAR: a control word whose clr bit is 1. -/
def execCounterClear (p : Page) (ctl : Word) (s : State) : Out := .next (s.onPage p fun d => if ctl.getLsbD 9 then s.cctl d ctl else s)
/-- COUNTER_CONFIGURE. -/
def execCounterConfigure (p : Page) (ctl : Word) (s : State) : Out := .next (s.onPage p fun d => s.cctl d ctl)

/-! ## The snapshot (R370, R371) -/

/-- The arbiter of a partition takes a request for a snapshot at a tick: 0 pending now, 2 one is pending already. -/
def State.askSnapshot (s : State) (p t : Nat) : Nat × State :=
  if (s.part p).snap.isSome then (2, s)
  else (0, (s.diesOf p).foldl (fun s d => s.onDie d fun x => { x with snap := some t }) (s.onPart p fun x => { x with snap := some t }))
def execSnap (g : Guard) (sd sa : Reg) (s : State) : Out :=
  .next (s.cmdWord g (sPair sa ++ [.s sd.toNat]) fun _ =>
    let t := (s.w.SP sa.toNat).toNat
    let r := if t < s.tick s.myDie + 4000 then (1, s) else s.askSnapshot (s.launch s.myBlk.launch).part t
    (r.2.onW fun w => w.setS sd.toNat (BitVec.ofNat 32 r.1)).countedB [.s sd.toNat])
/-- SNAPSHOT_LATCH: at the die's first cycle with %tick ≥ T; the clock tests every die in every cycle. -/
def execSnapshotLatch (d : Nat) (s : State) : Out :=
  .next (match (s.die d).snap with
    | none => s
    | some t =>
      if s.tick d < t then s
      else
        let latch := fun (k : Nat) (c : Counter) => if ctrDie k = d then { c with shadow := c.value, swrap := c.wrap } else c
        let s1 := ({ s with counters := s.counters.mapV latch }).onDie d fun x => { x with snap := none }
        let s2 := match s1.partOf d with
          | some p => if s1.dies.any (fun e => e.2.snap.isSome && s1.partOf e.1 == some p) then s1 else s1.onPart p fun x => { x with snap := none }
          | none => s1
        s2.emitDie 0xA0 d t)

/-! ## Sketches (R372, R373) -/

/-- The constants a_i and b_i. -/
def sketchA : List Nat := [0x9E3779B97F4A7C15, 0xC2B2AE3D27D4EB4F, 0x165667B19E3779F9, 0xD6E8FEB86659FD93]
def sketchB : List Nat := [0x27D4EB2F165667C5, 0x85EBCA77C2B2AE63, 0x94D049BB133111EB, 0xBF58476D1CE4E5B9]
/-- Column of a key in a row. -/
def sketchCol (row x : Nat) : Nat := (sketchA.getD row 0 * x + sketchB.getD row 0) % 2 ^ 64 / 2 ^ 53
def sketchKey (k row col : Nat) : Nat := 8192 * k + 2048 * row + col
/-- SketchAdd on a die, with SKSAT. -/
def State.sketchAdd (s : State) (d k x w : Nat) : State :=
  let y := s.die d
  if w = 0 then s
  else if y.skFreeze.get false k then
    s.onDie d fun y => { y with skDropped := y.skDropped.set 0 k (BitVec.ofNat 32 (min ((y.skDropped.get 0 k).toNat + 1) 0xFFFFFFFF)) }
  else
    let keys := (List.range 4).map fun i => sketchKey k i (sketchCol i x)
    let capped := keys.any fun q => decide (0xFFFFFFFF < (y.sketch.get 0 q).toNat + w)
    let add := fun (t : Tbl Word) q => t.set 0 q (BitVec.ofNat 32 (min ((t.get 0 q).toNat + w) 0xFFFFFFFF))
    let s := s.onDie d fun y => { y with sketch := keys.foldl add y.sketch, skN := y.skN.set 0 k (y.skN.get 0 k + BitVec.ofNat 64 w),
                                         skSat := y.skSat.set false k (y.skSat.get false k || capped) }
    if capped && !y.skSat.get false k then s.emitDie 0xA2 d k else s
/-- SKINC. -/
def State.skinc (s : State) (g : Guard) (k : Nat) (sa sb : Reg) : State :=
  s.uniWord g (sPair sa ++ [.s sb.toNat]) fun _ =>
    (s.sketchAdd s.myDie k (s.w.SP sa.toNat).toNat (s.w.S sb.toNat).toNat).done false
def execSkincPc (g : Guard) (sa sb : Reg) (s : State) : Out := .next (s.skinc g 0 sa sb)
def execSkincKn (g : Guard) (sa sb : Reg) (s : State) : Out := .next (s.skinc g 1 sa sb)
/-- A write of skctl (R412): freeze and clear of the sketch that bit 2 names. -/
def State.skctlWrite (s : State) (d : Nat) (v : DWord) : State :=
  let k := bits v.toNat 2 1
  let mine := fun (q : Nat) => decide (q / 8192 = k)
  s.onDie d fun x =>
    let x := { x with skctl := v &&& 0x3FFFD, skFreeze := x.skFreeze.set false k (v.getLsbD 0) }
    if v.getLsbD 1 then
      { x with sketch := x.sketch.filter (fun e => !mine e.1), skN := x.skN.set 0 k 0, skSat := x.skSat.set false k false,
               skDropped := x.skDropped.set 0 k 0 }
    else x
def execSketchFreeze (p : Page) (v : DWord) (s : State) : Out := .next (s.onPage p fun d => s.skctlWrite d v)
/-- SKETCH_CLEAR: a write whose clear bit is 1. -/
def execSketchClear (p : Page) (v : DWord) (s : State) : Out := .next (s.onPage p fun d => if v.getLsbD 1 then s.skctlWrite d v else s)

/-! ## The trace ring (R375, R376, R420) -/

/-- Fields of the ring's descriptor, as the die reads them. -/
structure Ring where
  at_ : Nat
  base : Nat
  size : Nat
  en : Nat
  wp : Nat
  rp : Nat
  deriving DecidableEq, Repr
/-- The ring, unless it is disabled. -/
def State.ring (s : State) (d : Nat) : Option Ring :=
  let c := dcp d
  let t := (s.die d).trdesc.toNat
  let q := fun o n => s.vaRead c (t + o) n
  let sz := q 8 1
  if sz < 12 || 32 < sz then none else some ⟨t, q 0 8 % 2 ^ 48, 2 ^ sz, q 9 1 % 4, q 16 8, q 24 8⟩
/-- Bytes of the ring that are free. -/
def Ring.free (r : Ring) : Nat := r.size - (r.wp + 2 ^ 64 - r.rp) % 2 ^ 64
/-- A record is dropped (R376): lost, die counter 14, and the gap to report. -/
def State.traceDrop (s : State) (d : Nat) : State :=
  let c := dcp d
  let t := (s.die d).trdesc.toNat
  let now := s.tick d
  let s := s.vaWrite c (t + 32) (bytesOf 8 (s.vaRead c (t + 32) 8 + 1))
  (s.countFixed 2 d 14 1).onDie d fun x => { x with gap := match x.gap with
    | some (n, a, _) => some (n + 1, a, now)
    | none => some (1, now, now) }
/-- What comes of the write of a trace record: it is written, it cannot be, or a page holds it. -/
inductive Traced where
  | wrote (s : State)
  | drops
  | waits (s : State)
/-- Write one record behind the last. -/
def State.tracePut (s : State) (d : Nat) (r : Ring) (l : List Byte) : Traced :=
  match s.physOf (dcp d) .engWrite (r.base + r.wp % r.size) 32 with
  | .ok ps =>
    let s := (ps.zip l).foldl (fun s p => s.engWrite d p.1 p.2) s
    .wrote { s.vaWrite (dcp d) (r.at_ + 16) (bytesOf 8 (r.wp + 32)) with traced := true }
  | .err _ _ | .poison _ => .drops
  | .absent va _ =>
    let pg := (s.translate (dcp d) va .engWrite).page
    let f := s.openFault d pg.1 pg.2 0 0 0xF 0xFF 5
    .waits (f.2.onDie d fun x => { x with traceHeld := some f.1 })
/-- Write the records of a die in order while they can be; a gap record goes before the first that finds 64 free bytes. A gap record that
cannot be written is dropped and counted itself, with the record behind it, which goes to the same place; TRGAP shows one that is
written (R376, R379, R420). -/
def State.traceDrain (s : State) (d : Nat) : Nat → State
  | 0 => s
  | n + 1 =>
    let x := s.die d
    if x.traceHeld.isSome then s
    else match x.traceq with
      | [] => s
      | l :: t =>
        let pop := fun (s : State) => s.onDie d fun x => { x with traceq := t }
        match s.ring d with
        | none => (pop s).traceDrain d n
        | some r =>
          let kind := bits (ofBytes (l.take 8)) 60 4
          if (kind = 1 && !r.en.testBit 0) || (kind = 3 && !r.en.testBit 1) then (pop s).traceDrain d n
          else match x.gap with
            | none =>
              if r.free < 32 then (pop (s.traceDrop d)).traceDrain d n
              else match s.tracePut d r l with
                | .wrote s => (pop s).traceDrain d n
                | .drops => (pop (s.traceDrop d)).traceDrain d n
                | .waits s => s
            | some (k, a, b) =>
              let at_ := x.gapHeld.getD (s.tick d)
              if r.free < 64 then (pop (s.traceDrop d)).traceDrain d n
              else match s.tracePut d r (traceRecord 2 d 0x1FF 0xF 0x1F (min k 0xFFFFFFFF) at_ a b) with
                | .wrote s => ((s.onDie d fun x => { x with gap := none, gapHeld := none }).emitDie 0xA1 d (min k 0xFFFFFFFF)).traceDrain d n
                | .drops => (pop (((s.traceDrop d).traceDrop d).onDie d fun x => { x with gapHeld := none })).traceDrain d n
                | .waits s => s.onDie d fun x => { x with gapHeld := some at_ }
/-- The record that a page holds is dropped: the gap record, if it is that (R420). -/
def State.traceFail (s : State) (d : Nat) : State :=
  (s.onDie d fun x =>
    { x with traceHeld := none, gapHeld := none, traceq := if x.gapHeld.isSome then x.traceq else x.traceq.drop 1 }).traceDrop d
/-- In each cycle from the first trace record written on, while trace flits may be on their way, the flits of each die may have waited
behind one (R377, log 6). -/
def State.traceDelays (s : State) : State :=
  let n := s.draw
  (List.range Config.dies).foldl (fun s d =>
    if Config.traceWaits (200 * n.1 + d) then s.onDie d fun x => { x with trdelay := x.trdelay + 1 } else s) n.2
/-- Every die writes what waits. -/
def State.traceAll (s : State) : State :=
  let t := s.dies.foldl (fun s e => if e.2.traceq.isEmpty then s else s.traceDrain e.1 (2 * e.2.traceq.length + 2)) s
  if t.traced then t.traceDelays else t
/-- TRACE_RING_SETUP: records not yet written are dropped and counted. -/
def execTraceRingSetup (p : Page) (v : DWord) (s : State) : Out :=
  .next (s.onPage p fun d =>
    let n := (s.die d).traceq.length
    let s := s.onDie d fun x => { x with trdesc := v &&& 0xFFFFFFFFFFFF, traceq := [], traceHeld := none, gapHeld := none }
    (List.range n).foldl (fun s _ => s.traceDrop d) s)

/-! ## Stall samples (R374) -/

/-- The flags that hold the clause at an address, lowest first. -/
def State.waitedFlag (s : State) (w : Warp) (pc : Addr) : Option Nat :=
  (List.range 12).find? fun k => (s.waitMask (coreOf w.uid) pc).getLsbD k && w.f.get 0 k != 0
/-- The path that issues next: one inside its clause that goes on, or the one that R46 would choose; where neither is ready, the one that
issued last. With no live path it is what the top of the divergence stack will bring (log 93). -/
def State.nextPath (s : State) (w : Warp) : Path :=
  let runs := (w.slotPath w.cur).any (·.clause.isSome) && s.pathCan w w.cur
  let slot := if runs then w.cur else (s.chooseOf w).getD w.cur
  ((w.slotPath slot).or (w.slotPath (!slot))).getD
    { pc := match w.stk.head? with
        | some (.frame join _ _ _) => join
        | some (.pending pc _ _) => pc
        | none => 0,
      mask := 0, join := none, clause := none, src := 0, waits := [], held := false }
/-- Reason and producer of a wait inside a clause: a FENCE or a TBARRIVE that holds its path (R169, R341) shows in no attempt to issue. -/
def State.heldReason (s : State) (w : Warp) (p : Path) : Nat × Addr :=
  let guard_ := match (p.clause.bind fun c => c.words.head?).map decodeWord with
    | some (.ok (.fence g _ _)) | some (.ok (.tbarrive g _)) => [RegRef.q g.p.toNat]
    | _ => []
  match s.inner w p with
  | .free => if w.stalled then w.why else (12, 0)
  | .fence => if w.blocked guard_ then (4, w.producer fun q => q.regs.any guard_.contains) else (7, p.pc)
  | .arrive => if w.blocked guard_ then (4, w.producer fun q => q.regs.any guard_.contains) else (12, 0)
/-- Reason and producer of a wait at a boundary. -/
def Warp.waitReason (w : Warp) : List Wait → Option (Nat × Addr)
  | [] => none
  | .arriving _ t :: _ => some (8, w.producer fun p => p.tag == t)
  | .barw _ _ t :: _ => some (8, w.producer fun p => p.tag == t)
  | .tbar _ _ _ t :: _ => some (8, w.producer fun p => p.tag == t)
  | .rendez pc :: _ => some (8, pc)
  | .awaitf _ _ t :: _ => some (9, w.producer fun p => p.tag == t)
  | .twait _ pc :: _ => some (10, pc)
  | .hfree _ :: _ => some (12, 0)
/-- Reason and producer PC of a sample: the first of the table that applies. A word that could have issued and did not was behind an older
warp's, so a unit was busy. -/
def State.stallReason (s : State) (w : Warp) (p : Path) : Nat × Addr :=
  let last := match w.pushed with
    | some pc => (11, pc)
    | none => if w.needsRefill then (11, 0) else (12, 0)
  if w.ranAt = s.cycle + 1 then (0, 0)
  else if w.susp.isSome then (1, p.pc)
  else if p.held && w.handling then (2, w.trpc)
  else if !w.active then (3, 0)
  else if p.clause.isSome then s.heldReason w p
  else match s.waitedFlag w p.pc with
    | some k => (5, w.lastProducer fun q => q.flag == some k)
    | none => (w.waitReason p.waits).getD last
/-- The position that a core samples next: its resident warps in turn. -/
def State.sampleTurn (s : State) (core : Nat) : Option Nat :=
  let pos := (s.resident core).map (· % 16)
  (pos.find? fun k => (s.core core).samplePos ≤ k).or pos.head?
/-- STALL_SAMPLE: at the multiples of the period in the count of cycles. -/
def execStallSample (core pos : Nat) (s : State) : Out :=
  let d := core / 5184
  let u := 16 * core + pos
  let w := s.warp u
  let k := s.blk w.blk
  .next (if (s.die d).samp < 8 || 20 < (s.die d).samp || s.cycle % 2 ^ (s.die d).samp != 0 || s.sampleTurn core != some pos then s
    else
      let s := (s.onCore core fun x => { x with samplePos := (pos + 1) % 16 }).countCore core 15 1
      let p := s.nextPath w
      let r := s.stallReason w p
      let rec_ := traceRecord 1 d (core / 16 % 324) (core % 16) pos (r.1 + (s.launch k.launch).seq % 2 ^ 24 * 256) (s.tick d) p.pc.toNat r.2.toNat
      let s := s.onDie d fun x => { x with traceq := x.traceq ++ [rec_] }
      (s.sketchAdd d 0 (if r.2 = 0 then p.pc.toNat else r.2.toNat) 1).sketchAdd d 1 k.kd.toNat 1)

/-! ## The control page (R412) -/

/-- The item that skctl selects (R372, R412). -/
def Die.skdata (x : Die) : Nat :=
  let v := x.skctl.toNat
  let k := bits v 2 1
  match bits v 3 2 with
  | 0 => (x.sketch.get 0 (sketchKey k (bits v 5 2) (bits v 7 11))).toNat
  | 1 => (x.skN.get 0 k).toNat
  | 2 => (x.skSat.get false k).toNat
  | _ => (x.skDropped.get 0 k).toNat
/-- The control word of a counter as it reads: a fixed counter counts always, and clr reads 0 (R367). -/
def State.ctrControl (s : State) (key : Nat) : Nat :=
  let c := s.counters.get Counter.off key
  c.sel.toNat + (c.en || ctrFixed (key / 2 ^ 40) (key % 16)).toNat * 2 ^ 8
/-- What a read of a register of a die's control page gives (R412); offsets that are not listed, and registers that are only written,
read 0. -/
def State.controlRead (s : State) (d off : Nat) : Nat :=
  let x := s.die d
  match off with
  | 0x000 => x.troot.toNat
  | 0x008 => x.invalBusy.toNat
  | 0x010 => x.sets.toNat
  | 0x018 => x.heaps.toNat
  | 0x020 => x.fq.toNat
  | 0x028 => x.fqwp.toNat
  | 0x038 => x.trdesc.toNat
  | 0x040 => x.save.toNat
  | 0x048 => x.samp
  | 0x050 => x.fqrp.toNat
  | 0x080 => x.csel.toNat
  | 0x084 => ((s.selected d).map s.ctrControl).getD 0
  | 0x088 => ((s.selected d).map fun k => (s.counters.get Counter.off k).value.toNat + (s.counters.get Counter.off k).wrap.toNat * 2 ^ 48).getD 0
  | 0x0C0 => x.skctl.toNat
  | 0x0C8 => x.skdata
  | 0x108 => (s.region (regionOf d)).limit.toNat
  | 0x110 => x.beat.toNat
  | _ => 0

/-- CONTROL_PAGE_WRITE: the registers with no row of their own; other offsets ignore writes. -/
def execControlPageWrite (p : Page) (off : Nat) (v : DWord) (s : State) : Out :=
  let low := v &&& 0xFFFFFFFFFFFF
  .next (s.onPage p fun d => if off = 0x000 then s.onDie d fun x => { x with troot := low }
    else if off = 0x010 then s.onDie d fun x => { x with sets := low }
    else if off = 0x018 then s.onDie d fun x => { x with heaps := low }
    else if off = 0x040 then s.onDie d fun x => { x with save := v &&& 0xFFFFFFFFFFFFFF }
    else if off = 0x048 then s.onDie d fun x => { x with samp := bits v.toNat 0 5 }
    else if off = 0x080 then s.onDie d fun x => { x with csel := v.setWidth 32 &&& 0xDFFF000F }
    else if off = 0x110 then
      let t := s.onDie d fun x => { x with beat := v }
      if d = 0 && v != (s.die 0).beat then { t with beatTick := s.tick 199 } else t
    else s)

end Sys2Proof.Machine
end

