-- ==== Sys2Proof/Machine/Fault.lean ====
section
/-!
DEFINITION. Walks, invalidation, and the closing of fault entries (spec/15 R305 to R312, R420).
-/
namespace Sys2Proof.Machine

/-- A leaf enters a TLB of n entries, the last of them; the first makes room. -/
def tlbPut (n : Nat) (leaf : TlbEntry) (t : List TlbEntry) : List TlbEntry :=
  let t := t.filter fun e => e.va != leaf.va || e.size != leaf.size
  t.drop (t.length + 1 - n) ++ [leaf]
/-- TRANSLATION_WALK (R305, R306): a translated leaf enters the cluster's TLB of 1,024 entries and, where a core asked, the core's
micro-TLB of 64; no other outcome is cached. -/
def execTranslationWalk (walker : Walker) (va : Addr) (kind : AccKind) (s : State) : Out :=
  let c := match walker with
    | .core u => u / 16
    | .cluster c => c
  let t := s.walkReads (c / 324) va.toNat
  .next (match s.walk (c / 324) va.toNat kind with
    | .ok _ leaf =>
      let s := t.onClu c fun x => { x with tlb := tlbPut 1024 leaf x.tlb }
      match walker with
      | .core u => s.onCore u fun x => { x with utlb := tlbPut 64 leaf x.utlb }
      | .cluster _ => s
    | .noMap | .denied | .notPresent _ _ => t)

/-- Hold marks that match become free. -/
def unheld (n : Option Nat) (h : Option (Option Nat)) : Option (Option Nat) := if h == some n then none else h
/-- Every requester of a die that waits on entry n (untabled for none) tries again: warps, streams, engines and the port. -/
def State.walkAgain (s : State) (d : Nat) (n : Option Nat) : State :=
  let free := fun (w : Warp) => match w.susp with
    | some x => if x.entry == n && dieOf w.uid == d then { w with susp := none } else w
    | none => w
  let go := fun (t : Stream) => { t with held := unheld n t.held }
  let blk := fun (b : Nat) (k : Block) => if dieOfBlk b = d then { k with m := go k.m, c := go k.c } else k
  let eng := fun (g : Eng) => { g with held := unheld n g.held }
  let prt := fun (o : PortOp) => { o with held := unheld n o.held }
  let clu := fun (c : Nat) (x : Cluster) => if c / 324 = d then { x with engs := x.engs.map eng, port := x.port.map prt } else x
  let die := fun (n' : Nat) (x : Die) => if n' = d then { x with traceHeld := unheld n x.traceHeld } else x
  { s with dies := s.dies.mapV die, w := free s.w, warps := s.warps.mapV (fun _ w => free w), blocks := s.blocks.mapV blk, clusters := s.clusters.mapV clu }
/-- Records that wait on an entry are tried again (R420). -/
def State.recordsAgain (s : State) (d : Nat) (n : Option Nat) : State :=
  let mine := (s.die d).recq.filter (·.entry == n)
  if mine.isEmpty then s
  else
    let s := s.onDie d fun x => { x with recq := x.recq.filter (·.entry != n) }
    mine.foldl (fun s r =>
      let t := s.tryRecord r
      if t.1 then match r.kind with
        | .exit l p => t.2.exitDone d l p
        | .error _ | .tack _ => t.2
      else t.2) s
/-- Untabled requesters of a die walk again. -/
def State.untabled (s : State) (d : Nat) : State := (s.walkAgain d none).recordsAgain d none

/-- A warp whose entry closed with fail (R310, R311): the target of a transfer (R120) and an update of the divergence stack (R53)
are tried again with the page counting as not mapped; any other access ends the block with XLATE, and the warp stands where it
is (R315). -/
def State.warpFailed (s : State) (u : Nat) (x : Suspend) : State :=
  if x.soft then s.onWarp u fun w => { w with susp := none, failed := true }
  else (s.onWarp u fun w => { w with susp := none, frozen := true }).warpFault u 3 0 false (((s.warp u).path.map (·.pc)).getD 0) x.va x.lanes
/-- Every waiter of an entry takes the path of an address with no mapping (R310, R312). -/
def State.failWaiters (s : State) (d e : Nat) : State :=
  let on := fun (w : Warp) => match w.susp with
    | some x => if x.entry == some e && dieOf w.uid == d then some (w.uid, x) else none
    | none => none
  let ws := (s.w :: s.warps.map (·.2)).filterMap on
  let s := ws.foldl (fun s p => s.warpFailed p.1 p.2) s
  let bs := (s.blocks.filter fun b => dieOfBlk b.1 == d).map (·.1)
  let held := fun (t : Stream) => t.held == some (some e)
  let s := bs.foldl (fun s b => if held (s.blk b).m then (s.onStreamOf b true fun t => { t with held := none }).streamFetchBad b true else s) s
  let s := bs.foldl (fun s b => if held (s.blk b).c then (s.onStreamOf b false fun t => { t with held := none }).streamFetchBad b false else s) s
  let cs := (s.clusters.filter fun c => c.1 / 324 == d).map (·.1)
  let s := cs.foldl (fun s c => (s.clu c).engs.foldl (fun s g => if g.held == some (some e) then s.engFailed c g g.heldVa else s) s) s
  let s := cs.foldl (fun s c => match (s.clu c).port with
    | o :: _ => if o.held == some (some e) then s.portError c o o.heldVa else s
    | [] => s) s
  let s := if (s.die d).traceHeld == some (some e) then s.traceFail d else s
  let rs := (s.die d).recq.filter (·.entry == some e)
  let s := s.onDie d fun x => { x with recq := x.recq.filter (·.entry != some e) }
  rs.foldl (fun s r => match r.kind with
    | .exit l p => (s.dropRecord r).exitDone d l p
    | .error _ | .tack _ => s.dropRecord r) s
/-- RESOLVE (R310). -/
def execResolve (p : Page) (word : DWord) (s : State) : Out :=
  let x := word.toNat
  let e := bits x 0 8
  let fail := bits x 8 2 == 1
  .next (s.onPage p fun d => if bits x 10 54 != 0 || 2 ≤ bits x 8 2 then s
    else match (s.die d).fct.get none e with
      | none => s
      | some f =>
        let s := (s.onDie d fun y => { y with fct := y.fct.put e none }).emitDie 0x71 d (f.waiters % 65536 + e * 2 ^ 16 + fail.toNat * 2 ^ 24)
        let s := if fail then s.failWaiters d e else (s.walkAgain d (some e)).recordsAgain d (some e)
        s.untabled d)
/-- FQRP_WRITE and FQ_WRITE (R309). -/
def execFqrpWrite (p : Page) (v : DWord) (s : State) : Out := .next (s.onPage p fun d => (s.onDie d fun x => { x with fqrp := v }).untabled d)
def execFqWrite (p : Page) (v : DWord) (s : State) : Out :=
  .next (s.onPage p fun d => (s.onDie d fun x => { x with fq := v &&& 0xFFFFFFFFFFFFFF, fqSet := true }).untabled d)
/-- INVAL (R306, R412): the register reads 1 until the invalidation completes. -/
def execInval (p : Page) (v : DWord) (s : State) : Out := .next (s.onPage p fun d => s.onDie d fun x => { x with inval := v, invalBusy := true })
/-- INVAL_COMPLETE: every TLB and micro-TLB of the die drops what the page covers. -/
def execInvalComplete (d : Nat) (s : State) : Out :=
  let x := s.die d
  let va := x.inval.toNat / 65536 * 65536
  let n := pageBytes (bits x.inval.toNat 0 2)
  let lo := va / n * n
  let keep := fun (e : TlbEntry) => e.va + pageBytes e.size ≤ lo || lo + n ≤ e.va
  let clu := fun (c : Nat) (y : Cluster) => if c / 324 = d then { y with tlb := y.tlb.filter keep } else y
  let core := fun (u : Nat) (y : CoreS) => if u / 16 / 324 = d then { y with utlb := y.utlb.filter keep } else y
  .next (if !x.invalBusy then s
    else ({ s with clusters := s.clusters.mapV clu, cores := s.cores.mapV core }).onDie d fun y => { y with invalBusy := false })

end Sys2Proof.Machine
end

