-- ==== Sys2Proof/Machine/Panel.lean ====
section
/-!
DEFINITION. Service requests (spec/23 R417), wipes (R415), reset, partitions, the supervisor and attestation (R411, R416).
-/
namespace Sys2Proof.Machine

/-! ## Service requests -/

/-- SYSCALL (R417): device-scope release actions, then the request. -/
def execSyscall (g : Guard) (sd sa : Reg) (n : BitVec 8) (s : State) : Out :=
  .next (s.cmdWord g (sPair sa ++ [.s sd.toNat]) fun _ =>
    let d := s.myDie
    let x := s.w.SP sa.toNat
    let s := s.release s.myCore 3
    if !(s.die d).image then (s.onW fun w => w.setS sd.toNat 0xFFFFFFFF).countedB [.s sd.toNat]
    else
      let s := s.askedB [.s sd.toNat]
      let r : Syscall := { warp := s.w.uid, tag := s.w.lastTag, n := n.toNat, arg := x, sd := sd.toNat }
      s.onDie d fun y => { y with syscalls := y.syscalls ++ [r] })
/-- SYSCALL_ANSWER: the service core of die d answers the first request with this number. -/
def execSyscallAnswer (d tag : Nat) (answer : Word) (s : State) : Out :=
  .next (match (s.die d).syscalls.find? (·.tag == tag) with
    | none => s
    | some r =>
      let s := s.onDie d fun y => { y with syscalls := y.syscalls.erase r }
      (s.onWarp r.warp fun w => (w.setS r.sd answer).answered r.tag).acquire (coreOf r.warp) 3)

/-! ## Wipes (R415) -/

/-- The die of a key of the byte store: the core's for local memory, the home stack's for plain memory, none for host memory. -/
def dieOfKey (k : Nat) : Option Nat :=
  if 2 ^ 48 ≤ k then some ((k - 2 ^ 48) / 2 ^ 18 / 16 / 324) else homeDie k
/-- The die of a counter's key. -/
def dieOfCtr (k : Nat) : Nat :=
  let u := k % 2 ^ 40 / 16
  if k / 2 ^ 40 = 0 then u / 16 / 324 else if k / 2 ^ 40 = 1 then u / 324 else u
/-- A warp's register files at 0. -/
def Warp.wiped (w : Warp) : Warp := { w with v := [], p := [], s := [], q := [] }
/-- A wiped die: its L2, RDC, fault table, mailbox, save slots, automata, filters and sketches. -/
def Die.wiped (x : Die) : Die :=
  { x with rdc := [], fifo := [], l2 := [], fct := [], mailbox := [], saved := [], slotsUsed := [], ef := [], tk := [], sketch := [], skN := [], skSat := [], skDropped := [] }
/-- A cluster's TLBs emptied and its granules valid and 0. -/
def Cluster.wiped (x : Cluster) : Cluster := { x with tlb := [], invalid := [] }
def CoreS.wiped (x : CoreS) : CoreS := { x with l1 := [], fifo := [], victims := [], utlb := [] }
/-- A cleared counter. -/
def Counter.cleared (c : Counter) : Counter := { c with value := 0, wrap := false, shadow := 0, swrap := false }
/-- Wipe the dies in a scope, with their home stacks; the filters of their automata leave the other dies (R390). -/
def State.wipe (s : State) (scope : Nat → Bool) : State :=
  { s with
    w := if scope (dieOf s.w.uid) then s.w.wiped else s.w
    warps := s.warps.mapV fun u w => if scope (dieOf u) then w.wiped else w
    cores := s.cores.mapV fun c x => if scope (c / 16 / 324) then x.wiped else x
    clusters := s.clusters.mapV fun c x => if scope (c / 324) then x.wiped else x
    dies := s.dies.mapV fun d x => if scope d then x.wiped else { x with ef := x.ef.filter fun e => !e.2.any fun f => scope (f.owner / 4) }
    acc := s.acc.filter fun e => !scope (e.1 / 4096 / 32 / 324)
    mem := s.mem.filter fun e => !(dieOfKey e.1).any scope
    rowValid := s.rowValid.filter fun e => !scope (e.1 / 4096 / 16 / 324)
    poison := s.poison.filter fun e => !(homeDie (128 * e.1)).any scope
    counters := s.counters.mapV fun k c => if scope (dieOfCtr k) then c.cleared else c }

/-! ## Reset, life cycle, partitions -/

/-- PANEL_RESET (R416): the boot checks the supervisor image. The panel comes up wiped with its time at 0 (R332), or stays
in reset. Host memory is not the panel's. Regions join partitions by REGION_ASSIGN (log 13). -/
def execPanelReset (signed : Bool) (s : State) : Out :=
  .next { State.reset with
    mem := s.mem.filter fun e => (dieOfKey e.1).isNone
    inReset := !signed, lifeCycle := s.lifeCycle, fresh := s.fresh, sched := s.sched }
/-- LIFE_CYCLE_CHANGE (R415): all is wiped; retirements stand. -/
def execLifeCycleChange (phase : Nat) (s : State) : Out := .next { (s.wipe fun _ => true) with lifeCycle := phase }

/-- A partition is drained (R411): no launch of it has state 1 or 2. -/
def State.drained (s : State) (p : Nat) : Bool := s.launches.all fun e => e.2.part != p || (e.2.state != 1 && e.2.state != 2)
/-- The banded latency table (R336) as words: band, distances, latencies, skew. -/
def latencyTable : List Nat :=
  [0, 0, 0, 18, 60, 1, 1, 2, 2, 64, 120, 3, 2, 4, 8, 96, 250, 6, 3, 10, 18, 200, 460, 12, 4, 20, 0xFFFFFFFF, 380, 880, 20, 38, 28]
/-- An entry of the capability list at an address (R419): header, words, zeros up to a multiple of 8. -/
def capEntry (id at_ : Nat) (last : Bool) (ws : List Nat) : List Byte :=
  let len := (16 + 4 * ws.length + 7) / 8 * 8
  bytesOf 2 id ++ bytesOf 2 1 ++ bytesOf 4 len ++ bytesOf 8 (if last then 0 else at_ + len)
    ++ bytesOf (len - 16) (ws.foldr (fun w a => w + 2 ^ 32 * a) 0)
/-- The capability list of a partition (R419), for a first entry at `va`. -/
def Partition.capList (x : Partition) (va mask : Nat) : List Byte :=
  let e1 := capEntry 1 va false [Config.width, 16, 3, 7, 7, 4, 32]
  let e2 := capEntry 2 (va + e1.length) false latencyTable
  let e3 := capEntry 3 (va + e1.length + e2.length) false [mask, x.queues.toNat % 2 ^ 32, x.queues.toNat / 2 ^ 32]
  e1 ++ e2 ++ e3 ++ capEntry 4 (va + e1.length + e2.length + e3.length) true (x.ports.flatMap fun p => [p.1, p.2])
/-- The regions of a partition as a mask. -/
def State.regionMask (s : State) (p : Nat) : Nat :=
  ((List.range 16).filter fun r => (s.region r).part == some p).foldl (fun m r => m + 2 ^ r) 0
/-- A site holds a host port (R4): the memory sites of the west and the east edge. -/
def hostSite (p : Nat × Nat) : Bool := (p.1 == 0 && p.2 % 2 == 1 || p.1 == 19 && p.2 % 2 == 0) && decide (p.2 < 20)
/-- The host ports of a list that are free for a partition (R414). -/
def State.portsFor (s : State) (part : Nat) (ports : List (Nat × Nat)) : List (Nat × Nat) :=
  ports.eraseDups.filter fun x => hostSite x && s.parts.all fun e => e.1 == part || !e.2.formed || !e.2.ports.contains x
/-- The site of host port n: on the west edge, then on the east edge (R4). -/
def hostPortSite (n : Nat) : Option (Nat × Nat) := if n < 10 then some (0, 2 * n + 1) else if n < 20 then some (19, 2 * (n - 10)) else none
/-- The partition that a host port is assigned to (R414). -/
def State.hostPartition (s : State) (port : Nat) : Option Nat := match hostPortSite port with
  | none => none
  | some x => (s.parts.find? fun e => e.2.formed && e.2.ports.contains x).map (·.1)
/-- A region may leave its partition: not the one that holds the partition's queue table while others stay, since the address of the
table does not change while the partition stands (R413, log 54). -/
def State.mayLeave (s : State) (r : Nat) : Bool := match (s.region r).part with
  | none => true
  | some q =>
    !((List.range 16).any fun k => k != r && (s.region k).part == some q) || regionOf (bits (s.part q).queues.toNat 36 8) != r
/-- A partition takes a region: one that stands, or one that is formed with its queue table in plain device memory of the region
(R413). -/
def State.mayJoin (s : State) (r part : Nat) (queues : Addr) : Bool :=
  let q := queues.toNat
  (List.range 16).any (fun k => k != r && (s.region k).part == some part)
    || (q % 64 == 0 && paKind q == 0 && paOk q && paOk (q + 4095) && regionOf (bits q 36 8) == r)
/-- A region joins a partition (R411): its dies take the partition's translation, and its image if it passes its check (R416). A
partition that is formed takes its queue table (R413), and the supervisor builds the capability list at `listAt` (R419). -/
def State.join (s : State) (r : Nat) (j : Joining) (limit : Nat) (troot capbase : Addr) (listAt : Nat) (queues : Addr)
    (ports : List (Nat × Nat)) : State :=
  let stands := (s.part j.part).formed
  let s := s.onRegion r fun x => { x with part := some j.part, limit := BitVec.ofNat 10 limit }
  let s := (diesOfRegion r).foldl (fun s d => s.onDie d fun x => { x with troot := troot, image := j.signed }) s
  let s := s.onPart j.part fun x =>
    { x with formed := true, draining := false, capbase := capbase, queues := if stands then x.queues else queues, ports := s.portsFor j.part ports }
  s.pokeBytes listAt ((s.part j.part).capList capbase.toNat (s.regionMask j.part))
/-- REGION_ASSIGN (R411): the partition that a region leaves stops accepting, and once it is drained the region is wiped and
joins the other, or none. The heaps that its dies manage are set up anew (R298). -/
def execRegionAssign (r : Nat) (part : Option Joining) (limit : Nat) (troot capbase : Addr) (listAt : Nat) (queues : Addr)
    (ports : List (Nat × Nat)) (s : State) : Out :=
  let old := (s.region r).part
  .next (if !s.mayLeave r || !part.all fun j => s.mayJoin r j.part queues then s
    else if !old.all s.drained then (old.map fun q => s.onPart q fun x => { x with draining := true }).getD s
    else
      let s := s.wipe fun d => regionOf d == r
      let s := { s with heapState := s.heapState.filter fun e => regionOf (e.1 / 264) != r }
      let s := s.onRegion r fun x => { x with part := none }
      let s := (diesOfRegion r).foldl (fun s d => s.onDie d fun x => { x with image := false }) s
      let s := (old.map fun q => s.onPart q fun x => { x with draining := false, formed := !(s.diesOf q).isEmpty }).getD s
      match part with
      | none => s
      | some j => s.join r j limit troot capbase listAt queues ports)
/-- SUPERVISOR_FAILOVER (R411): the service core of die 199 counts by its own %tick (log 76). -/
def execSupervisorFailover (s : State) : Out :=
  .next (if s.supervisor = 0 && decide (s.beatTick + 1000000 ≤ s.tick 199) then { s with supervisor := 199 } else s)
/-- ATTESTATION_REQUEST (R416): what the report holds, and its signature (log 14). -/
def execAttestationRequest (part : Nat) (nonce : BitVec 256) (s : State) : Out :=
  let regions := (List.range 16).filter fun r => (s.region r).part == some part
  let mask := regions.foldl (fun m r => m + 2 ^ r) 0
  let x : Report := { supervisor := Config.measurement 0, image := Config.measurement (part + 1), regions := regions, nonce := nonce,
                      signature := Config.signature (Config.measurement 0) (Config.measurement (part + 1)) mask nonce }
  .next { s with reports := s.reports ++ [x] }

end Sys2Proof.Machine
end

