-- ==== Sys2Proof/Machine/Tree.lean ====
section
/-!
DEFINITION. The AND-tree barriers (spec/16 R338 to R346): arrival, wait, status and release.
-/
namespace Sys2Proof.Machine

/-- The status word of a tree barrier for a warp (R343). -/
def TreeBar.status (t : TreeBar) (w : Warp) (tb : Nat) : Word :=
  BitVec.ofNat 32 (t.phase % 65536 * 65536 + t.nret % 256 * 256 + t.mret.toNat * 4 + (t.waits w tb).toNat * 2)
/-- The barrier of the warp at issue, as its cluster sees it. -/
def State.myTree (s : State) (tb : Nat) : TreeBar := s.treeSeen (s.launch s.myBlk.launch).part tb s.myClu
/-- A tree barrier word: ILLEGAL when the launch's tbm does not name the barrier (R338). -/
def State.treeWord (s : State) (i : Instr) (g : Guard) (tb : Nat) (regs : List RegRef) (body : TreeBar → State) : State :=
  s.uniWord g regs fun _ =>
    if !(s.tbmOf s.myDie s.myBlk.launch).contains tb then s.illegal (wordOf i) else body (s.myTree tb)
/-- TBARRIVE (R341): it waits at issue while the warp's previous arrival is not released; a warp that is wound up stands there
(R315). -/
def execTbarrive (g : Guard) (tb : BitVec 3) (s : State) : Out :=
  .next (s.treeWord (.tbarrive g tb) g tb.toNat [] fun t =>
    if t.waits s.w tb.toNat then
      if s.w.winding then s.stall.onW fun w => w.onPath fun p => { p with held := true } else s.stall
    else
      let l := s.myBlk.launch
      let s := ((s.release s.myCore 3).publish s.w.uid).done false
      (s.onW fun w => { w with tbArr := w.tbArr.put tb.toNat (t.phase + 1) }).treeTest l)
/-- TBARWAIT (R342): the path's next clause waits for the release of the warp's latest arrival. -/
def execTbarwait (g : Guard) (sd : Reg) (tb : BitVec 3) (s : State) : Out :=
  .next (s.treeWord (.tbarwait g sd tb) g tb.toNat [.s sd.toNat] fun t =>
    if t.waits s.w tb.toNat then
      let s := s.onW fun w => w.addPend [.s sd.toNat] none .unit
      let x : Wait := .tbar tb.toNat (s.w.tbArr.get 0 tb.toNat) sd.toNat (s.w.nextTag - 1)
      (s.done false).onW fun w => w.onPath fun p => { p with waits := p.waits ++ [x] }
    else
      (((s.acquire s.myCore 3).learn s.w.uid).onW fun w => (w.setS sd.toNat (t.status w tb.toNat)).addPend [.s sd.toNat] none .timed).done false)
/-- TBARST (R343). -/
def execTbarst (g : Guard) (sd : Reg) (tb : BitVec 3) (s : State) : Out :=
  .next (s.treeWord (.tbarst g sd tb) g tb.toNat [.s sd.toNat] fun t =>
    (s.onW fun w => (w.setS sd.toNat (t.status w tb.toNat)).addPend [.s sd.toNat] none .timed).done false)

/-- The TBARWAITs of a warp on a barrier that a release ends (R342): status, and acquire at device scope. -/
def State.treeWake (s : State) (p tb u : Nat) : State :=
  (s.warp u).waits.foldl (fun s x => match x with
    | .tbar n ph sd tag =>
      if n = tb && ph ≤ (s.treeSeen p tb (cluOf u)).phase then
        ((s.onWarp u fun w => ((w.setS sd ((s.treeSeen p tb (cluOf u)).status w tb)).dropWaits (Wait.isTag [tag])).complete tag).acquire (coreOf u) 3).learn u
      else s
    | .arriving _ _ | .barw _ _ _ | .awaitf _ _ _ | .twait _ _ | .rendez _ | .hfree _ => s) s
/-- The root's AND is true for the barrier's gang: every member cluster's input, and the arrivals of saved blocks (R320); a release
that has still to reach a cluster comes first. -/
def State.treeReady (s : State) (p tb l : Nat) : Bool :=
  let t := s.tree p tb
  t.left.isEmpty && (s.launch l).state == 2 && !s.unplaced l && !(s.blocksOf l).isEmpty
    && (s.treeMembers p tb).all (fun c => s.treeInput p tb c)
    && (s.savedOf l).all fun x => x.warps.all fun w => w.ended || w.hasArrived tb t.phase
/-- The release of the last phase reaches some clusters, with TBREL (R347): their warps go on, and their blocks can arrive again. -/
def State.treeReach (s : State) (p tb : Nat) (cs : List Nat) : State :=
  let t := s.tree p tb
  let l := t.gang.getD 0
  let s := s.onTree p tb fun t => { t with left := t.left.filter fun c => !cs.contains c }
  let s := cs.foldl (fun s c => s.emitClu 0x84 c (tb + (t.phase - 1) % 65536 * 8 + t.mret.toNat * 2 ^ 19)) s
  let ws := cs.flatMap fun c => (s.gangOn c l).flatMap fun b => (s.blk b).warps
  (ws.foldl (fun s u => s.treeWake p tb u) s).treeTest l
/-- TREE_RELEASE (R340, R346): the root releases the phase; then the release reaches the member clusters, those of one die in a step.
What is left of it one tick later the clock brings about (R345). -/
def execTreeRelease (p tb : Nat) (s : State) : Out :=
  let t := s.tree p tb
  .next (match t.gang, t.left with
    | none, _ => s
    | some _, c :: _ => s.treeReach p tb (t.left.filter fun x => dieOfClu x == dieOfClu c)
    | some l, [] =>
      if !s.treeReady p tb l then s
      else s.onTree p tb fun t =>
        { t with phase := t.phase + 1, arrived := [], mretOld := t.mret, mret := t.retNow, retNow := false, left := s.treeMembers p tb,
                 releasedAt := s.cycle })

end Sys2Proof.Machine
end

