-- ==== Sys2Proof/Machine/Power.lean ====
section
/-!
DEFINITION. Power regions (spec/19 R355 to R366): the cadence, islands, and the current-step limit.
-/
namespace Sys2Proof.Machine

/-- CSTEP_WRITE (R361, R412): L of the die's region, which the supervisor alone writes. -/
def execCstepWrite (p : Page) (v : DWord) (s : State) : Out :=
  .next (if p.by_ = .supervisor then s.onRegion (regionOf p.die) fun r => { r with limit := v.setWidth 10 } else s)

/-! ## Cadence (R357 to R360) -/

/-- ENVELOPE_MEASURE (R358): once in 1,000 ticks of the reference. -/
def execEnvelopeMeasure (watts : Nat) (s : State) : Out :=
  let e := if 60000 < watts then min 16 (s.envelope + 1) else if watts < 57000 then max 1 (s.envelope - 1) else s.envelope
  .next (if s.refTick / 1000 ≤ s.measured then s
    else ({ s with envelope := e, measured := s.refTick / 1000 }).cadEvents s 0)
/-- DROOP_ALARM (R359, R365): droop_r rises, and from the next tick on admission stops for the rest of this interval and the next; where
an earlier alarm has stopped it, it stays so. -/
def execDroopAlarm (r : Nat) (s : State) : Out :=
  let now := s.regionTick r
  let droop := min 16 (s.cad r + 4)
  let t := s.onRegion r fun x =>
    { x with droop := droop, lastAlarm := now, blockedUntil := now / 200 + 2,
             blockedFrom := if now / 200 < x.blockedUntil then x.blockedFrom else now + 1 }
  .next ((t.emitDie 0x92 (lowestDie r) (r + droop * 16)).cadEvents s 1)
/-- DROOP_DECAY (R359). -/
def execDroopDecay (r : Nat) (s : State) : Out :=
  let x := s.region r
  .next (if x.droop ≤ 1 || s.regionTick r < x.lastAlarm + 20000 then s
    else (s.onRegion r fun x => { x with droop := x.droop - 1, lastAlarm := x.lastAlarm + 20000 }).cadEvents s 1)
/-- slack_r after a dwell (R360), for a region's ticks of slack. -/
def slackNext (critical : Bool) (ticks slack : Nat) : Nat :=
  if critical && 0 < slack then slack - 1
  else if !critical && 5000 < ticks then slack + 1
  else if ticks < 2000 && 0 < slack then slack - 1
  else slack
/-- The segment of a region is true for the phase being collected, which is not released (R340). -/
def State.segment (s : State) (p tb r : Nat) : Bool :=
  (s.treeMembers p tb).all fun c => regionOf (c / 324) != r || s.treeInput p tb c
/-- A tick passes with a region's segment true for a gang that it holds blocks of: it counts in the dwell that is open (R360). -/
def State.slackTick (s : State) (p r : Nat) : State :=
  let now := s.regionTick r
  let x := s.region r
  if now = x.slackAt || now / 20000 != x.dwell || !(s.heldTrees p).any (fun t => (s.regionsWith t.2).contains r && s.segment p t.1 r) then s
  else s.onRegion r fun x => { x with slackTicks := x.slackTicks + 1, slackAt := now }
/-- The region of least slack of a gang; of equal ones the lower number. -/
def State.critical (s : State) (rs : List Nat) : Option Nat := rs.foldl (fun a r => match a with
  | none => some r
  | some b => if (s.region r).slackTicks < (s.region b).slackTicks || ((s.region r).slackTicks = (s.region b).slackTicks && r < b) then some r else some b) none
/-- The regions of a partition. -/
def State.regionsOf (s : State) (p : Nat) : List Nat := (List.range 16).filter fun r => (s.region r).part == some p
/-- SLACK_DWELL_END (R360): once the dwell has ended in every region of the partition, those that hold blocks of a gang that waits on a
tree barrier change their slack, by the ticks counted in the dwell. -/
def execSlackDwellEnd (p : Nat) (s : State) : Out :=
  let rs := s.regionsOf p
  let gangs := (((s.heldTrees p).filter fun t => s.gangWaits p t.1 t.2).map (·.2)).eraseDups
  let crit := gangs.filterMap fun l => s.critical (s.regionsWith l)
  let mine := rs.filter fun r => gangs.any fun l => (s.regionsWith l).contains r
  .next (if rs.isEmpty || !rs.all (fun r => decide ((s.region r).dwell < s.regionTick r / 20000)) then s
    else
      let t := mine.foldl (fun s r => s.onRegion r fun x => { x with slack := slackNext (crit.contains r) x.slackTicks x.slack }) s
      (rs.foldl (fun s r => s.onRegion r fun x => { x with slackTicks := 0, dwell := s.regionTick r / 20000 }) t).cadEvents s 2)

/-! ## Onsets (R362, R363) -/

def IslandState.code : IslandState → Nat
  | .nominal => 0
  | .near => 1
  | .ramping => 2
/-- An island changes state, with ISLAND. -/
def State.islandTo (s : State) (c i : Nat) (f : Island → Island) : State :=
  let s := s.onIsland c i f
  s.emitDie 0x90 (c / 324) (c % 324 + i * 2 ^ 9 + (s.island c i).st.code * 2 ^ 11)
/-- An onset is admitted. -/
def State.admitOnset (s : State) (o : Onset) : State :=
  if o.isle = 4 then s.onClu o.clu fun x => { x with rowAsking := false }
  else s.islandTo o.clu o.isle fun x => { x with st := .ramping, asking := false, windows := 0, admitted := s.tick (o.clu / 324) }
/-- A tick of a die is over when the cycle ends. -/
def State.tickOver (s : State) (d t : Nat) : Bool := decide (t < { s with cycle := s.cycle + 1 }.tick d)
/-- Admit waiting onsets in order while the budget lasts, once all requests of their tick are there (R363). -/
def State.admitOnsets (s : State) (r budget : Nat) : List Onset → State
  | [] => s
  | o :: t =>
    if budget < (s.region r).spent + o.charge || !s.tickOver (o.clu / 324) o.tick then s
    else ((s.onRegion r fun x => { x with onsets := t, spent := x.spent + o.charge }).admitOnset o).admitOnsets r budget t
/-- The end of interval k with requests waiting: ONSETW (R366). -/
def State.intervalEnd (s : State) (r k : Nat) : State :=
  let l := (s.region r).onsets.filter fun o => decide (o.tick / 200 ≤ k)
  if l.isEmpty then s else s.emitDie 0x93 (lowestDie r) (r + (l.map Onset.charge).sum % 2 ^ 24 * 256)
/-- The intervals that have ended since the last that was admitted in, from the first request on. -/
def Region.ended (x : Region) (n : Nat) : List Nat :=
  let lo := max x.interval (((x.onsets.head?).map Onset.tick).getD (200 * n) / 200)
  (List.range (n - lo)).map (lo + ·)
/-- ONSET_INTERVAL (R363): admission within the interval that is now, unless an alarm has stopped it (R359). -/
def execOnsetInterval (r : Nat) (s : State) : Out :=
  let x := s.region r
  let now := s.regionTick r
  let n := now / 200
  let t := if x.interval = n then s
    else ((x.ended n).foldl (fun s k => s.intervalEnd r k) s).onRegion r fun x => { x with interval := n, spent := 0 }
  .next (if x.blockedFrom ≤ now && n < x.blockedUntil then t else t.admitOnsets r (64 * x.limit.toNat) x.onsets)

/-! ## Islands (R356) -/

/-- A window in which the island's lane datapaths were busy and global loads in flight for some cycles is memory-bound. -/
def Island.bound (x : Island) : Bool := decide (x.busy < 625) && decide (1250 ≤ x.loading)
/-- ISLAND_WINDOW_END: window n of 1,000 ticks begins on die d, and the window before it has ended for an island. -/
def execIslandWindowEnd (d clu i n : Nat) (s : State) : Out :=
  let c := 324 * d + clu
  let x := s.island c i
  let t := s.onIsland c i fun y => { y with window := n, busy := 0, loading := 0 }
  let set := fun (k : Nat) => t.onIsland c i fun y => { y with windows := k }
  .next (if n ≤ x.window || s.tick d < 1000 * n then s
    else match x.st with
    | .ramping => set 0
    | .nominal =>
      if !x.bound then set 0
      else if x.windows + 1 < 10 then set (x.windows + 1)
      else t.islandTo c i fun y => { y with st := .near, windows := 0 }
    | .near => if !x.bound && s.cycle < x.last + 2500 && 0 < x.last && !x.asking then t.askOnset c i 1 else t)
/-- ISLAND_IDLE: 4,096 cycles with no lane word. A ramp that is under way is completed first (log 75). -/
def execIslandIdle (c i : Nat) (s : State) : Out :=
  let x := s.island c i
  .next (if x.st == .nominal && x.last + 4096 ≤ s.cycle + 1 then s.islandTo c i fun y => { y with st := .near, windows := 0 } else s)
/-- ISLAND_RAMP_DONE. -/
def execIslandRampDone (c i : Nat) (s : State) : Out :=
  .next (if (s.island c i).st == .ramping then s.islandTo c i fun y => { y with st := .nominal, windows := 0 } else s)

end Sys2Proof.Machine
end

