-- ==== Sys2Proof/Machine/Preempt.lean ====
section
/-!
DEFINITION. Pre-emption (spec/15 R316 to R320), power gating of clusters (spec/10 R218), soft errors and retirement
(spec/15 R321, R322).
-/
namespace Sys2Proof.Machine

/-! ## Choosing what to pre-empt (R316, R320) -/

/-- Order of placement on a cluster. -/
def State.blockAge (s : State) (b : Nat) : List Nat := [(s.blk b).placedAt, (s.launch (s.blk b).launch).seq, (s.blk b).index]
/-- Insert a block into a list that has the youngest first. -/
def State.insertYoung (s : State) (b : Nat) : List Nat → List Nat
  | [] => [b]
  | x :: t => if lexLt (s.blockAge x) (s.blockAge b) then b :: x :: t else x :: s.insertYoung b t
/-- The placed blocks of a cluster, youngest first. -/
def State.youngestFirst (s : State) (c : Nat) : List Nat := (s.placedOn c).foldl (fun l b => s.insertYoung b l) []
/-- The fewest of some blocks, taken in order, without which a block of a kernel fits. -/
def State.victims (s : State) (c : Nat) (k : Kernel) (carve : Nat) : List Nat → List Nat → Option (List Nat)
  | got, rest =>
    let without := got.foldl (fun s b => s.freeBlock b) s
    if without.fits c k carve 1 then some got
    else match rest with
      | [] => none
      | b :: t => s.victims c k carve (got ++ [b]) t
/-- A block fits on no cluster of a die. -/
def State.noRoom (s : State) (d l : Nat) : Bool :=
  (clustersOf d).all fun c => s.roomOn c (s.kernelOf d l) (s.carveOf d l) (some l) == 0
/-- The cluster that a DCP pre-empts on (R316). -/
def State.preemptOn (s : State) (d l : Nat) : Option Nat :=
  let p := (s.launch l).prio
  let ok := (clustersOf d).filter fun c =>
    !(s.placedOn c).isEmpty && (s.placedOn c).all (fun b => decide (p < (s.launch (s.blk b).launch).prio))
      && ((s.clu c).reserved.isNone || (s.clu c).reserved == some l)
      && (s.victims c (s.kernelOf d l) (s.carveOf d l) [] (s.youngestFirst c)).isSome
  let seqOf := fun (c : Nat) => ((s.youngestFirst c).getLast?.map fun b => (s.launch (s.blk b).launch).seq).getD 0
  ok.foldl (fun (a : Option Nat) c => match a with
    | none => some c
    | some x => if seqOf x < seqOf c then some c else some x) none
/-- Free save slots of a die, lowest first. -/
def State.freeSlots (s : State) (d : Nat) : List Nat :=
  (List.range (bits (s.die d).save.toNat 48 8)).filter fun n => !(s.die d).slotsUsed.contains n
/-- A placed block that has not begun goes back to the pending list (R316). -/
def State.unplace (s : State) (b : Nat) : State :=
  let k := s.blk b
  let d := dieOfBlk b
  let s := (s.freeBlock b).liveAdd d k.launch false
  s.onDie d fun x => if k.porter then { x with porters := x.porters ++ [k.launch] } else { x with claimed := x.claimed ++ [(k.launch, k.index)] }
/-- A warp chosen for pre-emption that is suspended stands where it is, and leaves its entry (R317). -/
def State.standStill (s : State) (u : Nat) : State :=
  (s.leaveEntry (dieOf u) ((s.warp u).susp.bind (·.entry))).onWarp u fun w => { w with frozen := w.frozen || w.susp.isSome, susp := none }
/-- A stream that a page holds leaves its entry too, and fetches again when its block resumes (R243, R317). -/
def State.leaveStreams (s : State) (b : Nat) : State :=
  let k := s.blk b
  ((s.leaveEntry (dieOfBlk b) (k.m.held.bind id)).leaveEntry (dieOfBlk b) (k.c.held.bind id)).onBlk b fun k =>
    { k with m := { k.m with held := none }, c := { k.c with held := none } }
/-- One block is to be saved, if it finds a slot. -/
def State.markSaving (s : State) (b : Nat) : State :=
  if !(s.blk b).begun then s.unplace b
  else match s.freeSlots (dieOfBlk b) with
    | [] => s
    | n :: _ =>
      let s := (s.onBlk b fun k => { k with saving := true, saveSlot := n }).onDie (dieOfBlk b) fun x => { x with slotsUsed := n :: x.slotsUsed }
      ((s.blk b).warps.foldl (fun s u => s.standStill u) s).leaveStreams b
/-- A gang is pre-empted whole, if every die has a free slot for each of its blocks (R320). -/
def State.preemptGang (s : State) (g : Nat) : State :=
  let bs := s.blocksOf g
  let need := fun (d : Nat) => (bs.filter fun b => dieOfBlk b == d).length
  if ((bs.map dieOfBlk).eraseDups).all fun d => need d ≤ (s.freeSlots d).length then
    (bs.foldl (fun s b => s.markSaving b) s).onLaunch g fun x => { x with start := none }
  else s
/-- PREEMPT (R270, R316): one choice at a time on a die. -/
def execPreempt (d l : Nat) (s : State) : Out :=
  let t := s.ticketOf d l
  .next (if (s.launch l).state != 2 || !(s.launchDies l).contains d || t.1 == t.2 || !s.noRoom d l
      || s.blocks.any (fun e => e.2.saving && dieOfBlk e.1 == d) then s
    else match s.preemptOn d l with
      | none => s
      | some c => ((s.victims c (s.kernelOf d l) (s.carveOf d l) [] (s.youngestFirst c)).getD []).foldl (fun s b =>
          let g := (s.blk b).launch
          if !(s.blk b).placed || (s.blk b).saving then s
          else if (s.flagsOf d g).testBit 6 then s.preemptGang g else s.markSaving b) s)

/-! ## Saving (R317, R318) -/

/-- Steps 1 to 3 of R317 are done. -/
def State.savable (s : State) (b : Nat) : Bool :=
  let k := s.blk b
  k.placed && k.saving && k.fault.isNone && s.enginesDone b && !(s.clu (cluOfBlk b)).cpyWait.any (fun r => r.blk == b)
    && k.warps.all fun u => (s.warp u).rests && (s.warp u).pend.all fun p => (s.waitTags u).contains p.tag
/-- Runs of rows that a block owns on its cluster: %core, first row, rows (R189, R197). -/
def Block.runs (k : Block) : List (Nat × Nat × Nat) :=
  let own := (activeCores k.heat).map fun c => (c, k.rowBase.get 0 c, (k.localSize + 63) / 64)
  if k.heat = 0 then own else own ++ ((List.range 16).filter fun c => !(activeCores k.heat).contains c).map fun c => (c, 0, 4096)
/-- Valid rows of a run, and its bytes that read other than 0. -/
def State.rowsOf (s : State) (c : Nat) (r : Nat × Nat × Nat) : List (Nat × Nat) :=
  let lo := 4096 * (16 * c + r.1) + r.2.1
  (s.rowValid.filter fun e => decide (lo ≤ e.1) && decide (e.1 < lo + r.2.2) && e.2).map fun e => (r.1, e.1 - lo)
def State.bytesIn (s : State) (c : Nat) (r : Nat × Nat × Nat) : List (Nat × Nat × Byte) :=
  let lo := localKey (16 * c + r.1) (64 * r.2.1)
  (s.mem.filter fun e => decide (lo ≤ e.1) && decide (e.1 < lo + 64 * r.2.2)).map fun e => (r.1, e.1 - lo, e.2)
/-- The context of a block (R318). -/
def State.contextOf (s : State) (b : Nat) : Saved :=
  let k := s.blk b
  let c := cluOfBlk b
  let x := s.clu c
  let gran := (k.gmap.filterMap fun e => e.2.map fun g => (e.1, g)).map fun e =>
    ({ index := e.1, invalid := x.invalid.get false e.2,
       vals := (s.acc.filter fun a => a.1 / 4096 == 32 * c + e.2).map fun a => (a.1 % 4096, a.2),
       stamp := x.gstamp.get 0 e.2, ports := x.gport.get [] e.2, reads := x.gread.get [] e.2 } : SavedGranule)
  let asking := (if s.placedOn c == [b] then (List.range 4).filter fun i => (x.islands.get Island.fresh i).asking else [])
    ++ (if k.mentry != 0 && x.rowAsking then [4] else [])
  { blk := k, warps := k.warps.map fun u => { s.warp u with susp := none, stalled := false, yieldSwap := false, frozen := (s.warp u).stopped && (s.warp u).frozen }
    rows := k.runs.flatMap (s.rowsOf c), bytes := k.runs.flatMap (s.bytesIn c), gran := gran
    racks := x.racks.filter fun e => e.2.owner == some b
    shape := x.shape, weights := if k.mentry = 0 then [] else x.weights, acq := x.acq.filter fun r => r.blk == b, asking := asking, slot := k.saveSlot }
/-- Withdraw the onset requests of a cluster, or of one of its parts (R363, R365). -/
def State.withdraw (s : State) (c : Nat) : State :=
  let s := s.onRegion (regionOf (c / 324)) fun r => { r with onsets := r.onsets.filter fun o => o.clu != c }
  s.onClu c fun x => { x with islands := x.islands.mapV fun _ i => { i with asking := false }, rowAsking := false }
/-- Withdraw the onset request of a cluster's matrix engine, with the block that owns it (R203, R363). -/
def State.withdrawRows (s : State) (c : Nat) : State :=
  (s.onRegion (regionOf (c / 324)) fun r => { r with onsets := r.onsets.filter fun o => o.clu != c || o.isle != 4 }).onClu c fun x =>
    { x with rowAsking := false }
/-- BLOCK_SAVE (R317): the L1s of its cores are drained and emptied, its context goes to its slot, and its resources are
released. -/
def execBlockSave (b : Nat) (s : State) : Out :=
  .next (if !s.savable b then s
    else
      let k := s.blk b
      let c := cluOfBlk b
      let s := k.warps.foldl (fun s u => s.performParts u fun _ => true) s
      let s := ((k.warps.map coreOf).eraseDups).foldl (fun s core => (s.l1Drain core).l1Invalidate core) s
      let x := s.contextOf b
      let pl := s.placePayload b
      let s := s.onMarks fun y m => if m.left.isNone && k.warps.contains m.uid && (s.warp m.uid).stopped then [s.keepMark y m] else [m]
      let s := s.freeBlock b
      let s := if (s.placedOn c).isEmpty then s.withdraw c else if k.mentry != 0 then s.withdrawRows c else s
      (s.onDie (c / 324) fun y => { y with saved := y.saved ++ [x] }).emitClu 0x72 c pl)

/-! ## Resuming (R319, R320) -/

/-- Where a saved block fits: R202, its racks free, and granules for its map. -/
def State.takes (s : State) (c : Nat) (x : Saved) (carve : Nat) : Bool :=
  ((s.clu c).reserved.isNone || (s.clu c).reserved == some x.blk.launch) && s.fits c x.kernel carve 1
    && x.racks.all (fun r => ((s.clu c).racks.get Rack.free r.1).owner.isNone)
    && decide (x.gran.length ≤ (s.clu c).freeGranules.length)
/-- The key of a byte of the block's local memory, as its runs lie on another cluster (R217). -/
def moveKey (old new : Block) (oldClu newClu key : Nat) : Nat :=
  let core := (key - 2 ^ 48) / 2 ^ 18
  if key < 2 ^ 48 || core / 16 != oldClu then key
  else
    let off := (key - 2 ^ 48) % 2 ^ 18
    let o := if (activeCores old.heat).contains (core % 16) then off - 64 * old.rowBase.get 0 (core % 16) + 64 * new.rowBase.get 0 (core % 16) else off
    localKey (16 * newClu + core % 16) o
/-- A row becomes valid with zeros. -/
def State.zeroRow (s : State) (core row : Nat) : State :=
  let s := (List.range 64).foldl (fun s i => s.poke (localKey core (64 * row + i)) 0) s
  { s with rowValid := s.rowValid.set false (4096 * core + row) true }
/-- A warp goes on at a new position. -/
def State.restoreWarp (s : State) (b c : Nat) (w : Warp) : State :=
  let u := s.positionFor c (s.blk b).heat w.index
  let active := ((s.resident (coreOf u)).filter fun x => (s.warp x).active).length < 8 && !w.ended
  let x : Warp := { w with uid := u, blk := b, active := active, waitCount := 0, readyCount := 0, yieldUntil := 0 }
  let s := if u = s.w.uid then { s with w := x } else { s with warps := s.warps.put u x }
  s.onBlk b fun k => { k with warps := k.warps ++ [u] }
/-- A granule of a saved map comes back on a free granule of the cluster. -/
def State.restoreGranule (s : State) (b c : Nat) (x : SavedGranule) : State :=
  let g := (s.clu c).freeGranules.headD 0
  let s := s.zeroGranule c g
  let s := { s with acc := x.vals.foldl (fun t (e : Nat × Word) => t.set 0 (4096 * (32 * c + g) + e.1) e.2) s.acc }
  let s := s.onClu c fun y => { y with owner := y.owner.put g (some b), invalid := y.invalid.set false g x.invalid,
                                       gstamp := y.gstamp.put g x.stamp, gport := y.gport.put g x.ports, gread := y.gread.put g x.reads }
  s.onBlk b fun k => { k with gmap := k.gmap.put x.index (some g) }
/-- Restore the first saved block of a die on a cluster that takes it. -/
def State.restoreBlock (s : State) (c : Nat) : State :=
  let d := c / 324
  match (s.die d).saved with
  | [] => s
  | x :: rest =>
    let k := x.blk
    let slot := ((List.range 4).find? fun i => !(s.blk (4 * c + i)).placed).getD 0
    let b := 4 * c + slot
    let oldClu := cluOfBlk (x.warps.headD Warp.empty).blk
    let gang := (s.flagsOf d k.launch).testBit 6
    let s := s.openCluster c (s.carveOf d k.launch) (k.mentry != 0)
    let s := (List.range 16).foldl (fun s i => s.l1Invalidate (16 * c + i)) s
    let s := s.onBlk b fun _ => { k with warps := [], rowBase := [], gmap := [], saving := false, placedAt := s.cycle,
                                         hold := if gang then some notYet else none,
                                         m := { k.m with held := none }, c := { k.c with held := none } }
    let kk : Kernel := { entry := 0, mentry := k.mentry.toNat, centry := 0, porter := 0, warps := k.nwarps, localSize := k.localSize,
                         heat := k.heat, seeds := 0, reserved := false }
    let s := s.allocate c slot kk (s.carveOf d k.launch)
    let base := fun (s : State) (core : Nat) => if (activeCores k.heat).contains core then (s.blk b).rowBase.get 0 core else 0
    let s := x.rows.foldl (fun s r => s.zeroRow (16 * c + r.1) (base s r.1 + r.2)) s
    let s := x.bytes.foldl (fun s (e : Nat × Nat × Byte) => s.poke (localKey (16 * c + e.1) (64 * base s e.1 + e.2.1)) e.2.2) s
    let s := x.warps.foldl (fun s w => s.restoreWarp b c w) s
    let s := x.gran.foldl (fun s g => s.restoreGranule b c g) s
    let s := s.onClu c fun y => { y with
      racks := x.racks.foldl (fun t e => t.put e.1 { e.2 with owner := some b }) y.racks
      shape := if k.mentry = 0 then y.shape else x.shape, weights := if k.mentry = 0 then y.weights else x.weights }
    let new := s.blk b
    let move := moveKey k new oldClu c
    let grans := fun (l : List (Nat × Nat)) => l.filterMap fun r =>
      ((x.blk.gmap.find? (·.2 == some r.1)).bind fun e => new.gmap.get none e.1).map fun g => (g, r.2)
    let s := s.onBlk b fun y => { y with stores := y.stores.map fun o => { o with keys := o.keys.map move }
                                         operands := y.operands.map fun o => { o with keys := o.keys.map move, outs := grans o.outs } }
    let pos := fun (old : Nat) => ((x.blk.warps.zip new.warps).find? (·.1 == old)).map (·.2)
    let reqs := x.acq.map fun r => { r with blk := b, warp := (pos r.warp).getD 0 }
    let s := (s.onClu c fun y => { y with acq := y.acq ++ reqs }).acMark c s.cycle
    let s := s.onDie d fun y => { y with saved := rest, slotsUsed := y.slotsUsed.filter (· != x.slot) }
    let s := x.asking.foldl (fun s i =>
      if i = 4 then (if (s.clu c).rowAsking then s else s.askOnset c 4 ((8 + s.cad (regionOf d) - 1) / s.cad (regionOf d)))
      else if ((s.clu c).islands.get Island.fresh i).st == .near && !((s.clu c).islands.get Island.fresh i).asking then s.askOnset c i 1 else s) s
    let p := (s.launch k.launch).part
    let s := ((s.part p).trees.filter fun e => e.2.gang == some k.launch).foldl (fun s e =>
      (s.blk b).warps.foldl (fun s u => s.treeWake p e.1 u) s) s
    s.emitClu 0x73 c (s.placePayload b)
/-- BLOCK_RESUME (R319): the block that the die saved first; a gang's blocks come back by the reservation of R274. -/
def execBlockResume (d : Nat) (s : State) : Out :=
  let waking := s.clusters.any fun e => e.1 / 324 == d && e.2.wake.contains .saved
  .next (match (s.die d).saved with
    | [] => s
    | x :: _ =>
      let l := x.blk.launch
      let gang := (s.flagsOf d l).testBit 6
      let p := (s.launch l).part
      if waking || (s.die d).dcpStopped || s.outranked d l || (gang && !s.gangMay d l) then s
      else
        let need := ((s.die d).saved.filter (·.blk.launch == l)).length
        let held := (((clustersOf d).filter fun c => (s.clu c).reserved == some l).map fun c =>
          s.roomOn c (s.kernelOf d l) (s.carveOf d l) (some l)).sum
        let s := if gang then (s.onPart p fun y => { y with reserving := some l }).reserve d l need (clustersOf d) held else s
        let ok := (clustersOf d).filter fun c => s.takes c x (s.carveOf d l) && (!gang || (s.clu c).reserved == some l)
        let powered := ok.filter fun c => match (s.clu c).gate with
          | .on | .idling | .gating => true
          | .gated | .waking => false
        match (powered ++ ok).head? with
        | none => s
        | some c => s.dispatchTo c .saved fun s => (s.restoreBlock c).unreserve d l)

/-! ## Power gating (R218) -/

/-- GATING_BEGIN: in the cycle after the 4,096th idle cycle. -/
def execGatingBegin (c : Nat) (s : State) : Out :=
  let x := s.clu c
  .next (if x.gate == .idling && x.gateSince + 4096 ≤ s.cycle && !x.retired then
      (s.onClu c fun x => { x with gate := .gating, gateSince := s.cycle }).emitClu 0x37 c 0
    else s)
/-- Local memories, with the L1s that lie in them (R190), register files and accumulators lose their contents. -/
def State.loseContents (s : State) (c : Nat) : State :=
  let s := (List.range 16).foldl (fun s i => s.clearRows (16 * c + i) 0 4096) s
  let s := ((List.range 16).map (16 * c + ·)).foldl (fun s u => if (s.core u).l1.isEmpty then s else s.onCore u fun x => { x with l1 := [], fifo := [] }) s
  { s with acc := s.acc.filter fun e => e.1 / 131072 != c }
/-- GATING_END: after 64 cycles of gating; a dispatch that waits wakes the cluster. -/
def execGatingEnd (c : Nat) (s : State) : Out :=
  let x := s.clu c
  .next (if x.gate == .gating && x.gateSince + 64 ≤ s.cycle && !x.retired then
      (((s.loseContents c).onClu c fun x => { x with gate := if x.wake.isEmpty then .gated else .waking, gateSince := s.cycle }).emitClu 0x37 c 1)
    else s)
/-- A block that waits for a cluster goes back to the pending list. -/
def State.giveBack (s : State) (d : Nat) (l : List Wake) : State := l.foldl (fun s w => match w with
  | .block l i p => s.onDie d fun x => if p then { x with porters := x.porters ++ [l] } else { x with claimed := x.claimed ++ [(l, i)] }
  | .saved => s) s
/-- A cluster that has woken takes a block that waited for it. -/
def State.wakePlace (s : State) (c : Nat) : Wake → State
  | .block l i p => s.placeBlock c l i p
  | .saved => s.restoreBlock c
/-- WAKE_END: in the last of 512 cycles of waking the cluster is on, and the blocks that were dispatched to it are placed or restored, in that
order; while a STOP of its die stands, they stay pending (R395). -/
def execWakeEnd (c : Nat) (s : State) : Out :=
  let x := s.clu c
  let d := c / 324
  .next (if x.gate == .waking && x.gateSince + 511 ≤ s.cycle && !x.retired then
      let t := (s.onClu c fun x => { x with gate := .on, gateSince := s.cycle, wake := [] }).emitClu 0x37 c 2
      if (s.die d).dcpStopped then (t.giveBack d x.wake).idleFrom c
      else if x.wake.isEmpty then t.idleFrom c
      else ((x.wake.map (s.wakeLaunch d)).eraseDups).foldl (fun t l => t.unreserve d l) (x.wake.foldl (fun t w => t.wakePlace c w) t)
    else s)

/-! ## Soft errors (R321) and retirement (R322) -/

/-- CORRECTABLE_ERROR: counted, and nothing else changes. -/
def execCorrectableError (d what : Nat) (s : State) : Out := .next ((s.countFixed 2 d 15 1).emitDie 0x74 d (what % 16))
/-- The tree barriers learn that a cluster that held blocks of their gang, so that its excuse bit is clear, retires (R339, R343,
R346). -/
def State.treeRetire (s : State) (c : Nat) : State := match s.partOf (c / 324) with
  | none => s
  | some p => ((s.part p).trees.filter fun e => e.2.gang.isSome && !(s.clu c).excuse.get true e.1).foldl (fun s e =>
      let s := s.onTree p e.1 fun t => { t with nret := min 255 (t.nret + 1), retNow := true, left := t.left.filter (· != c) }
      if (s.tree p e.1).arrived.contains c then s else s.treeIn p e.1 c true) s
/-- A cluster retires: its blocks end with RETIRED, and nothing that they asked for is performed any more (R322). -/
def State.retire (s : State) (c what : Nat) : State :=
  if (s.clu c).retired then s
  else
    let d := c / 324
    let s := s.treeRetire c
    let wake := (s.clu c).wake
    let s := (s.withdraw c).onClu c fun x => { x with retired := true, excuse := [], reserved := none, wake := [], engs := [], port := [], cpyWait := [], acq := [] }
    let s := ((List.range 16).map (16 * c + ·)).foldl (fun s u => if (s.core u).l1.isEmpty then s else s.onCore u fun x => { x with l1 := [], fifo := [] }) s
    let s := s.giveBack d wake
    let ws := (s.placedOn c).flatMap fun b => (s.blk b).warps
    let s := { s with dies := s.dies.mapV fun _ x => { x with heapq := x.heapq.filter fun r => !ws.contains r.warp } }
    let s := ((s.placedOn c).flatMap fun b => (s.blk b).warps).foldl (fun s u => s.onWarp u fun w => { w with parts := [] }) s
    let s := (s.placedOn c).foldl (fun s b =>
      (s.onBlk b fun k => { k with fault := some { code := 8, warp := none, esc := false, tcause := 0, pc := 0, info := BitVec.ofNat 64 (what % 16),
                                                   lanes := 0, lfm := s.blockLfm b } }).finishBlock b) s
    (s.interrupt (.retire d (c % 324) (what % 16))).emitDie 0x75 d (c % 324 + what % 16 * 2 ^ 9)
/-- The line of a physical byte is poisoned at its home. -/
def State.poisonLine (s : State) (d pa : Nat) : State := match s.homeOf d pa with
  | some k => { s with poison := s.poison.set false (k / 128) true }
  | none => s
/-- UNCORRECTABLE_ERROR. `unit` is a core for the L1, a die for L2, RDC and HBM, and a cluster for every other structure; `pa` is
the physical address, for the structures that hold lines. -/
def execUncorrectableError (unit what pa : Nat) (s : State) : Out :=
  .next (if what = 2 then
      let l := (s.core unit).l1.get Line.empty (pa / 128)
      if l.dirty == 0 then (if (s.core unit).l1.isEmpty then s else s.onCore unit fun x => { x with l1 := x.l1.del (pa / 128) })
      else s.retire (unit / 16) what
    else if what < 7 then s.retire unit what
    else if what = 8 then
      let l := (s.die unit).rdc.get Line.empty (pa / 128)
      let t := if (s.die unit).rdc.isEmpty then s
        else s.onDie unit fun x => { x with rdc := x.rdc.del (pa / 128), fifo := x.fifo.filter (· != pa / 128) }
      if l.dirty == 0 then t else t.poisonLine unit pa
    else if what = 7 || what = 9 then s.poisonLine unit pa
    else s)

end Sys2Proof.Machine
end

