-- ==== Sys2Proof/Machine/Sched.lean ====
section
/-!
DEFINITION. The core's scheduler (spec/09 R181, R184, R187) and what the caches and the homes do on their own (R194, spec/14
R287 to R293). What the manual ties to an instant the clock takes (log 5).
-/
namespace Sys2Proof.Machine

/-- A warp may be swapped out: it stands at a clause boundary, or where a page fault has suspended it (R44). -/
def Warp.swappable (w : Warp) : Bool := w.susp.isSome || (atBoundary w.a && atBoundary w.b)
/-- A warp settles at its boundary, and nothing more. -/
def State.settled (s : State) (u : Nat) : State := s.focusOn u fun s => match s.settle (settleFuel s.w) with
  | .go t | .refill t | .stop t => t
/-- WARP_SWAP (R181, R182): the younger of two warps that passed 32 together goes first; the swap unit does one at a time. -/
def execWarpSwap (core out : Nat) (s : State) : Out :=
  let w := s.warp out
  let younger := fun (v : Nat) => v != out && (s.warp v).active && (s.warp v).swappable && (s.warp v).waitCount == w.waitCount && lexLt (s.age out) (s.age v)
  .next (if coreOf out != core || !w.placed || w.ended || !w.active || w.waitCount ≤ 32 || !w.swappable || !s.swapUnit core
      || (s.nextIn core).isNone || (s.resident core).any younger then s
    else (s.settled out).swapOut out false)
/-- STARVATION_GUARD (R184): the longest-ready warp past 1,024 cycles issues next. -/
def execStarvationGuard (w : Nat) (s : State) : Out :=
  let x := s.warp w
  .next (if x.placed && !x.ended && x.active && 1024 ≤ x.readyCount
      && (s.resident (coreOf w)).all fun v => !(s.warp v).active || (s.warp v).readyCount ≤ x.readyCount then
      { s with sched := .issue w :: s.sched }
    else s)
/-- LOAD_CAP_WINDOW (R187): in the last cycle of 1,024; a new cap shows LCAP (R199). -/
def execLoadCapWindow (core : Nat) (s : State) : Out :=
  let x := s.core core
  let cap := if s.carve core = 0 then 8
    else if 16 < x.hits then max 2 (x.loadCap - 1) else if x.hits < 4 then min 8 (x.loadCap + 1) else x.loadCap
  let t := s.onCore core fun y => { y with loadCap := cap, hits := 0 }
  .next (if s.cycle % 1024 != 1023 then s
    else if cap = x.loadCap then t else t.emitCore 0x22 core (cap + x.hits % 256 * 256))
/-- L1_RELEASE_DRAIN (R194). -/
def execL1ReleaseDrain (core : Nat) (s : State) : Out := .next (s.l1Drain core)
/-- LINE_EXPIRY (R290): a line with no dirty byte becomes invalid, a pinned one too: R254 keeps it only from eviction. -/
def execLineExpiry (rdc : Bool) (unit line : Nat) (s : State) : Out :=
  let drop := fun (t : Tbl Line) => if (t.get Line.empty line).dirty == 0 then t.del line else t
  .next (if rdc then (if (s.die unit).rdc.isEmpty then s else s.onDie unit fun x => { x with rdc := drop x.rdc })
    else if (s.core unit).l1.isEmpty then s else s.onCore unit fun x => { x with l1 := drop x.l1 })
/-- DIRTY_WRITEBACK_TIMEOUT (R290): the oldest entry of the FIFO. -/
def execDirtyWritebackTimeout (rdc : Bool) (unit : Nat) (s : State) : Out :=
  .next (match if rdc then (s.die unit).fifo else (s.core unit).fifo with
    | [] => s
    | l :: _ => if rdc then s.rdcWriteBack unit l else s.l1WriteBack unit l)
/-- RDC_FILL (R288). -/
def execRdcFill (d line : Nat) (s : State) : Out :=
  .next (if s.homedOn d (128 * line) then s else (s.rdcRoom d line).rdcFill d line)
/-- RDC_RELEASE_COMPLETE and RDC_ACQUIRE_COMPLETE (R289). -/
def execRdcReleaseComplete (d : Nat) (s : State) : Out := .next (s.rdcDrain d)
def execRdcAcquireComplete (d : Nat) (s : State) : Out := .next (s.rdcInvalidate d)
/-- HOME_WRITE (R287): a write that die d sent arrives. -/
def execHomeWrite (d pa : Nat) (bytes : List Byte) (s : State) : Out :=
  .next (((linesOf pa bytes.length).foldl (fun s a => s.visitAt d a) s).homeStore d pa bytes)
/-- HOME_ATOMIC (R293): `a` is what CAS compares with, `b` the operand. -/
def execHomeAtomic (d pa : Nat) (wide : Bool) (op : AtomOp) (a b : DWord) (s : State) : Out :=
  let n := if wide then 64 else 32
  let old := s.homeN d pa (n / 8)
  let s := (s.visitAt d pa).homeStore d pa (bytesOf (n / 8) (atomNew op n old (b.toNat % 2 ^ n) (a.toNat % 2 ^ n)))
  .next (match (s.homeOf d pa).bind homeDie with
    | some h => s.emitDie 0x64 h (pa % 2 ^ 48 + atomCode op * 2 ^ 48 + d * 2 ^ 52)
    | none => s)
/-- A physical byte that a host reaches through a partition's ports (R414): one of the queue table, or of a heap of the partition's dies
or sets, which are its HDM ranges (log 95). -/
def State.hdm (s : State) (p pa : Nat) : Bool :=
  let d := s.firstDie p
  let queues := (s.part p).queues.toNat
  let within := fun (i off : Nat) =>
    let e := s.heapEntry d i
    e.1 != 0 && decide (e.2.1 ≤ off) && decide (off < e.2.1 + 2 ^ e.1)
  (decide (queues ≤ pa) && decide (pa < queues + 4096))
    || (paKind pa == 0 && s.partOf (bits pa 36 8) == some p && within (bits pa 36 8) (bits pa 0 36))
    || (paKind pa == 2 && within (200 + bits pa 40 6) (bits pa 0 40))
/-- HOST_CXL_MEM_ACCESS (R291, R414): an access on a host port goes to the partition that the port is assigned to, by its set table to
the home L2s; a write is performed there. -/
def execHostCxlMemAccess (port pa : Nat) (access : HostAccess) (s : State) : Out :=
  let n := match access with
    | .read n => n
    | .write l => l.length
  .next (match s.hostPartition port with
    | none => s
    | some p =>
      if !(List.range n).all fun k => s.hdm p (pa + k) then s
      else
        let d := s.firstDie p
        let s := (linesOf pa n).foldl (fun s a => match s.homeOf d a with
          | some h => s.l2Touch h
          | none => s) s
        match access with
        | .read _ => s
        | .write l => s.homeStore d pa l)
/-- CXL_SNOOP (R291): every copy of a host line on the panel goes home and is dropped; launches held on a dependence read it
again (R269). -/
def execCxlSnoop (line : Nat) (s : State) : Out :=
  let cores := (s.cores.filter fun e => e.2.l1.any (·.1 == line)).map (·.1)
  let s1 := cores.foldl (fun s u => (s.l1WriteBack u line).onCore u fun x => { x with l1 := x.l1.del line }) s
  let dies := (s1.dies.filter fun e => e.2.rdc.any (·.1 == line)).map (·.1)
  let s2 := dies.foldl (fun s d => (s.rdcWriteBack d line).onDie d fun x => { x with rdc := x.rdc.del line }) s1
  .next (if paKind (128 * line) = 3 then
      { s2 with launches := s2.launches.map fun e => if e.2.state = 1 then (e.1, { e.2 with recheck := true }) else e }
    else s2)

end Sys2Proof.Machine
end

