-- ==== Sys2Proof/Machine/Seam.lean ====
section
/-!
DEFINITION. Seams (spec/06 R134 to R152).
-/
namespace Sys2Proof.Machine

/-! ## Limbs and groups (R138) -/

/-- Registers of a limb operand under the binding. -/
def Warp.limbT (w : Warp) : Wd := wdOf (w.limbW == 64)
def Warp.limbRef (w : Warp) (r : Reg) : List RegRef := vRef w.limbT r
/-- Bits of a group's integer. -/
def Warp.seamBits (w : Warp) : Nat := w.groupN * w.limbW
/-- The group's bits read unsigned, and X(r, g). -/
def Warp.seamU (w : Warp) (r : Reg) (g : Nat) : Nat :=
  (List.range w.groupN).foldl (fun x k => x + w.vNat w.limbT r (g * w.groupN + k) * 2 ^ (w.limbW * k)) 0
def Warp.X (w : Warp) (r : Reg) (g : Nat) : Int := toSigned w.seamBits (w.seamU r g)
/-- The groups that take part: every lane is active. -/
def Warp.seamGroups (w : Warp) (m : Mask) : List Nat :=
  (groups w.groupN).filter fun g => groupMask w.groupN g &&& m == groupMask w.groupN g
/-- Lanes of some groups. -/
def Warp.groupsMask (w : Warp) (l : List Nat) : Mask := l.foldl (fun m g => m ||| groupMask w.groupN g) 0
/-- WriteX for some groups. -/
def Warp.putX (w : Warp) (r : Reg) (l : List Nat) (x : Nat → Int) : Warp :=
  w.putV w.limbT r (w.groupsMask l) fun i => pattern w.seamBits (x (i / w.groupN)) / 2 ^ (w.limbW * (i % w.groupN)) % 2 ^ w.limbW
/-- The exact result leaves the range of the group (R144). -/
def Warp.outOfRange (w : Warp) (x : Int) : Bool := decide (x < -(2 ^ (w.seamBits - 1))) || decide (2 ^ (w.seamBits - 1) ≤ x)

/-- A seam word: unbound, it is ILLEGAL once a lane is active (R139); with an odd limb register at w = 64, whatever the lanes (R28,
R138). -/
def State.seamWord (s : State) (i : Instr) (g : Guard) (limbs : List Reg) (regs : List RegRef) (body : List Nat → State) : State :=
  let w := s.w
  let odd := w.limbW == 64 && limbs.any fun r => !even r
  s.laneBound i g (limbs.flatMap w.limbRef ++ regs) (w.bound && odd) (!w.bound) fun _ m =>
    if m = 0 then s.done true else body (w.seamGroups m)
/-- The destinations are written and stay pending until the word completes; an overflow is reported then (R143, R144). -/
def State.seamDone (s : State) (dst : List RegRef) (put : Warp → Warp) (ovf : Mask) (lost : Bool) : State :=
  let s := s.onW fun w => ((if lost then (put w).setLost else put w).addOp dst none .timed true false false false ovf).remember w dst s.w.pmask
  if s.w.overflowing then s.counted true else s.done true
/-- A seam word that writes an integer to every group. -/
def State.seamInt (s : State) (i : Instr) (g : Guard) (vd : Reg) (limbs : List Reg) (regs : List RegRef) (x : Nat → Int) (lost : Nat → Bool) : State :=
  s.seamWord i g (vd :: limbs) regs fun l =>
    let outs := l.filter fun k => s.w.outOfRange (x k)
    s.seamDone (s.w.limbRef vd) (fun w => w.putX vd l x) (s.w.groupsMask outs) (l.any lost)

/-! ## Integer seam words (R145 to R149) -/

def execSadd (g : Guard) (vd va vb : Reg) (s : State) : Out :=
  .next (s.seamInt (.sadd g vd va vb) g vd [va, vb] [] (fun k => s.w.X va k + s.w.X vb k) fun _ => false)
def execSsub (g : Guard) (vd va vb : Reg) (s : State) : Out :=
  .next (s.seamInt (.ssub g vd va vb) g vd [va, vb] [] (fun k => s.w.X va k - s.w.X vb k) fun _ => false)
/-- Shift distance in bits (R146). -/
def Warp.seamShift (w : Warp) (limb : Bool) (c : Reg) : Nat := if limb then c.toNat * w.limbW else c.toNat
def execSshl (g : Guard) (limb : Bool) (vd va c : Reg) (s : State) : Out :=
  .next (s.seamInt (.sshl g limb vd va c) g vd [va] [] (fun k => s.w.X va k * 2 ^ s.w.seamShift limb c) fun _ => false)
def execSshrI (g : Guard) (limb : Bool) (vd va c : Reg) (s : State) : Out :=
  .next (s.seamInt (.sshrI g limb vd va c) g vd [va] [] (fun k => s.w.X va k / 2 ^ s.w.seamShift limb c)
    fun k => s.w.X va k % 2 ^ s.w.seamShift limb c != 0)
/-- SSHR.n: the shifted bits are written as a pattern, so it never overflows. -/
def execSshrN (g : Guard) (limb : Bool) (vd va c : Reg) (s : State) : Out :=
  .next (s.seamInt (.sshrN g limb vd va c) g vd [va] [] (fun k => toSigned s.w.seamBits (s.w.seamU va k / 2 ^ s.w.seamShift limb c))
    fun k => s.w.seamU va k % 2 ^ s.w.seamShift limb c != 0)
def execSneg (g : Guard) (vd va : Reg) (s : State) : Out :=
  .next (s.seamInt (.sneg g vd va) g vd [va] [] (fun k => -s.w.X va k) fun _ => false)
def execScmp (g : Guard) (c : Cond) (pd : BitVec 3) (va vb : Reg) (s : State) : Out :=
  .next (s.seamWord (.scmp g c pd va vb) g [va, vb] [.p pd.toNat] fun l =>
    s.seamDone [.p pd.toNat] (fun w => w.setP pd.toNat (w.groupsMask l) (maskOf fun i => condHolds c (w.X va (i / w.groupN)) (w.X vb (i / w.groupN)))) 0 false)
def execSmac (g : Guard) (signed_ : Bool) (vd va sm : Reg) (s : State) : Out :=
  let m := intVal (if signed_ then .i64 else .n64) (s.w.sNat .w64 sm)
  .next (s.seamInt (.smac g signed_ vd va sm) g vd [va] (sPair sm) (fun k => s.w.X vd k + s.w.X va k * m) fun _ => false)

/-! ## Exact accumulation (R150 to R152) -/

/-- Common scale of the exact sums: every product of two FP64 values is an integer in units of 2^−2200. -/
def fxScale : Nat := 2200
/-- A lane's contribution in that scale; none for a NaN or an infinity. -/
def fxTerm (op : FxOp) (a b : Nat) : Option Int :=
  match fp64.decode a, fp64.decode b, op with
  | .fin n m e, _, .add => some (signed n m * 2 ^ (e + fxScale).toNat)
  | .fin n m e, _, .sub => some (-(signed n m * 2 ^ (e + fxScale).toNat))
  | .fin n m e, .fin n' m' e', .mad => some (signed (n != n') (m * m') * 2 ^ (e + e' + fxScale).toNat)
  | .fin n m e, .fin n' m' e', .msub => some (-(signed (n != n') (m * m') * 2 ^ (e + e' + fxScale).toNat))
  | _, _, _ => none
/-- T_g; none when the group is in N. -/
def Warp.fxSum (w : Warp) (op : FxOp) (va vb : Reg) (g : Nat) : Option Int :=
  (groupLanes w.groupN g).foldl (fun a i => match a, fxTerm op (w.vNat .w64 va i) (w.vNat .w64 vb i) with
    | some x, some y => some (x + y)
    | _, _ => none) (some 0)
/-- Position of the lowest set bit of a nonzero number below 2^n. -/
def lowBit (x : Nat) : Nat → Nat
  | 0 => 0
  | n + 1 => if x % 2 = 1 then 0 else 1 + lowBit (x / 2) n
/-- floor(T · 2^(−base)), and whether it is exact; a magnitude beyond 2^2000 is given as ±2^2000. -/
def fxFloor (t base : Int) : Int × Bool :=
  if t = 0 then (0, true)
  else
    let k := base + fxScale
    if k ≤ 0 then (if 2000 < -k then (if t < 0 then -(2 ^ 2000) else 2 ^ 2000) else t * 2 ^ (-k).toNat, true)
    else if 8000 < k then (if t < 0 then -1 else 0, false)
    else (t / 2 ^ k.toNat, t % 2 ^ k.toNat == 0)

def execFxacc (g : Guard) (op : FxOp) (vd va vb : Reg) (s : State) : Out :=
  let two := op == .mad || op == .msub
  .next (s.seamWord (.fxacc g op vd va vb) g [vd] (vPair va ++ if two then vPair vb else []) fun l =>
    let w := s.w
    let base := toSigned 32 w.fxbase.toNat
    let sums := l.map fun k => (k, w.fxSum op va vb k)
    let nans := (sums.filter (·.2.isNone)).map (·.1)
    let ts := sums.filterMap fun x => x.2.map fun t => (x.1, t, fxFloor t base)
    let hi := ts.filter fun x => w.outOfRange x.2.2.1
    let lo := if w.wmode then [] else ts.filter fun x => !x.2.2.2
    if !hi.isEmpty || !lo.isEmpty then
      let pos := fun (f : Nat → Nat) (x : Nat × Int × (Int × Bool)) => (f x.2.1.natAbs : Int) - fxScale - base
      let info := if !hi.isEmpty then
          2 ^ 32 + pattern 32 ((hi.map (pos Nat.log2)).foldl max (-(2 ^ 40)))
        else pattern 32 ((lo.map (pos fun x => lowBit x 5000)).foldl min (2 ^ 40))
      s.trap true 7 (w.groupsMask ((hi ++ lo).map (·.1))) (BitVec.ofNat 64 info)
    else
      let x := fun k => w.X vd k + ((ts.find? (·.1 == k)).map (·.2.2.1)).getD 0
      let outs := (ts.map (·.1)).filter fun k => w.outOfRange (x k)
      let s := s.onW fun w =>
        let w := if w.wmode && ts.any (fun x => !x.2.2.2) then w.setLost else w
        let w := w.putX vd (ts.map (·.1)) x
        let w := (w.addOp (w.limbRef vd) none .timed true false false true (w.groupsMask outs)).remember s.w (w.limbRef vd) w.pmask
        if nans.isEmpty then w else w.setFlags FFlags.invalid
      if s.w.overflowing then s.counted true
      else if !nans.isEmpty && s.w.fpinv then s.trap true 8 (w.groupsMask nans) 0
      else s.done true)
def execFxsign (g : Guard) (pd : BitVec 3) (va : Reg) (s : State) : Out :=
  .next (s.seamWord (.fxsign g pd va) g [va] [.p pd.toNat, .p (pd.toNat + 1)] fun l =>
    s.seamDone [.p pd.toNat, .p (pd.toNat + 1)] (fun w =>
      (w.setP pd.toNat (w.groupsMask l) (maskOf fun i => w.X va (i / w.groupN) != 0)).setP (pd.toNat + 1) (w.groupsMask l)
        (maskOf fun i => decide (w.X va (i / w.groupN) < 0))) 0 false)
def execFxcvt (g : Guard) (rm : RmSel) (vd va : Reg) (s : State) : Out :=
  .next (s.seamWord (.fxcvt g rm vd va) g [va] (vPair vd) fun l =>
    let w := s.w
    let r := fun k => fp64.round (rmSel .rne rm) (decide (w.X va k < 0)) (w.X va k).natAbs (toSigned 32 w.fxbase.toNat)
    s.seamDone (vPair vd) (fun w => (w.putV .w64 vd (w.groupsMask l) fun i => (r (i / w.groupN)).1).setFlags
      (l.foldl (fun a k => a.or (r k).2) FFlags.none)) 0 false)

/-! ## Binding (R135 to R137) -/

/-- The sets of lanes that are one path each: live, pending, and parked in each frame. -/
def State.laneSets (s : State) : List Mask :=
  let live := [s.w.a, s.w.b].filterMap fun p => p.map Path.mask
  let of := fun (e : Entry) => match e with
    | .frame _ _ r _ => r
    | .pending _ m _ => m
  (live ++ (s.w.stk ++ s.spilled).map of).map (· &&& ~~~s.w.lfm)
def execStitch (g : Guard) (w64 : Bool) (n : BitVec 2) (s : State) : Out :=
  .next (s.uniWord g [] fun _ =>
    if s.w.pend.any (·.seam) then s.stallSeam
    else
      match s.spilledAbsent with
      | some va => s.suspend va .spill s.w.pmask
      | none =>
      let size := 2 ^ (1 + n.toNat)
      let sets := s.laneSets
      let bad := (groups size).foldl (fun m k =>
        if 2 ≤ (sets.filter fun x => x &&& groupMask size k != 0).length then m ||| groupMask size k else m) (0 : Mask)
      if bad != 0 then s.trap false 5 bad ((wordOf (.stitch g w64 n)).setWidth 64)
      else (s.onW fun w => { w with seam := (w.seam &&& 0x600) ||| BitVec.ofNat 32 (1 + 4 * n.toNat + 16 * w64.toNat) }).done false)
def execUnstitch (g : Guard) (s : State) : Out :=
  .next (s.uniWord g [] fun _ =>
    if s.w.pend.any (·.seam) then s.stallSeam else (s.onW fun w => { w with seam := w.seam &&& 0xF00 }).done false)

end Sys2Proof.Machine
end

