-- ==== Sys2Proof/Machine/Tack.lean ====
section
/-!
DEFINITION. Tack automata (spec/21 R382 to R407): images, the hem, stepping, the acceptance actions, STOPs and their records, and
the tack words.
-/
namespace Sys2Proof.Machine

/-! ## Images (R391, R392, R382) -/

/-- A number of n bytes at an offset of an image. -/
def imageAt (l : List Byte) (off n : Nat) : Nat := ofBytes ((l.drop off).take n)
/-- Header fields. -/
def Tack.head (t : Tack) : Nat := imageAt t.image 0 8
def nstOf (h : Nat) : Nat := bits h 52 4
def nfiltOf (h : Nat) : Nat := bits h 43 5
/-- A descriptor is read and used. -/
def descOn (l : List Byte) (f : Nat) : Bool := decide (f < nfiltOf (imageAt l 0 8)) && bits (imageAt l (64 + 32 * f) 8) 16 1 == 1
/-- An arc of a state: its first eight bytes. -/
def arcAt (l : List Byte) (st a : Nat) : Nat := imageAt l (576 + 64 * st + 16 * a) 8
/-- An arc that breaks R392. -/
def arcBad (l : List Byte) (st a : Nat) : Bool :=
  let x := arcAt l st a
  bits x 63 1 == 1 &&
    (bits x 60 2 == 3 || (bits x 60 2 != 0 && bits x 56 4 != 0) || (bits x 60 2 == 0 && !descOn l (bits x 56 4))
      || decide (nstOf (imageAt l 0 8) < bits x 52 4) || decide (4 < bits x 47 3) || bits x 45 2 == 3 || bits x 38 2 == 3
      || decide (5 < bits x 33 4) || decide (5 < bits x 30 3) || bits x 0 26 != 0
      || imageAt l (576 + 64 * st + 16 * a + 12) 4 != 0)
/-- An image that breaks R391, R392 or a reserved field of R382. -/
def imageBad (l : List Byte) : Bool :=
  let h := imageAt l 0 8
  let q1 := imageAt l 8 8
  let asize := imageAt l 16 4
  bits h 56 8 != 1 || decide (nstOf h < bits h 48 4) || decide (16 < nfiltOf h) || bits h 0 33 != 0
    || (bits h 42 1 == 1 && !descOn l (bits h 38 4)) || (bits h 37 1 == 1 && !descOn l (bits h 33 4))
    || bits q1 48 16 != 0 || q1 % 64 != 0 || asize % 64 != 0 || decide (asize < 128) || imageAt l 20 4 != 0
    || imageAt l 24 4 == 0 || imageAt l 28 4 == 0 || imageAt l 32 32 != 0
    || (List.range (nfiltOf h)).any (fun f => descOn l f && (bits (imageAt l (64 + 32 * f) 8) 0 16 != 0 || imageAt l (64 + 32 * f + 24) 8 != 0))
    || (List.range (nstOf h + 1)).any fun st => (List.range 4).any fun a => arcBad l st a
/-- The descriptors that an image installs: number, die, bits. -/
def imageFilters (own : Nat) (l : List Byte) : List (Nat × Nat × BitVec 256) :=
  ((List.range (nfiltOf (imageAt l 0 8))).filter (descOn l)).map fun f =>
    let die := bits (imageAt l (64 + 32 * f) 8) 56 8
    (f, if die = 255 then own else die, BitVec.ofNat 256 (imageAt l (64 + 32 * f) 32))
/-- Filters of a die that no other automaton owns. -/
def State.freeFilters (s : State) (d owner : Nat) : List Nat :=
  (List.range 32).filter fun k => match (s.die d).ef.get none k with
    | some f => f.owner == owner
    | none => true
/-- Release the filters of an automaton. -/
def State.releaseFilters (s : State) (owner : Nat) : State :=
  { s with dies := s.dies.mapV fun _ x => { x with ef := x.ef.filter fun e => !e.2.any (·.owner == owner) } }
/-- Install a descriptor on a free filter of its die. -/
def State.installFilter (s : State) (owner : Nat) (x : Nat × Nat × BitVec 256) : State :=
  match (List.range 32).find? fun k => ((s.die x.2.1).ef.get none k).isNone with
  | some k => s.onDie x.2.1 fun y => { y with ef := y.ef.put k (some ⟨owner, x.1, x.2.2⟩) }
  | none => s

/-! ## Keys, resets, and becoming idle or lost -/

/-- The key of the hem (R384, R389). -/
def HemEvent.key (h : HemEvent) : List Nat := match h.timer with
  | some m => [h.ev.tick, 0xFF, 15, 2 ^ 19 - 1, m]
  | none => [h.ev.tick, h.ev.die, h.ev.unitClass, h.ev.index, h.ev.seq]
def HemEvent.insert (h : HemEvent) : List HemEvent → List HemEvent
  | [] => [h]
  | x :: t => if lexLt h.key x.key then h :: x :: t else x :: h.insert t
/-- Cancel the expiry of a timer. -/
def Tack.cancel (t : Tack) (m : Nat) : Tack := { t with queue := t.queue.filter fun h => h.timer != some m }
def Tack.timer (t : Tack) (m : Nat) : Option Nat := t.tm.get none m
def Tack.stopTimer (t : Tack) (m : Nat) : Tack := { t.cancel m with tm := t.tm.set none m none }
/-- Reset() of R393. -/
def Tack.reset (t : Tack) : Tack := { (t.stopTimer 0).stopTimer 1 with state := bits t.head 48 4, c := [] }
/-- It becomes idle, and drops every event that it holds. -/
def Tack.toIdle (t : Tack) : Tack := { t with run := .idle, hem := [], queue := [] }
/-- An event of automaton n (R407). -/
def State.emitTack (s : State) (ty n p : Nat) : State := s.emit ty (n / 4) 0x1FF 0x1F (n % 4) (pay p)
/-- The automaton becomes lost (R386). -/
def State.tackLost (s : State) (n cause : Nat) : State :=
  (s.onTack n fun t => { t with run := .lost, lostCause := cause }).emitTack 0xB3 n cause
def Run.live : Run → Bool
  | .primed | .armed => true
  | .unloaded | .idle | .lost => false
def Run.code : Run → Nat
  | .unloaded => 0
  | .idle => 1
  | .primed => 2
  | .armed => 3
  | .lost => 4

/-! ## The hem (R384 to R387, R389) -/

/-- Take the first event on its way to automaton n. -/
def takeFor (n : Nat) : List (Nat × HemEvent) → Option (HemEvent × List (Nat × HemEvent))
  | [] => none
  | (k, h) :: t => if k = n then some (h, t) else (takeFor n t).map fun r => (r.1, (k, h) :: r.2)
/-- HEM_ARRIVAL: the next event that has reached the automaton's die, or news of a discarded packet. -/
def execHemArrival (n : Nat) (lost : Bool) (s : State) : Out :=
  let t := s.tack n
  .next (if lost then
      (if !s.dropq.contains n then s
       else
        let s := { s with dropq := s.dropq.erase n }
        if t.run.live then s.tackLost n 3 else s)
    else match takeFor n s.evq with
      | none => s
      | some (h, rest) =>
        let s := { s with evq := rest }
        if !t.run.live || h.ev.tick < t.armTick then s
        else if t.moved.any fun k => lexLt h.key k then s.tackLost n 2
        else if 256 ≤ t.hem.length then s.tackLost n 1
        else s.onTack n fun t => { t with hem := h.insert t.hem })
/-- The key of an event for automaton n is due. -/
def State.keyDue (s : State) (n : Nat) (h : HemEvent) : Bool := decide (h.ev.tick + (s.tack n).window ≤ s.tick (n / 4))
/-- An event packet must have reached automaton n by now: its key is due, both its ends are in lock, and no failed link has turned it
aside (R385). -/
def State.packetDue (s : State) (n : Nat) (p : Pkt) : Bool :=
  let x := s.die (dieOfSite p.src)
  (s.die (n / 4)).locked && (if isCompute p.src then x.locked else x.baseLocked) && !p.rerouted && p.event.any fun e => e.1 == n && s.keyDue n e.2
/-- What must have arrived arrives: a key that is due is in the hem before it is moved (R385). -/
def State.arriveDue (s : State) (n : Nat) : State :=
  if !(s.tack n).run.live then s
  else
    let due := s.packetDue n
    let ps := s.sites.flatMap (fun e => e.2.waiting.filter due) ++ s.links.flatMap fun e => ((e.2.flying.map (·.1)).filter due).toList
    let s := if ps.isEmpty then s
      else
        { s with
          sites := s.sites.mapV fun _ x => { x with waiting := x.waiting.filter fun p => !due p }
          links := s.links.mapV fun _ l => { l with flying := l.flying.filter fun f => !due f.1 }
          evq := s.evq ++ ps.filterMap (·.event) }
    if s.evq.any fun e => e.1 == n && s.keyDue n e.2 then
      (s.evq.filter (·.1 == n)).foldl (fun s _ => stateOf s (execHemArrival n false s)) s
    else s
/-- The expiry of a timer (R389). -/
def expiry (n m dl : Nat) : HemEvent :=
  { ev := { type := 0xBF, die := n / 4, clu := 0x1FF, core := 0x1F, warp := n % 4, seq := m, tick := dl, payload := 0 }, mask := 0, timer := some m }
/-- A timer's expiry is due and not yet in the queue. -/
def Tack.expires (t : Tack) (now m : Nat) : Option Nat := match t.timer m with
  | some dl => if dl + t.window ≤ now && !t.queue.any (fun h => h.timer == some m) then some dl else none
  | none => none
/-- Move an event to the step queue. -/
def Tack.move (t : Tack) (h : HemEvent) : Tack :=
  { t with queue := h.insert t.queue, moved := some (match t.moved with
      | some k => if lexLt k h.key then h.key else k
      | none => h.key) }
/-- Move everything that is due: events in key order, and expiries. -/
def Tack.moveDue (t : Tack) (n now : Nat) : Tack :=
  let due := t.hem.filter fun h => h.ev.tick + t.window ≤ now
  let t := { t with hem := t.hem.filter fun h => !(h.ev.tick + t.window ≤ now : Bool) }
  let t := due.foldl Tack.move t
  (List.range 2).foldl (fun (t : Tack) m => match t.expires now m with
    | some dl => t.move (expiry n m dl)
    | none => t) t
/-- TIMER_EXPIRY. -/
def execTimerExpiry (d n m : Nat) (s : State) : Out :=
  let a := 4 * d + n
  let t := s.tack a
  .next (if t.run != .armed then s
    else match t.expires (s.tick d) m with
      | some dl =>
        let s := s.onTack a fun t => t.move (expiry a m dl)
        if 64 < (s.tack a).queue.length then s.tackLost a 1 else s
      | none => s)

/-! ## Records (R397, R398) -/

/-- The first 40 bytes of a record. -/
def recordHead (kind n scope ent : Nat) (trunc : Bool) (e : Event) (step : Nat) : List Byte :=
  bytesOf 8 (kind * 2 ^ 60 + n % 4 * 2 ^ 58 + n / 4 % 256 * 2 ^ 50 + scope * 2 ^ 47 + trunc.toNat * 2 ^ 46 + ent % 2 ^ 32) ++ e.bytes ++ bytesOf 8 step
/-- Write a record at the write offset; one that does not fit sets full. One that is dropped later keeps its place in the area (log 47). -/
def State.tackRecord (s : State) (n : Nat) (l : List Byte) : State :=
  let t := s.tack n
  let size := (l.length + 63) / 64 * 64
  if imageAt t.image 16 4 < t.offset + size then s.onTack n fun t => { t with full := true }
  else
    let r : Rec := { kind := .tack n, clu := dcp (n / 4), va := imageAt t.image 8 8 % 2 ^ 48 + t.offset,
                     bytes := l ++ List.replicate (size - l.length) 0, entry := none }
    (s.onTack n fun t => { t with offset := t.offset + size }).tryRecord r |>.2

/-! ## Acceptance (R394 to R396) -/

/-- Scope of a STOP after widening. -/
def widen (scope : Nat) (e : Event) : Nat :=
  let a := if scope ≤ 1 && (16 ≤ e.core || 16 ≤ e.warp) then 2 else scope
  if a ≤ 2 && 324 ≤ e.clu then 3 else a
/-- Dies of a scope. -/
def State.scopeDies (s : State) (n scope : Nat) (e : Event) : List Nat :=
  if scope ≤ 3 then [e.die] else if scope = 4 then diesOfRegion (regionOf e.die)
  else match s.partOf (n / 4) with
    | some p => s.diesOf p
    | none => [n / 4]
/-- Routed distance as it stood at arming. -/
def Tack.routed (t : Tack) (a b : Nat) : Nat := t.armRoutes.get (manhattan a b) (200 * a + b)
/-- The bound of R396, without the event's tick. -/
def State.stopBound (s : State) (n scope : Nat) (e : Event) : Nat :=
  let t := s.tack n
  let ds := s.scopeDies n scope e
  let u := if ds.contains (n / 4) then 0 else (ds.map fun d => latHigh (t.routed (n / 4) d)).foldl max 0
  t.window + 64 + [24, 24, 24, 60, 260, 900].getD scope 0 + u
/-- Act(a, e) of R394. -/
def State.tackAct (s : State) (n arc : Nat) (e : Event) : State :=
  let act := bits arc 33 4
  let now := s.tick (n / 4)
  let lo := e.tick % 2 ^ 32 * 2 ^ 32
  let s := s.emitTack 0xB2 n (act + bits arc 30 3 * 16 + lo)
  if act = 1 then
    let scope := widen (bits arc 30 3) e
    let x : Stop := { scope := scope, ev := e, step := now, bound := s.stopBound n scope e, delivered := none, warps := [] }
    s.onTack n fun t => { t with stops := t.stops ++ [x] }
  else if act = 2 then
    let t := now + 4096
    let r := match s.partOf (n / 4) with
      | some p => s.askSnapshot p t
      | none => (2, s)
    r.2.tackRecord n (recordHead 2 n 0 0 false e now ++ bytesOf 8 t ++ bytesOf 1 r.1 ++ List.replicate 15 0)
  else if act = 3 then s.interrupt (.tack (n / 4) (n % 4) e)
  else if act = 4 then s.onTack n fun t => { t with flags := t.flags ||| 2 ^ bits arc 27 3 }
  else s.emitTack 0xB1 n (bits arc 52 4 + lo)

/-! ## Stepping (R393) -/

/-- An arc passes. -/
def Tack.passes (t : Tack) (h : HemEvent) (st a : Nat) : Bool :=
  let x := arcAt t.image st a
  let k := imageAt t.image (576 + 64 * st + 16 * a + 8) 4
  let c := (t.c.get 0 (bits x 50 2)).toNat
  let fits := match bits x 60 2 with
    | 0 => h.timer.isNone && h.mask.testBit (bits x 56 4)
    | 1 => h.timer == some 0
    | _ => h.timer == some 1
  let ct := match bits x 47 3 with
    | 0 => true
    | 1 => c == k
    | 2 => c != k
    | 3 => decide (c < k)
    | _ => decide (k ≤ c)
  let running := (t.timer (bits x 44 1)).isSome
  let tt := match bits x 45 2 with
    | 0 => true
    | 1 => running
    | _ => !running
  bits x 63 1 == 1 && fits && ct && tt
/-- The arc that a step takes: a passing negative arc before every other. -/
def Tack.choose (t : Tack) (h : HemEvent) : Option Nat :=
  let arcs := (List.range 4).filter fun a => t.passes h t.state a
  (arcs.find? fun a => bits (arcAt t.image t.state a) 62 1 == 1).or arcs.head?
/-- The counter and timer operations of an arc, and its next state. -/
def Tack.follow (t : Tack) (x tick : Nat) : Tack :=
  let ci := bits x 40 2
  let c := (t.c.get 0 ci).toNat
  let c' := match bits x 42 2 with
    | 0 => c
    | 1 => min (c + 1) 0xFFFFFFFF
    | 2 => c - 1
    | _ => 0
  let m := bits x 37 1
  let t := { t with c := t.c.set 0 ci (BitVec.ofNat 32 c'), state := bits x 52 4 }
  match bits x 38 2 with
  | 0 => t
  | 1 => { t.cancel m with tm := t.tm.set none m (some (tick + imageAt t.image (24 + 4 * m) 4)) }
  | _ => t.stopTimer m
/-- Test and follow the arcs of the state. -/
def State.stepArcs (s : State) (n : Nat) (h : HemEvent) (sf : Bool) : State :=
  let t := s.tack n
  match t.choose h with
  | none => s
  | some a =>
    let x := arcAt t.image t.state a
    let s := s.onTack n fun t => t.follow x h.ev.tick
    let s := if bits x 33 4 = 0 then s else (s.tackAct n x h.ev).onTack n fun t => { t with acc := true }
    if bits x 26 1 = 1 then s.onTack n fun t => { t.toIdle with coincide := t.coincide || sf } else s
/-- Step(e). -/
def State.tackStep (s : State) (n : Nat) (h : HemEvent) : State :=
  let t := s.tack n
  let named := fun p f => bits t.head p 1 == 1 && h.timer.isNone && h.mask.testBit (bits t.head f 4)
  let sf := named 42 38
  let st := named 37 33
  if t.run == .primed then
    if st then s.onTack n fun t => { t with coincide := t.coincide || sf }
    else if !sf then s
    else (s.onTack n fun t => { t.reset with run := .armed }).stepArcs n h sf
  else if st then s.onTack n fun t => { t.toIdle with coincide := t.coincide || sf }
  else (if sf then s.onTack n Tack.reset else s).stepArcs n h sf
/-- AUTOMATON_STEP: what is due is moved, and the head of the queue is stepped. -/
def execAutomatonStep (d n : Nat) (s : State) : Out :=
  let a := 4 * d + n
  .next (if !(s.tack a).run.live then s
    else
      let s := s.onTack a fun t => t.moveDue a (s.tick d)
      if 64 < (s.tack a).queue.length then s.tackLost a 1
      else match (s.tack a).queue with
        | [] => s
        | h :: rest =>
          let s := s.onTack a fun t => { t with queue := rest, lastStep := h.ev.tick, tm := match h.timer with
            | some m => t.tm.set none m none
            | none => t.tm }
          s.tackStep a h)

/-! ## STOPs (R395 to R398, R406) -/

/-- Warp positions that a scope reaches, in order of die, cluster, core and position. -/
def State.scopeWarps (s : State) (n scope : Nat) (e : Event) : List Nat :=
  let live := fun (u : Nat) => (s.warp u).placed && !(s.warp u).ended
  let u0 := 256 * (324 * e.die + e.clu) + 16 * e.core + e.warp
  let ofClu := fun (c : Nat) => ((List.range 256).map (256 * c + ·)).filter live
  if scope = 0 then [u0].filter live
  else if scope = 1 then (if live u0 then (ofClu (cluOf u0)).filter fun u => (s.warp u).blk == (s.warp u0).blk else [])
  else if scope = 2 then ofClu (324 * e.die + e.clu)
  else
    let ds := s.scopeDies n scope e
    (s.clusters.filter fun c => ds.contains (c.1 / 324)).flatMap fun c => ofClu c.1
/-- Blocks whose streams a scope reaches (R395): the warp's for block scope, every placed block of its clusters for a wider one. -/
def State.scopeBlocks (s : State) (n scope : Nat) (e : Event) : List Nat :=
  if scope = 0 then []
  else if scope = 1 then ((s.scopeWarps n scope e).map fun u => (s.warp u).blk).eraseDups
  else
    let mine := fun (c : Nat) => if scope = 2 then c == 324 * e.die + e.clu else (s.scopeDies n scope e).contains (c / 324)
    (s.blocks.filter fun b => b.2.placed && mine (cluOfBlk b.1)).map (·.1)
/-- A STOP reaches one warp. -/
def Warp.stopNow (w : Warp) (now : Nat) : Warp :=
  if w.stopped then w else { w with stopped := true, frozen := w.susp.isSome, stopTick := some now, aftd := 0 }
/-- Deliver a STOP. -/
def State.deliverStop (s : State) (n : Nat) (x : Stop) : State :=
  let ws := s.scopeWarps n x.scope x.ev
  let marks := ws.map fun u => (⟨u, if (s.warp u).stopped then (s.warp u).aftd else 0, none⟩ : StopMark)
  let bs := s.scopeBlocks n x.scope x.ev
  let now := fun (u : Nat) => s.tick (dieOf u)
  let s := ws.foldl (fun s u => s.onWarp u fun w => w.stopNow (now u)) s
  let halt := fun (t : Stream) => { t with stopped := true }
  let s := bs.foldl (fun s b => s.onBlk b fun k => { k with m := halt k.m, c := halt k.c }) s
  let s := if x.scope < 3 then s else (s.scopeDies n x.scope x.ev).foldl (fun s d => s.onDie d fun y => { y with dcpStopped := true }) s
  s.onTack n fun t => { t with stops := t.stops.map fun y => if y = x then { y with delivered := some (s.tick (n / 4)), warps := marks } else y }
/-- STOP_DELIVERY: the first STOP of automaton n that has not been delivered. -/
def execStopDelivery (n : Nat) (s : State) : Out :=
  .next (match (s.tack n).stops.find? (·.delivered.isNone) with
    | some x => s.deliverStop n x
    | none => s)
/-- The STOPs of an automaton that have reached their bound are delivered by then (R396). -/
def State.deliverDue (s : State) (n : Nat) : State :=
  ((s.tack n).stops.filter fun x => x.delivered.isNone && decide (x.ev.tick + x.bound ≤ s.tick (n / 4))).foldl (fun s x => s.deliverStop n x) s
/-- A stopped warp stands: its paths are at boundaries or held by a handler, or it is inside its clause where it was suspended. -/
def Warp.stands (w : Warp) : Bool := w.frozen || (pathRests w.a && pathRests w.b)
/-- The warp that a STOP reached is still there and stopped. -/
def State.stillThere (s : State) (u : Nat) : Bool := (s.warp u).placed && !(s.warp u).ended && (s.warp u).stopped
/-- The STOP has taken effect in every warp of its scope. -/
def State.stopDone (s : State) (x : Stop) : Bool :=
  x.delivered.isSome && x.warps.all fun m => m.left.isSome || !s.stillThere m.uid || (s.warp m.uid).stands
/-- The tick at which the last warp stopped or ended, each by its own die: that of its delivery, or of its last word. With no warp it is
the tick of the delivery (log 47). -/
def State.stopTickOf (s : State) (x : Stop) : Nat :=
  let ts := x.warps.map fun m => match m.left with
    | some (.kept _ _ t) | some (.ended t) => t
    | none => (s.warp m.uid).stoppedAt
  if ts.isEmpty then x.delivered.getD 0 else ts.foldl max 0
/-- Entry of a warp that has not ended: words after delivery, and words at or after the accepting event's tick. -/
def State.stopEntry (s : State) (x : Stop) (m : StopMark) : Option (Nat × Nat × List Byte) :=
  let u := m.uid
  (match m.left with
    | some (.kept a b _) => some (a, b)
    | some (.ended _) => none
    | none => if s.stillThere u then some ((s.warp u).stopWords x m) else none).map fun (r : Nat × Nat) =>
  (r.1, r.2, bytesOf 8 (dieOf u * 2 ^ 56 + cluOf u % 324 * 2 ^ 47 + coreOf u % 16 * 2 ^ 42 + u % 16 * 2 ^ 37 + r.1 * 2 ^ 32 + r.2 * 2 ^ 16))
/-- STOP_RECORD_WRITE: the record of the first STOP that has taken effect. -/
def execStopRecordWrite (n : Nat) (s : State) : Out :=
  .next (match (s.tack n).stops.find? s.stopDone with
    | none => s
    | some x =>
      let t := s.tack n
      let es := x.warps.filterMap (s.stopEntry x)
      let room := imageAt t.image 16 4 - t.offset
      let fit := (room - 64) / 8
      let out := es.take fit
      let done := s.stopTickOf x
      let l := recordHead 1 n x.scope out.length (decide (out.length < es.length)) x.ev x.step ++ bytesOf 8 done
        ++ bytesOf 4 (done - x.ev.tick) ++ bytesOf 4 x.bound ++ bytesOf 2 ((es.map fun e => e.2.1).foldl max 0) ++ bytesOf 1 ((es.map fun e => e.1).foldl max 0)
        ++ List.replicate 5 0 ++ out.flatMap fun e => e.2.2
      (s.onTack n fun t => { t with stops := t.stops.erase x }).tackRecord n l)
/-- Warps go on before the record of a STOP is written: it says how they stopped, or leaves out those that had not. -/
def State.resumeMarks (s : State) (which : Nat → Bool) : State :=
  s.onMarks fun x m => if m.left.isSome || !which m.uid || !s.stillThere m.uid then [m] else if (s.warp m.uid).stands then [s.keepMark x m] else []
/-- A warp goes on from where it stopped; one that a block fault or a pre-emption holds where it stands stays there (R315, R317). -/
def State.goOn (s : State) (w : Warp) : Warp :=
  { w with stopped := false, frozen := w.frozen && (w.winding || (s.blk w.blk).saving), stopTick := none }
/-- Resume every stopped warp and stream of a die, and its command processor. -/
def State.resumeAll (s : State) (d : Nat) : State :=
  let go := fun (w : Warp) => if dieOf w.uid = d then s.goOn w else w
  let run := fun (t : Stream) => { t with stopped := false }
  let blk := fun (b : Nat) (k : Block) => if dieOfBlk b = d && k.fault.isNone then { k with m := run k.m, c := run k.c } else k
  let s := s.resumeMarks fun u => dieOf u == d
  ({ s with w := go s.w, warps := s.warps.mapV (fun _ w => go w), blocks := s.blocks.mapV blk }).onDie d fun x => { x with dcpStopped := false }
/-- STOPPED_WARP_RESUME (R395, R412). -/
def execStoppedWarpResume (p : Page) (v : DWord) (s : State) : Out :=
  let x := v.toNat
  .next (s.onPage p fun d =>
  let u := 256 * (324 * d + bits x 0 9) + 16 * bits x 9 4 + bits x 13 5
  if bits x 18 1 = 1 then s.resumeAll d
    else if 324 ≤ bits x 0 9 || 16 ≤ bits x 13 5 || !s.stillThere u then s
    else (s.resumeMarks (· == u)).onWarp u s.goOn)
/-- DIE_RESUME_ALL (R412). -/
def execDieResumeAll (p : Page) (s : State) : Out := .next (s.onPage p s.resumeAll)

/-! ## The tack words (R399 to R405) -/

/-- The automaton that a word names. -/
def State.myTack (s : State) (tk : BitVec 2) : Nat := 4 * s.myDie + tk.toNat
/-- Load an image that has been read (R400): the status, and the state after. -/
def State.loadImage (s : State) (n : Nat) (l : List Byte) : Nat × State :=
  let d := n / 4
  let fs := imageFilters d l
  if imageBad l then (1, s)
  else if fs.any fun f => 200 ≤ f.2.1 || !s.samePart d f.2.1 then (4, s)
  else if (fs.map (·.2.1)).any fun x => (s.freeFilters x n).length < (fs.filter (·.2.1 == x)).length then (2, s)
  else
    let s := fs.foldl (fun s f => s.installFilter n f) (s.releaseFilters n)
    (0, s.onTack n fun t => { t with run := .idle, image := l })
def execTkload (g : Guard) (sd sa : Reg) (tk : BitVec 2) (s : State) : Out :=
  .next (s.cmdWord g (sPair sa ++ [.s sd.toNat]) fun p =>
    let n := s.myTack tk
    let a := s.w.SP sa.toNat
    let status := fun (s : State) (x : Nat) => (s.onW fun w => w.setS sd.toNat (BitVec.ofNat 32 x)).countedB [.s sd.toNat]
    let run := (s.tack n).run
    if run.live || run == .lost then status s 3
    else if a = 0 then status ((s.releaseFilters n).onTack n fun t => { t with run := .unloaded, image := [] }) 0
    else if a.toNat % 64 != 0 then status s 1
    else (s.acquire s.myCore 3).resolveUni p a 1600 .load false true false fun s locs =>
      let r := s.readLocs s.myCore false locs
      let x := r.2.loadImage n r.1
      status x.2 x.1)
/-- W at arming (R385). -/
def State.windowOf (s : State) (n : Nat) : Nat :=
  let ds := (n / 4) :: (s.dies.filter fun e => e.2.ef.any fun f => f.2.any (·.owner == n)).map (·.1)
  2 + (ds.map fun d => latHigh (s.routed (n / 4) d)).foldl max 0
/-- TKARM and TKARM.p. -/
def State.tkarm (s : State) (g : Guard) (sd : Reg) (tk : BitVec 2) (run : Run) : State :=
  s.cmdWord g [.s sd.toNat] fun _ =>
    let n := s.myTack tk
    let t := s.tack n
    let status := fun (s : State) (x : Nat) => (s.onW fun w => w.setS sd.toNat (BitVec.ofNat 32 x)).countedB [.s sd.toNat]
    match t.run with
    | .unloaded => status s 1
    | .primed | .armed => status s 2
    | .idle | .lost =>
      status (s.onTack n fun t => { t.reset with
        run := run, hem := [], queue := [], moved := none, coincide := false, acc := false, flags := 0, full := false, lostCause := 0,
        offset := 0, window := s.windowOf n, armTick := s.tick s.myDie, lastStep := 0, armRoutes := s.routes }) 0
def execTkarm (g : Guard) (sd : Reg) (tk : BitVec 2) (s : State) : Out := .next (s.tkarm g sd tk .armed)
def execTkarmP (g : Guard) (sd : Reg) (tk : BitVec 2) (s : State) : Out := .next (s.tkarm g sd tk .primed)
def execTkdisarm (g : Guard) (tk : BitVec 2) (s : State) : Out :=
  .next (s.uniWord g [] fun _ =>
    let n := s.myTack tk
    (if (s.tack n).run.arms then s.onTack n Tack.toIdle else s).done false)
/-- The status word (R403). -/
def Tack.status (t : Tack) : Word :=
  BitVec.ofNat 32 (t.run.code * 2 ^ 29 + t.lostCause % 4 * 2 ^ 27 + t.coincide.toNat * 2 ^ 26 + t.acc.toNat * 2 ^ 25 + t.full.toNat * 2 ^ 24
    + t.state % 16 * 2 ^ 20 + t.flags % 256 * 2 ^ 12 + (t.timer 1).isSome.toNat * 2 ^ 11 + (t.timer 0).isSome.toNat * 2 ^ 10
    + min t.queue.length 127)
def execTkstat (g : Guard) (sd : Reg) (tk c : BitVec 2) (s : State) : Out :=
  .next (s.uniWord g (sQuad sd) fun _ =>
    let t := s.tack (s.myTack tk)
    let l := [t.status, t.c.get 0 c.toNat, loHalf (BitVec.ofNat 64 t.lastStep), hiHalf (BitVec.ofNat 64 t.lastStep)]
    (s.onW fun w => (w.setS4 sd.toNat l).addPend (sQuad sd) none .timed).done false)
/-- TKPOLL in either form. -/
def State.tkpoll (s : State) (g : Guard) (sd : Reg) (tk : BitVec 2) (clear : Bool) : State :=
  s.uniWord g [.s sd.toNat] fun _ =>
    let n := s.myTack tk
    let x := BitVec.ofNat 32 ((s.tack n).flags % 256)
    let s := if clear then s.onTack n fun t => { t with flags := 0 } else s
    (s.onW fun w => (w.setS sd.toNat x).addPend [.s sd.toNat] none .timed).done false
def execTkpoll (g : Guard) (sd : Reg) (tk : BitVec 2) (s : State) : Out := .next (s.tkpoll g sd tk false)
def execTkpollC (g : Guard) (sd : Reg) (tk : BitVec 2) (s : State) : Out := .next (s.tkpoll g sd tk true)
def execTkemit (g : Guard) (sa : Reg) (s : State) : Out :=
  .next (s.uniWord g (sPair sa) fun _ =>
    (s.emit 0xB0 s.myDie (s.myClu % 324) (s.myCore % 16) (s.w.uid % 16) (s.w.SP sa.toNat)).done false)

end Sys2Proof.Machine
end

