-- ==== Sys2Proof/Machine/Uniform.lean ====
section
/-!
DEFINITION. Uniform arithmetic, constants and special registers (spec/06 R116 to R119, spec/01 R25).
-/
namespace Sys2Proof.Machine

/-- A three-register uniform word of one width. -/
def State.uni3 (s : State) (g : Guard) (t : Wd) (sd sa sb : Reg) (f : Nat → Nat → Nat) : State :=
  s.uniOp g (sRef t sa ++ sRef t sb) (sRef t sd) fun w => w.putS t sd (f (w.sNat t sa) (w.sNat t sb))
def State.uniShift (s : State) (g : Guard) (t : Wd) (sd sa sb : Reg) (f : Nat → Nat → Nat) : State :=
  s.uniOp g (sRef t sa ++ [.s sb.toNat]) (sRef t sd) fun w => w.putS t sd (f (w.sNat t sa) (w.S sb.toNat).toNat)
def State.uniImm (s : State) (g : Guard) (sd sa : Reg) (f : Word → Word) : State :=
  s.uniOp g [.s sa.toNat] [.s sd.toNat] fun w => w.setS sd.toNat (f (w.S sa.toNat))

def execUadd (g : Guard) (t : Wd) (sd sa sb : Reg) (s : State) : Out := .next (s.uni3 g t sd sa sb fun a b => a + b)
def execUsub (g : Guard) (t : Wd) (sd sa sb : Reg) (s : State) : Out :=
  .next (s.uni3 g t sd sa sb fun a b => pattern (wdBits t) ((a : Int) - b))
def execUaddImm (g : Guard) (sd sa : Reg) (imm : BitVec 8) (s : State) : Out :=
  .next (s.uniImm g sd sa fun a => a + imm.signExtend 32)
def execUmul (g : Guard) (t : Wd) (sd sa sb : Reg) (s : State) : Out := .next (s.uni3 g t sd sa sb fun a b => a * b)
def execUmulh (g : Guard) (signed : Bool) (sd sa sb : Reg) (s : State) : Out :=
  .next (s.uni3 g .w32 sd sa sb (mulHigh (if signed then .i32 else .n32)))
def execUand (g : Guard) (t : Wd) (sd sa sb : Reg) (s : State) : Out := .next (s.uni3 g t sd sa sb fun a b => a &&& b)
def execUor (g : Guard) (t : Wd) (sd sa sb : Reg) (s : State) : Out := .next (s.uni3 g t sd sa sb fun a b => a ||| b)
def execUxor (g : Guard) (t : Wd) (sd sa sb : Reg) (s : State) : Out := .next (s.uni3 g t sd sa sb fun a b => a ^^^ b)
def execUandImm (g : Guard) (sd sa : Reg) (imm : BitVec 8) (s : State) : Out :=
  .next (s.uniImm g sd sa fun a => a &&& imm.setWidth 32)
def execUorImm (g : Guard) (sd sa : Reg) (imm : BitVec 8) (s : State) : Out :=
  .next (s.uniImm g sd sa fun a => a ||| imm.setWidth 32)
def execUxorImm (g : Guard) (sd sa : Reg) (imm : BitVec 8) (s : State) : Out :=
  .next (s.uniImm g sd sa fun a => a ^^^ imm.setWidth 32)
def execUshl (g : Guard) (t : Wd) (sd sa sb : Reg) (s : State) : Out := .next (s.uniShift g t sd sa sb (shlResult (wdBits t)))
def execUshr (g : Guard) (t : IntT) (sd sa sb : Reg) (s : State) : Out := .next (s.uniShift g (wdOf t.wide) sd sa sb (shrResult t))
def execUshlImm (g : Guard) (sd sa : Reg) (n : BitVec 5) (s : State) : Out :=
  .next (s.uniImm g sd sa fun a => BitVec.ofNat 32 (shlResult 32 a.toNat n.toNat))
def execUshrImm (g : Guard) (signed : Bool) (sd sa : Reg) (n : BitVec 5) (s : State) : Out :=
  .next (s.uniImm g sd sa fun a => BitVec.ofNat 32 (shrResult (if signed then .i32 else .n32) a.toNat n.toNat))
def execUmin (g : Guard) (t : IntT) (sd sa sb : Reg) (s : State) : Out := .next (s.uni3 g (wdOf t.wide) sd sa sb (minResult t))
def execUmax (g : Guard) (t : IntT) (sd sa sb : Reg) (s : State) : Out := .next (s.uni3 g (wdOf t.wide) sd sa sb (maxResult t))
def execUcmp (g : Guard) (c : Cond) (t : IntT) (qd : BitVec 3) (sa sb : Reg) (s : State) : Out :=
  .next (s.uniOp g (sRef (wdOf t.wide) sa ++ sRef (wdOf t.wide) sb) [.q qd.toNat] fun w =>
    w.setQ qd.toNat (condHolds c (intVal t (w.sNat (wdOf t.wide) sa)) (intVal t (w.sNat (wdOf t.wide) sb))))
/-- USEL (R117): the guard field is the selector, and the word is unguarded. -/
def execUsel (qs : Guard) (t : Wd) (sd sa sb : Reg) (s : State) : Out :=
  .next (s.uniOp Guard.always (.q qs.p.toNat :: sRef t sa ++ sRef t sb) (sRef t sd) fun w =>
    w.putS t sd (if w.passes qs then w.sNat t sa else w.sNat t sb))
def execUmovi (sd : Reg) (imm : BitVec 18) (s : State) : Out :=
  .next (s.uniOp Guard.always [] [.s sd.toNat] fun w => w.setS sd.toNat (imm.signExtend 32))
def execUlui (sd : Reg) (imm : BitVec 18) (s : State) : Out :=
  .next (s.uniOp Guard.always [.s sd.toNat] [.s sd.toNat] fun w =>
    w.setS sd.toNat (imm.setWidth 32 <<< 14 ||| (w.S sd.toNat &&& 0x3FFF)))

/-! ## Special registers (R25, R119) -/

/-- Value of a special register for the warp at issue, zero-extended to 64 bits. -/
def State.special (s : State) (n : Nat) : DWord :=
  let w := s.w
  let z := fun (x : Word) => x.setWidth 64
  match n with
  | 0x00 => BitVec.ofNat 64 Config.width
  | 0x01 => BitVec.ofNat 64 w.index
  | 0x02 => z w.blkId
  | 0x03 => z w.grid
  | 0x04 => BitVec.ofNat 64 s.myDie
  | 0x05 => BitVec.ofNat 64 (s.myClu % 324)
  | 0x06 => BitVec.ofNat 64 (s.myCore % 16)
  | 0x07 => z w.hclass
  | 0x08 => BitVec.ofNat 64 (s.tick s.myDie)
  | 0x09 => z (s.die s.myDie).tickoff
  | 0x0A => z w.quantum
  | 0x0B => w.spill
  | 0x0C => z w.seam
  | 0x0D => z w.fxbase
  | 0x0E => z w.fpmode
  | 0x0F => z w.fpstat
  | 0x10 => w.tvec
  | 0x11 => w.trpc
  | 0x12 => z w.tcause
  | 0x13 => w.tlanes.setWidth 64
  | 0x14 => w.tinfo
  | 0x15 => w.lfm.setWidth 64
  | 0x16 => BitVec.ofNat 64 (s.cad (regionOf s.myDie))
  | 0x17 => w.capbase
  | 0x18 => (s.region (regionOf s.myDie)).limit.setWidth 64
  | 0x19 => (s.die s.myDie).trdelay
  | _ => 0

/-- Write a special register (R119); fields that a map marks RO keep their value (R56, R134). -/
def Warp.setSpecial (w : Warp) (n : Nat) (x : DWord) : Warp :=
  let lo := loHalf x
  match n with
  | 0x0A => { w with quantum := lo }
  | 0x0C => { w with seam := (lo &&& 0xF00) ||| (w.seam &&& 0x1D) }
  | 0x0D => { w with fxbase := lo }
  | 0x0E => { w with fpmode := lo }
  | 0x0F => { w with fpstat := lo }
  | 0x10 => { w with tvec := x }
  | 0x11 => { w with trpc := x }
  | 0x12 => { w with tcause := (lo &&& ~~~(0x180 : Word)) ||| (w.tcause &&& 0x180) }
  | 0x13 => { w with tlanes := x.setWidth 16 }
  | 0x14 => { w with tinfo := x }
  | _ => w

/-- Width of a special register's operand. -/
def specialWd (n : BitVec 8) : Wd := wdOf (specialWide n)

def execUsr (g : Guard) (sd : Reg) (n : BitVec 8) (s : State) : Out :=
  .next (s.uniOp g [] (sRef (specialWd n) sd) fun w => w.putS (specialWd n) sd (s.special n.toNat).toNat)
/-- USW (R119): a forbidden value raises ILLEGAL when the guard passes (R28); %seam and %fxbase wait for seam words
(R137), and %fpmode for the words that read it (R119). -/
def execUsw (g : Guard) (n : BitVec 8) (sa : Reg) (s : State) : Out :=
  .next (s.uniWord g (sRef (specialWd n) sa) fun _ =>
    let x : DWord := BitVec.ofNat 64 (s.w.sNat (specialWd n) sa)
    if uswBad n.toNat (loHalf x) then s.illegal (wordOf (.usw g n sa))
    else if (n == 0x0C || n == 0x0D) && s.w.pend.any (·.seam) then s.stallSeam
    else if n == 0x0E && s.w.pend.any (·.fp) then s.stallOn 4 (s.w.producer (·.fp))
    else (s.onW fun w => w.setSpecial n.toNat x).done false)

end Sys2Proof.Machine
end

