-- ==== Sys2Proof/Machine/Dispatch.lean ====
section
/-!
DEFINITION. exec: one arm per row of the opcode table, in the table's order; each arm calls its own meaning.
-/
namespace Sys2Proof.Machine

/-- What one row of the opcode table does to the state. -/
def exec (i : Instr) (s : State) : Host.Outcome State Fault Refusal :=
  match i with
  | .clause wait fa fb len => Sys2Proof.Machine.execClause wait fa fb len s
  | .add g t vd va vb => Sys2Proof.Machine.execAdd g t vd va vb s
  | .sub g t vd va vb => Sys2Proof.Machine.execSub g t vd va vb s
  | .addc t vd va vb pc => Sys2Proof.Machine.execAddc t vd va vb pc s
  | .subb t vd va vb pc => Sys2Proof.Machine.execSubb t vd va vb pc s
  | .mul g t vd va vb => Sys2Proof.Machine.execMul g t vd va vb s
  | .mulh g t vd va vb => Sys2Proof.Machine.execMulh g t vd va vb s
  | .madc vd va vb pc => Sys2Proof.Machine.execMadc vd va vb pc s
  | .andL g t vd va vb => Sys2Proof.Machine.execAndL g t vd va vb s
  | .orL g t vd va vb => Sys2Proof.Machine.execOrL g t vd va vb s
  | .xorL g t vd va vb => Sys2Proof.Machine.execXorL g t vd va vb s
  | .shl g t vd va vb => Sys2Proof.Machine.execShl g t vd va vb s
  | .shr g t vd va vb => Sys2Proof.Machine.execShr g t vd va vb s
  | .bfe g signed vd va vb => Sys2Proof.Machine.execBfe g signed vd va vb s
  | .bfi g vd va vb => Sys2Proof.Machine.execBfi g vd va vb s
  | .popc g t vd va => Sys2Proof.Machine.execPopc g t vd va s
  | .clz g t vd va => Sys2Proof.Machine.execClz g t vd va s
  | .minL g t vd va vb => Sys2Proof.Machine.execMinL g t vd va vb s
  | .maxL g t vd va vb => Sys2Proof.Machine.execMaxL g t vd va vb s
  | .abs g t vd va => Sys2Proof.Machine.execAbs g t vd va s
  | .sel ps t vd va vb => Sys2Proof.Machine.execSel ps t vd va vb s
  | .cmp g c t pd va vb => Sys2Proof.Machine.execCmp g c t pd va vb s
  | .fcmp g c t pd va vb => Sys2Proof.Machine.execFcmp g c t pd va vb s
  | .movUniform g t vd va => Sys2Proof.Machine.execMovUniform g t vd va s
  | .movLane g vd => Sys2Proof.Machine.execMovLane g vd s
  | .fadd g t vd va vb => Sys2Proof.Machine.execFadd g t vd va vb s
  | .fsub g t vd va vb => Sys2Proof.Machine.execFsub g t vd va vb s
  | .fmul g t vd va vb => Sys2Proof.Machine.execFmul g t vd va vb s
  | .fmin g t vd va vb => Sys2Proof.Machine.execFmin g t vd va vb s
  | .fmax g t vd va vb => Sys2Proof.Machine.execFmax g t vd va vb s
  | .fclass g t vd va => Sys2Proof.Machine.execFclass g t vd va s
  | .rcp g vd va => Sys2Proof.Machine.execRcp g vd va s
  | .rsq g vd va => Sys2Proof.Machine.execRsq g vd va s
  | .exp2 g vd va => Sys2Proof.Machine.execExp2 g vd va s
  | .log2 g vd va => Sys2Proof.Machine.execLog2 g vd va s
  | .sin g vd va => Sys2Proof.Machine.execSin g vd va s
  | .cos g vd va => Sys2Proof.Machine.execCos g vd va s
  | .ddiv g vd va vb => Sys2Proof.Machine.execDdiv g vd va vb s
  | .dsqrt g vd va => Sys2Proof.Machine.execDsqrt g vd va s
  | .cvt g rm td ts vd va => Sys2Proof.Machine.execCvt g rm td ts vd va s
  | .narrow g tr q bf hs vd va => Sys2Proof.Machine.execNarrow g tr q bf hs vd va s
  | .widen g q hs vd va => Sys2Proof.Machine.execWiden g q hs vd va s
  | .shflFwd g t vd va k => Sys2Proof.Machine.execShflFwd g t vd va k s
  | .shflBack g t vd va k => Sys2Proof.Machine.execShflBack g t vd va k s
  | .shflSwap g t vd va k => Sys2Proof.Machine.execShflSwap g t vd va k s
  | .shflFrom g t vd va vb => Sys2Proof.Machine.execShflFrom g t vd va vb s
  | .bcast g t vd va n => Sys2Proof.Machine.execBcast g t vd va n s
  | .bcastLow g t vd va => Sys2Proof.Machine.execBcastLow g t vd va s
  | .voteCount g vd ps inv => Sys2Proof.Machine.execVoteCount g vd ps inv s
  | .voteRank g vd ps inv => Sys2Proof.Machine.execVoteRank g vd ps inv s
  | .voteAtleast g pd ps inv st => Sys2Proof.Machine.execVoteAtleast g pd ps inv st s
  | .voteEvery g pd ps inv => Sys2Proof.Machine.execVoteEvery g pd ps inv s
  | .voteAgree g pd ps inv => Sys2Proof.Machine.execVoteAgree g pd ps inv s
  | .voteMask g vd ps inv => Sys2Proof.Machine.execVoteMask g vd ps inv s
  | .lred g op vd va => Sys2Proof.Machine.execLred g op vd va s
  | .sadd g vd va vb => Sys2Proof.Machine.execSadd g vd va vb s
  | .ssub g vd va vb => Sys2Proof.Machine.execSsub g vd va vb s
  | .sshl g limb vd va c => Sys2Proof.Machine.execSshl g limb vd va c s
  | .sshrI g limb vd va c => Sys2Proof.Machine.execSshrI g limb vd va c s
  | .sshrN g limb vd va c => Sys2Proof.Machine.execSshrN g limb vd va c s
  | .sneg g vd va => Sys2Proof.Machine.execSneg g vd va s
  | .scmp g c pd va vb => Sys2Proof.Machine.execScmp g c pd va vb s
  | .smac g signed vd va sm => Sys2Proof.Machine.execSmac g signed vd va sm s
  | .fxacc g op vd va vb => Sys2Proof.Machine.execFxacc g op vd va vb s
  | .fxsign g pd va => Sys2Proof.Machine.execFxsign g pd va s
  | .fxcvt g rm vd va => Sys2Proof.Machine.execFxcvt g rm vd va s
  | .addImm g vd va imm => Sys2Proof.Machine.execAddImm g vd va imm s
  | .andImm g vd va imm => Sys2Proof.Machine.execAndImm g vd va imm s
  | .orImm g vd va imm => Sys2Proof.Machine.execOrImm g vd va imm s
  | .xorImm g vd va imm => Sys2Proof.Machine.execXorImm g vd va imm s
  | .shlImm g vd va n => Sys2Proof.Machine.execShlImm g vd va n s
  | .shrImm g signed vd va n => Sys2Proof.Machine.execShrImm g signed vd va n s
  | .movImm g vd imm => Sys2Proof.Machine.execMovImm g vd imm s
  | .fmaF32 neg vd va vb vc => Sys2Proof.Machine.execFmaF32 neg vd va vb vc s
  | .fmaF64 neg vd va vb vc => Sys2Proof.Machine.execFmaF64 neg vd va vb vc s
  | .madwI32 neg vd va vb vc => Sys2Proof.Machine.execMadwI32 neg vd va vb vc s
  | .madwN32 neg vd va vb vc => Sys2Proof.Machine.execMadwN32 neg vd va vb vc s
  | .ldI8 g vd va ab disp => Sys2Proof.Machine.execLdI8 g vd va ab disp s
  | .ldN8 g vd va ab disp => Sys2Proof.Machine.execLdN8 g vd va ab disp s
  | .ldI16 g vd va ab disp => Sys2Proof.Machine.execLdI16 g vd va ab disp s
  | .ldN16 g vd va ab disp => Sys2Proof.Machine.execLdN16 g vd va ab disp s
  | .ldB32 g vd va ab disp => Sys2Proof.Machine.execLdB32 g vd va ab disp s
  | .ldB64 g vd va ab disp => Sys2Proof.Machine.execLdB64 g vd va ab disp s
  | .ldB128 g vd va ab disp => Sys2Proof.Machine.execLdB128 g vd va ab disp s
  | .stN8 g vs va ab disp => Sys2Proof.Machine.execStN8 g vs va ab disp s
  | .stN16 g vs va ab disp => Sys2Proof.Machine.execStN16 g vs va ab disp s
  | .stB32 g vs va ab disp => Sys2Proof.Machine.execStB32 g vs va ab disp s
  | .stB64 g vs va ab disp => Sys2Proof.Machine.execStB64 g vs va ab disp s
  | .stB128 g vs va ab disp => Sys2Proof.Machine.execStB128 g vs va ab disp s
  | .pref g lv va ab disp => Sys2Proof.Machine.execPref g lv va ab disp s
  | .atomB32Die g op ord vd va ab => Sys2Proof.Machine.execAtomB32Die g op ord vd va ab s
  | .atomB32Dev g op ord vd va ab => Sys2Proof.Machine.execAtomB32Dev g op ord vd va ab s
  | .atomB32Sys g op ord vd va ab => Sys2Proof.Machine.execAtomB32Sys g op ord vd va ab s
  | .atomB64Die g op ord vd va ab => Sys2Proof.Machine.execAtomB64Die g op ord vd va ab s
  | .atomB64Dev g op ord vd va ab => Sys2Proof.Machine.execAtomB64Dev g op ord vd va ab s
  | .atomB64Sys g op ord vd va ab => Sys2Proof.Machine.execAtomB64Sys g op ord vd va ab s
  | .uadd g t sd sa sb => Sys2Proof.Machine.execUadd g t sd sa sb s
  | .usub g t sd sa sb => Sys2Proof.Machine.execUsub g t sd sa sb s
  | .uaddImm g sd sa imm => Sys2Proof.Machine.execUaddImm g sd sa imm s
  | .umul g t sd sa sb => Sys2Proof.Machine.execUmul g t sd sa sb s
  | .umulh g signed sd sa sb => Sys2Proof.Machine.execUmulh g signed sd sa sb s
  | .uand g t sd sa sb => Sys2Proof.Machine.execUand g t sd sa sb s
  | .uor g t sd sa sb => Sys2Proof.Machine.execUor g t sd sa sb s
  | .uxor g t sd sa sb => Sys2Proof.Machine.execUxor g t sd sa sb s
  | .ushl g t sd sa sb => Sys2Proof.Machine.execUshl g t sd sa sb s
  | .ushr g t sd sa sb => Sys2Proof.Machine.execUshr g t sd sa sb s
  | .umin g t sd sa sb => Sys2Proof.Machine.execUmin g t sd sa sb s
  | .umax g t sd sa sb => Sys2Proof.Machine.execUmax g t sd sa sb s
  | .ucmp g c t qd sa sb => Sys2Proof.Machine.execUcmp g c t qd sa sb s
  | .usel qs t sd sa sb => Sys2Proof.Machine.execUsel qs t sd sa sb s
  | .uandImm g sd sa imm => Sys2Proof.Machine.execUandImm g sd sa imm s
  | .uorImm g sd sa imm => Sys2Proof.Machine.execUorImm g sd sa imm s
  | .uxorImm g sd sa imm => Sys2Proof.Machine.execUxorImm g sd sa imm s
  | .ushlImm g sd sa n => Sys2Proof.Machine.execUshlImm g sd sa n s
  | .ushrImm g signed sd sa n => Sys2Proof.Machine.execUshrImm g signed sd sa n s
  | .umovi sd imm => Sys2Proof.Machine.execUmovi sd imm s
  | .ului sd imm => Sys2Proof.Machine.execUlui sd imm s
  | .usr g sd n => Sys2Proof.Machine.execUsr g sd n s
  | .usw g n sa => Sys2Proof.Machine.execUsw g n sa s
  | .uldB32 g sd sa imm => Sys2Proof.Machine.execUldB32 g sd sa imm s
  | .uldB64 g sd sa imm => Sys2Proof.Machine.execUldB64 g sd sa imm s
  | .ustB32 g ss sa imm => Sys2Proof.Machine.execUstB32 g ss sa imm s
  | .ustB64 g ss sa imm => Sys2Proof.Machine.execUstB64 g ss sa imm s
  | .uatomB32 g op scope ord sd sa => Sys2Proof.Machine.execUatomB32 g op scope ord sd sa s
  | .uatomB64 g op scope ord sd sa => Sys2Proof.Machine.execUatomB64 g op scope ord sd sa s
  | .fence g ord scope => Sys2Proof.Machine.execFence g ord scope s
  | .stitch g w64 n => Sys2Proof.Machine.execStitch g w64 n s
  | .unstitch g => Sys2Proof.Machine.execUnstitch g s
  | .br g off => Sys2Proof.Machine.execBr g off s
  | .jmp off => Sys2Proof.Machine.execJmp off s
  | .call g off => Sys2Proof.Machine.execCall g off s
  | .brl p target join => Sys2Proof.Machine.execBrl p target join s
  | .jmpi g sa => Sys2Proof.Machine.execJmpi g sa s
  | .jmpl g va join => Sys2Proof.Machine.execJmpl g va join s
  | .ret g sa => Sys2Proof.Machine.execRet g sa s
  | .loop g sa imm => Sys2Proof.Machine.execLoop g sa imm s
  | .lbrk g => Sys2Proof.Machine.execLbrk g s
  | .exit g => Sys2Proof.Machine.execExit g s
  | .trap g code => Sys2Proof.Machine.execTrap g code s
  | .resume g => Sys2Proof.Machine.execResume g s
  | .resumeSkip g => Sys2Proof.Machine.execResumeSkip g s
  | .yieldQ g => Sys2Proof.Machine.execYieldQ g s
  | .twait g sa => Sys2Proof.Machine.execTwait g sa s
  | .nop g => Sys2Proof.Machine.execNop g s
  | .barw g nb cnt sa => Sys2Proof.Machine.execBarw g nb cnt sa s
  | .bara g nb cnt sa => Sys2Proof.Machine.execBara g nb cnt sa s
  | .fork g which => Sys2Proof.Machine.execFork g which s
  | .rendez g => Sys2Proof.Machine.execRendez g s
  | .seed g b hs sa => Sys2Proof.Machine.execSeed g b hs sa s
  | .thbind g th sa sb => Sys2Proof.Machine.execThbind g th sa sb s
  | .thbindT g th sa sb => Sys2Proof.Machine.execThbindT g th sa sb s
  | .rkinit g rk sa sb => Sys2Proof.Machine.execRkinit g rk sa sb s
  | .cpy g rk th sb => Sys2Proof.Machine.execCpy g rk th sb s
  | .cpySeal g rk th sb => Sys2Proof.Machine.execCpySeal g rk th sb s
  | .awaitf g rk sa => Sys2Proof.Machine.execAwaitf g rk sa s
  | .relslot g rk => Sys2Proof.Machine.execRelslot g rk s
  | .acalloc g sd sa qd => Sys2Proof.Machine.execAcalloc g sd sa qd s
  | .acfree g sa sb => Sys2Proof.Machine.execAcfree g sa sb s
  | .acrd g sd sa sb => Sys2Proof.Machine.execAcrd g sd sa sb s
  | .acwr g sa sb => Sys2Proof.Machine.execAcwr g sa sb s
  | .aczero g sa => Sys2Proof.Machine.execAczero g sa s
  | .halloc g sd sa qd => Sys2Proof.Machine.execHalloc g sd sa qd s
  | .hallocF g sd sa qd => Sys2Proof.Machine.execHallocF g sd sa qd s
  | .hfree g sa => Sys2Proof.Machine.execHfree g sa s
  | .grow g sd sa qd => Sys2Proof.Machine.execGrow g sd sa qd s
  | .spawn g sd sa => Sys2Proof.Machine.execSpawn g sd sa s
  | .pktrx g sd qd => Sys2Proof.Machine.execPktrx g sd qd s
  | .fwd g sd sa sb => Sys2Proof.Machine.execFwd g sd sa sb s
  | .tbarrive g tb => Sys2Proof.Machine.execTbarrive g tb s
  | .tbarwait g sd tb => Sys2Proof.Machine.execTbarwait g sd tb s
  | .tbarst g sd tb => Sys2Proof.Machine.execTbarst g sd tb s
  | .blt g sd sa sb => Sys2Proof.Machine.execBlt g sd sa sb s
  | .cntr g sd sa => Sys2Proof.Machine.execCntr g sd sa s
  | .snap g sd sa => Sys2Proof.Machine.execSnap g sd sa s
  | .skincPc g sa sb => Sys2Proof.Machine.execSkincPc g sa sb s
  | .skincKn g sa sb => Sys2Proof.Machine.execSkincKn g sa sb s
  | .tkload g sd sa tk => Sys2Proof.Machine.execTkload g sd sa tk s
  | .tkarm g sd tk => Sys2Proof.Machine.execTkarm g sd tk s
  | .tkarmP g sd tk => Sys2Proof.Machine.execTkarmP g sd tk s
  | .tkdisarm g tk => Sys2Proof.Machine.execTkdisarm g tk s
  | .tkstat g sd tk c => Sys2Proof.Machine.execTkstat g sd tk c s
  | .tkpoll g sd tk => Sys2Proof.Machine.execTkpoll g sd tk s
  | .tkpollC g sd tk => Sys2Proof.Machine.execTkpollC g sd tk s
  | .tkemit g sa => Sys2Proof.Machine.execTkemit g sa s
  | .syscall g sd sa n => Sys2Proof.Machine.execSyscall g sd sa n s
  | .mcfg shape => Sys2Proof.Machine.execMcfg shape s
  | .mwload h a => Sys2Proof.Machine.execMwload h a s
  | .mmul h gr m a fmt ov => Sys2Proof.Machine.execMmul h gr m a fmt ov s
  | .mstore h gr r c => Sys2Proof.Machine.execMstore h gr r c s
  | .mbarw nb e => Sys2Proof.Machine.execMbarw nb e s
  | .mbara nb e => Sys2Proof.Machine.execMbara nb e s
  | .mend => Sys2Proof.Machine.execMend s
  | .ccpyPlain x_s d r => Sys2Proof.Machine.execCcpyPlain x_s d r s
  | .ccpyCvt x_s d r hs => Sys2Proof.Machine.execCcpyCvt x_s d r hs s
  | .cbar nb e => Sys2Proof.Machine.execCbar nb e s
  | .cbarW nb e => Sys2Proof.Machine.execCbarW nb e s
  | .cend => Sys2Proof.Machine.execCend s
  | .spillRefill w => Sys2Proof.Machine.execSpillRefill w s
  | .flagOperationComplete w tag => Sys2Proof.Machine.execFlagOperationComplete w tag s
  | .twaitWake w => Sys2Proof.Machine.execTwaitWake w s
  | .cpyAccept c => Sys2Proof.Machine.execCpyAccept c s
  | .copyPerformed c tag => Sys2Proof.Machine.execCopyPerformed c tag s
  | .acallocGrant c => Sys2Proof.Machine.execAcallocGrant c s
  | .acallocDeadlockFail c => Sys2Proof.Machine.execAcallocDeadlockFail c s
  | .granuleReturn c g => Sys2Proof.Machine.execGranuleReturn c g s
  | .heapAllocatorServe n => Sys2Proof.Machine.execHeapAllocatorServe n s
  | .mailboxPacket n => Sys2Proof.Machine.execMailboxPacket n s
  | .mcfgApply c => Sys2Proof.Machine.execMcfgApply c s
  | .mmulRowEnter c tag => Sys2Proof.Machine.execMmulRowEnter c tag s
  | .mmulRowWrite c tag => Sys2Proof.Machine.execMmulRowWrite c tag s
  | .tileFetch c tag => Sys2Proof.Machine.execTileFetch c tag s
  | .invalComplete d => Sys2Proof.Machine.execInvalComplete d s
  | .snapshotLatch d => Sys2Proof.Machine.execSnapshotLatch d s
  | .gatingBegin c => Sys2Proof.Machine.execGatingBegin c s
  | .gatingEnd c => Sys2Proof.Machine.execGatingEnd c s
  | .wakeEnd c => Sys2Proof.Machine.execWakeEnd c s
  | .launchAccept part queue => Sys2Proof.Machine.execLaunchAccept part queue s
  | .launchBeginDispatch l => Sys2Proof.Machine.execLaunchBeginDispatch l s
  | .dependenceRecheck l => Sys2Proof.Machine.execDependenceRecheck l s
  | .ticketClaim d l => Sys2Proof.Machine.execTicketClaim d l s
  | .blockPlace d l => Sys2Proof.Machine.execBlockPlace d l s
  | .timedStart blk => Sys2Proof.Machine.execTimedStart blk s
  | .gangReserve l => Sys2Proof.Machine.execGangReserve l s
  | .gangStart l => Sys2Proof.Machine.execGangStart l s
  | .blockEnd blk => Sys2Proof.Machine.execBlockEnd blk s
  | .blockSave blk => Sys2Proof.Machine.execBlockSave blk s
  | .blockResume d => Sys2Proof.Machine.execBlockResume d s
  | .spillReinject site => Sys2Proof.Machine.execSpillReinject site s
  | .packetForward site => Sys2Proof.Machine.execPacketForward site s
  | .treeRelease part tb => Sys2Proof.Machine.execTreeRelease part tb s
  | .droopDecay r => Sys2Proof.Machine.execDroopDecay r s
  | .onsetInterval r => Sys2Proof.Machine.execOnsetInterval r s
  | .islandRampDone c x_i => Sys2Proof.Machine.execIslandRampDone c x_i s
  | .hemArrival n lost => Sys2Proof.Machine.execHemArrival n lost s
  | .automatonStep d n => Sys2Proof.Machine.execAutomatonStep d n s
  | .timerExpiry d n m => Sys2Proof.Machine.execTimerExpiry d n m s
  | .stopDelivery n => Sys2Proof.Machine.execStopDelivery n s
  | .stopRecordWrite n => Sys2Proof.Machine.execStopRecordWrite n s
  | .resultWritten w tag => Sys2Proof.Machine.execResultWritten w tag s
  | .accumulatorPortDone c => Sys2Proof.Machine.execAccumulatorPortDone c s
  | .illegalEncoding word => Sys2Proof.Machine.execIllegalEncoding word s
  | .illFormedStreamWord word => Sys2Proof.Machine.execIllFormedStreamWord word s
  | .syscallAnswer d tag answer => Sys2Proof.Machine.execSyscallAnswer d tag answer s
  | .warpSwap core out => Sys2Proof.Machine.execWarpSwap core out s
  | .starvationGuard w => Sys2Proof.Machine.execStarvationGuard w s
  | .loadCapWindow core => Sys2Proof.Machine.execLoadCapWindow core s
  | .l1ReleaseDrain core => Sys2Proof.Machine.execL1ReleaseDrain core s
  | .lineExpiry rdc unit line => Sys2Proof.Machine.execLineExpiry rdc unit line s
  | .dirtyWritebackTimeout rdc unit => Sys2Proof.Machine.execDirtyWritebackTimeout rdc unit s
  | .rdcFill d line => Sys2Proof.Machine.execRdcFill d line s
  | .rdcReleaseComplete d => Sys2Proof.Machine.execRdcReleaseComplete d s
  | .rdcAcquireComplete d => Sys2Proof.Machine.execRdcAcquireComplete d s
  | .homeWrite d pa bytes => Sys2Proof.Machine.execHomeWrite d pa bytes s
  | .homeAtomic d pa wide op a b => Sys2Proof.Machine.execHomeAtomic d pa wide op a b s
  | .hostCxlMemAccess d pa access => Sys2Proof.Machine.execHostCxlMemAccess d pa access s
  | .cxlSnoop line => Sys2Proof.Machine.execCxlSnoop line s
  | .translationWalk walker va kind => Sys2Proof.Machine.execTranslationWalk walker va kind s
  | .resolve d word => Sys2Proof.Machine.execResolve d word s
  | .fqrpWrite d v => Sys2Proof.Machine.execFqrpWrite d v s
  | .fqWrite d v => Sys2Proof.Machine.execFqWrite d v s
  | .inval d v => Sys2Proof.Machine.execInval d v s
  | .cstepWrite d v => Sys2Proof.Machine.execCstepWrite d v s
  | .counterClear d ctl => Sys2Proof.Machine.execCounterClear d ctl s
  | .counterConfigure d ctl => Sys2Proof.Machine.execCounterConfigure d ctl s
  | .sketchFreeze d v => Sys2Proof.Machine.execSketchFreeze d v s
  | .sketchClear d v => Sys2Proof.Machine.execSketchClear d v s
  | .stoppedWarpResume d v => Sys2Proof.Machine.execStoppedWarpResume d v s
  | .dieResumeAll d => Sys2Proof.Machine.execDieResumeAll d s
  | .traceRingSetup d v => Sys2Proof.Machine.execTraceRingSetup d v s
  | .controlPageWrite d off v => Sys2Proof.Machine.execControlPageWrite d off v s
  | .stallSample core pos => Sys2Proof.Machine.execStallSample core pos s
  | .preempt d l => Sys2Proof.Machine.execPreempt d l s
  | .correctableError d what => Sys2Proof.Machine.execCorrectableError d what s
  | .uncorrectableError unit what pa => Sys2Proof.Machine.execUncorrectableError unit what pa s
  | .flitReceive site dir ok => Sys2Proof.Machine.execFlitReceive site dir ok s
  | .laneLockTimeout site dir => Sys2Proof.Machine.execLaneLockTimeout site dir s
  | .timingExchange base unit t1 t2 t3 t4 => Sys2Proof.Machine.execTimingExchange base unit t1 t2 t3 t4 s
  | .tickSlew base unit => Sys2Proof.Machine.execTickSlew base unit s
  | .ptpMessage port m => Sys2Proof.Machine.execPtpMessage port m s
  | .spanFrame port out bytes => Sys2Proof.Machine.execSpanFrame port out bytes s
  | .envelopeMeasure watts => Sys2Proof.Machine.execEnvelopeMeasure watts s
  | .droopAlarm r => Sys2Proof.Machine.execDroopAlarm r s
  | .slackDwellEnd p => Sys2Proof.Machine.execSlackDwellEnd p s
  | .islandWindowEnd d clu x_i n => Sys2Proof.Machine.execIslandWindowEnd d clu x_i n s
  | .islandIdle c x_i => Sys2Proof.Machine.execIslandIdle c x_i s
  | .panelReset signed => Sys2Proof.Machine.execPanelReset signed s
  | .lifeCycleChange phase => Sys2Proof.Machine.execLifeCycleChange phase s
  | .regionAssign r part limit troot capbase listAt queues ports => Sys2Proof.Machine.execRegionAssign r part limit troot capbase listAt queues ports s
  | .supervisorFailover => Sys2Proof.Machine.execSupervisorFailover s
  | .attestationRequest part nonce => Sys2Proof.Machine.execAttestationRequest part nonce s
  | .laneLockLost site dir => Sys2Proof.Machine.execLaneLockLost site dir s
  | .laneLockRegained site dir => Sys2Proof.Machine.execLaneLockRegained site dir s

end Sys2Proof.Machine
end

