-- ==== Sys2Proof/Machine/Turn.lean ====
section
/-!
DEFINITION. Who takes the next step and what it runs: the script `sched`, the model's own order where the script is empty (log
5), the issue slot of a core (R183 to R185), and the fetch of the word of a warp or a stream (R16, R19, R243).
-/
namespace Sys2Proof.Machine

/-- What a step does: nothing while the panel is held in reset; an effect that is no row of the table; or one row. -/
inductive Work where
  | held
  | only (s : State)
  | run (i : Instr) (s : State)

/-! ## The word of a warp and of a stream -/

/-- The row that a warp's word is: a word with no instruction, or with ill-formed operands, is ILLEGAL_ENCODING (R28). -/
def warpRow (x : Word) : Instr := match decodeWord x with
  | .ok i => if WellFormed i then i else .illegalEncoding x
  | .error _ => .illegalEncoding x
/-- The opcodes 0x60 to 0x6A of the streams (R244). -/
def streamCode? (x : Word) : Bool := 0xE0 ≤ bits x.toNat 24 8 && bits x.toNat 24 8 ≤ 0xEA
/-- The row that a stream's word is (R241). -/
def streamRow (x : Word) : Instr := match decodeWord x with
  | .ok i => if WellFormed i && streamCode? x then i else .illFormedStreamWord x
  | .error _ => .illFormedStreamWord x
/-- Make the record of warp u the one at issue; its word has not waited in this step yet. -/
def State.bring (s : State) (u : Nat) : State :=
  let t := if u = s.w.uid then s else { s with w := { s.warps.get Warp.empty u with uid := u }, warps := (s.warps.del u).put s.w.uid s.w }
  { t with focus := .warp, w := { t.w with stalled := false } }
/-- A word of a path issues: a lane word not while the lane datapath is busy (R183). -/
def State.wordTurn (s : State) (x : Word) : Work :=
  if x.toNat < 2 ^ 31 && s.cycle < (s.core s.myCore).laneFree then .only s.stall else .run (warpRow x) s
/-- The addresses of the words that go with a word as it is fetched: those of a clause that it starts, and those of the rest of a clause
that RESUME goes back to. -/
def State.fetchedWith (s : State) (p : Path) (x : Word) : List Nat := match decodeWord x with
  | .ok (.clause _ _ _ len) => (List.range (len.toNat + 1)).map fun k => p.pc.toNat + 4 + 4 * k
  | .ok (.resume _) => run false
  | .ok (.resumeSkip _) => run true
  | _ => []
where
  run (skip : Bool) : List Nat :=
    let r := s.w.resumeAt skip
    if !s.w.handling || s.w.tcause.getLsbD 15 then [] else (List.range (r.2.2 + 1 - r.2.1)).map fun k => r.1.toNat + 4 * k
/-- Fetches of a core: each line is asked for once, of the home L2, with its walk (R286, R303). -/
def State.coreFetches (s : State) (core : Nat) (l : List Nat) : State :=
  ((l.map (· / 128)).eraseDups).foldl (fun s k =>
    let s := s.coreWalks core (128 * k) .fetch
    match s.coreTranslate core (128 * k) .fetch with
    | .ok pa _ => s.visitAt (core / 16 / 324) pa
    | .noMap | .denied | .notPresent _ _ => s) s
/-- The next word of the path at issue: the next of its clause, or the word at a boundary. What the path's earlier words have left of
their accesses comes before it (R168). -/
def State.nextWord (s : State) : Work := match s.w.path with
  | none => .only s
  | some p =>
    let s := s.performParts s.w.uid fun x => p.owns x.owner
    match (p.clause.bind fun c => c.words.head?) with
    | some x => (s.coreFetches s.myCore (s.fetchedWith p x)).wordTurn x
    | none =>
      let t := s.coreFetches s.myCore [p.pc.toNat]
      match s.fetch s.myCore p.pc.toNat with
      | .word x => (t.coreFetches s.myCore (s.fetchedWith p x)).wordTurn x
      | .bad => .only (t.badLanding p)
      | .absent => .only (t.suspend p.pc.toNat .fetch p.mask)
      | .cut => .only (t.requestCut p.pc.toNat)
/-- An active warp may issue: it is not suspended, takes no part in a swap (R181), and no YIELD has still to swap it out. -/
def State.eligible (s : State) (u : Nat) : Bool :=
  let w := s.warp u
  let x := s.core (coreOf u)
  w.placed && !w.ended && w.active && w.susp.isNone && !w.yieldSwap && !(x.incoming == some u && decide (s.cycle < x.swapFree))
/-- The turn of the warp at issue: it settles at its boundary, and its next word issues. -/
def State.warpTurn (s : State) : Work :=
  if !s.eligible s.w.uid then .only s
  else match s.settle (settleFuel s.w) with
    | .stop t | .refill t => .only t
    | .go t => t.nextWord
/-- The turn of a stream. -/
def State.streamTurn (s : State) (b : Nat) (matrix : Bool) : Work :=
  if !s.streamGoes b matrix then .only s
  else
    let t := s.streamFetches b matrix
    match s.streamFetch b matrix with
    | .word x => .run (streamRow x) { (t.onStreamOf b matrix fun t => { t with word := some x }) with focus := if matrix then .matrix b else .copy b }
    | .bad | .cut => .only (t.streamFetchBad b matrix)
    | .absent => .only (t.streamFetchAbsent b matrix)

/-! ## The issue slot of a core (R183 to R185) -/

/-- The state that some work answers. -/
def Work.answer (s : State) : Work → State
  | .held => s
  | .only t => t
  | .run i t => stateOf t (exec i t)
/-- What comes of an attempt to issue a warp's next word: nothing at a boundary, a wait inside the clause with its reason, or an
effect. -/
inductive Tried where
  | waits
  | held (why : Nat × Addr)
  | acts
  deriving DecidableEq, Repr
/-- Try the turn of a warp. -/
def State.attempt (s : State) (u : Nat) : Tried :=
  let s := s.bring u
  match s.settle (settleFuel s.w) with
  | .stop _ | .refill _ => .waits
  | .go t =>
    let r := (t.nextWord.answer t).warp u
    if r.stalled then .held r.why else .acts
/-- Order of issue on a core: a warp past 1,024 cycles, the longest-ready first (R184), then the others, one that has yielded last
(R185), and by age (R183). -/
def State.rank (s : State) (u : Nat) : List Nat :=
  let w := s.warp u
  (if 1024 ≤ w.readyCount then [0, 2 ^ 64 - w.readyCount] else [1, 0]) ++ (decide (s.cycle < w.yieldUntil)).toNat :: s.age u
/-- The first of some warps in the order of issue. -/
def State.firstOf (s : State) (l : List Nat) : Option Nat := l.foldl (fun a u => match a with
  | none => some u
  | some v => if lexLt (s.rank u) (s.rank v) then some u else some v) none
/-- The warp that takes the issue slot of the core of u: the first of those that can issue; where none can, u itself. -/
def State.issuer (s : State) (u : Nat) : Nat :=
  let l := (s.resident (coreOf u)).filter s.eligible
  if l.all (· == u) then u else (s.firstOf (l.filter fun v => s.attempt v == .acts)).getD u

/-! ## Turns -/

/-- A row that units and outside parties take at a moment of their own: no word, not what a fetch makes of a bad one, and none that the
manual binds to an instant, which the clock takes. -/
def isEvent (i : Instr) : Bool := match i with
  | .illegalEncoding _ | .illFormedStreamWord _ | .twaitWake _ | .acallocDeadlockFail _ | .snapshotLatch _ | .gatingBegin _ | .gatingEnd _
  | .wakeEnd _ | .timedStart _ | .gangStart _ | .droopDecay _ | .onsetInterval _ | .timerExpiry _ _ _ | .automatonStep _ _ | .warpSwap _ _ | .loadCapWindow _
  | .stallSample _ _ | .laneLockTimeout _ _ | .timingExchange _ _ _ _ _ _ | .tickSlew _ _ | .envelopeMeasure _ | .slackDwellEnd _
  | .islandWindowEnd _ _ _ _ | .islandIdle _ _ | .supervisorFailover => false
  | i => (encode i).isNone
def State.turn (s : State) : Turn → Work
  | .event i => if isEvent i then .run i s else .only s
  | .issue u => (s.bring (s.issuer u)).warpTurn
  | .matrix b => s.streamTurn b true
  | .copy b => s.streamTurn b false

/-! ## The order of steps when the script is empty (log 5) -/

/-- Steps that the operations of a warp wait for. -/
def Warp.offers (w : Warp) : List Turn := w.pend.filterMap fun p => match p.kind with
  | .timed => some (.event (.resultWritten w.uid p.tag))
  | .counted => some (.event (.flagOperationComplete w.uid p.tag))
  | .unit => none
def EngOp.offers (c tag : Nat) : EngOp → List Instr
  | .mcfg _ _ => [.mcfgApply c]
  | .mwload _ _ _ _ _ _ | .mstore _ _ _ _ _ _ _ _ _ _ => [.tileFetch c tag]
  | .mmul _ => [.tileFetch c tag, .mmulRowEnter c tag, .mmulRowWrite c tag]
  | .copy _ => [.copyPerformed c tag]
def Cluster.offers (c : Nat) (x : Cluster) : List Instr :=
  (if x.cpyWait.isEmpty then [] else [.cpyAccept c])
  ++ (if x.acq.isEmpty then [] else [.acallocGrant c])
  ++ (if x.port.isEmpty then [] else [.accumulatorPortDone c])
  ++ x.engs.flatMap (fun e => e.op.offers c e.tag)
  ++ x.owner.map (fun e => .granuleReturn c e.1)
  ++ x.islands.filterMap (fun e => if e.2.st == .ramping then some (.islandRampDone c e.1) else none)
def Block.offers (b : Nat) (k : Block) : List Turn :=
  if !k.placed then []
  else
    (if k.m.st == .running then [.matrix b] else []) ++ (if k.c.st == .running then [.copy b] else [])
    ++ (if k.saving then [.event (.blockSave b)] else []) ++ [.event (.blockEnd b)]
def Die.offers (d : Nat) (x : Die) : List Instr :=
  (if x.heapq.isEmpty then [] else [.heapAllocatorServe d]) ++ (if x.fwdq.isEmpty then [] else [.mailboxPacket d])
  ++ ((x.claimed.map (·.1) ++ x.porters).eraseDups.map fun l => .blockPlace d l)
  ++ (if x.saved.isEmpty then [] else [.blockResume d]) ++ (if x.invalBusy then [.invalComplete d] else [])
  ++ x.tk.flatMap fun e => if e.2.stops.isEmpty then [] else [.stopDelivery (4 * d + e.1), .stopRecordWrite (4 * d + e.1)]
def State.launchOffers (s : State) (l : Nat) (x : Launch) : List Instr :=
  if x.state = 0 || x.state = 1 then [.launchBeginDispatch l, .dependenceRecheck l]
  else if x.state = 2 then (s.launchDies l).map (fun d => .ticketClaim d l) ++ [.gangReserve l]
  else []
def Partition.offers (p : Nat) (x : Partition) : List Instr :=
  if !x.formed then []
  else (List.range 64).map (fun q => .launchAccept p q) ++ x.trees.map (fun t => .treeRelease p t.1)
def Site.offers (k : Nat) (x : Site) : List Instr :=
  (if x.waiting.isEmpty then [] else [.packetForward k]) ++ (if x.spilled.isEmpty then [] else [.spillReinject k])
/-- Every step that a unit may have to take. -/
def State.unitOffers (s : State) : List Instr :=
  s.clusters.flatMap (fun e => e.2.offers e.1) ++ s.dies.flatMap (fun e => e.2.offers e.1)
    ++ s.launches.flatMap (fun e => s.launchOffers e.1 e.2) ++ s.parts.flatMap (fun e => e.2.offers e.1)
    ++ s.sites.flatMap (fun e => e.2.offers e.1) ++ s.evq.map (fun e => .hemArrival e.1 false) ++ s.dropq.map (fun n => .hemArrival n true)
def State.offers (s : State) : List Turn :=
  (s.w :: s.warps.map (·.2)).flatMap Warp.offers ++ s.blocks.flatMap (fun e => e.2.offers e.1) ++ s.unitOffers.map Turn.event
/-- Warps that may issue. -/
def State.issuable (s : State) : List Nat := ((s.w :: s.warps.map (·.2)).map (·.uid)).filter s.eligible
/-- Now and then the flits of packets under way arrive, and a command processor that lacks room pre-empts (R270). -/
def State.upkeep (s : State) : State :=
  let s := s.links.foldl (fun s e => if e.2.flying.isSome then stateOf s (execFlitReceive (e.1 / 4) (e.1 % 4) true s) else s) s
  (s.launches.filter fun e => e.2.state == 2).foldl (fun s e => (s.launchDies e.1).foldl (fun s d => stateOf s (execPreempt d e.1 s)) s) s
/-- The model's own order: steps of warps and of units in turn. -/
def State.policy (s : State) : Work :=
  let us := s.issuable
  let os := s.offers
  if s.cycle % 8 = 7 then .only s.upkeep
  else match (if s.cycle % 2 = 0 then us[s.cycle / 2 % us.length]? else none), os[s.cycle / 2 % os.length]? with
  | some u, _ => s.turn (.issue u)
  | none, some t => s.turn t
  | none, none => match us.head? with
    | some u => s.turn (.issue u)
    | none => .only s

/-- The turn resets the panel: the one thing that ends being held in reset (R416). -/
def Turn.resets : Turn → Bool
  | .event (.panelReset _) => true
  | .event _ | .issue _ | .matrix _ | .copy _ => false
/-- What the next step does. -/
def State.work (s : State) : Work := match s.sched with
  | t :: rest => if s.inReset && !t.resets then .held else ({ s with sched := rest }).turn t
  | [] => if s.inReset then .held else s.policy

/-! ## Placing one word -/

/-- Where `placeWord` puts a word: device memory of die 0. -/
def placeAddr : Nat := 0x10000
/-- A page of 4 GiB in which `placeAddr` lies, readable, writable and executable. -/
def placePage : TlbEntry := ⟨0, 2, 0, 7⟩
/-- Store a word, map its page in the TLBs, and make it what the next step fetches: a CLAUSE word at a boundary of the warp at issue, a
stream word at a running stream of its block, any other word as the one word of a clause. Its core's units are free, and the warp is
the first to issue. -/
def State.placeWord (s : State) (x : Word) : State :=
  let u := s.w.uid
  let b := s.w.blk
  let at_ : Addr := BitVec.ofNat 64 placeAddr
  let opc := bits x.toNat 24 8
  let goes := fun (t : Stream) => { t with st := .running, pc := at_, wait := none, held := none, stopped := false, word := none }
  let clause : Option Clause := if opc = 0x80 then none else some ⟨0, 0, 15, 15, [x]⟩
  let path : Path := { pc := at_, mask := BitVec.allOnes 16, join := none, clause := clause, src := at_, waits := [], held := false }
  let most := (s.resident (coreOf u)).foldl (fun n v => max n (s.warp v).readyCount) 1023
  let s := s.pokeN placeAddr 4 x.toNat
  let s := s.onClu (if streamCode? x then cluOfBlk b else cluOf u) fun c => { c with tlb := placePage :: c.tlb }
  let s := s.onCore (coreOf u) fun c => { c with utlb := placePage :: c.utlb, laneFree := 0, swapFree := 0, incoming := none }
  let s := s.onBlk b fun k =>
    { k with placed := true, hold := none, saving := false, warps := if k.warps.contains u then k.warps else u :: k.warps,
             m := if streamCode? x && opc < 0xE7 then goes k.m else k.m, c := if streamCode? x && 0xE7 ≤ opc then goes k.c else k.c }
  let s := s.onW fun w =>
    { w with placed := true, active := true, ended := false, winding := false, stopped := false, frozen := false, susp := none,
             cur := false, a := some path, b := none, tcause := w.tcause &&& ~~~(0x100 : Word), stk := [], below := 0, updates := [],
             parts := [], yieldSwap := false, readyCount := most + 1, f := [] }
  let t : Turn := if streamCode? x then (if opc < 0xE7 then .matrix b else .copy b) else .issue u
  { s with inReset := false, sched := t :: s.sched }

end Sys2Proof.Machine
end

