-- ==== Sys2Proof/Machine/Clock.lean ====
section
/-!
DEFINITION. What the end of every cycle brings, whoever took the step: the waits of warps are counted (R180, R184), and what the manual
ties to an instant happens (log 5): swaps and fills, load-cap windows, gating, power, start ticks, timers, exchanges of the time, samples
and snapshots.
-/
namespace Sys2Proof.Machine

/-- Effects on some units, one after another. -/
def State.each {α : Type} (s : State) (l : List α) (f : α → State → Out) : State := l.foldl (fun s a => stateOf s (f a s)) s

/-! ## The waits of warps (R180, R184, R374) -/

/-- The warp issued a word or began a clause in this cycle. -/
def Warp.ran (w : Warp) (cycle : Nat) : Bool := w.ranAt == cycle + 1
/-- The warp waits at a clause boundary (R180), or where a page fault or a STOP holds it (R311, R395). -/
def State.waiting (s : State) (u : Nat) : Bool :=
  let w := s.warp u
  let k := s.blk w.blk
  w.susp.isSome || w.stopped && w.stands || (atBoundary w.a && atBoundary w.b && !w.winding && !k.saving && k.hold.isNone
    && match (s.bring u).settle (settleFuel w) with
      | .go _ => false
      | .stop _ | .refill _ => true)
/-- The lane datapath of a core taken as free. -/
def State.laneIdle (s : State) (core : Nat) : State :=
  if (s.core core).laneFree ≤ s.cycle then s else s.onCore core fun x => { x with laneFree := 0 }
/-- The counts of a warp that issued nothing in a cycle that began in state `old`: it counts as ready when its word could have issued but
for another warp or a busy unit. -/
def Warp.aged (w : Warp) (old : State) : Warp :=
  if !w.placed || w.ended || w.ran old.cycle || !(old.warp w.uid).placed then w
  else
    let w := { w with waitCount := if old.waiting w.uid then w.waitCount + 1 else w.waitCount, stalled := false }
    if !old.eligible w.uid then { w with readyCount := 0 }
    else match (old.laneIdle (coreOf w.uid)).attempt w.uid with
      | .waits => { w with readyCount := 0 }
      | .held why => { w with readyCount := 0, stalled := true, why := why }
      | .acts => { w with readyCount := w.readyCount + 1 }
/-- The warps of the panel. -/
def State.allWarps (s : State) : List Warp := (s.w :: s.warps.map (·.2)).filter fun w => w.placed && !w.ended
/-- Cores with a resident warp. -/
def State.liveCores (s : State) : List Nat := (s.allWarps.map fun w => coreOf w.uid).eraseDups
/-- Count the waits of a cycle, and the cores on which a word waited on the load cap (R368). -/
def State.ageAll (s old : State) : State :=
  let s := { s with w := s.w.aged old, warps := s.warps.mapV fun _ w => w.aged old }
  let capped := (s.allWarps.filter fun w => w.stalled && w.why.1 == 6).map fun w => coreOf w.uid
  capped.eraseDups.foldl (fun s c => s.countUnit 0 c 8 1) s
/-- Warps that issued nothing settle at their boundary, and what the divergence stack needs is read back (R52). -/
def State.restAll (s : State) : State :=
  ((s.allWarps.filter fun w => !w.ran s.cycle && w.susp.isNone && !w.frozen).map (·.uid)).foldl (fun s u => s.focusOn u fun s =>
    match s.settle (settleFuel s.w) with
    | .go _ => s
    | .stop t => t
    | .refill t => stateOf t (execSpillRefill t.w.uid t)) s

/-! ## Cores (R179 to R187, R374) -/

/-- The active warp of a core that has waited longest beyond 32 cycles and may be swapped; of two the younger (R181, R182). -/
def State.longest (s : State) (core : Nat) : Option Nat :=
  ((s.resident core).filter fun u => (s.warp u).active && (s.warp u).swappable && decide (32 < (s.warp u).waitCount)).foldl (fun a u => match a with
    | none => some u
    | some v => if (s.warp v).waitCount < (s.warp u).waitCount || ((s.warp v).waitCount = (s.warp u).waitCount && lexLt (s.age v) (s.age u)) then some u
      else some v) none
/-- A swap of a core is over: a warp that became ready while it went out comes in next (R182). -/
def State.swapEnds (s : State) (core : Nat) : State :=
  let x := s.core core
  if (x.incoming.isNone && x.outgoing.isNone) || s.cycle + 1 < x.swapFree then s
  else s.onCore core fun x =>
    { x with incoming := none, outgoing := none, nextSwap := (x.outgoing.filter fun u => s.ready u).or x.nextSwap }
/-- The swap unit of a core, if it is free: a free position is filled first (R179), then a warp that has yielded goes (R185), then
one that has waited (R181). -/
def State.swapTurn (s : State) (core : Nat) : State :=
  if !s.swapUnit core then s
  else
    let t := s.warpFill core
    if !t.swapUnit core then t
    else match (s.resident core).find? fun u => (s.warp u).active && (s.warp u).yieldSwap with
      | some u => if (s.nextIn core).isSome then s.swapOut u true
        else s.onWarp u fun w => { w with yieldSwap := false, yieldUntil := s.cycle + 17 }
      | none => match s.longest core with
        | some u => stateOf s (execWarpSwap core u s)
        | none => s
/-- Cores at the end of a cycle. -/
def State.clockCores (s : State) : State :=
  let cores := s.liveCores
  let s := cores.foldl (fun s c => (s.swapEnds c).swapTurn c) s
  let s := if s.cycle % 1024 = 1023 then s.each (s.cores.map (·.1)) execLoadCapWindow else s
  cores.foldl (fun s c => match s.sampleTurn c with
    | some pos => stateOf s (execStallSample c pos s)
    | none => s) s

/-! ## Clusters and power (R214, R218, R356 to R363) -/

/-- A core's lane datapath is busy in this cycle, and one of its active warps has a global load in flight. -/
def State.laneBusy (s : State) (core : Nat) : Bool := decide (s.cycle < (s.core core).laneFree)
def State.coreLoads (s : State) (core : Nat) : Bool := (s.resident core).any fun u => (s.warp u).pend.any (·.load)
/-- The cores of an island. -/
def islandCores (c i : Nat) : List Nat := (List.range 4).map fun k => 16 * c + 4 * i + k
/-- An island counts the cycle, and its idle time and its ramp end where they are due. -/
def State.clockIsland (s : State) (c i : Nat) : State :=
  let cores := islandCores c i
  let busy := cores.any s.laneBusy
  let loads := cores.any s.coreLoads
  let s := if busy || loads then s.onIsland c i fun x => { x with busy := x.busy + busy.toNat, loading := x.loading + loads.toNat } else s
  let s := stateOf s (execIslandIdle c i s)
  if (s.island c i).st == .ramping && (s.island c i).admitted + 2000 ≤ s.tick (c / 324) then stateOf s (execIslandRampDone c i s) else s
/-- Clusters that nothing has used since reset show their gating and their islands while something watches (R218, R356). -/
def State.quietEvents (s : State) : State :=
  if !s.watching || (s.cycle != 4095 && s.cycle != 4096 && s.cycle != 4160) then s
  else
    let ds := (s.dies.filter fun d => d.2.ef.any fun f => f.2.any fun x => (s.tack x.owner).run.arms).map (·.1)
    let cs := (ds.flatMap clustersOf).filter fun c => !s.clusters.any (·.1 == c)
    if s.cycle = 4095 then cs.foldl (fun s c => (List.range 4).foldl (fun s i => s.emitDie 0x90 (c / 324) (c % 324 + i * 2 ^ 9 + 2 ^ 11)) s) s
    else cs.foldl (fun s c => s.emitClu 0x37 c (decide (s.cycle = 4160)).toNat) s
/-- The oldest request of a cluster can be met, or has no run of indices (R213, R237). -/
def State.acReady (s : State) (c : Nat) : Bool := match (s.clu c).acq with
  | [] => false
  | r :: _ => match (s.blk r.blk).freeRun r.k with
    | none => true
    | some _ => decide (r.k ≤ (s.clu c).freeGranules.length)
/-- Granules at the end of a cycle that began in state `old`: those that nothing uses any more return, and requests that could be met
before this cycle are met, in their order (R213, and the example of R214). -/
def State.clockGranules (s old : State) (c : Nat) : State :=
  let s := s.each ((s.clu c).owner.map (·.1)) fun g => execGranuleReturn c g
  if old.acReady c then (old.clu c).acq.foldl (fun s _ => stateOf s (execAcallocGrant c s)) s else s
/-- Clusters at the end of a cycle that began in state `old`. -/
def State.clockClusters (s old : State) : State :=
  let cs := s.clusters.map (·.1)
  let s := cs.foldl (fun s c => s.clockGranules old c) s
  let s := cs.foldl (fun s c => (List.range 4).foldl (fun s i => s.clockIsland c i) s) s
  let s := ((s.each cs execGatingBegin).each cs execGatingEnd).each cs execWakeEnd
  (s.each cs execAcallocDeadlockFail).quietEvents
/-- Regions at the end of a cycle: alarms that lie back, dwells, and onsets that wait. -/
def State.clockRegions (s : State) : State :=
  let s := s.each ((s.regions.filter fun r => decide (1 < r.2.droop)).map (·.1)) execDroopDecay
  let ps := s.parts.map (·.1)
  let s := ps.foldl (fun s p => if (s.heldTrees p).isEmpty then s else (s.regionsOf p).foldl (fun s r => s.slackTick p r) s) s
  let s := s.each ps execSlackDwellEnd
  let s := ((s.regions.filter fun r => 0 < r.2.slack).map (·.1)).foldl (fun s r => s.slackOff r) s
  let s := s.each ((s.regions.filter fun r => !r.2.onsets.isEmpty).map (·.1)) execOnsetInterval
  if s.refTick / 1000 ≤ s.measured then s else stateOf s (execEnvelopeMeasure (Config.panelWatts s.draw.1) s.draw.2)

/-! ## Start ticks, timers, links and time (R133, R274, R275, R325, R332, R345, R389, R411) -/

/-- A warp waits for a tick. -/
def Warp.awaitsTick (w : Warp) : Bool := w.waits.any fun x => match x with
  | .twait _ _ => true
  | .arriving _ _ | .barw _ _ _ | .awaitf _ _ _ | .tbar _ _ _ _ | .rendez _ | .hfree _ => false
/-- The automata of the dies: events that must have arrived, expiries, one event stepped in every tick (R385, R393), and STOPs that have
reached their bound (R396). -/
def State.clockTacks (s : State) : State :=
  let step := decide (2 * s.cycle / 5 < 2 * (s.cycle + 1) / 5)
  s.dies.foldl (fun s d => d.2.tk.foldl (fun s t =>
    let s := s.arriveDue (4 * d.1 + t.1)
    let s := (List.range 2).foldl (fun s m => stateOf s (execTimerExpiry d.1 t.1 m s)) s
    let s := if step then stateOf s (execAutomatonStep d.1 t.1 s) else s
    s.deliverDue (4 * d.1 + t.1)) s) s
/-- What becomes due by a tick. -/
def State.clockTicks (s : State) : State :=
  let s := s.each ((s.allWarps.filter Warp.awaitsTick).map (·.uid)) execTwaitWake
  let s := s.each ((s.blocks.filter fun b => b.2.hold.isSome).map (·.1)) execTimedStart
  let s := s.each ((s.launches.filter fun l => l.2.start.isSome).map (·.1)) execGangStart
  let s := s.clockTacks
  let s := (s.links.filter fun l => l.2.lost.isSome).foldl (fun s l => stateOf s (execLaneLockTimeout (l.1 / 4) (l.1 % 4) s)) s
  let s := stateOf s (execSupervisorFailover s)
  s.parts.foldl (fun s p => p.2.trees.foldl (fun s t =>
    if t.2.left.isEmpty || s.cycle + 1 < t.2.releasedAt + 3 then s else s.treeReach p.1 t.1 t.2.left) s) s
/-- The exchanges and the slewing of the clocks. The dies that have kept the reference's time have none to work off. -/
def State.clockTime (s : State) : State :=
  let ds := if s.refSlew = 0 then s.dies.map (·.1) else List.range Config.dies
  let s := ds.foldl (fun s d => let s := stateOf s (s.exchange false d); stateOf s (s.exchange true d)) s
  let s := ((s.each ds (execTickSlew false)).each ds (execTickSlew true))
  s.refSlews

/-! ## Caches and parts of accesses (R168, R290) -/

/-- Entries of a FIFO that have to be written back, the oldest first. -/
def dueOf (cycle : Nat) (t : Tbl Line) (fifo : List Nat) : List Nat := fifo.takeWhile fun l => decide ((t.get Line.empty l).since + 8192 ≤ cycle)
/-- A clean line has to go. -/
def Line.expired (l : Line) (cycle : Nat) : Bool := l.dirty == 0 && decide (l.filled + 8192 ≤ cycle)
/-- Dirty entries and clean lines past their 8,192 cycles, in the L1s and the RDCs. -/
def State.clockCaches (s : State) : State :=
  let n := s.cycle + 1
  let s := s.cores.foldl (fun s e => (dueOf n e.2.l1 e.2.fifo).foldl (fun s _ => stateOf s (execDirtyWritebackTimeout false e.1 s)) s) s
  let s := s.dies.foldl (fun s e => (dueOf n e.2.rdc e.2.fifo).foldl (fun s _ => stateOf s (execDirtyWritebackTimeout true e.1 s)) s) s
  let s := s.cores.foldl (fun s e => (e.2.l1.filter fun l => l.2.expired n).foldl (fun s l => stateOf s (execLineExpiry false e.1 l.1 s)) s) s
  s.dies.foldl (fun s e => (e.2.rdc.filter fun l => l.2.expired n).foldl (fun s l => stateOf s (execLineExpiry true e.1 l.1 s)) s) s
/-- Parts of crossing accesses are left for 64 cycles at most (log 70). -/
def State.clockParts (s : State) : State :=
  ((s.allWarps.filter fun w => !w.parts.isEmpty).map (·.uid)).foldl (fun s u => s.performParts u fun p => decide (p.since + 64 ≤ s.cycle)) s

/-! ## The end of a cycle -/

/-- A counter of clock cycles counts one (R368). -/
def cycleCount (k : Nat) (c : Counter) : Counter :=
  if c.en && c.sel == 1 && !ctrFixed (k / 2 ^ 40) (k % 16) then c.add 1 else c
/-- A cycle has passed. -/
def State.nextCycle (s : State) : State := { s with cycle := s.cycle + 1, counters := s.counters.mapV cycleCount }
/-- Windows of the islands that have ended with the cycle (R356). -/
def State.clockWindows (s : State) : State :=
  (s.clusters.map (·.1)).foldl (fun s c =>
    let n := s.tick (c / 324) / 1000
    (List.range 4).foldl (fun s i => if (s.island c i).window < n then stateOf s (execIslandWindowEnd (c / 324) (c % 324) i n s) else s) s) s
/-- Every die latches its counters in its first cycle at the tick of a snapshot (R371). -/
def State.snapshots (s : State) : State := s.each ((s.dies.filter fun d => d.2.snap.isSome).map (·.1)) execSnapshotLatch
/-- The end of a cycle that began in state `old`. -/
def State.tickOn (s old : State) : State :=
  ((((((((s.ageAll old).restAll).clockCores).clockClusters old).clockRegions).clockTicks).clockTime).clockCaches).clockParts.traceAll.nextCycle.clockWindows.snapshots

end Sys2Proof.Machine
end

