-- ==== Sys2Proof/Machine/Step.lean ====
section
/-!
DEFINITION. One step of the panel: the row that is due, and what every step adds to time.
-/
namespace Sys2Proof.Machine

/-- The row that is due takes effect, and a cycle passes. -/
def step (s : State) : Host.Outcome State Fault Refusal :=
  match s.work with
  | .held => .fault .heldInReset
  | .only t => .next (t.tickOn s)
  | .run i t => match exec i t with
    | .next u => .next (u.tickOn s)
    | .fault r => .fault r
    | .refused r => .refused r

/-- The instruction of the table numbered `w` stands where the next step fetches (log 13). -/
def State.withFetchWord (s : State) (nbits w : Nat) : State := s.placeWord (BitVec.ofNat 32 (w % 2 ^ nbits))

end Sys2Proof.Machine
end

