-- ==== Sys2Proof/Safety.lean ====
section
/-!
DEFINITION. The words in which claims are stated: when the word at issue issues, what issuing leaves alone in the machine
and in the warp, how a path goes on, and the values that arithmetic words write, as bit vectors and integers of the manual.
-/
namespace Sys2Proof.Safety
open Sys2Proof.Machine

/-- The low n bits of a number as an n-bit vector, and its signed value. -/
def bv (n x : Nat) : BitVec n := BitVec.ofNat n x
def sv (n x : Nat) : Int := (bv n x).toInt

/-! ## When a word issues -/

/-- The warp at issue stands inside clause `c` of path `p`, none of the registers is pending (R54), and no seam word in
flight holds it for an overflow (R16, R144). -/
structure Issues (s : State) (p : Path) (c : Clause) (regs : List RegRef) : Prop where
  path : s.w.path = some p
  clause : p.clause = some c
  free : s.w.blocked regs = false
  calm : s.w.overflowing = false

/-- A guarded lane word issues: its guard predicate is free too, and its guard splits no bound group (R140). -/
structure LaneIssues (s : State) (p : Path) (c : Clause) (g : Guard) (regs : List RegRef) : Prop where
  issues : Issues s p c (.p g.p.toNat :: regs)
  whole : s.w.divergent p g = 0

/-- A guarded uniform word issues with a guard that passes (R14). -/
structure UniIssues (s : State) (p : Path) (c : Clause) (g : Guard) (regs : List RegRef) : Prop where
  issues : Issues s p c (.q g.p.toNat :: regs)
  passes : s.w.passes g = true

/-- A clause-ending word issues at the last place of its clause (R18). -/
structure EndIssues (s : State) (p : Path) (c : Clause) (g : Guard) (regs : List RegRef) : Prop where
  uni : UniIssues s p c g regs
  last : c.idx = c.len

/-- Lanes that an unguarded lane word serves. -/
def unguarded (s : State) (p : Path) : Mask := p.mask &&& ~~~s.w.lfm

/-! ## What issuing leaves alone -/

/-- The machine beside the warp at issue, its counters, the records of cores, blocks, clusters, dies and regions, and the events
that are on their way. -/
def outside (s : State) : State :=
  { s with w := Warp.empty, counters := [], cores := [], blocks := [], clusters := [], dies := [], regions := [], sites := [], evq := [],
           packets := 0 }

/-- Nothing of the machine beside the warp at issue has changed, but what issuing a word does: the block may have begun
(R272), the lane datapath of a core may be busy (R183), an island may have asked for its onset (R356), and counters (R367) and emitted events (R383) may have moved. -/
structure Quiet (s t : State) : Prop where
  outside : outside t = outside s
  cores : ∀ u, { t.core u with laneFree := 0 } = { s.core u with laneFree := 0 }
  blocks : ∀ b, { t.blk b with begun := false } = { s.blk b with begun := false }
  clusters : ∀ c, { t.clu c with islands := [] } = { s.clu c with islands := [] }
  dies : ∀ d, { t.die d with seqs := [], traceq := [] } = { s.die d with seqs := [], traceq := [] }
  regions : ∀ r, { t.region r with onsets := [] } = { s.region r with onsets := [] }

/-- The warp's record without its registers, predicates and flag counters, its scoreboard, its paths and loops, and its
issue counts and what its port operations are ordered after (log 10): the special registers, the divergence stack, the accumulated flags and everything else of R43. -/
def bare (w : Warp) : Warp :=
  { w with v := [], p := [], s := [], q := [], f := [], pend := [], orphans := [], nextTag := 0, a := none, b := none, loops := [], depth := 0,
           cnt := 0, waitCount := 0, readyCount := 0, ranAt := 0, yieldUntil := 0, stalled := false, failed := false, pushed := none, issued := [],
           aftd := 0, knows := ⟨[], 0⟩, due := [] }

/-- The word has issued and its path has gone to its next word (R16), where the machine is otherwise left alone. -/
structure Went (s t : State) : Prop where
  quiet : Quiet s t
  begun : (t.blk s.w.blk).begun = true
  pathA : t.w.a = s.w.advance.a
  pathB : t.w.b = s.w.advance.b
  loops : t.w.loops = s.w.advance.loops
  depth : t.w.depth = s.w.advance.depth
  count : t.w.cnt = s.w.cnt + 1
  going : t.w.stalled = false

/-- Register r of lane l is the destination `vd`, or its upper half, in an active lane. -/
def hits (m : Mask) (wd : Wd) (vd : Reg) (r l : Nat) : Prop :=
  m.getLsbD l = true ∧ (r = vd.toNat ∨ (wd = .w64 ∧ r = vd.toNat + 1))

/-- A register is pending exactly if it was or if the word writes it (R54); a lane word with no active lane writes nothing, and p7 and q7 are
never pending. -/
def Marks (s t : State) (m : Mask) (dst : List RegRef) : Prop :=
  ∀ r, t.w.blocked [r] = (s.w.blocked [r] || (m != 0 && (dst.contains r && r.kept)))

/-- A lane word has issued that writes the register or pair `vd` with `f l` in every lane l of `m`, and nothing else. -/
structure LaneWrote (s t : State) (m : Mask) (wd : Wd) (vd : Reg) (f : Nat → Nat) : Prop where
  went : Went s t
  value : ∀ l < 16, m.getLsbD l = true → t.w.vNat wd vd l = f l
  others : ∀ r, ∀ l < 16, ¬ hits m wd vd r l → t.w.V r l = s.w.V r l
  preds : t.w.p = s.w.p
  uniform : t.w.s = s.w.s
  upreds : t.w.q = s.w.q
  flags : t.w.f = s.w.f
  marks : Marks s t m (vRef wd vd)
  bare : bare t.w = bare s.w

/-- A lane word has issued that writes predicate `pd` with `f l` in every lane l of `m` and nothing else; p7 discards (R13). -/
structure PredWrote (s t : State) (m : Mask) (pd : BitVec 3) (f : Nat → Bool) : Prop where
  went : Went s t
  value : pd ≠ 7 → ∀ l < 16, m.getLsbD l = true → (t.w.P pd.toNat).getLsbD l = f l
  lanes : ∀ l < 16, m.getLsbD l = false → (t.w.P pd.toNat).getLsbD l = (s.w.P pd.toNat).getLsbD l
  hardwired : t.w.P 7 = BitVec.allOnes 16
  others : ∀ n, n ≠ pd.toNat → t.w.P n = s.w.P n
  regs : t.w.v = s.w.v
  uniform : t.w.s = s.w.s
  upreds : t.w.q = s.w.q
  flags : t.w.f = s.w.f
  marks : Marks s t m [.p pd.toNat]
  bare : bare t.w = bare s.w

/-- A carry word has issued (R86): it writes `vd` and, in the lanes of `m`, the carry predicate; p7 discards. -/
structure CarryWrote (s t : State) (m : Mask) (wd : Wd) (vd : Reg) (f : Nat → Nat) (pc : BitVec 3) (x : Nat → Bool) : Prop where
  went : Went s t
  value : ∀ l < 16, m.getLsbD l = true → t.w.vNat wd vd l = f l
  others : ∀ r, ∀ l < 16, ¬ hits m wd vd r l → t.w.V r l = s.w.V r l
  carry : pc ≠ 7 → ∀ l < 16, m.getLsbD l = true → (t.w.P pc.toNat).getLsbD l = x l
  lanes : ∀ l < 16, m.getLsbD l = false → (t.w.P pc.toNat).getLsbD l = (s.w.P pc.toNat).getLsbD l
  hardwired : t.w.P 7 = BitVec.allOnes 16
  otherPreds : ∀ n, n ≠ pc.toNat → t.w.P n = s.w.P n
  uniform : t.w.s = s.w.s
  upreds : t.w.q = s.w.q
  flags : t.w.f = s.w.f
  marks : Marks s t m (.p pc.toNat :: vRef wd vd)
  bare : bare t.w = bare s.w

/-- A flag counter after a word with active lanes `m` that counts in `flag` (R17). -/
def Counts (s t : State) (m : Mask) (flag : Option Nat) : Prop :=
  ∀ k, t.w.f.get 0 k = s.w.f.get 0 k + (if m ≠ 0 ∧ flag = some k then 1 else 0)

/-- A floating-point lane word has issued: as LaneWrote, with the flags it raised accumulated in %fpstat (R64) and, for a
long-latency operation, flag A counted up (R17). -/
structure FpWrote (s t : State) (m : Mask) (wd : Wd) (vd : Reg) (f : Nat → Nat) (flags : FFlags) (flag : Option Nat) : Prop where
  went : Went s t
  value : ∀ l < 16, m.getLsbD l = true → t.w.vNat wd vd l = f l
  others : ∀ r, ∀ l < 16, ¬ hits m wd vd r l → t.w.V r l = s.w.V r l
  preds : t.w.p = s.w.p
  uniform : t.w.s = s.w.s
  upreds : t.w.q = s.w.q
  counts : Counts s t m flag
  stat : t.w.fpstat = s.w.fpstat ||| (if m = 0 then 0 else flags.word)
  marks : Marks s t m (vRef wd vd)
  bare : bare { t.w with fpstat := 0 } = bare { s.w with fpstat := 0 }

/-- A uniform word has issued that writes the register or pair `sd` with `x` and nothing else. -/
structure UniWrote (s t : State) (wd : Wd) (sd : Reg) (x : Nat) : Prop where
  went : Went s t
  value : t.w.sNat wd sd = x
  others : ∀ r, ¬ (r = sd.toNat ∨ (wd = .w64 ∧ r = sd.toNat + 1)) → t.w.S r = s.w.S r
  regs : t.w.v = s.w.v
  preds : t.w.p = s.w.p
  upreds : t.w.q = s.w.q
  flags : t.w.f = s.w.f
  marks : Marks s t (BitVec.allOnes 16) (sRef wd sd)
  bare : bare t.w = bare s.w

/-- A uniform word has issued that writes the uniform predicate `qd` with `x` and nothing else; q7 discards (R13). -/
structure UPredWrote (s t : State) (qd : BitVec 3) (x : Bool) : Prop where
  went : Went s t
  value : qd ≠ 7 → t.w.Q qd.toNat = x
  hardwired : t.w.Q 7 = true
  others : ∀ n, n ≠ qd.toNat → t.w.Q n = s.w.Q n
  regs : t.w.v = s.w.v
  preds : t.w.p = s.w.p
  uniform : t.w.s = s.w.s
  flags : t.w.f = s.w.f
  marks : Marks s t (BitVec.allOnes 16) [.q qd.toNat]
  bare : bare t.w = bare s.w

/-- A word has issued that changes no register, predicate or flag counter of the warp and leaves the machine alone. -/
structure Passed (s t : State) : Prop where
  went : Went s t
  regs : t.w.v = s.w.v
  preds : t.w.p = s.w.p
  uniform : t.w.s = s.w.s
  upreds : t.w.q = s.w.q
  flags : t.w.f = s.w.f
  pend : t.w.pend = s.w.pend
  bare : bare t.w = bare s.w

/-- `exec` of the instruction answers a next state in which the lanes of `m` hold the values in `vd`, all else as before. -/
def LaneComputes (i : Instr) (s : State) (m : Mask) (wd : Wd) (vd : Reg) (f : Nat → Nat) : Prop :=
  ∃ t, exec i s = .next t ∧ LaneWrote s t m wd vd f
def PredComputes (i : Instr) (s : State) (m : Mask) (pd : BitVec 3) (f : Nat → Bool) : Prop :=
  ∃ t, exec i s = .next t ∧ PredWrote s t m pd f
def UniComputes (i : Instr) (s : State) (wd : Wd) (sd : Reg) (x : Nat) : Prop :=
  ∃ t, exec i s = .next t ∧ UniWrote s t wd sd x

/-- The same of a floating-point word: `r` gives each lane's result and flags. -/
def FpComputes (i : Instr) (s : State) (m : Mask) (wd : Wd) (vd : Reg) (r : Nat → Nat × FFlags) (flag : Option Nat) : Prop :=
  ∃ t, exec i s = .next t ∧ FpWrote s t m wd vd (fun l => (r l).1) (flagsOf m fun l => (r l).2) flag

/-- No active lane raises invalid while %fpmode asks for its trap (R67). -/
def Untrapped (s : State) (m : Mask) (r : Nat → FFlags) : Prop :=
  s.w.fpinv = true → ∀ l < 16, m.getLsbD l = true → (r l).nv = false
/-- A floating-point word that does not trap computes. -/
def FpRuns (i : Instr) (s : State) (m : Mask) (wd : Wd) (vd : Reg) (r : Nat → Nat × FFlags) (flag : Option Nat) : Prop :=
  Untrapped s m (fun l => (r l).2) → FpComputes i s m wd vd r flag

/-- A floating-point comparison has issued: as PredWrote, with the flags in %fpstat. -/
structure FpPredWrote (s t : State) (m : Mask) (pd : BitVec 3) (f : Nat → Bool) (raised : FFlags) : Prop where
  went : Went s t
  value : pd ≠ 7 → ∀ l < 16, m.getLsbD l = true → (t.w.P pd.toNat).getLsbD l = f l
  lanes : ∀ l < 16, m.getLsbD l = false → (t.w.P pd.toNat).getLsbD l = (s.w.P pd.toNat).getLsbD l
  hardwired : t.w.P 7 = BitVec.allOnes 16
  others : ∀ n, n ≠ pd.toNat → t.w.P n = s.w.P n
  regs : t.w.v = s.w.v
  uniform : t.w.s = s.w.s
  upreds : t.w.q = s.w.q
  flags : t.w.f = s.w.f
  stat : t.w.fpstat = s.w.fpstat ||| (if m = 0 then 0 else raised.word)
  marks : Marks s t m [.p pd.toNat]
  bare : bare { t.w with fpstat := 0 } = bare { s.w with fpstat := 0 }

/-- A seam word has issued that writes the integers `x k` of the groups `l` to the limb register `vd`, wrapped to the range of a
group, and nothing else; `lost` sets the sticky %seam.lost, and the groups that left the range are noted (R143, R144). -/
structure SeamWrote (s t : State) (l : List Nat) (vd : Reg) (x : Nat → Int) (lost : Bool) : Prop where
  went : Went s t
  value : ∀ k ∈ l, t.w.X vd k = (x k).bmod (2 ^ s.w.seamBits)
  others : ∀ r, ∀ i < 16, ¬ hits (s.w.groupsMask l) s.w.limbT vd r i → t.w.V r i = s.w.V r i
  preds : t.w.p = s.w.p
  uniform : t.w.s = s.w.s
  upreds : t.w.q = s.w.q
  flags : t.w.f = s.w.f
  seam : t.w.seam = s.w.seam ||| (if lost = true then 0x800 else 0)
  pend : ∃ o, t.w.pend = s.w.pend ++ [o] ∧ o.regs = s.w.limbRef vd ∧ o.seam = true ∧
    o.ovf = s.w.groupsMask (l.filter fun k => s.w.outOfRange (x k))
  bare : bare { t.w with seam := 0 } = bare { s.w with seam := 0 }

/-- The warp's side of a word that has issued and may have reached memory: its path has gone on, and of its registers only k from
`vd` on have changed, in the lanes of `m`; parts of its accesses may be left for later (R168). -/
structure WarpWent (s t : State) (m : Mask) (k : Nat) (vd : Nat) : Prop where
  pathA : t.w.a = s.w.advance.a
  pathB : t.w.b = s.w.advance.b
  loops : t.w.loops = s.w.advance.loops
  depth : t.w.depth = s.w.advance.depth
  count : t.w.cnt = s.w.cnt + 1
  going : t.w.stalled = false
  others : ∀ r, ∀ l < 16, ¬ (m.getLsbD l = true ∧ vd ≤ r ∧ r < vd + k) → t.w.V r l = s.w.V r l
  preds : t.w.p = s.w.p
  upreds : t.w.q = s.w.q
  bare : bare { t.w with parts := [] } = bare { s.w with parts := [] }

/-- A lane word that reached memory has issued: `k` destination registers from `vd` on, counted in `flag`. -/
structure LaneReached (s t : State) (m : Mask) (k : Nat) (vd : Reg) (flag : Option Nat) : Prop where
  went : WarpWent s t m k vd.toNat
  uniform : t.w.s = s.w.s
  counts : Counts s t m flag
  marks : Marks s t m ((List.range k).map fun j => .v (vd.toNat + j))
/-- A uniform load or atomic has issued: it wrote `x` to `sd`, counted in `flag`. -/
structure UniReached (s t : State) (wd : Wd) (sd : Reg) (x : Nat) (flag : Option Nat) : Prop where
  went : WarpWent s t 0 0 0
  value : t.w.sNat wd sd = x
  others : ∀ r, ¬ (r = sd.toNat ∨ (wd = .w64 ∧ r = sd.toNat + 1)) → t.w.S r = s.w.S r
  counts : Counts s t (BitVec.allOnes 16) flag
  marks : Marks s t (BitVec.allOnes 16) (sRef wd sd)

/-- Every active lane's access resolves to bytes `locs l` (R163), and asks for none of them across a cut (R329). -/
def Resolves (s : State) (m : Mask) (size : Nat) (kind : AccKind) (reads : Bool) (addr : Nat → Addr) (locs : Nat → List Loc) : Prop :=
  ∀ l < 16, m.getLsbD l = true → s.reach s.myCore s.myBlk (addr l).toNat size kind reads = .ok (locs l) ∧
    s.severedLane kind (locs l) = false
/-- A byte of an access whose home is the byte store's `key`, with no cache between: a byte of a local memory, or an unpoisoned byte
of plain memory homed on the warp's die that is uncached or finds no L1 carve (R188, R194, R284, R287). -/
def Direct (s : State) (x : Loc) (key : Nat) : Prop := match x with
  | .loc c o => key = localKey c o
  | .glob pa uc => key = pa ∧ paOk pa = true ∧ paKind pa = 0 ∧ bits pa 36 8 = s.myDie ∧ (uc = true ∨ s.carve s.myCore = 0) ∧
      s.poison.get false (pa / 128) = false
/-- The bytes of an access and their keys, in order. -/
def AllDirect (s : State) : List Loc → List Nat → Prop
  | [], [] => True
  | x :: l, k :: t => Direct s x k ∧ AllDirect s l t
  | [], _ :: _ | _ :: _, [] => False
/-- A store to `k` leaves the byte at `key` alone: it is another byte, and not one of a local row that the store validates (R191). -/
def Apart (s : State) (key k : Nat) : Prop :=
  key ≠ k ∧ (k < 2 ^ 48 ∨ s.rowValid.get false ((k - 2 ^ 48) / 64) = true ∨ key / 64 ≠ k / 64)
/-- The bytes at some keys as a little-endian number. -/
def atKeys (s : State) (keys : List Nat) : Nat := ofBytes (keys.map s.peek)

/-- `exec` answers a next state that differs only by the issue of the word from `u`, the state with the word's effect. -/
def IssuesTo (i : Instr) (s u : State) : Prop := ∃ t, exec i s = .next t ∧ Passed u t
/-- `exec` of an event answers a next state that is `u`, beside event records, counters and onset requests. -/
def HappensAs (i : Instr) (s u : State) : Prop := ∃ t, exec i s = .next t ∧ Quiet u t ∧ t.w = u.w

/-- Registers, memory and blocks are as before: what happened lies beside the warps. -/
structure Aside (s t : State) : Prop where
  warp : t.w = s.w
  warps : t.warps = s.warps
  mem : t.mem = s.mem
  blocks : t.blocks = s.blocks
/-- `exec` answers a next state of which P holds. -/
def Reaches (i : Instr) (s : State) (P : State → Prop) : Prop := ∃ t, exec i s = .next t ∧ P t

/-- A fetch of an engine operation of block b that ends in state `u` has fetched `f`, with no wait for the pin limit; of its lines those stay
pinned that hold elements of the tile still to be read, at the positions `left`, `cols` to a row (R254). -/
def Fetches (s : State) (c b : Nat) (e : Eng) (h : Handle) (cols : Nat) (left : Fetched → List Nat) (r : Acc Unit × Fetched × State)
    (f : Fetched) (u : State) : Prop :=
  let pins := (e.pins ++ pinsOf (c / 324) f.keys).eraseDups
  r.1 = .ok () ∧ r.2.1 = f ∧ s.pinFull c e.tag ((e.pinWait.map (·.1)).getD s.cycle) pins = none ∧
    u = r.2.2.onEng c e.tag fun e => { e with pins := r.2.2.stillPinned c (s.blk b) h cols (left f) pins, pinWait := none }

/-! ## Transfers, traps -/

/-- A transfer has issued: the path goes to `x` (R120), and nothing else changes. -/
structure Jumped (s t : State) (x : Addr) : Prop where
  quiet : Quiet s t
  path : t.w.path = s.w.path.map fun p => { p with pc := x, clause := none, src := p.pc }
  other : t.w.other = s.w.other
  loops : t.w.loops = s.w.loops
  depth : t.w.depth = s.w.depth
  count : t.w.cnt = s.w.cnt + 1
  going : t.w.stalled = false
  regs : t.w.v = s.w.v
  preds : t.w.p = s.w.p
  uniform : t.w.s = s.w.s
  upreds : t.w.q = s.w.q
  flags : t.w.f = s.w.f
  pend : t.w.pend = s.w.pend
  bare : bare t.w = bare s.w
def JumpsTo (i : Instr) (s : State) (u : State) (x : Addr) : Prop := ∃ t, exec i s = .next t ∧ Jumped u t x

/-- The warp has a handler and is not in it (R55, R60). -/
def Handles (w : Warp) : Prop := w.tvec ≠ 0 ∧ w.tcause.getLsbD 8 = false
/-- The record of a warp whose path `p` at issue has entered the handler (R55 to R57). -/
def handlerEntry (w : Warp) (p : Path) (cause : Nat) (m : Mask) (info : DWord) (pc : Addr) (boundary : Bool) : Warp :=
  let c : Clause := if boundary then ⟨0, 0, 15, 15, []⟩ else p.clause.getD ⟨0, 0, 15, 15, []⟩
  let q : Path := { p with pc := w.tvec, clause := none, src := pc }
  { w with
    trpc := pc, tlanes := m, tinfo := info, delivery := p.mask, stalled := false, failed := false
    tcause := (c.fa.setWidth 32 <<< 28) ||| (c.fb.setWidth 32 <<< 24) ||| (c.idx.setWidth 32 <<< 20) ||| (c.len.setWidth 32 <<< 16)
      ||| (if boundary then 0x8000 else 0) ||| 0x100 ||| (if w.cur then 0x80 else 0) ||| BitVec.ofNat 32 cause
    a := if w.cur then w.a.map fun x => { x with held := true } else some q
    b := if w.cur then some q else w.b.map fun x => { x with held := true } }
/-- The record without its issue counts. -/
def uncounted (w : Warp) : Warp :=
  { w with cnt := 0, waitCount := 0, readyCount := 0, ranAt := 0, yieldUntil := 0, pushed := none, issued := [], aftd := 0 }
/-- The trap has been taken on the path `p` at issue, and nothing else of the machine has changed. A word that traps has issued and counts
(R16, R46; log 84); where the trap belongs to no word, nothing counts. -/
structure Trapped (s t : State) (p : Path) (cause : Nat) (m : Mask) (info : DWord) (pc : Addr) (boundary word : Bool) : Prop where
  quiet : Quiet s t
  warp : uncounted t.w = uncounted (handlerEntry s.w p cause m info pc boundary)
  count : t.w.cnt = s.w.cnt + word.toNat
/-- `exec` answers the entry into the handler for a trap of the word. -/
def TrapsTo (i : Instr) (s : State) (p : Path) (cause : Nat) (m : Mask) (info : DWord) (pc : Addr) (boundary : Bool) : Prop :=
  ∃ t, exec i s = .next t ∧ Trapped s t p cause m info pc boundary true
/-- The same for a CLAUSE word, or where no word stands: CLAUSE words are not counted (R46). -/
def StandsTo (i : Instr) (s : State) (p : Path) (cause : Nat) (m : Mask) (info : DWord) (pc : Addr) (boundary : Bool) : Prop :=
  ∃ t, exec i s = .next t ∧ Trapped s t p cause m info pc boundary false

/-! ## Encodings -/

/-- The opcode field of the instruction's word (R10). -/
def OpcodeIs (i : Instr) (n : Nat) : Prop := ∀ w, encode i = some w → w.toNat / 2 ^ 25 = n
/-- The instruction is well-formed with no odd register among these (R13). -/
def EvenOnly (i : Instr) (l : List Reg) : Prop := WellFormed i = true → ∀ r ∈ l, r.toNat % 2 = 0

/-! ## Values -/

/-- An integer brought into the signed range of n bits. -/
def clampI (n : Nat) (x : Int) : Nat := (BitVec.ofInt n (max (-(2 ^ (n - 1))) (min (2 ^ (n - 1) - 1) x))).toNat

/-- ADD and SUB in a type (R85): .b wraps, .n and .i saturate at the limits of the type. -/
def addValue (t : AddT) (a b : Nat) : Nat := match t with
  | .b32 => (bv 32 a + bv 32 b).toNat
  | .b64 => (bv 64 a + bv 64 b).toNat
  | .n32 => min (a + b) (2 ^ 32 - 1)
  | .n64 => min (a + b) (2 ^ 64 - 1)
  | .i32 => clampI 32 (sv 32 a + sv 32 b)
  | .i64 => clampI 64 (sv 64 a + sv 64 b)
def subValue (t : AddT) (a b : Nat) : Nat := match t with
  | .b32 => (bv 32 a - bv 32 b).toNat
  | .b64 => (bv 64 a - bv 64 b).toNat
  | .n32 | .n64 => a - b
  | .i32 => clampI 32 (sv 32 a - sv 32 b)
  | .i64 => clampI 64 (sv 64 a - sv 64 b)
/-- An operand of an integer type (R13). -/
def typed (t : IntT) (x : Nat) : Int := match t with
  | .i32 => sv 32 x
  | .i64 => sv 64 x
  | .n32 | .n64 => x
/-- Bits [2N − 1 : N] of the exact product (R87). -/
def highValue (t : IntT) (a b : Nat) : Nat := match t with
  | .i32 => (((bv 32 a).signExtend 64 * (bv 32 b).signExtend 64).extractLsb' 32 32).toNat
  | .n32 => a * b / 2 ^ 32
  | .i64 => (((bv 64 a).signExtend 128 * (bv 64 b).signExtend 128).extractLsb' 64 64).toNat
  | .n64 => a * b / 2 ^ 64
/-- Shifts by a full 32-bit count (R91). -/
def leftValue (n a c : Nat) : Nat := (bv n a <<< c).toNat
def rightValue (t : IntT) (a c : Nat) : Nat := match t with
  | .n32 | .n64 => a / 2 ^ c
  | .i32 => ((bv 32 a).sshiftRight c).toNat
  | .i64 => ((bv 64 a).sshiftRight c).toNat
/-- BFE's field (R92): l bits from p, sign-extended from bit l − 1 in the .i32 form. -/
def fieldValue (signed : Bool) (a b : Nat) : Nat :=
  let p := b % 256
  let l := min 32 (b / 256 % 256)
  let f := (bv 32 a >>> p) &&& (BitVec.allOnes 32 >>> (32 - l))
  if signed ∧ 0 < l ∧ f.getLsbD (l - 1) = true then (f ||| (BitVec.allOnes 32 <<< l)).toNat else f.toNat
/-- BFI's result (R92): bit k comes from a for p ≤ k < p + l. -/
def insertValue (d a b : Nat) : Nat :=
  let p := b % 256
  let l := min 32 (b / 256 % 256)
  let here := (BitVec.allOnes 32 >>> (32 - l)) <<< p
  ((bv 32 d &&& ~~~here) ||| ((bv 32 a <<< p) &&& here)).toNat
/-- The number of 1 bits, and of 0 bits above the most significant 1 (R93). -/
def onesValue (n x : Nat) : Nat := (List.range n).countP fun k => x.testBit k
def zerosValue (n x : Nat) : Nat := ((List.range n).takeWhile fun k => !x.testBit (n - 1 - k)).length
/-- A condition on two integers (R22). -/
def holds (c : Cond) (a b : Int) : Bool := match c with
  | .eq => decide (a = b)
  | .ne => decide (a ≠ b)
  | .lt => decide (a < b)
  | .le => decide (a ≤ b)
  | .gt => decide (b < a)
  | .ge => decide (b ≤ a)
  | .un | .or => false
/-- The carry that a carry word reads in a lane (R86); p7 reads as 1. -/
def carryIn (w : Warp) (pc : BitVec 3) (l : Nat) : Nat := if pc = 7 then 1 else ((w.P pc.toNat).getLsbD l).toNat

/-- The special registers of R25: number, width, value. -/
def specialValues (s : State) : List (Nat × Wd × Nat) :=
  [(0x00, .w32, 16), (0x01, .w32, s.w.index % 2 ^ 32), (0x02, .w32, s.w.blkId.toNat), (0x03, .w32, s.w.grid.toNat),
   (0x04, .w32, dieOf s.w.uid % 2 ^ 32), (0x05, .w32, cluOf s.w.uid % 324), (0x06, .w32, coreOf s.w.uid % 16), (0x07, .w32, s.w.hclass.toNat),
   (0x08, .w64, s.tick (dieOf s.w.uid)), (0x09, .w32, (s.die (dieOf s.w.uid)).tickoff.toNat), (0x0A, .w32, s.w.quantum.toNat),
   (0x0B, .w64, s.w.spill.toNat), (0x0C, .w32, s.w.seam.toNat), (0x0D, .w32, s.w.fxbase.toNat), (0x0E, .w32, s.w.fpmode.toNat),
   (0x0F, .w32, s.w.fpstat.toNat), (0x10, .w64, s.w.tvec.toNat), (0x11, .w64, s.w.trpc.toNat), (0x12, .w32, s.w.tcause.toNat),
   (0x13, .w32, s.w.tlanes.toNat), (0x14, .w64, s.w.tinfo.toNat), (0x15, .w32, s.w.lfm.toNat),
   (0x16, .w32, s.cad (regionOf (dieOf s.w.uid)) % 2 ^ 32), (0x17, .w64, s.w.capbase.toNat),
   (0x18, .w32, (s.region (regionOf (dieOf s.w.uid))).limit.toNat), (0x19, .w64, (s.die (dieOf s.w.uid)).trdelay.toNat)]

end Sys2Proof.Safety
end

