-- ==== Sys2Proof/Certificates/Slice0/Obligations.lean ====
section
/-!
DEFINITION. The statements for the provers, in the order of the spec's files.
-/
open Sys2Proof Sys2Proof.Machine Sys2Proof.Safety

/-! ## Encoding -/

/-- R10 to R27, R244: every well-formed word is read back from its encoding, every operand at every value. -/
def Obligations.DecodeEncodeRoundTrip : Prop :=
  ∀ (i : Instr) (w : Word), WellFormed i = true → encode i = some w → decodeWord w = .ok i

/-- R10 to R28: each word has one meaning: an instruction that a word decodes to is encoded by that word alone. -/
def Obligations.EncodeInvertsDecode : Prop :=
  ∀ (w : Word) (i : Instr), decodeWord w = .ok i → encode i = some w

/-- Encodings worked out in the manual (R84, R208, R369, R417). -/
def Obligations.WorkedEncodingsDecode : Prop :=
  decodeWord 0x04828218 = .ok (.addc .w32 5 1 3 2) ∧
  decodeWord 0x46A209FF = .ok (.addImm ⟨2, true⟩ 4 4 (-1)) ∧
  decodeWord 0x19C98425 = .ok (.fcmp Guard.always .lt .f64 3 2 4) ∧
  decodeWord 0x27C50426 = .ok (.ddiv Guard.always 10 2 4) ∧
  decodeWord 0x29C484CA = .ok (.cvt Guard.always .rtz .i32 .f64 9 2) ∧
  decodeWord 0x2BCA1009 = .ok (.narrow Guard.always true .dm8 false 1 20 8) ∧
  decodeWord 0x2FC38C0A = .ok (.shflSwap Guard.always .w32 7 6 1) ∧
  decodeWord 0xB2E00003 = .ok (.barw Guard.always 3 false 0) ∧
  decodeWord 0xB2400000 = .ok (.barw ⟨2, false⟩ 0 false 0) ∧
  decodeWord 0xB3E01411 = .ok (.bara Guard.always 1 true 20) ∧
  decodeWord 0xD8E51605 = .ok (.syscall Guard.always 20 22 5) ∧
  decodeWord 0xCBE50400 = .ok (.cntr Guard.always 20 4)

/-! ## Integer lane words (spec/05) -/

/-- R85: ADD and SUB, wrapping and saturating, in every active lane; nothing else changes. Their opcodes are 0x00 and 0x01, and the 64-bit
forms take even registers. -/
def Obligations.LaneAddSub : Prop :=
  ∀ (s : State) (p : Path) (c : Clause) (g : Guard) (t : AddT) (vd va vb : Reg),
    OpcodeIs (.add g t vd va vb) 0x00 ∧ OpcodeIs (.sub g t vd va vb) 0x01 ∧
    (t.wide = true → EvenOnly (.add g t vd va vb) [vd, va, vb] ∧ EvenOnly (.sub g t vd va vb) [vd, va, vb]) ∧
    (LaneIssues s p c g (vRef (wdOf t.wide) va ++ vRef (wdOf t.wide) vb ++ vRef (wdOf t.wide) vd) →
    let a := s.w.vNat (wdOf t.wide) va
    let b := s.w.vNat (wdOf t.wide) vb
    LaneComputes (.add g t vd va vb) s (s.w.admitted p g) (wdOf t.wide) vd (fun l => addValue t (a l) (b l)) ∧
    LaneComputes (.sub g t vd va vb) s (s.w.admitted p g) (wdOf t.wide) vd (fun l => subValue t (a l) (b l)))

/-- R86, R89: the carry words take the carry in from the predicate in each lane and write the carry or borrow out to it; with p7
the carry in is 1 and the carry out is discarded. They are unguarded. -/
def Obligations.LaneCarryChain : Prop :=
  ∀ (s : State) (p : Path) (c : Clause) (t : Wd) (vd va vb : Reg) (pc : BitVec 3),
    let k := carryIn s.w pc
    (Issues s p c (.p pc.toNat :: (vRef t va ++ vRef t vb) ++ (.p pc.toNat :: vRef t vd)) →
      (∃ u, exec (.addc t vd va vb pc) s = .next u ∧
        CarryWrote s u (unguarded s p) t vd (fun l => (s.w.vNat t va l + s.w.vNat t vb l + k l) % 2 ^ wdBits t)
          pc (fun l => decide (2 ^ wdBits t ≤ s.w.vNat t va l + s.w.vNat t vb l + k l))) ∧
      (∃ u, exec (.subb t vd va vb pc) s = .next u ∧
        CarryWrote s u (unguarded s p) t vd (fun l => (2 ^ (wdBits t + 1) + s.w.vNat t va l - s.w.vNat t vb l - k l) % 2 ^ wdBits t)
          pc (fun l => decide (s.w.vNat t va l < s.w.vNat t vb l + k l)))) ∧
    (Issues s p c (.p pc.toNat :: ([.v va.toNat, .v vb.toNat] ++ vPair vd) ++ (.p pc.toNat :: vPair vd)) →
      ∃ u, exec (.madc vd va vb pc) s = .next u ∧
        CarryWrote s u (unguarded s p) .w64 vd
          (fun l => (s.w.vNat .w32 va l * s.w.vNat .w32 vb l + s.w.vNat .w64 vd l + k l) % 2 ^ 64)
          pc (fun l => decide (2 ^ 64 ≤ s.w.vNat .w32 va l * s.w.vNat .w32 vb l + s.w.vNat .w64 vd l + k l)))

/-- R87, R88: the low and the high half of a product, and a 64-bit sum with a product that may be negated. -/
def Obligations.LaneProducts : Prop :=
  ∀ (s : State) (p : Path) (c : Clause) (g : Guard) (vd va vb vc : Reg),
    (∀ t : Wd, LaneIssues s p c g (vRef t va ++ vRef t vb ++ vRef t vd) →
      LaneComputes (.mul g t vd va vb) s (s.w.admitted p g) t vd fun l => s.w.vNat t va l * s.w.vNat t vb l % 2 ^ wdBits t) ∧
    (∀ t : IntT, LaneIssues s p c g (vRef (wdOf t.wide) va ++ vRef (wdOf t.wide) vb ++ vRef (wdOf t.wide) vd) →
      LaneComputes (.mulh g t vd va vb) s (s.w.admitted p g) (wdOf t.wide) vd
        fun l => highValue t (s.w.vNat (wdOf t.wide) va l) (s.w.vNat (wdOf t.wide) vb l)) ∧
    (∀ neg : Bool, Issues s p c ([.v va.toNat, .v vb.toNat] ++ vPair vc ++ vPair vd) →
      LaneComputes (.madwI32 neg vd va vb vc) s (unguarded s p) .w64 vd
        (fun l => (BitVec.ofInt 64 ((if neg then -1 else 1) * (sv 32 (s.w.vNat .w32 va l) * sv 32 (s.w.vNat .w32 vb l))
          + s.w.vNat .w64 vc l)).toNat) ∧
      LaneComputes (.madwN32 neg vd va vb vc) s (unguarded s p) .w64 vd
        (fun l => (BitVec.ofInt 64 ((if neg then -1 else 1) * ((s.w.vNat .w32 va l : Int) * s.w.vNat .w32 vb l)
          + s.w.vNat .w64 vc l)).toNat))

/-- R90: AND, OR and XOR apply the bitwise operation, in every active lane. Their opcode is 0x05, and the .b64 forms take even pairs. -/
def Obligations.LaneBitwise : Prop :=
  ∀ (s : State) (p : Path) (c : Clause) (g : Guard) (t : Wd) (vd va vb : Reg),
    (∀ i ∈ [Instr.andL g t vd va vb, .orL g t vd va vb, .xorL g t vd va vb], OpcodeIs i 0x05 ∧ (t = .w64 → EvenOnly i [vd, va, vb])) ∧
    (LaneIssues s p c g (vRef t va ++ vRef t vb ++ vRef t vd) →
    let a := fun l => bv (wdBits t) (s.w.vNat t va l)
    let b := fun l => bv (wdBits t) (s.w.vNat t vb l)
    LaneComputes (.andL g t vd va vb) s (s.w.admitted p g) t vd (fun l => (a l &&& b l).toNat) ∧
    LaneComputes (.orL g t vd va vb) s (s.w.admitted p g) t vd (fun l => (a l ||| b l).toNat) ∧
    LaneComputes (.xorL g t vd va vb) s (s.w.admitted p g) t vd (fun l => (a l ^^^ b l).toNat))

/-- R96: in each active lane SEL gives a when the selector, after inversion, is true, and b otherwise. Its opcode is 0x0B; the guard field
names the selector and the negate bit inverts it; the .b64 forms take even pairs. -/
def Obligations.LaneSelect : Prop :=
  ∀ (s : State) (p : Path) (c : Clause) (ps : Guard) (t : Wd) (vd va vb : Reg),
    OpcodeIs (.sel ps t vd va vb) 0x0B ∧ (t = .w64 → EvenOnly (.sel ps t vd va vb) [vd, va, vb]) ∧
    (∀ w, encode (.sel ps t vd va vb) = some w → w.extractLsb' 22 3 = ps.p ∧ w.getLsbD 21 = ps.neg) ∧
    (Issues s p c (.p ps.p.toNat :: (vRef t va ++ vRef t vb) ++ vRef t vd) →
    LaneComputes (.sel ps t vd va vb) s (unguarded s p) t vd
      fun l => if ((s.w.P ps.p.toNat).getLsbD l != ps.neg) = true then s.w.vNat t va l else s.w.vNat t vb l)

/-- R91, R95: shifts by a register's full 32-bit count and by an immediate; a count of the width or more gives 0 or the sign. -/
def Obligations.LaneShifts : Prop :=
  ∀ (s : State) (p : Path) (c : Clause) (g : Guard) (vd va vb : Reg),
    (∀ t : Wd, LaneIssues s p c g (vRef t va ++ [.v vb.toNat] ++ vRef t vd) →
      LaneComputes (.shl g t vd va vb) s (s.w.admitted p g) t vd fun l => leftValue (wdBits t) (s.w.vNat t va l) (s.w.vNat .w32 vb l)) ∧
    (∀ t : IntT, LaneIssues s p c g (vRef (wdOf t.wide) va ++ [.v vb.toNat] ++ vRef (wdOf t.wide) vd) →
      LaneComputes (.shr g t vd va vb) s (s.w.admitted p g) (wdOf t.wide) vd
        fun l => rightValue t (s.w.vNat (wdOf t.wide) va l) (s.w.vNat .w32 vb l)) ∧
    (∀ (n : BitVec 5) (signed : Bool), LaneIssues s p c g ([.v va.toNat] ++ [.v vd.toNat]) →
      LaneComputes (.shlImm g vd va n) s (s.w.admitted p g) .w32 vd (fun l => leftValue 32 (s.w.vNat .w32 va l) n.toNat) ∧
      LaneComputes (.shrImm g signed vd va n) s (s.w.admitted p g) .w32 vd
        fun l => rightValue (if signed then .i32 else .n32) (s.w.vNat .w32 va l) n.toNat)

/-- R92, R93: bit fields, and counts of bits, with their opcodes, the even registers of the .b64 forms and the reserved vb of POPC and
CLZ. -/
def Obligations.LaneBitFields : Prop :=
  ∀ (s : State) (p : Path) (c : Clause) (g : Guard) (vd va vb : Reg),
    OpcodeIs (.bfi g vd va vb) 0x07 ∧ (∀ signed, OpcodeIs (.bfe g signed vd va vb) 0x07) ∧
    (∀ t, ∀ i ∈ [Instr.popc g t vd va, .clz g t vd va], OpcodeIs i 0x08 ∧ (t = .w64 → EvenOnly i [va]) ∧
      ∀ w, encode i = some w → w.extractLsb' 3 6 = 0) ∧
    (∀ signed : Bool, LaneIssues s p c g ([.v va.toNat, .v vb.toNat] ++ [.v vd.toNat]) →
      LaneComputes (.bfe g signed vd va vb) s (s.w.admitted p g) .w32 vd
        fun l => fieldValue signed (s.w.vNat .w32 va l) (s.w.vNat .w32 vb l)) ∧
    (LaneIssues s p c g ([.v vd.toNat, .v va.toNat, .v vb.toNat] ++ [.v vd.toNat]) →
      LaneComputes (.bfi g vd va vb) s (s.w.admitted p g) .w32 vd
        fun l => insertValue (s.w.vNat .w32 vd l) (s.w.vNat .w32 va l) (s.w.vNat .w32 vb l)) ∧
    (∀ t : Wd, LaneIssues s p c g (vRef t va ++ [.v vd.toNat]) →
      LaneComputes (.popc g t vd va) s (s.w.admitted p g) .w32 vd (fun l => onesValue (wdBits t) (s.w.vNat t va l)) ∧
      LaneComputes (.clz g t vd va) s (s.w.admitted p g) .w32 vd (fun l => zerosValue (wdBits t) (s.w.vNat t va l)))

/-- R94, R97: the lesser and the greater value, the magnitude, and the comparison of two integers of a type. -/
def Obligations.LaneOrder : Prop :=
  ∀ (s : State) (p : Path) (c : Clause) (g : Guard) (vd va vb : Reg),
    (∀ t : IntT,
      let a := s.w.vNat (wdOf t.wide) va
      let b := s.w.vNat (wdOf t.wide) vb
      (LaneIssues s p c g (vRef (wdOf t.wide) va ++ vRef (wdOf t.wide) vb ++ vRef (wdOf t.wide) vd) →
        LaneComputes (.minL g t vd va vb) s (s.w.admitted p g) (wdOf t.wide) vd
          (fun l => if typed t (a l) ≤ typed t (b l) then a l else b l) ∧
        LaneComputes (.maxL g t vd va vb) s (s.w.admitted p g) (wdOf t.wide) vd
          (fun l => if typed t (a l) ≤ typed t (b l) then b l else a l)) ∧
      ∀ (k : Cond) (pd : BitVec 3),
        LaneIssues s p c g (vRef (wdOf t.wide) va ++ vRef (wdOf t.wide) vb ++ [.p pd.toNat]) →
        PredComputes (.cmp g k t pd va vb) s (s.w.admitted p g) pd fun l => holds k (typed t (a l)) (typed t (b l))) ∧
    (∀ t : Wd, LaneIssues s p c g (vRef t va ++ vRef t vd) →
      LaneComputes (.abs g t vd va) s (s.w.admitted p g) t vd fun l => (sv (wdBits t) (s.w.vNat t va l)).natAbs)

/-- R95, R98: the words with an immediate of nine signed bits, and the moves from the uniform side. -/
def Obligations.LaneImmediates : Prop :=
  ∀ (s : State) (p : Path) (c : Clause) (g : Guard) (vd va : Reg) (imm : BitVec 9),
    (LaneIssues s p c g ([.v va.toNat] ++ [.v vd.toNat]) →
      let a := fun l => s.w.V va.toNat l
      let k := imm.signExtend 32
      LaneComputes (.addImm g vd va imm) s (s.w.admitted p g) .w32 vd (fun l => (a l + k).toNat) ∧
      LaneComputes (.andImm g vd va imm) s (s.w.admitted p g) .w32 vd (fun l => (a l &&& k).toNat) ∧
      LaneComputes (.orImm g vd va imm) s (s.w.admitted p g) .w32 vd (fun l => (a l ||| k).toNat) ∧
      LaneComputes (.xorImm g vd va imm) s (s.w.admitted p g) .w32 vd (fun l => (a l ^^^ k).toNat)) ∧
    (LaneIssues s p c g ([] ++ [.v vd.toNat]) →
      LaneComputes (.movImm g vd imm) s (s.w.admitted p g) .w32 vd (fun _ => (imm.signExtend 32).toNat) ∧
      LaneComputes (.movLane g vd) s (s.w.admitted p g) .w32 vd (fun l => l)) ∧
    (∀ t : Wd, LaneIssues s p c g (sRef t va ++ vRef t vd) →
      LaneComputes (.movUniform g t vd va) s (s.w.admitted p g) t vd fun _ => s.w.sNat t va)

/-! ## Floating point (spec/04, spec/05) -/

/-- R99, R100, R101, R106: the floating-point words write each active lane's result, rounded in the mode of %fpmode, and accumulate
the flags of the active lanes in %fpstat; FMA is unguarded. -/
def Obligations.FpArithmetic : Prop :=
  ∀ (s : State) (p : Path) (c : Clause) (g : Guard) (vd va vb vc : Reg),
    (∀ t : Fmt, LaneIssues s p c g (vRef (wdOf t.wide) va ++ vRef (wdOf t.wide) vb ++ vRef (wdOf t.wide) vd) →
      let a := s.w.vNat (wdOf t.wide) va
      let b := s.w.vNat (wdOf t.wide) vb
      let m := s.w.admitted p g
      FpRuns (.fadd g t vd va vb) s m (wdOf t.wide) vd (fun l => (fmtOf t).add s.w.rm s.w.ftz false (a l) (b l)) none ∧
      FpRuns (.fsub g t vd va vb) s m (wdOf t.wide) vd (fun l => (fmtOf t).add s.w.rm s.w.ftz true (a l) (b l)) none ∧
      FpRuns (.fmul g t vd va vb) s m (wdOf t.wide) vd (fun l => (fmtOf t).mul s.w.rm s.w.ftz (a l) (b l)) none ∧
      FpRuns (.fmin g t vd va vb) s m (wdOf t.wide) vd (fun l => (fmtOf t).minMax s.w.ftz false (a l) (b l)) none ∧
      FpRuns (.fmax g t vd va vb) s m (wdOf t.wide) vd (fun l => (fmtOf t).minMax s.w.ftz true (a l) (b l)) none) ∧
    (∀ neg : Bool,
      (Issues s p c (vRef .w32 va ++ vRef .w32 vb ++ vRef .w32 vc ++ vRef .w32 vd) →
        FpRuns (.fmaF32 neg vd va vb vc) s (unguarded s p) .w32 vd
          (fun l => fp32.fma s.w.rm s.w.ftz neg (s.w.vNat .w32 va l) (s.w.vNat .w32 vb l) (s.w.vNat .w32 vc l)) none) ∧
      (Issues s p c (vRef .w64 va ++ vRef .w64 vb ++ vRef .w64 vc ++ vRef .w64 vd) →
        FpRuns (.fmaF64 neg vd va vb vc) s (unguarded s p) .w64 vd
          (fun l => fp64.fma s.w.rm s.w.ftz neg (s.w.vNat .w64 va l) (s.w.vNat .w64 vb l) (s.w.vNat .w64 vc l)) none)) ∧
    (∀ (rm : RmSel) (td ts : CvtT), LaneIssues s p c g (vRef (wdOf ts.wide) va ++ vRef (wdOf td.wide) vd) →
      FpRuns (.cvt g rm td ts vd va) s (s.w.admitted p g) (wdOf td.wide) vd
        (fun l => cvtValue td ts (rmSel s.w.rm rm) s.w.ftz (s.w.vNat (wdOf ts.wide) va l)) none)

/-- R102, R103: FCMP writes its predicate, FCLASS the class mask of the raw bits with exactly one bit set. -/
def Obligations.FpCompareAndClass : Prop :=
  ∀ (s : State) (p : Path) (c : Clause) (g : Guard) (t : Fmt) (vd va vb : Reg),
    (∀ (k : Cond) (pd : BitVec 3),
      LaneIssues s p c g (vRef (wdOf t.wide) va ++ vRef (wdOf t.wide) vb ++ [.p pd.toNat]) →
      let r := fun l => (fmtOf t).compare s.w.ftz k (s.w.vNat (wdOf t.wide) va l) (s.w.vNat (wdOf t.wide) vb l)
      Untrapped s (s.w.admitted p g) (fun l => (r l).2) →
      ∃ u, exec (.fcmp g k t pd va vb) s = .next u ∧
        FpPredWrote s u (s.w.admitted p g) pd (fun l => (r l).1) (flagsOf (s.w.admitted p g) fun l => (r l).2)) ∧
    (LaneIssues s p c g (vRef (wdOf t.wide) va ++ [.v vd.toNat]) →
      LaneComputes (.fclass g t vd va) s (s.w.admitted p g) .w32 vd (fun l => (fmtOf t).classMask (s.w.vNat (wdOf t.wide) va l))) ∧
    ∀ x : Nat, ∃ k < 10, (fmtOf t).classMask x = 2 ^ k

/-- R104, R105, R17: the long-latency words count in flag A of their clause. With the flag at its limit of 63 a word with an active
lane does not issue.
Which of the two bracketing values an SFU word gives is a free value (log 8). -/
def Obligations.FpLongLatency : Prop :=
  ∀ (s : State) (p : Path) (c : Clause) (g : Guard) (vd va vb : Reg),
    let m := s.w.admitted p g
    let a := fun l => s.w.V va.toNat l
    (s.w.atLimit (flagOf c.fa) = false →
      (LaneIssues s p c g ([.v va.toNat] ++ vRef .w32 vd) →
        FpRuns (.rcp g vd va) s m .w32 vd (fun l => sfu .rcp s.w.ftz (a l)) (flagOf c.fa) ∧
        FpRuns (.rsq g vd va) s m .w32 vd (fun l => sfu .rsq s.w.ftz (a l)) (flagOf c.fa) ∧
        FpRuns (.exp2 g vd va) s m .w32 vd (fun l => sfu .exp2 s.w.ftz (a l)) (flagOf c.fa) ∧
        FpRuns (.log2 g vd va) s m .w32 vd (fun l => sfu .log2 s.w.ftz (a l)) (flagOf c.fa) ∧
        FpRuns (.sin g vd va) s m .w32 vd (fun l => sfu .sin s.w.ftz (a l)) (flagOf c.fa) ∧
        FpRuns (.cos g vd va) s m .w32 vd (fun l => sfu .cos s.w.ftz (a l)) (flagOf c.fa)) ∧
      (LaneIssues s p c g ((vPair va ++ vPair vb) ++ vRef .w64 vd) →
        FpRuns (.ddiv g vd va vb) s m .w64 vd
          (fun l => fp64.div s.w.rm s.w.ftz (s.w.vNat .w64 va l) (s.w.vNat .w64 vb l)) (flagOf c.fa)) ∧
      (LaneIssues s p c g (vPair va ++ vRef .w64 vd) →
        FpRuns (.dsqrt g vd va) s m .w64 vd (fun l => fp64.sqrt s.w.rm s.w.ftz (s.w.vNat .w64 va l)) (flagOf c.fa))) ∧
    (LaneIssues s p c g ([.v va.toNat] ++ vRef .w32 vd) → m ≠ 0 → s.w.atLimit (flagOf c.fa) = true →
      ∃ u, exec (.rcp g vd va) s = .next u ∧ u = { s with w := { s.w with stalled := true, why := u.w.why } })

/-- R67: with %fpmode.FPINV set, a floating-point word, an SFU word or LRED that raises invalid in some active lane writes its results and
its flags, and then traps with cause 8 and those lanes; %trpc is the word's own address. The lanes of an LRED are those of the tree in
which it was raised. -/
def Obligations.FpInvalidTraps : Prop :=
  ∀ (s : State) (p : Path) (c : Clause) (g : Guard) (vd va vb vc : Reg), s.w.fpinv = true → Handles s.w →
    let m := s.w.admitted p g
    let enters := fun (u v : State) (bad : Mask) =>
      Quiet u v ∧ v.w = handlerEntry { u.w with a := s.w.a, b := s.w.b, loops := s.w.loops, depth := s.w.depth } p 8 bad 0 p.pc false
    let raised := fun (m : Mask) (r : Nat → FFlags) (bad : Mask) => (∀ l < 16, bad.getLsbD l = (m.getLsbD l && (r l).nv)) ∧ bad ≠ 0
    let traps := fun (i : Instr) (m : Mask) (wd : Wd) (r : Nat → Nat × FFlags) (flag : Option Nat) =>
      ∀ bad, raised m (fun l => (r l).2) bad → ∃ u v, exec i s = .next v ∧
        FpWrote s u m wd vd (fun l => (r l).1) (flagsOf m fun l => (r l).2) flag ∧ enters u v bad
    (∀ t : Fmt,
      let wd := wdOf t.wide
      let a := s.w.vNat wd va
      let b := s.w.vNat wd vb
      (LaneIssues s p c g (vRef wd va ++ vRef wd vb ++ vRef wd vd) →
        traps (.fadd g t vd va vb) m wd (fun l => (fmtOf t).add s.w.rm s.w.ftz false (a l) (b l)) none ∧
        traps (.fsub g t vd va vb) m wd (fun l => (fmtOf t).add s.w.rm s.w.ftz true (a l) (b l)) none ∧
        traps (.fmul g t vd va vb) m wd (fun l => (fmtOf t).mul s.w.rm s.w.ftz (a l) (b l)) none ∧
        traps (.fmin g t vd va vb) m wd (fun l => (fmtOf t).minMax s.w.ftz false (a l) (b l)) none ∧
        traps (.fmax g t vd va vb) m wd (fun l => (fmtOf t).minMax s.w.ftz true (a l) (b l)) none) ∧
      ∀ (k : Cond) (pd : BitVec 3), LaneIssues s p c g (vRef wd va ++ vRef wd vb ++ [.p pd.toNat]) →
        let r := fun l => (fmtOf t).compare s.w.ftz k (a l) (b l)
        ∀ bad, raised m (fun l => (r l).2) bad → ∃ u v, exec (.fcmp g k t pd va vb) s = .next v ∧
          FpPredWrote s u m pd (fun l => (r l).1) (flagsOf m fun l => (r l).2) ∧ enters u v bad) ∧
    (∀ neg : Bool,
      (Issues s p c (vRef .w32 va ++ vRef .w32 vb ++ vRef .w32 vc ++ vRef .w32 vd) →
        traps (.fmaF32 neg vd va vb vc) (unguarded s p) .w32
          (fun l => fp32.fma s.w.rm s.w.ftz neg (s.w.vNat .w32 va l) (s.w.vNat .w32 vb l) (s.w.vNat .w32 vc l)) none) ∧
      (Issues s p c (vRef .w64 va ++ vRef .w64 vb ++ vRef .w64 vc ++ vRef .w64 vd) →
        traps (.fmaF64 neg vd va vb vc) (unguarded s p) .w64
          (fun l => fp64.fma s.w.rm s.w.ftz neg (s.w.vNat .w64 va l) (s.w.vNat .w64 vb l) (s.w.vNat .w64 vc l)) none)) ∧
    (∀ (rm : RmSel) (td ts : CvtT), LaneIssues s p c g (vRef (wdOf ts.wide) va ++ vRef (wdOf td.wide) vd) →
      traps (.cvt g rm td ts vd va) m (wdOf td.wide)
        (fun l => cvtValue td ts (rmSel s.w.rm rm) s.w.ftz (s.w.vNat (wdOf ts.wide) va l)) none) ∧
    (s.w.atLimit (flagOf c.fa) = false →
      (LaneIssues s p c g ([.v va.toNat] ++ vRef .w32 vd) →
        ∀ x ∈ [(SfuOp.rcp, Instr.rcp g vd va), (.rsq, .rsq g vd va), (.exp2, .exp2 g vd va), (.log2, .log2 g vd va), (.sin, .sin g vd va),
          (.cos, .cos g vd va)], traps x.2 m .w32 (fun l => sfu x.1 s.w.ftz (s.w.V va.toNat l)) (flagOf c.fa)) ∧
      (LaneIssues s p c g ((vPair va ++ vPair vb) ++ vRef .w64 vd) → traps (.ddiv g vd va vb) m .w64
        (fun l => fp64.div s.w.rm s.w.ftz (s.w.vNat .w64 va l) (s.w.vNat .w64 vb l)) (flagOf c.fa)) ∧
      (LaneIssues s p c g (vPair va ++ vRef .w64 vd) → traps (.dsqrt g vd va) m .w64
        (fun l => fp64.sqrt s.w.rm s.w.ftz (s.w.vNat .w64 va l)) (flagOf c.fa))) ∧
    ∀ op : RedOp, LaneIssues s p c g (vRef (wdOf op.wide) va ++ vRef (wdOf op.wide) vd) → m ≠ 0 →
      let r := redTree (redStep s.w.rm s.w.ftz op)
        ((List.range 16).map fun l => if m.getLsbD l then s.w.vNat (wdOf op.wide) va l else redIdentity op)
      r.2.2 ≠ 0 → ∃ u v, exec (.lred g op vd va) s = .next v ∧ FpWrote s u m (wdOf op.wide) vd (fun _ => r.1.headD 0) r.2.1 none ∧
        enters u v r.2.2

/-- R62, R99, R100, R104: a NaN operand gives the canonical NaN, with NV exactly if one is signalling; the invalid combinations of
zeros and infinities give it with NV; a finite nonzero number over a zero is a signed infinity with DZ. -/
def Obligations.FpSpecialOperands : Prop :=
  ∀ (t : Fmt) (rm : Rm) (ftz sub neg : Bool) (a b c : Nat),
    let f := fmtOf t
    let val := fun x => f.decode (f.flush ftz x)
    let nv := fun (x : Bool) => (f.nan, if x then FFlags.invalid else FFlags.none)
    (((val a).isNan = true ∨ (val b).isNan = true) →
      f.add rm ftz sub a b = nv ((val a).isSig || (val b).isSig) ∧ f.mul rm ftz a b = nv ((val a).isSig || (val b).isSig) ∧
      f.div rm ftz a b = nv ((val a).isSig || (val b).isSig)) ∧
    ((val a).isNan = true → f.sqrt rm ftz a = nv (val a).isSig) ∧
    (∀ n k : Bool, val a = .inf n → val b = .inf k → n ≠ (k != sub) → f.add rm ftz sub a b = nv true) ∧
    (((val a).isZero = true ∧ (val b).isInf = true ∨ (val a).isInf = true ∧ (val b).isZero = true) →
      f.mul rm ftz a b = nv true ∧ f.fma rm ftz neg a b c = nv true) ∧
    (((val a).isZero = true ∧ (val b).isZero = true ∨ (val a).isInf = true ∧ (val b).isInf = true) → f.div rm ftz a b = nv true) ∧
    (∀ (n : Bool) (m : Nat) (e : Int), val a = .fin n m e → m ≠ 0 → (val b).isZero = true →
      f.div rm ftz a b = ((if n != (val b).neg then f.inf + f.signBit else f.inf), FFlags.divZero)) ∧
    (∀ (m : Nat) (e : Int), val a = .fin true m e → m ≠ 0 → f.sqrt rm ftz a = nv true)

/-- R61, R65: rounding the exact value of a finite nonzero code gives the code back in every mode, and raises no flag. -/
def Obligations.RoundingKeepsRepresentable : Prop :=
  ∀ (t : Fmt) (rm : Rm) (x : Nat) (n : Bool) (m : Nat) (e : Int), x < 2 ^ wdBits (wdOf t.wide) →
    (fmtOf t).decode x = .fin n m e → m ≠ 0 → (fmtOf t).round rm n m e = (x, FFlags.none)

/-- R107 to R110: NARROW and WIDEN convert each unit whose lanes are all active, with the rotation and the rounding of spec/04; other
lanes keep their registers, and only NARROW.tr touches the trailer registers s56 and s57. The rounding to DM8 gives the nearest magnitude,
or saturates above the top, and every code back from its image (R69, R70); an MXINT8 element is its code times the scale, and a group takes
the exponent of its largest element and the nearest codes (R71, R72); the butterflies twice are the block size times the values, with B = 1 the
rotation keeps every value, and a NaN or an infinity spoils its block (R73, R75, R76). -/
def Obligations.NarrowWiden : Prop :=
  (∀ z k : Int,
    let a : Int := z.natAbs * 2 ^ k.toNat * (32 * 10 ^ 6)
    let d : Int := 2 ^ (-k).toNat
    let r := roundDM8 (some (z, k))
    (r.2 = true ↔ 32 * 10 ^ 12 * d < a) ∧ (r.2 = true → r.1 = if z < 0 then 0x81 else 0x01) ∧
    (r.2 = false → r.1 ≠ 0x80 ∧ (0 ≤ z → r.1 < 128) ∧ (z < 0 → r.1 = 0 ∨ 128 < r.1) ∧
      ∀ b < 128, (a - dmUnits (r.1 % 128) * d).natAbs ≤ (a - dmUnits b * d).natAbs)) ∧
  roundDM8 none = (0x80, false) ∧
  (∀ c < 256, c ≠ 0x80 → ∀ n m e, fp32.decode (decodeDM8 c) = .fin n m e → roundDM8 (some (if n then -(m : Int) else m, e)) = (c, false)) ∧
  (∀ c x, c < 256 → x < 255 → ¬ (c = 0x80 ∧ x = 254) → ∃ n m e, fp32.decode (decodeMX c x) = .fin n m e ∧ e ≤ (x : Int) - 133 ∧
    (if n then -(m : Int) else m) = sv 8 c * 2 ^ ((x : Int) - 133 - e).toNat) ∧
  (∀ ys : List ExactR, none ∈ ys → quantMX ys = (0xFF, ys.map fun _ => (0, false))) ∧
  (∀ zs : List (Int × Int),
    let q := quantMX (zs.map some)
    let x : Int := q.1 - 127
    q.1 ≤ 254 ∧ q.2.length = zs.length ∧ (q.1 ≠ 0 → ∃ y ∈ zs, y.1 ≠ 0 ∧ x ≤ y.1.natAbs.log2 + y.2) ∧
    (q.1 ≠ 254 → ∀ y ∈ zs, y.1 ≠ 0 → y.1.natAbs.log2 + y.2 ≤ x) ∧
    ∀ (i : Nat) (z k : Int) (c : Nat) (sat : Bool), zs[i]? = some (z, k) → q.2[i]? = some (c, sat) →
      let e := k + 6 - x
      let d : Int := 2 ^ (-e).toNat
      c < 256 ∧ c ≠ 0x80 ∧ (sat = true → c = if z < 0 then 0x81 else 0x7F) ∧
      (sat = false → 2 * (z * 2 ^ e.toNat - sv 8 c * d).natAbs ≤ d)) ∧
  (∀ b ∈ [1, 16, 64], ∀ x : List Int, x.length = b → butterfly b (butterfly b x) = x.map fun y => (b : Int) * y) ∧
  (∀ (x s0 : Nat) (j : Int) n m e, x < 2 ^ 32 → fp32.decode x = .fin n m e → m ≠ 0 →
    rotNarrow [x] s0 1 j = [some ((if n then -(m : Int) else m) * 2 ^ 14, e - 14)]) ∧
  (∀ (xs : List Nat) (s0 b : Nat) (j : Int), (∃ x ∈ xs, x < 2 ^ 32 ∧ ((fp32.decode x).isNan = true ∨ (fp32.decode x).isInf = true)) →
    rotNarrow xs s0 b j = xs.map (fun _ => none) ∧ rotWiden xs s0 b j = xs.map fun _ => fp32.nan) ∧
  ∀ (s : State) (p : Path) (c : Clause) (g : Guard) (q : Q8) (hs : BitVec 3) (vd va : Reg), hs.toNat < s.myBlk.seeds →
    let m := s.w.admitted p g
    let r := s.myBlk.hs.get SeedReg.fresh hs.toNat
    let us := unitsOf (unitLanes q r.b) m
    (∀ tr bf : Bool,
      let dst := (match q with | .dm8 => [RegRef.v vd.toNat] | .mx8 => vPair vd) ++ (if tr then [.s 56, .s 57] else [])
      LaneIssues s p c g ((if bf then vPair va else vQuad va) ++ [.s 58, .s 59] ++ dst) →
      IssuesTo (.narrow g tr q bf hs vd va) s (if m = 0 then s else s.onW fun w =>
        (us.foldl (fun x k => x.narrowUnit w r tr q bf vd.toNat va.toNat (unitLanes q r.b) k) w).addPend dst none .timed)) ∧
    (LaneIssues s p c g ((match q with | .dm8 => [RegRef.v va.toNat] | .mx8 => vPair va) ++ [.s 58, .s 59] ++ vQuad vd) →
      IssuesTo (.widen g q hs vd va) s (if m = 0 then s else s.onW fun w =>
        (us.foldl (fun x k => x.widenUnit w r q vd.toNat va.toNat (unitLanes q r.b) k) w).addPend (vQuad vd) none .timed)) ∧
    ∀ (tr bf : Bool) (w : Warp),
      let n := us.foldl (fun x k => x.narrowUnit w r tr q bf vd.toNat va.toNat (unitLanes q r.b) k) w
      (∀ i < 16, m.getLsbD i = false → ∀ x, n.V x i = w.V x i) ∧ (tr = false → n.s = w.s) ∧ n.fpstat = w.fpstat

/-! ## Crossing lanes (spec/05) -/

/-- R111 to R113: each active lane takes the value of the lane its form names, active or not. -/
def Obligations.LaneMoves : Prop :=
  ∀ (s : State) (p : Path) (c : Clause) (g : Guard) (t : Wd) (vd va vb : Reg),
    let m := s.w.admitted p g
    let a := s.w.vNat t va
    (LaneIssues s p c g ((vRef t va ++ []) ++ vRef t vd) →
      (∀ k : Reg, 0 < k.toNat →
        LaneComputes (.shflFwd g t vd va k) s m t vd (fun l => a ((l + 16 / 2 ^ k.toNat) % 16)) ∧
        LaneComputes (.shflBack g t vd va k) s m t vd (fun l => a ((l + 16 - 16 / 2 ^ k.toNat) % 16)) ∧
        LaneComputes (.shflSwap g t vd va k) s m t vd (fun l => a (l ^^^ (16 / 2 ^ k.toNat)))) ∧
      ∀ n : Reg, LaneComputes (.bcast g t vd va n) s m t vd (fun _ => a n.toNat)) ∧
    (LaneIssues s p c g ((vRef t va ++ [.v vb.toNat]) ++ vRef t vd) →
      LaneComputes (.shflFrom g t vd va vb) s m t vd (fun l => a ((s.w.V vb.toNat l).toNat % 16))) ∧
    (LaneIssues s p c g (vRef t va ++ vRef t vd) → ∀ low < 16, m.getLsbD low = true → (∀ l < low, m.getLsbD l = false) →
      LaneComputes (.bcastLow g t vd va) s m t vd (fun _ => a low))

/-- R114, R115: the votes over the active lanes whose predicate, after inversion, is true. LRED writes one value, the tree of its step over
the active lanes' values and the identity elsewhere, to every active lane; of an integer sum that is the sum modulo the width. -/
def Obligations.VotesAndReductions : Prop :=
  (∀ (s : State) (p : Path) (c : Clause) (g : Guard) (vd st : Reg) (pd ps : BitVec 3) (inv : Bool),
    let m := s.w.admitted p g
    let yes := fun l => m.getLsbD l && ((s.w.P ps.toNat).getLsbD l != inv)
    let count := (List.range 16).countP yes
    (LaneIssues s p c g ([.p ps.toNat] ++ [.v vd.toNat]) →
      LaneComputes (.voteCount g vd ps inv) s m .w32 vd (fun _ => count) ∧
      LaneComputes (.voteRank g vd ps inv) s m .w32 vd (fun l => (List.range l).countP yes) ∧
      LaneComputes (.voteMask g vd ps inv) s m .w32 vd (fun _ => ((List.range 16).map fun l => if yes l then 2 ^ l else 0).sum)) ∧
    (LaneIssues s p c g ((.p ps.toNat :: [.s st.toNat]) ++ [.p pd.toNat]) →
      PredComputes (.voteAtleast g pd ps inv st) s m pd (fun _ => decide ((s.w.S st.toNat).toNat ≤ count))) ∧
    (LaneIssues s p c g ((.p ps.toNat :: []) ++ [.p pd.toNat]) →
      PredComputes (.voteEvery g pd ps inv) s m pd (fun _ => (List.range 16).all fun l => !m.getLsbD l || yes l) ∧
      PredComputes (.voteAgree g pd ps inv) s m pd
        (fun _ => ((List.range 16).all fun l => !yes l) || (List.range 16).all fun l => !m.getLsbD l || yes l))) ∧
  (∀ (s : State) (p : Path) (c : Clause) (g : Guard) (op : RedOp) (vd va : Reg),
    LaneIssues s p c g (vRef (wdOf op.wide) va ++ vRef (wdOf op.wide) vd) →
    let m := s.w.admitted p g
    let a := s.w.vNat (wdOf op.wide) va
    let r := redTree (redStep s.w.rm s.w.ftz op) ((List.range 16).map fun l => if m.getLsbD l then a l else redIdentity op)
    ((s.w.fpinv = true → r.2.2 = 0) →
      ∃ t, exec (.lred g op vd va) s = .next t ∧ FpWrote s t m (wdOf op.wide) vd (fun _ => r.1.headD 0) r.2.1 none) ∧
    (op = .addB32 ∨ op = .addB64 →
      r.1.headD 0 = ((List.range 16).map fun l => if m.getLsbD l then a l else 0).sum % 2 ^ wdBits (wdOf op.wide) ∧ r.2.2 = 0))

/-! ## Seams (spec/06) -/

/-- R138, R143 to R147, R149: the integer seam words, SMAC among them, on the groups whose lanes are all active, where no group leaves the range while
%seam.ovfen is set. -/
def Obligations.SeamIntegers : Prop :=
  ∀ (s : State) (p : Path) (c : Clause) (g : Guard) (vd va vb : Reg), s.w.bound = true →
    (s.w.limbW = 64 → vd.toNat % 2 = 0 ∧ va.toNat % 2 = 0 ∧ vb.toNat % 2 = 0) → s.w.admitted p g ≠ 0 →
    let l := s.w.seamGroups (s.w.admitted p g)
    let runs := fun (i : Instr) (x : Nat → Int) (lost : Bool) =>
      (s.w.ovfen = true → ∀ k ∈ l, s.w.outOfRange (x k) = false) → ∃ t, exec i s = .next t ∧ SeamWrote s t l vd x lost
    let two := s.w.limbRef vd ++ s.w.limbRef va
    (LaneIssues s p c g (two ++ s.w.limbRef vb) →
      runs (.sadd g vd va vb) (fun k => s.w.X va k + s.w.X vb k) false ∧
      runs (.ssub g vd va vb) (fun k => s.w.X va k - s.w.X vb k) false) ∧
    (LaneIssues s p c g two → runs (.sneg g vd va) (fun k => -s.w.X va k) false ∧
      ∀ (limb : Bool) (n : Reg),
        let z := if limb then n.toNat * s.w.limbW else n.toNat
        runs (.sshl g limb vd va n) (fun k => s.w.X va k * 2 ^ z) false ∧
        runs (.sshrI g limb vd va n) (fun k => s.w.X va k / 2 ^ z) (l.any fun k => s.w.X va k % 2 ^ z != 0) ∧
        runs (.sshrN g limb vd va n) (fun k => ((s.w.seamU va k / 2 ^ z : Nat) : Int).bmod (2 ^ s.w.seamBits))
          (l.any fun k => s.w.seamU va k % 2 ^ z != 0)) ∧
    ∀ (signed : Bool) (sm : Reg), LaneIssues s p c g (two ++ sPair sm) →
      runs (.smac g signed vd va sm)
        (fun k => s.w.X vd k + s.w.X va k * (if signed then sv 64 (s.w.sNat .w64 sm) else (s.w.sNat .w64 sm : Int))) false

/-- R148, R151, R152: comparing, and testing the sign of, a group's integer writes all of its lanes' predicates; FXCVT writes each
group's value, rounded once, to all of its lanes. -/
def Obligations.SeamResults : Prop :=
  ∀ (s : State) (p : Path) (c : Clause) (g : Guard) (vd va vb : Reg) (pd : BitVec 3), s.w.bound = true →
    (s.w.limbW = 64 → va.toNat % 2 = 0 ∧ vb.toNat % 2 = 0) → s.w.admitted p g ≠ 0 →
    let l := s.w.seamGroups (s.w.admitted p g)
    let grp := fun i => i / s.w.groupN
    let plain := fun (t : State) (regs : List RegRef) => Went s t ∧ t.w.s = s.w.s ∧ t.w.q = s.w.q ∧ t.w.f = s.w.f ∧
      ∃ o, t.w.pend = s.w.pend ++ [o] ∧ o.regs = regs.filter RegRef.kept ∧ o.seam = true ∧ o.ovf = 0
    (∀ k : Cond, LaneIssues s p c g ((s.w.limbRef va ++ s.w.limbRef vb) ++ [.p pd.toNat]) →
      ∃ t, exec (.scmp g k pd va vb) s = .next t ∧ plain t [.p pd.toNat] ∧ t.w.v = s.w.v ∧ bare t.w = bare s.w ∧
        (∀ i < 16, pd ≠ 7 → (t.w.P pd.toNat).getLsbD i =
          if grp i ∈ l then holds k (s.w.X va (grp i)) (s.w.X vb (grp i)) else (s.w.P pd.toNat).getLsbD i) ∧
        ∀ n, n ≠ pd.toNat → t.w.P n = s.w.P n) ∧
    (pd.toNat < 6 → LaneIssues s p c g (s.w.limbRef va ++ [.p pd.toNat, .p (pd.toNat + 1)]) →
      ∃ t, exec (.fxsign g pd va) s = .next t ∧ plain t [.p pd.toNat, .p (pd.toNat + 1)] ∧ t.w.v = s.w.v ∧ bare t.w = bare s.w ∧
        (∀ i < 16, (t.w.P pd.toNat).getLsbD i = if grp i ∈ l then decide (s.w.X va (grp i) ≠ 0) else (s.w.P pd.toNat).getLsbD i) ∧
        (∀ i < 16, (t.w.P (pd.toNat + 1)).getLsbD i =
          if grp i ∈ l then decide (s.w.X va (grp i) < 0) else (s.w.P (pd.toNat + 1)).getLsbD i) ∧
        ∀ n, n ≠ pd.toNat → n ≠ pd.toNat + 1 → t.w.P n = s.w.P n) ∧
    (∀ rm : RmSel, LaneIssues s p c g (s.w.limbRef va ++ vPair vd) →
      ∃ t, exec (.fxcvt g rm vd va) s = .next t ∧ plain t (vPair vd) ∧ t.w.p = s.w.p ∧
        bare { t.w with fpstat := 0 } = bare { s.w with fpstat := 0 } ∧
        (∀ i < 16, grp i ∈ l → t.w.vNat .w64 vd i =
          (fp64.round (rmSel .rne rm) (decide (s.w.X va (grp i) < 0)) (s.w.X va (grp i)).natAbs (sv 32 s.w.fxbase.toNat)).1) ∧
        ∀ r, ∀ i < 16, ¬ hits (s.w.groupsMask l) .w64 vd r i → t.w.V r i = s.w.V r i)

/-- R150: FXACC adds, group by group, the exact sum of its lanes' terms in units of 2^%fxbase, where it fits: with no NaN and no
infinity among them, none above the window, and, while %seam.wmode is 0, none below it. -/
def Obligations.ExactAccumulation : Prop :=
  ∀ (s : State) (p : Path) (c : Clause) (g : Guard) (op : FxOp) (vd va vb : Reg), s.w.bound = true →
    (s.w.limbW = 64 → vd.toNat % 2 = 0) → s.w.admitted p g ≠ 0 →
    LaneIssues s p c g (s.w.limbRef vd ++ (vPair va ++ if op = .mad ∨ op = .msub then vPair vb else [])) →
    let l := s.w.seamGroups (s.w.admitted p g)
    ∀ sum : Nat → Int, (∀ k ∈ l, s.w.fxSum op va vb k = some (sum k)) →
    let part := fun k => fxFloor (sum k) (sv 32 s.w.fxbase.toNat)
    (∀ k ∈ l, s.w.outOfRange (part k).1 = false) → (s.w.wmode = false → ∀ k ∈ l, (part k).2 = true) →
    (s.w.ovfen = true → ∀ k ∈ l, s.w.outOfRange (s.w.X vd k + (part k).1) = false) →
    ∃ t, exec (.fxacc g op vd va vb) s = .next t ∧
      SeamWrote s t l vd (fun k => s.w.X vd k + (part k).1) (s.w.wmode && l.any fun k => !(part k).2)

/-- R135, R136: STITCH binds groups of 2^(1+n) lanes when no group is torn between paths, and UNSTITCH unbinds them; both wait for
seam words in flight (R137).
Records in memory that cannot be read are left out (log 23). -/
def Obligations.SeamBinding : Prop :=
  ∀ (s : State) (p : Path) (c : Clause) (g : Guard), UniIssues s p c g [] →
    (∀ (w64 : Bool) (n : BitVec 2),
      (s.w.pend.any (·.seam) = false →
        (∀ k < 16 / 2 ^ (1 + n.toNat), (s.laneSets.filter fun x => x &&& groupMask (2 ^ (1 + n.toNat)) k != 0).length ≤ 1) →
        IssuesTo (.stitch g w64 n) s (s.onW fun w => { w with
          seam := (w.seam &&& 0x600) ||| 1 ||| (n.setWidth 32 <<< 2) ||| (if w64 then 0x10 else 0) })) ∧
      (s.w.pend.any (·.seam) = true →
        ∃ t, exec (.stitch g w64 n) s = .next t ∧ t = { s with w := { s.w with stalled := true, why := t.w.why } })) ∧
    (s.w.pend.any (·.seam) = false → IssuesTo (.unstitch g) s (s.onW fun w => { w with seam := w.seam &&& 0xF00 })) ∧
    (s.w.pend.any (·.seam) = true →
      ∃ t, exec (.unstitch g) s = .next t ∧ t = { s with w := { s.w with stalled := true, why := t.w.why } })

/-! ## Memory words (spec/07) -/

/-- R153, R156, R158, R168, R186: a load whose active lanes' bytes can be reached, with room in flag A and under the load cap, writes only
its destination registers and counts in flag A. Where every byte is direct, no memory changes, and each lane's value is what stood there,
little-endian, widened by its sign or by zeros, but where an access crosses a boundary and leaves a part for later. PREF brings the line
of a lane's address, where that is cached and mapped, into its level, and writes no register.
Accesses are performed at issue (log 3); which part of a crossing access comes later is free (log 70). -/
def Obligations.Loads : Prop :=
  ∀ (s : State) (p : Path) (c : Clause) (g : Guard) (vd va : Reg) (ab : BitVec 3) (disp : BitVec 6),
    let m := s.w.admitted p g
    let base : List RegRef := [.v va.toNat, .s (2 * ab.toNat), .s (2 * ab.toNat + 1)]
    let runs := fun (i : Instr) (size k : Nat) (value : Nat → Nat → Word) =>
      let addr := fun l => s.w.SP (2 * ab.toNat) + (s.w.V va.toNat l).signExtend 64 + BitVec.ofNat 64 (size * disp.toNat)
      ∀ locs : Nat → List Loc, LaneIssues s p c g (base ++ (List.range k).map fun j => .v (vd.toNat + j)) → m ≠ 0 →
        s.w.atLimit (flagOf c.fa) = false → s.capped m addr = false →
        Resolves s m size .load true addr locs →
        s.poisonedLanes ((lanesOf m).map fun l => ⟨l, addr l, .ok (locs l)⟩) true = none →
        ∃ t, exec i s = .next t ∧ LaneReached s t m k vd (flagOf c.fa) ∧
          (crosses ((lanesOf m).map locs) = false → t.w.parts = s.w.parts) ∧
          ∀ keys : Nat → List Nat, (∀ l < 16, m.getLsbD l = true → AllDirect s (locs l) (keys l)) →
            t.mem = s.mem ∧ t.warps = s.warps ∧ (t.w.parts = s.w.parts →
              ∀ l < 16, m.getLsbD l = true → ∀ j < k, t.w.V (vd.toNat + j) l = value (atKeys s (keys l)) j)
    runs (.ldI8 g vd va ab disp) 1 1 (fun x _ => (bv 8 x).signExtend 32) ∧
    runs (.ldN8 g vd va ab disp) 1 1 (fun x _ => bv 32 x) ∧
    runs (.ldI16 g vd va ab disp) 2 1 (fun x _ => (bv 16 x).signExtend 32) ∧
    runs (.ldN16 g vd va ab disp) 2 1 (fun x _ => bv 32 x) ∧
    runs (.ldB32 g vd va ab disp) 4 1 (fun x _ => bv 32 x) ∧
    runs (.ldB64 g vd va ab disp) 8 2 (fun x j => bv 32 (x / 2 ^ (32 * j))) ∧
    runs (.ldB128 g vd va ab disp) 16 4 (fun x j => bv 32 (x / 2 ^ (32 * j))) ∧
    ∀ lv : PrefLv, LaneIssues s p c g base →
      let addr := fun l => (s.w.SP (2 * ab.toNat) + (s.w.V va.toNat l).signExtend 64 + BitVec.ofNat 64 (128 * disp.toNat)).toNat
      ((∀ l < 16, m.getLsbD l = true → windowBase ≤ addr l) → IssuesTo (.pref g lv va ab disp) s s) ∧
      (∃ t, exec (.pref g lv va ab disp) s = .next t ∧ WarpWent s t 0 0 0 ∧ t.w.s = s.w.s ∧ t.w.f = s.w.f ∧ t.w.pend = s.w.pend) ∧
      ∀ l < 16, m = 1#16 <<< l → addr l < windowBase → ∀ pa leaf, s.coreTranslate s.myCore (addr l) .load = .ok pa leaf →
        leaf.attr / 8 ≠ 1 → s.cutOff s.myDie pa = false → IssuesTo (.pref g lv va ab disp) s ((s.coreWalks s.myCore (addr l) .load).prefetch s.myCore lv pa)

/-- R157, R168, R191: a store whose active lanes' bytes can be reached changes no register. Where every byte is direct, every byte apart
from the stored ones reads as before, and each stored byte holds the source's byte of the last lane that stores there, but where an access
crosses a boundary and leaves a part for later.
Accesses are performed at issue (log 3); which part of a crossing access comes later is free (log 70). -/
def Obligations.Stores : Prop :=
  ∀ (s : State) (p : Path) (c : Clause) (g : Guard) (vs va : Reg) (ab : BitVec 3) (disp : BitVec 6),
    let m := s.w.admitted p g
    let runs := fun (i : Instr) (size k : Nat) =>
      let addr := fun l => s.w.SP (2 * ab.toNat) + (s.w.V va.toNat l).signExtend 64 + BitVec.ofNat 64 (size * disp.toNat)
      ∀ locs : Nat → List Loc,
        LaneIssues s p c g ([.v va.toNat, .s (2 * ab.toNat), .s (2 * ab.toNat + 1)] ++ (List.range k).map fun j => .v (vs.toNat + j)) →
        m ≠ 0 → Resolves s m size .store false addr locs →
        ∃ t, exec i s = .next t ∧ WarpWent s t 0 0 0 ∧ t.w.s = s.w.s ∧ t.w.f = s.w.f ∧ t.w.pend = s.w.pend ∧
          (crosses ((lanesOf m).map locs) = false → t.w.parts = s.w.parts) ∧
          ∀ keys : Nat → List Nat, (∀ l < 16, m.getLsbD l = true → AllDirect s (locs l) (keys l)) →
            (∀ key, (∀ l < 16, m.getLsbD l = true → ∀ k ∈ keys l, Apart s key k) → t.peek key = s.peek key) ∧
            (t.w.parts = s.w.parts → ∀ l < 16, m.getLsbD l = true → ∀ n < size, ∀ key, (keys l)[n]? = some key →
              (∀ n', n < n' → (keys l)[n']? ≠ some key) → (∀ l' < 16, l < l' → m.getLsbD l' = true → key ∉ keys l') →
              t.peek key = (s.w.V (vs.toNat + n / 4) l).extractLsb' (8 * (n % 4)) 8)
    runs (.stN8 g vs va ab disp) 1 1 ∧ runs (.stN16 g vs va ab disp) 2 1 ∧ runs (.stB32 g vs va ab disp) 4 1 ∧
    runs (.stB64 g vs va ab disp) 8 2 ∧ runs (.stB128 g vs va ab disp) 16 4

/-- R160 to R162: an ATOM whose active lanes' addresses are aligned and can be reached writes only its destination registers and
counts in flag A. A single lane's relaxed atomic on a local memory reads the old value into its destination, stores the new one, and
changes no other byte.
Accesses are performed at issue (log 3); the order of lanes is free (log 9), so values are stated for one lane. -/
def Obligations.LaneAtomics : Prop :=
  ∀ (s : State) (p : Path) (c : Clause) (g : Guard) (op : AtomOp) (ord : AtomOrd) (vd va : Reg) (ab : BitVec 3),
    let m := s.w.admitted p g
    let addr := fun l => s.w.SP (2 * ab.toNat) + (s.w.V va.toNat l).signExtend 64
    let runs := fun (i : Instr) (n k : Nat) =>
      ∀ locs : Nat → List Loc,
        LaneIssues s p c g ([.v va.toNat, .s (2 * ab.toNat), .s (2 * ab.toNat + 1)]
          ++ (List.range (if op = .cas then 2 * k else k)).map fun j => .v (vd.toNat + j)) →
        m ≠ 0 → s.w.atLimit (flagOf c.fa) = false → s.capped m addr = false →
        (∀ l < 16, m.getLsbD l = true → (addr l).toNat % (n / 8) = 0) → Resolves s m (n / 8) .atomic true addr locs →
        s.poisonedLanes ((lanesOf m).map fun l => ⟨l, addr l, .ok (locs l)⟩) false = none →
        ∃ t, exec i s = .next t ∧ LaneReached s t m k vd (flagOf c.fa) ∧
          ∀ l < 16, m = 1#16 <<< l → ord = .rlx → ∀ places : List (Nat × Nat), locs l = places.map (fun x => .loc x.1 x.2) →
            let keys := places.map fun x => localKey x.1 x.2
            let b := s.w.regsNat (if op = .cas then BitVec.ofNat 6 (vd.toNat + k) else vd) k l
            keys.Nodup →
              (∀ j < k, t.w.V (vd.toNat + j) l = bv 32 (atKeys s keys / 2 ^ (32 * j))) ∧
              atKeys t keys = atomNew op n (atKeys s keys) b (s.w.regsNat vd k l) ∧ ∀ key, key ∉ keys → t.peek key = s.peek key
    runs (.atomB32Die g op ord vd va ab) 32 1 ∧ runs (.atomB32Dev g op ord vd va ab) 32 1 ∧ runs (.atomB32Sys g op ord vd va ab) 32 1 ∧
    runs (.atomB64Die g op ord vd va ab) 64 2 ∧ runs (.atomB64Dev g op ord vd va ab) 64 2 ∧ runs (.atomB64Sys g op ord vd va ab) 64 2

/-- R153, R159, R161, R162, R168 to R170: the uniform accesses. ULD, UST and UATOM with an address that can be reached leave every lane register alone;
where the bytes are direct and no part is left for later ULD reads and UST writes what stands there, little-endian; a relaxed UATOM on a
local memory answers the old value and stores the new one. FENCE performs its release and its acquire; an acquiring one waits for the
path's loads and atomics in flight.
Accesses are performed at issue (log 3); which part of a crossing access comes later is free (log 70). -/
def Obligations.UniformAccesses : Prop :=
  ∀ (s : State) (p : Path) (c : Clause) (g : Guard) (r sa : Reg) (imm : BitVec 8),
    (∀ t : Wd, UniIssues s p c g (sPair sa ++ sRef t r) →
      let size := wdBits t / 8
      let a := s.w.SP sa.toNat + BitVec.ofNat 64 (size * imm.toNat)
      let ld := match t with | .w32 => Instr.uldB32 g r sa imm | .w64 => .uldB64 g r sa imm
      let st := match t with | .w32 => Instr.ustB32 g r sa imm | .w64 => .ustB64 g r sa imm
      (∀ locs, s.w.atLimit (flagOf c.fb) = false → s.reach s.myCore s.myBlk a.toNat size .load true = .ok locs →
        s.severedLane .load locs = false → s.poisonedLanes [⟨0, a, .ok locs⟩] true = none →
        ∃ u x, exec ld s = .next u ∧ UniReached s u t r x (flagOf c.fb) ∧ (crosses [locs] = false → u.w.parts = s.w.parts) ∧
          ∀ keys, AllDirect s locs keys → u.mem = s.mem ∧ u.warps = s.warps ∧ (u.w.parts = s.w.parts → x = atKeys s keys)) ∧
      ∀ locs, s.reach s.myCore s.myBlk a.toNat size .store false = .ok locs → s.severedLane .store locs = false →
        ∃ u, exec st s = .next u ∧ WarpWent s u 0 0 0 ∧ u.w.s = s.w.s ∧ u.w.f = s.w.f ∧ u.w.pend = s.w.pend ∧
          (crosses [locs] = false → u.w.parts = s.w.parts) ∧
          ∀ keys, AllDirect s locs keys → keys.Nodup →
            (u.w.parts = s.w.parts → atKeys u keys = s.w.sNat t r) ∧ ∀ key, (∀ k ∈ keys, Apart s key k) → u.peek key = s.peek key) ∧
    (∀ (t : Wd) (op : AtomOp) (scope : AtomScope) (ord : AtomOrd),
      let n := wdBits t
      UniIssues s p c g (sPair sa ++ (List.range (if op = .cas then 2 * (n / 32) else n / 32)).map fun j => .s (r.toNat + j)) →
      let i := match t with | .w32 => Instr.uatomB32 g op scope ord r sa | .w64 => .uatomB64 g op scope ord r sa
      let a := s.w.SP sa.toNat
      ∀ locs, s.w.atLimit (flagOf c.fb) = false → a.toNat % (n / 8) = 0 → s.reach s.myCore s.myBlk a.toNat (n / 8) .atomic true = .ok locs →
        s.severedLane .atomic locs = false → s.poisonedLanes [⟨0, a, .ok locs⟩] false = none →
        ∃ u x, exec i s = .next u ∧ UniReached s u t r x (flagOf c.fb) ∧
          ∀ places : List (Nat × Nat), locs = places.map (fun y => .loc y.1 y.2) → ord = .rlx →
            let keys := places.map fun y => localKey y.1 y.2
            keys.Nodup → x = atKeys s keys ∧
              atKeys u keys = atomNew op n (atKeys s keys) (s.w.sregsNat (if op = .cas then r.toNat + n / 32 else r.toNat) (n / 32))
                (s.w.sregsNat r.toNat (n / 32)) ∧
              ∀ key, key ∉ keys → u.peek key = s.peek key) ∧
    ∀ (ord : FenceOrd) (scope : FenceScope), UniIssues s p c g [] →
      (s.w.fenceWaits p ord = false →
        let n := fenceScope scope
        let t := if ord = .acq ∨ n = 0 then s else (s.release s.myCore n).publish s.w.uid
        IssuesTo (.fence g ord scope) s (if ord = .rel ∨ n = 0 then t else (t.acquire s.myCore n).learn s.w.uid)) ∧
      (s.w.fenceWaits p ord = true →
        ∃ t, exec (.fence g ord scope) s = .next t ∧ t = { s with w := { s.w with stalled := true, why := t.w.why } })

/-! ## Uniform words (spec/06) -/

/-- R116, R117: uniform arithmetic wraps; minima, maxima, comparisons and high products follow the type; a guard that fails leaves only
the path's advance. -/
def Obligations.UniformArithmetic : Prop :=
  ∀ (s : State) (p : Path) (c : Clause) (g : Guard) (sd sa sb : Reg),
    (∀ t : Wd,
      let a := s.w.sNat t sa
      let b := s.w.sNat t sb
      (UniIssues s p c g (sRef t sa ++ sRef t sb ++ sRef t sd) →
        UniComputes (.uadd g t sd sa sb) s t sd ((a + b) % 2 ^ wdBits t) ∧
        UniComputes (.usub g t sd sa sb) s t sd (bv (wdBits t) a - bv (wdBits t) b).toNat ∧
        UniComputes (.umul g t sd sa sb) s t sd (a * b % 2 ^ wdBits t)) ∧
      (Issues s p c (.q g.p.toNat :: (sRef t sa ++ sRef t sb ++ sRef t sd)) → s.w.passes g = false →
        IssuesTo (.uadd g t sd sa sb) s s)) ∧
    (∀ signed : Bool, UniIssues s p c g (sRef .w32 sa ++ sRef .w32 sb ++ sRef .w32 sd) →
      UniComputes (.umulh g signed sd sa sb) s .w32 sd (highValue (if signed then .i32 else .n32) (s.w.sNat .w32 sa) (s.w.sNat .w32 sb))) ∧
    ∀ t : IntT,
      let a := s.w.sNat (wdOf t.wide) sa
      let b := s.w.sNat (wdOf t.wide) sb
      (UniIssues s p c g (sRef (wdOf t.wide) sa ++ sRef (wdOf t.wide) sb ++ sRef (wdOf t.wide) sd) →
        UniComputes (.umin g t sd sa sb) s (wdOf t.wide) sd (if typed t a ≤ typed t b then a else b) ∧
        UniComputes (.umax g t sd sa sb) s (wdOf t.wide) sd (if typed t a ≤ typed t b then b else a)) ∧
      ∀ (k : Cond) (qd : BitVec 3), UniIssues s p c g (sRef (wdOf t.wide) sa ++ sRef (wdOf t.wide) sb ++ [.q qd.toNat]) →
        ∃ u, exec (.ucmp g k t qd sa sb) s = .next u ∧ UPredWrote s u qd (holds k (typed t a) (typed t b))

/-- R116 to R118: bitwise words, shifts by a register's full count, and the select, whose guard field is its selector; UADD's immediate is signed,
those of the bitwise words are not; UMOVI and ULUI build a constant. -/
def Obligations.UniformLogicAndConstants : Prop :=
  (∀ (s : State) (p : Path) (c : Clause) (g : Guard) (sd sa sb : Reg),
    (∀ t : Wd,
      let a := bv (wdBits t) (s.w.sNat t sa)
      let b := bv (wdBits t) (s.w.sNat t sb)
      (UniIssues s p c g (sRef t sa ++ sRef t sb ++ sRef t sd) →
        UniComputes (.uand g t sd sa sb) s t sd (a &&& b).toNat ∧
        UniComputes (.uor g t sd sa sb) s t sd (a ||| b).toNat ∧
        UniComputes (.uxor g t sd sa sb) s t sd (a ^^^ b).toNat) ∧
      (UniIssues s p c g (sRef t sa ++ [.s sb.toNat] ++ sRef t sd) →
        UniComputes (.ushl g t sd sa sb) s t sd (leftValue (wdBits t) (s.w.sNat t sa) (s.w.S sb.toNat).toNat)) ∧
      ∀ qs : Guard, UniIssues s p c Guard.always ((.q qs.p.toNat :: sRef t sa ++ sRef t sb) ++ sRef t sd) →
        UniComputes (.usel qs t sd sa sb) s t sd (if (s.w.Q qs.p.toNat != qs.neg) = true then s.w.sNat t sa else s.w.sNat t sb)) ∧
    ∀ t : IntT, UniIssues s p c g (sRef (wdOf t.wide) sa ++ [.s sb.toNat] ++ sRef (wdOf t.wide) sd) →
      UniComputes (.ushr g t sd sa sb) s (wdOf t.wide) sd (rightValue t (s.w.sNat (wdOf t.wide) sa) (s.w.S sb.toNat).toNat)) ∧
  (∀ (s : State) (p : Path) (c : Clause) (g : Guard) (sd sa : Reg),
    let a := s.w.S sa.toNat
    (UniIssues s p c g ([.s sa.toNat] ++ [.s sd.toNat]) →
      (∀ imm : BitVec 8,
        UniComputes (.uaddImm g sd sa imm) s .w32 sd (a + imm.signExtend 32).toNat ∧
        UniComputes (.uandImm g sd sa imm) s .w32 sd (a &&& imm.setWidth 32).toNat ∧
        UniComputes (.uorImm g sd sa imm) s .w32 sd (a ||| imm.setWidth 32).toNat ∧
        UniComputes (.uxorImm g sd sa imm) s .w32 sd (a ^^^ imm.setWidth 32).toNat) ∧
      ∀ n : BitVec 5,
        UniComputes (.ushlImm g sd sa n) s .w32 sd (leftValue 32 a.toNat n.toNat) ∧
        ∀ signed : Bool, UniComputes (.ushrImm g signed sd sa n) s .w32 sd (rightValue (if signed then .i32 else .n32) a.toNat n.toNat)) ∧
    ∀ imm : BitVec 18,
      (UniIssues s p c Guard.always ([] ++ [.s sd.toNat]) → UniComputes (.umovi sd imm) s .w32 sd (imm.signExtend 32).toNat) ∧
      (UniIssues s p c Guard.always ([.s sd.toNat] ++ [.s sd.toNat]) →
        UniComputes (.ului sd imm) s .w32 sd (imm ++ (s.w.S sd.toNat).extractLsb' 0 14).toNat))

/-- R25, R119: USR reads every special register at its width, and USW writes those that may be written, which are the only ones that a
well-formed USW names: fields that are read-only keep their value, a forbidden value raises ILLEGAL, and a USW of %seam, %fxbase or
%fpmode waits while an earlier reader of the register is in flight. With a guard that fails a USW only goes on.
Which words in flight USW waits for is log 57. -/
def Obligations.SpecialRegisters : Prop :=
  ∀ (s : State) (p : Path) (c : Clause) (g : Guard) (r : Reg),
    (∀ x ∈ specialValues s, UniIssues s p c g ([] ++ sRef x.2.1 r) → UniComputes (.usr g r (BitVec.ofNat 8 x.1)) s x.2.1 r x.2.2) ∧
    let lo := s.w.S r.toNat
    let both := s.w.SP r.toNat
    (UniIssues s p c g (sRef .w32 r) →
      (lo.toNat ≤ 255 → IssuesTo (.usw g 0x0A r) s (s.onW fun w => { w with quantum := lo })) ∧
      (s.w.pend.any (·.seam) = false → lo &&& 0xFFFFF0E0 = 0 →
        IssuesTo (.usw g 0x0C r) s (s.onW fun w => { w with seam := (lo &&& 0xF00) ||| (w.seam &&& 0x1D) })) ∧
      (s.w.pend.any (·.seam) = false → IssuesTo (.usw g 0x0D r) s (s.onW fun w => { w with fxbase := lo })) ∧
      (s.w.pend.any (·.fp) = false → lo.toNat < 16 → IssuesTo (.usw g 0x0E r) s (s.onW fun w => { w with fpmode := lo })) ∧
      (lo.toNat < 32 → IssuesTo (.usw g 0x0F r) s (s.onW fun w => { w with fpstat := lo })) ∧
      (lo &&& 0x7E60 = 0 → (lo &&& 0x1F).toNat < 12 →
        IssuesTo (.usw g 0x12 r) s (s.onW fun w => { w with tcause := (lo &&& 0xFFFFFE7F) ||| (w.tcause &&& 0x180) })) ∧
      IssuesTo (.usw g 0x13 r) s (s.onW fun w => { w with tlanes := lo.setWidth 16 }) ∧
      (Handles s.w → ∀ n bad, (n, bad) ∈ [((0x0A : BitVec 8), 255 < lo.toNat), (0x0C, lo &&& 0xFFFFF0E0 ≠ 0), (0x0E, 16 ≤ lo.toNat),
          (0x0F, 32 ≤ lo.toNat), (0x12, lo &&& 0x7E60 ≠ 0 ∨ 12 ≤ (lo &&& 0x1F).toNat)] → bad → ∀ x, encode (.usw g n r) = some x →
        TrapsTo (.usw g n r) s p 1 p.mask (x.setWidth 64) p.pc false) ∧
      let waits := fun (n : BitVec 8) => ∃ t, exec (.usw g n r) s = .next t ∧ t = { s with w := { s.w with stalled := true, why := t.w.why } }
      (s.w.pend.any (·.seam) = true → waits 0x0D ∧ (lo &&& 0xFFFFF0E0 = 0 → waits 0x0C)) ∧
      (s.w.pend.any (·.fp) = true → lo.toNat < 16 → waits 0x0E)) ∧
    (∀ n : BitVec 8, WellFormed (.usw g n r) = true → n.toNat ∈ [0x0A, 0x0C, 0x0D, 0x0E, 0x0F, 0x10, 0x11, 0x12, 0x13, 0x14] ∧
      (Issues s p c (.q g.p.toNat :: sRef (wdOf (specialWide n)) r) → s.w.passes g = false → IssuesTo (.usw g n r) s s)) ∧
    (UniIssues s p c g (sRef .w64 r) →
      IssuesTo (.usw g 0x10 r) s (s.onW fun w => { w with tvec := both }) ∧
      IssuesTo (.usw g 0x11 r) s (s.onW fun w => { w with trpc := both }) ∧
      IssuesTo (.usw g 0x14 r) s (s.onW fun w => { w with tinfo := both }))

/-! ## Control words (spec/06) -/

/-- R120, R121: a transfer at the last place of its clause moves the whole path to a landing point; CALL links s62:s63; a bad target
raises BADLAND with the target in %trpc, and nothing else happens; a guard that fails only goes on; out of its place the word is
ILLEGAL.
The fields of the record of a bad landing are log 77. -/
def Obligations.Transfers : Prop :=
  ∀ (s : State) (p : Path) (c : Clause) (g : Guard) (off : BitVec 21) (sa : Reg),
    let t := p.pc + (off.signExtend 64 <<< 2)
    let goes := fun (i : Instr) (x : Addr) (u : State) =>
      (s.landing x = .good → JumpsTo i s u x) ∧
      (s.landing x = .bad → Handles s.w → TrapsTo i s p 2 p.mask (p.pc &&& 0xFFFFFFFFFFFF) x true)
    (EndIssues s p c g [] → goes (.br g off) t s) ∧
    (EndIssues s p c Guard.always [] → goes (.jmp off) t s) ∧
    (EndIssues s p c g [.s 62, .s 63] → goes (.call g off) t (s.onW fun w => w.setSP 62 (p.pc + 4))) ∧
    (EndIssues s p c g (sPair sa) → goes (.jmpi g sa) (s.w.SP sa.toNat) s ∧ goes (.ret g sa) (s.w.SP sa.toNat) s) ∧
    (Issues s p c [.q g.p.toNat] → c.idx = c.len → s.w.passes g = false → IssuesTo (.br g off) s s) ∧
    (Issues s p c [.q g.p.toNat] → c.idx ≠ c.len → Handles s.w → ∀ x, encode (.br g off) = some x →
      TrapsTo (.br g off) s p 1 p.mask (x.setWidth 64) p.pc false)

/-- R48, R122 to R124: BRL and JMPL with no group torn and no loop open. A path whose lanes agree jumps or falls through whole; a path
whose lanes part in two pushes a frame for the join and goes on with the part of its lowest lane, the other part in the free slot.
That both parts keep the waits of the path is log 20. -/
def Obligations.Splits : Prop :=
  ∀ (s : State) (p : Path) (c : Clause) (b g : Guard) (off : BitVec 12) (va : Reg) (join : BitVec 8),
    c.idx = c.len → s.w.bound = false → p.mask ≠ 0 →
    let t := p.pc + (off.signExtend 64 <<< 2)
    let j := p.pc + (join.setWidth 64 <<< 2)
    let taken := p.mask &&& s.w.guardMask b
    let parts := fun (u : State) (x y : Addr) (m n : Mask) =>
      let q := fun (pc : Addr) (mask : Mask) => ({ pc := pc, mask := mask, join := some j, clause := none, src := p.pc, waits := p.waits, held := false } : Path)
      Quiet s u ∧ u.w.stk = .frame j p.mask 0 p.join :: s.w.stk ∧ u.w.path = some (q x m) ∧ u.w.other = some (q y n) ∧
        u.w.v = s.w.v ∧ u.w.p = s.w.p ∧ u.w.s = s.w.s ∧ u.w.q = s.w.q ∧ u.w.f = s.w.f ∧ u.w.pend = s.w.pend ∧
        bare { u.w with stk := [] } = bare { s.w with stk := [] }
    let room := s.w.other = none ∧ s.w.stk.length ≤ 3 ∧ s.w.stk.length + s.w.below < s.w.stackLimit ∧ s.landing j = .good
    (Issues s p c [.p b.p.toNat] → s.w.depth = 0 →
      (taken = p.mask → s.landing t = .good → JumpsTo (.brl b off join) s s t) ∧
      (taken = 0 → JumpsTo (.brl b off join) s s (p.pc + 4)) ∧
      (taken ≠ 0 → taken ≠ p.mask → t ≠ p.pc + 4 → s.landing t = .good → room →
        ∃ u, exec (.brl b off join) s = .next u ∧ ∀ low < 16, p.mask.getLsbD low = true → (∀ l < low, p.mask.getLsbD l = false) →
          if taken.getLsbD low = true then parts u t (p.pc + 4) taken (p.mask &&& ~~~taken)
          else parts u (p.pc + 4) t (p.mask &&& ~~~taken) taken)) ∧
    (EndIssues s p c g (vPair va) → ∀ (x y : Addr) (m : Mask),
      (∀ l < 16, p.mask.getLsbD l = true → s.w.VP va.toNat l = if m.getLsbD l = true then x else y) → s.landing x = .good →
      (p.mask &&& m = p.mask → JumpsTo (.jmpl g va join) s s x) ∧
      (x ≠ y → p.mask &&& ~~~m ≠ 0 → s.landing y = .good → room →
        ∀ low < 16, p.mask.getLsbD low = true → (∀ l < low, p.mask.getLsbD l = false) → m.getLsbD low = true →
          ∃ u, exec (.jmpl g va join) s = .next u ∧ parts u x y (p.mask &&& m) (p.mask &&& ~~~m)))

/-- R125, R127: LOOP opens a level with its start, its end and its count; with a failed guard or a count of 0 it goes behind the loop's
end, which must be a landing point; a fifth level is LOOPDEPTH. LBRK closes the innermost level and goes behind its end; with none open it
traps too; with a failed guard it does nothing.
The fields of the record of a bad landing are log 77. -/
def Obligations.Loops : Prop :=
  ∀ (s : State) (p : Path) (c : Clause) (g : Guard) (sa : Reg) (imm : BitVec 8), c.idx = c.len →
    let le := p.pc + (imm.setWidth 64 <<< 2)
    (Issues s p c [.q g.p.toNat, .s sa.toNat] →
      (s.w.passes g = true → s.w.S sa.toNat ≠ 0 → s.w.depth < 4 →
        IssuesTo (.loop g sa imm) s (s.onW fun w =>
          { w with loops := w.loops.put w.depth ⟨p.pc + 4, le, w.S sa.toNat⟩, depth := w.depth + 1 })) ∧
      ((s.w.passes g = false ∨ s.w.S sa.toNat = 0) → s.landing (le + 4) = .good → JumpsTo (.loop g sa imm) s s (le + 4)) ∧
      ((s.w.passes g = false ∨ s.w.S sa.toNat = 0) → s.landing (le + 4) = .bad → Handles s.w →
        TrapsTo (.loop g sa imm) s p 2 p.mask (p.pc &&& 0xFFFFFFFFFFFF) (le + 4) true) ∧
      (s.w.passes g = true → s.w.S sa.toNat ≠ 0 → 4 ≤ s.w.depth → Handles s.w →
        TrapsTo (.loop g sa imm) s p 9 p.mask (p.pc &&& 0xFFFFFFFFFFFF) p.pc false)) ∧
    (EndIssues s p c g [] →
      (∀ l : Loop, 0 < s.w.depth → s.w.loops.get ⟨0, 0, 0⟩ (s.w.depth - 1) = l → s.landing (l.le + 4) = .good →
        JumpsTo (.lbrk g) s (s.onW fun w => { w with depth := w.depth - 1 }) (l.le + 4)) ∧
      (s.w.depth = 0 → Handles s.w → TrapsTo (.lbrk g) s p 9 p.mask 0 p.pc false)) ∧
    (Issues s p c [.q g.p.toNat] → s.w.passes g = false → IssuesTo (.lbrk g) s s)

/-- R19, R28, R55 to R57, R60, R130: TRAP takes the trap with its code in %tinfo; with %tvec 0, or in a handler, it escalates: the warp ends,
and the block's fault is TRAPF, unless the block has a fault already. A word that is no instruction raises ILLEGAL inside a clause, and at a
boundary with the boundary bit if it is a CLAUSE word of a reserved code, else it is a bad landing.
The fields of the record of a bad landing are log 77. -/
def Obligations.TrapsAndReservedWords : Prop :=
  (∀ (s : State) (p : Path) (c : Clause) (g : Guard) (code : BitVec 8), EndIssues s p c g [] →
    (Handles s.w → TrapsTo (.trap g code) s p 11 p.mask (code.setWidth 64) p.pc false) ∧
    (¬ Handles s.w → ∃ t, exec (.trap g code) s = .next t ∧ t.w.ended = true ∧
      ((s.blk s.w.blk).fault = none → (t.blk s.w.blk).fault = some
        { code := 1, warp := some s.w.index, esc := s.w.tcause.getLsbD 8, tcause := 11, pc := p.pc, info := code.setWidth 64,
          lanes := p.mask, lfm := s.w.lfm }))) ∧
  (∀ (s : State) (p : Path) (word : Word), s.w.path = some p → Handles s.w →
    (p.clause.isSome = true →
      (word.toNat / 2 ^ 24 ≠ 0x80 → TrapsTo (.illegalEncoding word) s p 1 p.mask (word.setWidth 64) p.pc false) ∧
      (word.toNat / 2 ^ 24 = 0x80 → StandsTo (.illegalEncoding word) s p 1 p.mask (word.setWidth 64) p.pc false)) ∧
    (p.clause = none → word.toNat / 2 ^ 24 = 0x80 → StandsTo (.illegalEncoding word) s p 1 p.mask (word.setWidth 64) p.pc true) ∧
    (p.clause = none → word.toNat / 2 ^ 24 ≠ 0x80 →
      StandsTo (.illegalEncoding word) s p 2 p.mask (p.src &&& 0xFFFFFFFFFFFF) p.pc true))

/-- R58, R60, R126: the return from a handler, which frees the other path. At a boundary RESUME goes to %trpc as a landing; inside a clause
it goes on with the word at %trpc, and RESUME.skip with the word after it, with the clause's flags and the rest of its words, or behind the
clause after its last word. Outside a handler both are ILLEGAL, and with a mask other than the delivery's both end the warp with cause
12. That RESUME.skip does so at a boundary too is log 66. -/
def Obligations.Resuming : Prop :=
  ∀ (s : State) (p : Path) (c : Clause) (g : Guard), EndIssues s p c g [] →
    let free := fun (q : Path) => { q with held := false }
    let out := s.onW fun w => { w with a := w.a.map free, b := w.b.map free, tcause := w.tcause &&& 0xFFFFFEFF, delivery := 0, recHold := false }
    let idx := bits s.w.tcause.toNat 20 4
    let len := bits s.w.tcause.toNat 16 4
    let same := fun (t : State) => Quiet s t ∧ t.w.other = out.w.other ∧ t.w.v = s.w.v ∧ t.w.p = s.w.p ∧ t.w.s = s.w.s ∧ t.w.q = s.w.q ∧
      t.w.f = s.w.f ∧ bare t.w = bare out.w
    let inside := fun (i : Instr) (pc : Addr) (k : Nat) => ∀ words, s.fetchRun s.myCore pc.toNat (len + 1 - k) = .inl words →
      Reaches i s fun t => same t ∧ t.w.path = some { p with pc := pc, held := false, clause := some ⟨BitVec.ofNat 4 k, BitVec.ofNat 4 len,
        s.w.tcause.extractLsb' 28 4, s.w.tcause.extractLsb' 24 4, words⟩ }
    (s.w.handling = true → p.mask = s.w.delivery →
      (s.w.tcause.getLsbD 15 = true → JumpsTo (.resume g) s out s.w.trpc) ∧
      (s.w.tcause.getLsbD 15 = false →
        (idx ≤ len → inside (.resume g) s.w.trpc idx) ∧
        (idx < len → inside (.resumeSkip g) (s.w.trpc + 4) (idx + 1)) ∧
        (idx = len → s.w.depth = 0 → Reaches (.resumeSkip g) s fun t => same t ∧
          t.w.path = some { p with pc := s.w.trpc + 4, clause := none, src := s.w.trpc, held := false }))) ∧
    ∀ i ∈ [Instr.resume g, .resumeSkip g],
      (s.w.tcause.getLsbD 8 = false → s.w.tvec ≠ 0 → ∀ x, encode i = some x → TrapsTo i s p 1 p.mask (x.setWidth 64) p.pc false) ∧
      (s.w.handling = true → p.mask ≠ s.w.delivery → (s.blk s.w.blk).fault = none → Reaches i s fun t => t.w.ended = true ∧
        ∃ x, (t.blk s.w.blk).fault = some x ∧ x.code = 1 ∧ x.esc = true ∧ x.tcause = 12 ∧ x.pc = p.pc ∧ x.lanes = p.mask)

/-- R15, R16, R19, R28, R50, R129, R132, R133, R185: NOP passes. EXIT takes the lanes of its path out, which leaves the handler that it ran in, and
ends the warp with its last lane. YIELD ends the quantum: the warp changes places with a ready pending warp of its core, or is the youngest
for 16 cycles. TWAIT waits until its tick, and TWAIT_WAKE ends the waits that are due. A CLAUSE word at a boundary whose flags are clear and
whose words can be fetched starts its clause; it waits for a flag, lands badly without its words, and is ILLEGAL inside a clause. With a
guard that fails the guarded words only go on.
That words which cannot be fetched are a bad landing is log 22, the fields of its record log 77. -/
def Obligations.EndingAndWaiting : Prop :=
  ∀ (s : State) (p : Path) (c : Clause) (g : Guard),
    (UniIssues s p c g [] → IssuesTo (.nop g) s s) ∧
    (Issues s p c [.q g.p.toNat] → s.w.passes g = false →
      IssuesTo (.nop g) s s ∧ (c.idx = c.len → IssuesTo (.exit g) s s ∧ IssuesTo (.yieldQ g) s s)) ∧
    (EndIssues s p c g [] →
      let out := fun (t : State) => Quiet s t ∧ t.w.path = none ∧ t.w.gone = s.w.gone ||| p.mask ∧ t.w.s = s.w.s ∧ t.w.ended = s.w.ended ∧
        ∀ r, ∀ l < 16, p.mask.getLsbD l = false → t.w.V r l = s.w.V r l
      (s.w.gone ||| p.mask ≠ BitVec.allOnes 16 → s.w.handling = false → Reaches (.exit g) s out) ∧
      (s.w.gone ||| p.mask ≠ BitVec.allOnes 16 → s.w.handling = true → Reaches (.exit g) s fun t => out t ∧ t.w.handling = false ∧
        ∀ q, t.w.other = some q → q.held = false) ∧
      (s.w.gone ||| p.mask = BitVec.allOnes 16 → Reaches (.exit g) s fun t => t.w.ended = true)) ∧
    (EndIssues s p c g [] → s.w.active = true →
      ((∀ v ∈ s.resident s.myCore, (s.warp v).active = true) →
        Reaches (.yieldQ g) s fun t => Passed (s.onW fun w => { w with yielded := true }) t ∧ t.w.yieldUntil = s.cycle + 17) ∧
      ∀ v, s.nextIn s.myCore = some v → (s.core s.myCore).swapFree ≤ s.cycle → Reaches (.yieldQ g) s fun t => t.w.yielded = true ∧
        t.w.active = false ∧ (t.warp v).active = true ∧ t.w.v = s.w.v ∧ t.w.p = s.w.p ∧ t.w.s = s.w.s ∧ t.mem = s.mem ∧
        (t.core s.myCore).swapFree = s.cycle + 2) ∧
    (∀ sa : Reg, EndIssues s p c g (sPair sa) →
      ∃ u, Passed s u ∧ exec (.twait g sa) s = .next (if (s.w.SP sa.toNat).toNat ≤ s.tick s.myDie then u
        else u.onW fun w => w.onPath fun q => { q with waits := q.waits ++ [.twait (s.w.SP sa.toNat) p.pc] })) ∧
    (Reaches (.twaitWake s.w.uid) s fun t => t = { s with w := { s.w with a := t.w.a, b := t.w.b } } ∧
      ∀ q q', s.w.a = some q → t.w.a = some q' → q'.pc = q.pc ∧ q'.mask = q.mask ∧ ∀ x pc, Wait.twait x pc ∈ q'.waits ↔
        Wait.twait x pc ∈ q.waits ∧ s.tick s.myDie < x.toNat) ∧
    ∀ (wait : BitVec 12) (fa fb len : BitVec 4) (q : Path), s.w.path = some q →
      let i := Instr.clause wait fa fb len
      let clear := ∀ k < 12, wait.getLsbD k = true → s.w.f.get 0 k = 0
      (q.clause = none → clear → ∀ words, s.fetchRun s.myCore (q.pc.toNat + 4) (len.toNat + 1) = .inl words →
        Reaches i s fun t => Quiet s t ∧ t.w = { (s.w.onPath fun q => { q with pc := q.pc + 4, clause := some ⟨0, len, fa, fb, words⟩ }) with
          stalled := false, failed := false, waitCount := 0, readyCount := 0, ranAt := s.cycle + 1, yieldUntil := 0 }) ∧
      (q.clause = none → ¬ clear → Reaches i s fun t => t = { s with w := { s.w with stalled := true, why := t.w.why } }) ∧
      (Handles s.w → q.clause = none → clear → ∀ a, s.fetchRun s.myCore (q.pc.toNat + 4) (len.toNat + 1) = .inr (a, false) →
        StandsTo i s q 2 q.mask (q.src &&& 0xFFFFFFFFFFFF) q.pc true) ∧
      (Handles s.w → q.clause.isSome = true → ∀ x, encode i = some x → StandsTo i s q 1 q.mask (x.setWidth 64) q.pc false)

/-! ## The cluster from its warps (spec/10, spec/11) -/

/-- R207, R208, R210, R240, R315: an arrival at a numbered barrier whose count agrees raises the phase's arrivals and, with BARW, makes the path
wait with s55 pending; the last arrival completes the phase, and a warp that arrives last goes on with its status in s55. A count that
disagrees is the block fault BARCNT, which ends the warp at its next boundary. With the warp's port operations unperformed the word issues
and its arrival is to count once they are, after what the warp is already to do then; the barrier is as before. -/
def Obligations.Barriers : Prop :=
  ∀ (s : State) (p : Path) (c : Clause) (g : Guard) (nb : BitVec 4) (cnt : Bool) (sa : Reg),
    let k := s.blk s.w.blk
    let r := k.bars.get Bar.fresh nb.toNat
    let n := if cnt then (s.w.S sa.toNat).toNat else (s.liveWarps s.w.blk).length
    let agrees := (r.arrivals = 0 ∨ n = r.expect) ∧ (cnt = true → 0 < n ∧ n ≤ 258)
    let src : List RegRef := if cnt then [.s sa.toNat] else []
    let after := fun (t : State) => (t.blk s.w.blk).bars.get Bar.fresh nb.toNat
    let busy := !s.w.due.isEmpty || (s.clu s.myClu).port.any fun o => o.warp == s.w.uid && decide (o.num ≤ k.oseq)
    let late := fun (t : State) (tag : Option Nat) => (t.blk s.w.blk).bars = k.bars ∧ ∃ d, t.w.due = s.w.due ++ [d] ∧ d.pc = p.pc ∧
      d.after = k.oseq ∧ d.kind = .arrive nb.toNat (if cnt then some (s.w.S sa.toNat).toNat else none) tag
    (busy = true →
      (UniIssues s p c g (src ++ []) → Reaches (.bara g nb cnt sa) s fun t => WarpWent s t 0 0 0 ∧ t.w.s = s.w.s ∧ late t none) ∧
      (UniIssues s p c g (src ++ [.s 55]) → Reaches (.barw g nb cnt sa) s fun t => t.w.v = s.w.v ∧ t.w.p = s.w.p ∧ t.w.s = s.w.s ∧
        bare t.w = bare s.w ∧ t.w.blocked [.s 55] = true ∧ late t (some s.w.nextTag) ∧
        ∃ q, t.w.path = some q ∧ Wait.arriving nb.toNat s.w.nextTag ∈ q.waits)) ∧
    (busy = false → k.errMode = false → UniIssues s p c g (src ++ []) →
      (agrees → r.arrivals + 1 < n → ∃ t, exec (.bara g nb cnt sa) s = .next t ∧ WarpWent s t 0 0 0 ∧ t.w.s = s.w.s ∧
        (after t).phase = r.phase ∧ (after t).arrivals = r.arrivals + 1 ∧ (after t).expect = n) ∧
      (agrees → n ≤ r.arrivals + 1 → ∃ t, exec (.bara g nb cnt sa) s = .next t ∧ t.w.v = s.w.v ∧ t.w.p = s.w.p ∧
        (after t).phase = r.phase + 1 ∧ (after t).arrivals = 0 ∧ (after t).err = false) ∧
      (¬ agrees → k.fault = none → s.w.uid ∈ k.warps → ∃ t x, exec (.bara g nb cnt sa) s = .next t ∧ t.w.winding = true ∧
        (t.blk s.w.blk).fault = some x ∧ x.code = 4 ∧ x.pc = p.pc)) ∧
    (busy = false → k.errMode = false → UniIssues s p c g (src ++ [.s 55]) → agrees →
      (r.arrivals + 1 < n → ∃ t q, exec (.barw g nb cnt sa) s = .next t ∧ t.w.v = s.w.v ∧ t.w.p = s.w.p ∧ t.w.s = s.w.s ∧
        bare t.w = bare s.w ∧ t.w.blocked [.s 55] = true ∧ t.w.path = some q ∧ (∃ tag, Wait.barw nb.toNat r.phase tag ∈ q.waits) ∧
        (after t).phase = r.phase ∧ (after t).arrivals = r.arrivals + 1 ∧ (after t).expect = n) ∧
      (n ≤ r.arrivals + 1 → s.w.uid ∈ k.warps → ∃ t, exec (.barw g nb cnt sa) s = .next t ∧ t.w.v = s.w.v ∧ t.w.p = s.w.p ∧
        (after t).phase = r.phase + 1 ∧ (after t).arrivals = 0 ∧
        t.w.S 55 = BitVec.ofNat 32 ((if k.m.st = .halted then 2 else 0) + (if k.c.st = .halted then 4 else 0))))

/-- R205, R206, R230, R231: FORK starts the idle streams it names at their entries, or is to start them once the warp's port operations are
performed, or is ILLEGAL for a stream the block has not; RENDEZ waits for the other warps, the streams and the block's port operations, and the last one ends
the meeting; SEED and THBIND set a seed register and a handle, THBIND with the record that stands at its address. The commands count in
flag B. -/
def Obligations.BlockCommands : Prop :=
  ∀ (s : State) (p : Path) (c : Clause) (g : Guard),
    let b := s.w.blk
    let k := s.blk b
    (UniIssues s p c g [] → ∀ which : ForkSel,
      let m := which ≠ .c
      let x := which ≠ .m
      let busy := !s.w.due.isEmpty || (s.clu s.myClu).port.any fun o => o.warp == s.w.uid && decide (o.num ≤ k.oseq)
      ((m → k.mentry ≠ 0) → (x → k.centry ≠ 0) → s.w.atLimit (flagOf c.fb) = false → busy = true →
        Reaches (.fork g which) s fun t => WarpWent s t 0 0 0 ∧ t.w.s = s.w.s ∧ Counts s t (BitVec.allOnes 16) (flagOf c.fb) ∧
          (t.blk b).m = k.m ∧ (t.blk b).c = k.c ∧ ∃ d, t.w.due = s.w.due ++ [d] ∧ d.pc = p.pc ∧ d.after = k.oseq ∧
            d.kind = .fork (which != .c) (which != .m) s.w.nextTag) ∧
      ((m → k.mentry ≠ 0) → (x → k.centry ≠ 0) → s.w.atLimit (flagOf c.fb) = false → busy = false →
        ∃ t, exec (.fork g which) s = .next t ∧ WarpWent s t 0 0 0 ∧ t.w.s = s.w.s ∧ Counts s t (BitVec.allOnes 16) (flagOf c.fb) ∧
          (t.blk b).m = (if m ∧ k.m.st = .idle then { k.m with
            st := .running, pc := k.mentry, wait := none, held := none, word := none, knows := k.m.knows.join (s.before s.w.uid) } else k.m) ∧
          (t.blk b).c = (if x ∧ k.c.st = .idle then { k.c with
            st := .running, pc := k.centry, wait := none, held := none, word := none, knows := k.c.knows.join (s.before s.w.uid) } else k.c)) ∧
      ((m ∧ k.mentry = 0 ∨ x ∧ k.centry = 0) → Handles s.w → ∀ y, encode (.fork g which) = some y →
        TrapsTo (.fork g which) s p 1 p.mask (y.setWidth 64) p.pc false)) ∧
    (UniIssues s p c g [] →
      let met := if k.met.contains s.w.index then k.met else s.w.index :: k.met
      let all := (s.liveWarps b).all (fun u => met.contains (s.warp u).index) && k.m.st != .running && k.c.st != .running &&
        !(s.clu (b / 4)).port.any (·.blk == b)
      (all = false → ∃ t q, exec (.rendez g) s = .next t ∧ t.w.v = s.w.v ∧ t.w.s = s.w.s ∧ (t.blk b).met = met ∧ t.w.path = some q ∧
        Wait.rendez p.pc ∈ q.waits) ∧
      (all = true → s.w.uid ∈ k.warps → s.w.ended = false → ∃ t, exec (.rendez g) s = .next t ∧
        (s.w.parts = [] → t.w.v = s.w.v ∧ t.w.s = s.w.s) ∧ (t.blk b).met = [] ∧ (t.blk b).errMode = false ∧ (t.blk b).m.st = .idle ∧ (t.blk b).c.st = .idle ∧
        ∀ q, t.w.path = some q → ∀ pc, Wait.rendez pc ∉ q.waits)) ∧
    (s.w.atLimit (flagOf c.fb) = false → ∀ (sa sb : Reg),
      let took := fun (u : State) => u.onW fun w => w.addPend [] (flagOf c.fb) .counted
      (∀ (rb : RotB) (hs : BitVec 3), UniIssues s p c g (sPair sa) → hs.toNat < k.seeds →
        IssuesTo (.seed g rb hs sa) s (took (s.onBlk b fun k => { k with hs := k.hs.put hs.toNat ⟨s.w.SP sa.toNat, rb⟩ }))) ∧
      ∀ (th : BitVec 5) (locs : List Loc), UniIssues s p c g (sPair sa ++ (List.range 4).map fun k => .s (sb.toNat + k)) →
        let a := s.w.SP sa.toNat
        let o := fun n => (s.w.S (sb.toNat + n)).toInt
        let r := (s.laneWalks (globalPages a.toNat 64) .load).readLocs s.myCore false locs
        let bound := fun (tr : Bool) => took (r.2.onBlk b fun k => { k with handles := k.handles.put th.toNat (some
          { tlr := ⟨BitVec.ofNat 512 (ofBytes r.1), a⟩, c0 := o 0, c1 := o 1, c2 := o 2, c3 := o 3, transposed := tr }) })
        a.toNat % 64 = 0 → s.reach s.myCore k a.toNat 64 .load true = .ok locs → s.severedLane .load locs = false → s.poisonedLanes [⟨0, a, .ok locs⟩] true = none →
        IssuesTo (.thbind g th sa sb) s (bound false) ∧ IssuesTo (.thbindT g th sa sb) s (bound true))

/-- R211, R212, R229, R232 to R236: RKINIT sets a rack up; CPY waits in the copy engine's queue, counted in flag B; AWAITF waits for its
slot with s55 pending, or goes on at once with the mark of a failed copy; RELSLOT releases the oldest filled slot. CPY and RELSLOT come after
the path's accesses before them; with port operations of the warp unperformed, the rack notes that the next copy comes after them. RELSLOT on a rack that is not the block's takes the warp-command error path: the block's fault is
ENGCMD. -/
def Obligations.Racks : Prop :=
  ∀ (s : State) (p : Path) (c : Clause) (g : Guard) (rk th : BitVec 5) (sa sb : Reg), s.w.atLimit (flagOf c.fb) = false →
    let k := s.rackOf s.myClu rk.toNat
    let mine := k.owner = some s.w.blk ∧ k.slots ≠ 0
    let took := fun (u : State) => u.onW fun w => w.addPend [] (flagOf c.fb) .counted
    let a := s.w.SP sa.toNat
    let x := s.w.S sb.toNat
    (UniIssues s p c g (sPair sa ++ [.s sb.toNat]) → ∀ to_ : Nat, a.toNat % 128 = 0 → s.engineAddr a = some to_ →
      1 ≤ x.toNat % 128 → x.toNat % 128 ≤ 64 → x.toNat / 128 % 512 = 0 → 1 ≤ x.toNat / 65536 →
      (k.owner = none ∨ k.owner = some s.w.blk ∧ k.ic = k.fc) →
      IssuesTo (.rkinit g rk sa sb) s (took (s.onRack s.myClu rk.toNat fun _ =>
        { owner := some s.w.blk, slots := x.toNat % 128, size := x.toNat / 65536, base := BitVec.ofNat 64 to_, ic := 0, fc := 0, lc := 0,
          copies := [], failed := [], after := [] }))) ∧
    (mine → ((s.blk s.w.blk).handles.get none th.toNat).isSome = true →
      let queued := fun (i : Instr) (shut : Bool) => ∀ word, encode i = some word →
        IssuesTo i s ((((s.release s.myCore 1).publish s.w.uid).onW fun w => w.addPend [] (flagOf c.fb) .unit).onClu s.myClu fun y =>
          { y with cpyWait := y.cpyWait ++
            [{ after := (s.blk s.w.blk).oseq, warp := s.w.uid, tag := s.w.nextTag, blk := s.w.blk, pc := p.pc, word := word, rk := rk.toNat,
               h := th.toNat, sealing := shut, x := x, y := s.w.S (sb.toNat + 1) }] })
      (UniIssues s p c g [.s sb.toNat] → x.toNat / 2 ^ 24 = 0 → queued (.cpy g rk th sb) false) ∧
      (UniIssues s p c g (sPair sb) → queued (.cpySeal g rk th sb) true)) ∧
    (let due := fun (n : Word) => 1 ≤ (k.fc - n).toNat ∧ (k.fc - n).toNat ≤ 2 ^ 31
     mine → UniIssues s p c g [.s sa.toNat, .s 55] → (∀ m tag, Wait.awaitf rk.toNat m tag ∈ s.w.waits → ¬ due m) →
      let n := s.w.S sa.toNat
      (¬ due n → ∃ t q tag, exec (.awaitf g rk sa) s = .next t ∧ t.w.v = s.w.v ∧ t.w.s = s.w.s ∧ bare t.w = bare s.w ∧
        t.w.blocked [.s 55] = true ∧ t.w.path = some q ∧ Wait.awaitf rk.toNat n tag ∈ q.waits) ∧
      (due n → ∃ t, exec (.awaitf g rk sa) s = .next t ∧ t.w.v = s.w.v ∧ bare t.w = bare s.w ∧ (∀ r, r ≠ 55 → t.w.S r = s.w.S r) ∧
        t.w.S 55 = (if k.failed.contains n = true then 1 else 0))) ∧
    (UniIssues s p c g [] →
      (mine → k.lc ≠ k.fc →
        let n := (s.blk s.w.blk).oseq
        let busy := (s.clu s.myClu).port.any fun o => o.warp == s.w.uid && decide (o.num ≤ n)
        IssuesTo (.relslot g rk) s (took ((s.release s.myCore 1).onRack s.myClu rk.toNat fun k =>
          { k with lc := k.lc + 1, after := if busy then k.after ++ [(s.w.uid, n)] else k.after }))) ∧
      (¬ mine → (s.blk s.w.blk).fault = none → s.w.uid ∈ (s.blk s.w.blk).warps → ∃ t x, exec (.relslot g rk) s = .next t ∧
        t.w.winding = true ∧ (t.blk s.w.blk).fault = some x ∧ x.code = 5 ∧ x.pc = p.pc))

/-- R213, R214, R237 to R240: ACALLOC takes the lowest run of free indices and the lowest free granules at once when nobody waits and
they suffice, answers at once with all ones when no run of indices is free, and waits otherwise; ACFREE unmaps its indices; ACRD, ACWR
and ACZERO enter the accumulator port's queue.
That the granules are the lowest free ones is log 92: R237 says only k free granules. -/
def Obligations.Accumulators : Prop :=
  ∀ (s : State) (p : Path) (c : Clause) (g : Guard) (sd sa sb : Reg), s.w.atLimit (flagOf c.fb) = false →
    let b := s.w.blk
    let k := s.blk b
    let took := fun (u : State) => u.onW fun w => w.addPend [] (flagOf c.fb) .counted
    (∀ qd : BitVec 3, UniIssues s p c g [.s sa.toNat, .s sd.toNat, .q qd.toNat] →
      let n := (s.w.S sa.toNat).toNat
      let free := (s.clu s.myClu).freeGranules
      1 ≤ n → n ≤ 32 →
      (∀ i, k.freeRun n = some i → (s.clu s.myClu).acq = [] → n ≤ free.length →
        ∃ t, exec (.acalloc g sd sa qd) s = .next t ∧ t.w.v = s.w.v ∧ t.w.S sd.toNat = BitVec.ofNat 32 i ∧ t.w.Q qd.toNat = true ∧
          t.w.blocked [.s sd.toNat] = false ∧
          ∀ j < n, ∀ x, free[j]? = some x → (t.blk b).gmap.get none (i + j) = some x ∧ (t.clu s.myClu).owner.get none x = some b ∧
            (t.clu s.myClu).invalid.get false x = false ∧ ∀ row col, row < 64 → col < 64 → t.acc.get 0 (4096 * (32 * s.myClu + x) + 64 * row + col) = 0) ∧
      (k.freeRun n = none →
        ∃ t, exec (.acalloc g sd sa qd) s = .next t ∧ t.w.v = s.w.v ∧ t.w.S sd.toNat = 0xFFFFFFFF ∧ (qd ≠ 7 → t.w.Q qd.toNat = false) ∧
          t.w.blocked [.s sd.toNat] = false ∧ (t.blk b).gmap = k.gmap) ∧
      ((k.freeRun n).isSome = true → ((s.clu s.myClu).acq ≠ [] ∨ free.length < n) →
        ∃ t q, exec (.acalloc g sd sa qd) s = .next t ∧ WarpWent s t 0 0 0 ∧ t.w.s = s.w.s ∧ t.w.blocked [.s sd.toNat] = true ∧
          (qd ≠ 7 → t.w.blocked [.q qd.toNat] = true) ∧ (t.clu s.myClu).acq = (s.clu s.myClu).acq ++ [q] ∧ q.warp = s.w.uid ∧ q.k = n)) ∧
    (UniIssues s p c g [.s sa.toNat, .s sb.toNat] →
      let first := (s.w.S sa.toNat).toNat
      let n := (s.w.S sb.toNat).toNat
      1 ≤ n → first + n ≤ 32 → (∀ j < n, (k.gmap.get none (first + j)).isSome = true) →
      IssuesTo (.acfree g sa sb) s (took (s.onBlk b fun k => { k with gmap := (List.range n).foldl (fun t j => t.del (first + j)) k.gmap }))) ∧
    (let x := (s.w.S sb.toNat).toNat
     let queued := fun (i : Instr) (kind : PortKind) (to_ gr r0 nr : Nat) (phys : List Nat) (dst : List RegRef) (reg : Nat) =>
       ∀ word, encode i = some word → ∃ t o, exec i s = .next t ∧ WarpWent s t 0 0 0 ∧ (t.blk b).oseq = k.oseq + 1 ∧ o.num = k.oseq + 1 ∧ o.seen = s.w.knows.mm ∧
         t.w.s = s.w.s ∧ Counts s t (BitVec.allOnes 16) (flagOf c.fb) ∧ Marks s t (BitVec.allOnes 16) dst ∧
         (t.clu s.myClu).port = (s.clu s.myClu).port ++ [o] ∧ o.kind = kind ∧ o.warp = s.w.uid ∧ o.blk = b ∧ o.pc = p.pc ∧ o.word = word ∧
         o.addr = BitVec.ofNat 64 to_ ∧ o.g = gr ∧ o.r0 = r0 ∧ o.nr = nr ∧ o.phys = phys ∧ o.sd = reg ∧ o.held = none
     (∀ to_ ph, x / 2 ^ 18 = 0 → x / 32 % 2 = 0 → x / 64 % 64 + x / 4096 % 64 ≤ 63 → k.gmap.get none (x % 32) = some ph →
       (s.w.SP sa.toNat).toNat % 4 = 0 → s.engineAddr (s.w.SP sa.toNat) = some to_ →
       (UniIssues s p c g (sPair sa ++ [.s sb.toNat] ++ [.s sd.toNat]) →
         queued (.acrd g sd sa sb) .acrd to_ (x % 32) (x / 64 % 64) (x / 4096 % 64 + 1) [ph] [.s sd.toNat] sd.toNat) ∧
       (UniIssues s p c g (sPair sa ++ [.s sb.toNat] ++ []) →
         queued (.acwr g sa sb) .acwr to_ (x % 32) (x / 64 % 64) (x / 4096 % 64 + 1) [ph] [] 0)) ∧
     (UniIssues s p c g [.s sb.toNat] → ∀ phys : List Nat, x / 1024 = 0 → x % 32 + (x / 32 + 1) ≤ 32 →
       (List.range (x / 32 + 1)).mapM (fun j => k.gmap.get none (x % 32 + j)) = some phys →
       queued (.aczero g sb) .aczero 0 (x % 32) 0 0 phys [] 0))

/-! ## Work and heaps (spec/13, spec/14) -/

/-- R276 to R281, R299, R300, R325 to R327: GROW raises the count and answers the old one, or all ones and false when the maximum is too small; SPAWN
submits a child launch, PKTRX takes a packet and FWD sends one; HALLOC and HFREE go to the allocator. Each counts in flag B. SPAWN and
PKTRX of a warp that is no porter are ILLEGAL; HALLOC with a selector that names no heap is the block fault HEAPBAD, and one
to a die that is cut off XLATE, which end the warp at its next boundary (R329).
The layout of the heap table is log 31, what goes over the fabric as packets log 44. -/
def Obligations.WorkAndHeaps : Prop :=
  ∀ (s : State) (p : Path) (c : Clause) (g : Guard) (sd sa sb : Reg) (qd : BitVec 3), s.w.atLimit (flagOf c.fb) = false →
    let b := s.w.blk
    let d := s.myDie
    let l := (s.blk b).launch
    let a := s.w.SP sa.toNat
    let took := fun (regs : List RegRef) (u : State) => u.onW fun w => w.addPend regs (flagOf c.fb) .counted
    let asked := fun (regs : List RegRef) (u : State) => u.onW fun w => w.addPend regs (flagOf c.fb) .unit
    let answers := fun (i : Instr) (u : State) (x : Word) => IssuesTo i s (took [.s sd.toNat] (u.onW fun w => w.setS sd.toNat x))
    let rel := s.release s.myCore 3
    (UniIssues s p c g [.s sa.toNat, .s sd.toNat, .q qd.toNat] →
      let n := rel.lpbOf (dcp d) l 20 4
      let top := n + (s.w.S sa.toNat).toNat
      let regs : List RegRef := [.s sd.toNat, .q qd.toNat]
      (rel.lpbOf (dcp d) l 24 4 < top →
        IssuesTo (.grow g sd sa qd) s (took regs (rel.onW fun w => (w.setS sd.toNat 0xFFFFFFFF).setQ qd.toNat false))) ∧
      (top ≤ rel.lpbOf (dcp d) l 24 4 →
        IssuesTo (.grow g sd sa qd) s
          (took regs (((rel.lpbSet (dcp d) l 20 4 top).ticketSwap d ((s.launch l).lpb.toNat + 16)).onW fun w =>
            (w.setS sd.toNat (BitVec.ofNat 32 n)).setQ qd.toNat true)))) ∧
    (UniIssues s p c g (sPair sa ++ [.s sd.toNat]) →
      let t := rel.takeLaunch d (rel.launch l).part a.toNat none none (some d) (some l) (some (rel.launch l).prio)
      (s.w.porter = true →
        (16 ≤ (rel.die d).spawns.length → answers (.spawn g sd sa) rel 2) ∧
        ((rel.die d).spawns.length < 16 → t.2.1 ≠ 0 → answers (.spawn g sd sa) t.2.2 1) ∧
        ((rel.die d).spawns.length < 16 → t.2.1 = 0 →
          answers (.spawn g sd sa) (t.2.2.onDie d fun y => { y with spawns := y.spawns ++ [t.1] }) 0)) ∧
      (s.w.porter = false → Handles s.w → ∀ x, encode (.spawn g sd sa) = some x →
        TrapsTo (.spawn g sd sa) s p 1 p.mask (x.setWidth 64) p.pc false)) ∧
    (let regs := ((List.range 16).map fun k => RegRef.s (sd.toNat + k)) ++ [.q qd.toNat]
     UniIssues s p c g regs →
      (s.w.porter = true →
        (∀ x t, (s.die d).mailbox = x :: t →
          IssuesTo (.pktrx g sd qd) s (took regs (((s.onDie d fun y => { y with mailbox := t }).acquire s.myCore 3).onW fun w =>
            ((List.range 16).foldl (fun w k => w.setS (sd.toNat + k) (x.words.getD k 0)) w).setQ qd.toNat true))) ∧
        ((s.die d).mailbox = [] →
          let last := decide (s.lpbOf (dcp d) l 16 4 = s.lpbOf (dcp d) l 20 4 ∧ s.lpbOf (dcp d) l 108 4 ≤ (s.launch l).portersLeft - s.portersAway l)
          IssuesTo (.pktrx g sd qd) s (took regs (s.onW fun w => (w.setS sd.toNat (if last = true then 1 else 0)).setQ qd.toNat false)))) ∧
      (s.w.porter = false → Handles s.w → ∀ x, encode (.pktrx g sd qd) = some x →
        TrapsTo (.pktrx g sd qd) s p 1 p.mask (x.setWidth 64) p.pc false)) ∧
    (UniIssues s p c g (((List.range 16).map fun k => .s (sa.toNat + k)) ++ [.s sb.toNat, .s sd.toNat]) → s.fwdOut s.w.uid s.w.cur = false →
      let to_ := (s.w.S sb.toNat).toNat
      let x : Packet := { words := (List.range 16).map fun k => s.w.S (sa.toNat + k), src := d, warp := s.w.uid, slot := s.w.cur,
                          sd := sd.toNat, tag := s.w.nextTag }
      ((200 ≤ to_ ∨ s.samePart d to_ = false) → answers (.fwd g sd sa sb) rel 2) ∧
      (s.samePart d d = true → to_ = d → d < 200 →
        IssuesTo (.fwd g sd sa sb) s ((asked [.s sd.toNat] rel).onDie d fun y => { y with fwdq := y.fwdq ++ [x] })) ∧
      (to_ < 200 → to_ ≠ d → s.samePart d to_ = true →
        ∃ t k, exec (.fwd g sd sa sb) s = .next t ∧ Passed (asked [.s sd.toNat] rel) t ∧ k ∈ (t.site (siteOf d)).waiting ∧ k.fwd = some x ∧
          k.src = siteOf d ∧ k.dst = siteOf to_ ∧ k.vc = vcRequest ∧ k.flits = 3)) ∧
    (∀ must : Bool,
      let i := if must then Instr.hallocF g sd sa qd else .halloc g sd sa qd
      let sel := s.w.S (sa.toNat + 2)
      let regs := sPair sd ++ [.q qd.toNat]
      UniIssues s p c g (sPair sa ++ [.s (sa.toNat + 2)] ++ sPair sd ++ [.q qd.toNat]) →
      (∀ idx home, s.heapOf d sel.toNat = some (idx, home) → (s.heapEntry d idx).1 ≠ 0 → s.dieReach d home = true →
        IssuesTo i s ((asked regs s).onDie home fun y => { y with heapq := y.heapq ++
          [{ warp := s.w.uid, tag := s.w.nextTag, pc := p.pc, free := false, heap := idx, size := a, sel := sel, must := must,
             sd := sd.toNat, qd := qd.toNat, p := 0 }] })) ∧
      (∀ idx home, s.heapOf d sel.toNat = some (idx, home) → (s.heapEntry d idx).1 ≠ 0 → s.dieReach d home = false → (s.blk b).fault = none →
        s.w.uid ∈ (s.blk b).warps → ∃ t x, exec i s = .next t ∧ t.w.winding = true ∧ (t.blk b).fault = some x ∧ x.code = 3 ∧ x.pc = p.pc) ∧
      ((∀ idx home, s.heapOf d sel.toNat = some (idx, home) → (s.heapEntry d idx).1 = 0) → (s.blk b).fault = none →
        s.w.uid ∈ (s.blk b).warps → ∃ t x, exec i s = .next t ∧ t.w.winding = true ∧ t.w.v = s.w.v ∧ t.w.s = s.w.s ∧
          (t.blk b).fault = some x ∧ x.code = 7 ∧ x.pc = p.pc ∧ x.info.toNat = sel.toNat)) ∧
    (UniIssues s p c g (sPair sa) →
      (a = 0 → IssuesTo (.hfree g sa) s (took [] s)) ∧
      (a ≠ 0 → rel.dieReach d (((rel.heapHolding d a.toNat).map (·.2.1)).getD d) = true → ∃ t q r, exec (.hfree g sa) s = .next t ∧ t.w.v = s.w.v ∧ t.w.s = s.w.s ∧ bare t.w = bare s.w ∧
        Counts s t (BitVec.allOnes 16) (flagOf c.fb) ∧ t.w.path = some q ∧ Wait.hfree s.w.nextTag ∈ q.waits ∧
        r ∈ (t.die (((rel.heapHolding d a.toNat).map (·.2.1)).getD d)).heapq ∧ r.free = true ∧ r.p = a ∧ r.tag = s.w.nextTag ∧ r.warp = s.w.uid))

/-! ## Tree barriers, the latency table and observation (spec/16, spec/20) -/

/-- R337, R338, R341 to R343, R346: the tree barrier words of a warp whose launch holds the barrier, by what its cluster has seen of the root's
releases: TBARRIVE arrives, or waits where it stands while the warp's arrival before it is not released; TBARWAIT writes the status at once,
or waits with its register pending; TBARST writes the status. For a barrier that the launch does not hold they are ILLEGAL. BLT writes the
bands of R336.
From when a gang holds its barriers is log 39. -/
def Obligations.TreeBarriersAndLatencies : Prop :=
  ∀ (s : State) (p : Path) (c : Clause) (g : Guard) (tb : BitVec 3) (sd sa sb : Reg),
    let l := (s.blk s.w.blk).launch
    let t := s.treeSeen (s.launch l).part tb.toNat s.myClu
    let waits := decide (t.phase < s.w.tbArr.get 0 tb.toNat)
    let status := (t.phase % 65536) * 65536 + (t.nret % 256) * 256 + (if t.mret = true then 4 else 0) + (if waits = true then 2 else 0)
    let held := (s.tbmOf s.myDie l).contains tb.toNat
    (UniIssues s p c g [] →
      (held = true → waits = false →
        ∃ u, exec (.tbarrive g tb) s = .next u ∧ u.w.a = s.w.advance.a ∧ u.w.b = s.w.advance.b ∧ u.w.v = s.w.v ∧ u.w.p = s.w.p ∧
          u.w.s = s.w.s ∧ u.w.q = s.w.q ∧ u.w.f = s.w.f ∧ u.w.tbArr.get 0 tb.toNat = t.phase + 1 ∧
          (∀ k, k ≠ tb.toNat → u.w.tbArr.get 0 k = s.w.tbArr.get 0 k) ∧ (u.tree (s.launch l).part tb.toNat).phase = (s.tree (s.launch l).part tb.toNat).phase) ∧
      (held = true → waits = true → s.w.winding = false →
        ∃ u, exec (.tbarrive g tb) s = .next u ∧ u = { s with w := { s.w with stalled := true, why := u.w.why } }) ∧
      (held = false → Handles s.w → ∀ x, encode (.tbarrive g tb) = some x →
        TrapsTo (.tbarrive g tb) s p 1 p.mask (x.setWidth 64) p.pc false)) ∧
    (UniIssues s p c g [.s sd.toNat] → held = false → Handles s.w → ∀ i ∈ [Instr.tbarst g sd tb, .tbarwait g sd tb], ∀ x, encode i = some x →
      TrapsTo i s p 1 p.mask (x.setWidth 64) p.pc false) ∧
    (UniIssues s p c g [.s sd.toNat] → held = true →
      UniComputes (.tbarst g sd tb) s .w32 sd status ∧
      (waits = false → IssuesTo (.tbarwait g sd tb) s ((s.acquire s.myCore 3).onW fun w =>
        (w.setS sd.toNat (BitVec.ofNat 32 status)).addPend [.s sd.toNat] none .timed)) ∧
      (waits = true → ∃ u q, exec (.tbarwait g sd tb) s = .next u ∧ Quiet s u ∧ u.w.v = s.w.v ∧ u.w.s = s.w.s ∧ bare u.w = bare s.w ∧
        u.w.blocked [.s sd.toNat] = true ∧ u.w.path = some q ∧
        Wait.tbar tb.toNat (s.w.tbArr.get 0 tb.toNat) sd.toNat s.w.nextTag ∈ q.waits)) ∧
    (UniIssues s p c g ([.s sa.toNat, .s sb.toNat] ++ (List.range 4).map fun k => .s (sd.toNat + k)) →
      let die := fun (r : Reg) => if s.w.S r.toNat = 0xFFFFFFFF then s.myDie else (s.w.S r.toNat).toNat
      let inside := fun (r : Reg) => die r < 200 ∧ s.samePart s.myDie (die r) = true
      let dist := s.routed (die sa) (die sb)
      let writes := fun (w0 w1 w2 w3 : Word) => ∃ u, exec (.blt g sd sa sb) s = .next u ∧ Quiet s u ∧ WarpWent s u 0 0 0 ∧ u.w.v = s.w.v ∧
        u.w.f = s.w.f ∧ u.w.S sd.toNat = w0 ∧ u.w.S (sd.toNat + 1) = w1 ∧ u.w.S (sd.toNat + 2) = w2 ∧ u.w.S (sd.toNat + 3) = w3 ∧
        ∀ r, r < sd.toNat ∨ sd.toNat + 4 ≤ r → u.w.S r = s.w.S r
      (¬ (inside sa ∧ inside sb) → writes 0xFFFFFFFF 0 0 0) ∧
      ∀ near far low high, (near, far, low, high) ∈ [(0, 0, 18, 60), (1, 2, 64, 120), (3, 8, 96, 250), (9, 18, 200, 460), (19, 38, 380, 880)] →
        ∀ band skew, (near, band) ∈ [(0, 0), (1, 1), (3, 2), (9, 3), (19, 4)] →
          (∃ lo hi, (lo, hi, skew) ∈ [(0, 0, 1), (1, 2, 3), (3, 8, 6), (9, 18, 12), (19, 38, 20)] ∧
            lo ≤ manhattan (die sa) (die sb) ∧ manhattan (die sa) (die sb) ≤ hi) →
        inside sa → inside sb → near ≤ dist → dist ≤ far →
          writes (BitVec.ofNat 32 (dist * 65536 + band)) (BitVec.ofNat 32 low) (BitVec.ofNat 32 high) (BitVec.ofNat 32 skew))

/-- R367 to R373: CNTR reads a counter or its shadow with the wrap bit, and all ones for an identifier that names none. SNAP asks for a
snapshot. SKINC adds to the four rows of a sketch, saturating, or counts a drop while the sketch is frozen. -/
def Obligations.CountersAndSketches : Prop :=
  ∀ (s : State) (p : Path) (c : Clause) (g : Guard) (sd sa sb : Reg),
    let d := s.myDie
    (UniIssues s p c g (.s sa.toNat :: sPair sd) →
      let id := s.w.S sa.toNat
      let level := (id.extractLsb' 30 2).toNat
      let idx := (id.extractLsb' 0 4).toNat
      let unit := if level = 0 then s.myCore else if level = 1 then s.myClu else d
      let k := s.counters.get Counter.off (level * 2 ^ 40 + 16 * unit + idx)
      let known := level < 3 ∧ id &&& 0x3F7FFFF0 = 0 ∧ idx < (if level = 0 then 4 else if level = 1 then 8 else 16)
      let wrap := if id.getLsbD 23 then k.swrap else k.wrap
      (¬ known → UniComputes (.cntr g sd sa) s .w64 sd (2 ^ 64 - 1)) ∧
      (known → UniComputes (.cntr g sd sa) s .w64 sd
        ((if id.getLsbD 23 then k.shadow else k.value).toNat + wrap.toNat * 2 ^ 48))) ∧
    (UniIssues s p c g (sPair sa ++ [.s sd.toNat]) → s.w.atLimit (flagOf c.fb) = false →
      let at_ := (s.w.SP sa.toNat).toNat
      let part := (s.launch (s.blk s.w.blk).launch).part
      let answers := fun (x : Word) => IssuesTo (.snap g sd sa) s (s.onW fun w => (w.setS sd.toNat x).addPend [.s sd.toNat] (flagOf c.fb) .counted)
      (at_ < s.tick d + 4000 → answers 1) ∧
      (s.tick d + 4000 ≤ at_ → (s.part part).snap.isSome = true → answers 2) ∧
      (s.tick d + 4000 ≤ at_ → (s.part part).snap = none → ∃ t, exec (.snap g sd sa) s = .next t ∧ WarpWent s t 0 0 0 ∧
        t.w.S sd.toNat = 0 ∧ (t.part part).snap = some at_ ∧ ∀ x < 200, s.partOf x = some part → (t.die x).snap = some at_)) ∧
    (UniIssues s p c g (sPair sa ++ [.s sb.toNat]) → ∀ kn : Bool,
      let i := if kn then Instr.skincKn g sa sb else .skincPc g sa sb
      let k := kn.toNat
      let x := (s.w.SP sa.toNat).toNat
      let n := (s.w.S sb.toNat).toNat
      let mult := [0x9E3779B97F4A7C15, 0xC2B2AE3D27D4EB4F, 0x165667B19E3779F9, 0xD6E8FEB86659FD93]
      let plus := [0x27D4EB2F165667C5, 0x85EBCA77C2B2AE63, 0x94D049BB133111EB, 0xBF58476D1CE4E5B9]
      (n = 0 → IssuesTo i s s) ∧
      (n ≠ 0 → (s.die d).skFreeze.get false k = false → ∃ t, exec i s = .next t ∧ WarpWent s t 0 0 0 ∧ t.w.s = s.w.s ∧ t.w.f = s.w.f ∧
        (t.die d).skN.get 0 k = (s.die d).skN.get 0 k + BitVec.ofNat 64 n ∧
        ∀ row < 4, ∀ col < 2048, ((t.die d).sketch.get 0 (8192 * k + 2048 * row + col)).toNat =
          min (((s.die d).sketch.get 0 (8192 * k + 2048 * row + col)).toNat +
            (if (mult.getD row 0 * x + plus.getD row 0) % 2 ^ 64 / 2 ^ 53 = col then n else 0)) (2 ^ 32 - 1)) ∧
      (n ≠ 0 → (s.die d).skFreeze.get false k = true → ∃ t, exec i s = .next t ∧ WarpWent s t 0 0 0 ∧ t.w.s = s.w.s ∧
        (t.die d).sketch = (s.die d).sketch ∧
        ((t.die d).skDropped.get 0 k).toNat = min (((s.die d).skDropped.get 0 k).toNat + 1) (2 ^ 32 - 1)))

/-! ## Tack words (spec/21) -/

/-- R399 to R405: loading, arming, disarming, reading and polling an automaton of the issuing die, and TKEMIT. -/
def Obligations.TackWords : Prop :=
  ∀ (s : State) (p : Path) (c : Clause) (g : Guard) (sd sa : Reg) (tk cn : BitVec 2),
    let n := 4 * s.myDie + tk.toNat
    let x := s.tack n
    let a := s.w.SP sa.toNat
    let took := fun (u : State) (st : Nat) => u.onW fun w => (w.setS sd.toNat (BitVec.ofNat 32 st)).addPend [.s sd.toNat] (flagOf c.fb) .counted
    (UniIssues s p c g (sPair sa ++ [.s sd.toNat]) → s.w.atLimit (flagOf c.fb) = false →
      let loads := fun (u : State) (st : Nat) => IssuesTo (.tkload g sd sa tk) s (took u st)
      let free := x.run = .unloaded ∨ x.run = .idle
      (¬ free → loads s 3) ∧
      (free → a = 0 → loads ((s.releaseFilters n).onTack n fun t => { t with run := .unloaded, image := [] }) 0) ∧
      (free → a ≠ 0 → a.toNat % 64 ≠ 0 → loads s 1) ∧
      (free → a ≠ 0 → a.toNat % 64 = 0 → ∀ locs,
        let u := s.acquire s.myCore 3
        u.reach s.myCore (u.blk s.w.blk) a.toNat 1600 .load true = .ok locs → u.severedLane .load locs = false →
          u.poisonedLanes [⟨0, a, .ok locs⟩] true = none →
        let r := (u.laneWalks (globalPages a.toNat 1600) .load).readLocs s.myCore false locs
        let y := r.2.loadImage n r.1
        loads y.2 y.1 ∧ (imageBad r.1 = true → y.1 = 1 ∧ y.2 = r.2) ∧
          (y.1 = 0 → y.2.tack n = { x with run := .idle, image := r.1 }))) ∧
    (UniIssues s p c g [.s sd.toNat] → s.w.atLimit (flagOf c.fb) = false → ∀ prime : Bool,
      let i := if prime then Instr.tkarmP g sd tk else .tkarm g sd tk
      (x.run = .unloaded → IssuesTo i s (took s 1)) ∧
      ((x.run = .primed ∨ x.run = .armed) → IssuesTo i s (took s 2)) ∧
      ((x.run = .idle ∨ x.run = .lost) → ∃ t, exec i s = .next t ∧ WarpWent s t 0 0 0 ∧ t.w.S sd.toNat = 0 ∧
        let y := t.tack n
        y.run = (if prime then .primed else .armed) ∧ y.image = x.image ∧ y.state = bits (ofBytes (x.image.take 8)) 48 4 ∧
          (∀ k, y.c.get 0 k = 0) ∧ y.timer 0 = none ∧ y.timer 1 = none ∧ y.hem = [] ∧ y.queue = [] ∧ y.flags = 0 ∧ y.coincide = false ∧
          y.acc = false ∧ y.full = false ∧ y.lostCause = 0 ∧ y.offset = 0 ∧ y.armTick = s.tick s.myDie ∧ y.window = s.windowOf n)) ∧
    (UniIssues s p c g [] → ∃ t, exec (.tkdisarm g tk) s = .next t ∧ WarpWent s t 0 0 0 ∧ t.w.s = s.w.s ∧ t.w.f = s.w.f ∧
      t.tack n = (if x.run = .unloaded ∨ x.run = .idle then x else { x with run := .idle, hem := [], queue := [] })) ∧
    (UniIssues s p c g ((List.range 4).map fun k => .s (sd.toNat + k)) → ∃ t, exec (.tkstat g sd tk cn) s = .next t ∧ WarpWent s t 0 0 0 ∧
      Quiet s t ∧ t.w.f = s.w.f ∧ (∀ r, r < sd.toNat ∨ sd.toNat + 4 ≤ r → t.w.S r = s.w.S r) ∧
      t.w.S (sd.toNat + 1) = x.c.get 0 cn.toNat ∧ t.w.SP (sd.toNat + 2) = BitVec.ofNat 64 x.lastStep ∧
      let y := (t.w.S sd.toNat).toNat
      bits y 29 3 = x.run.code ∧ bits y 27 2 = x.lostCause % 4 ∧ bits y 26 1 = x.coincide.toNat ∧ bits y 25 1 = x.acc.toNat ∧
        bits y 24 1 = x.full.toNat ∧ bits y 20 4 = x.state % 16 ∧ bits y 12 8 = x.flags % 256 ∧ bits y 11 1 = (x.timer 1).isSome.toNat ∧
        bits y 10 1 = (x.timer 0).isSome.toNat ∧ bits y 7 3 = 0 ∧ bits y 0 7 = min x.queue.length 127) ∧
    (UniIssues s p c g [.s sd.toNat] → UniComputes (.tkpoll g sd tk) s .w32 sd (x.flags % 256) ∧
      ∃ t, exec (.tkpollC g sd tk) s = .next t ∧ WarpWent s t 0 0 0 ∧ t.w.S sd.toNat = BitVec.ofNat 32 (x.flags % 256) ∧ t.w.f = s.w.f ∧
        t.tack n = { x with flags := 0 }) ∧
    (UniIssues s p c g (sPair sa) → IssuesTo (.tkemit g sa) s s ∧
      ∀ f seq, (s.blk s.w.blk).begun = true → f.owner / 4 = s.myDie →
        let e : Event := { type := 0xB0, die := s.myDie, clu := s.myClu % 324, core := s.myCore % 16, warp := s.w.uid % 16, seq := seq,
                           tick := s.tick s.myDie, payload := a }
        s.matching s.myDie { e with seq := 0 } = [f] → (s.die s.myDie).seqs.get 0 (9 * 2 ^ 20 + e.index) = seq →
          ∃ t, exec (.tkemit g sa) s = .next t ∧ t.evq = s.evq ++ [(f.owner, { ev := e, mask := 2 ^ f.num, timer := none })] ∧
            (t.die s.myDie).seqs.get 0 (9 * 2 ^ 20 + e.index) = (seq + 1) % 65536)

/-! ## Stream words (spec/11) -/

/-- R27, R203, R207, R209, R241 to R252, R257: the words of the two streams. MCFG, MWLOAD, MMUL, MSTORE and the copies begin an engine operation with what stands
in the handles now, and the stream goes on; a barrier word arrives once the stream's operations are performed; MEND and CEND end the
stream. A copy begins when the copy engine takes the stream's command. A word that is none of the stream's halts it, and a warp takes
ILLEGAL on every stream word. Until then a word waits in place.
The waiting of a stream word is log 17, the round of the copy engine's eight sources log 36. -/
def Obligations.StreamWords : Prop :=
  ∀ (s : State) (b : Nat),
    let c := b / 4
    let k := s.blk b
    let x := s.clu c
    let pc := k.m.pc
    let on := fun (matrix : Bool) => s.focus = (if matrix then .matrix b else .copy b) ∧ s.streamGoes b matrix = true
    let next := fun (matrix : Bool) (u : State) => u.onBlk b fun k =>
      if matrix then { k with m := { k.m with pc := k.m.pc + 4, word := none } } else { k with c := { k.c with pc := k.c.pc + 4, word := none } }
    let begins := fun (era : Nat) (op : EngOp) => s.onClu c fun x =>
      { x with engs := x.engs ++ [Eng.new x.nextTag era op], nextTag := x.nextTag + 1 }
    let mine := s.matrixOps b
    let bound := fun (h : BitVec 5) (hd : Handle) => k.handles.get none h.toNat = some hd ∧ recordError (some hd) = none
    (on true → (∃ e ∈ mine, e.op.config = true ∨ e.held.isSome = true) →
      ∀ shape h a gr m fmt ov r cc, ∀ i ∈ [Instr.mcfg shape, .mwload h a, .mmul h gr m a fmt ov, .mstore h gr r cc], exec i s = .next s) ∧
    (on true → (∀ e ∈ mine, e.op.config = false ∧ e.held = none) →
      (∀ shape, HappensAs (.mcfg shape) s (next true (begins k.m.era (.mcfg b shape)))) ∧
      (∀ h a hd word, bound h hd → hd.tlr.fmt ∈ [1, 2, 3] → (x.shape = .q4 ∨ a = 0) → encode (.mwload h a) = some word →
        HappensAs (.mwload h a) s (next true (begins k.m.era (.mwload b pc word h.toNat hd a.toNat)))) ∧
      ((∀ h gr m a fmt ov hd w phys, mmulBusy x.shape a.toNat mine = false → bound h hd → (x.shape = .q4 ∨ a = 0) →
          x.weights.get none a.toNat = some w → hd.tlr.fmt = (match fmt with | .bf16 => 1 | .dm8 => 2 | .mx8 => 3) →
          (hd.tlr.fmt = 1 ↔ w.fmt = 1) → k.granuleRun gr.toNat ((m.toNat + 64) / 64) = .inl phys → (hd.kTag hd.colDim).equal w.tag = true →
          ∃ t e op, exec (.mmul h gr m a fmt ov) s = .next t ∧ t.w = s.w ∧ ((∀ g ∈ phys, x.gread.get [] g = []) → t.mem = s.mem) ∧
            (t.blk b).m = { k.m with pc := pc + 4, word := none } ∧
            (t.clu c).engs = x.engs ++ [e] ∧ e.op = .mmul op ∧ e = Eng.new x.nextTag k.m.era e.op ∧ op.blk = b ∧ op.pc = pc ∧ op.h = hd ∧ op.g = gr.toNat ∧
            op.phys = phys ∧ op.rows = m.toNat + 1 ∧ op.total = m.toNat + 1 ∧ op.sub = a.toNat ∧ op.ov = ov ∧ op.shape = x.shape ∧
            op.wts = w ∧ op.entered = 0 ∧ op.written = 0 ∧ op.row = none) ∧
        (∀ h gr r cc hd phys, bound h hd → hd.tlr.fmt ≤ 1 → hd.tlr.bcode = 0 → k.granuleRun gr.toNat ((r.toNat + 64) / 64) = .inl phys →
          ∀ word, encode (.mstore h gr r cc) = some word →
          ∃ t e n, exec (.mstore h gr r cc) s = .next t ∧ t.w = s.w ∧ ((∀ g ∈ phys, x.gread.get [] g = []) → t.mem = s.mem) ∧
            (t.blk b).m = { k.m with pc := pc + 4, word := none } ∧
            (t.clu c).engs = x.engs ++ [e] ∧ e = Eng.new x.nextTag k.m.era e.op ∧
            e.op = .mstore b pc word h.toNat hd gr.toNat phys (r.toNat + 1) (cc.toNat + 1) n))) ∧
    (∀ (matrix wait : Bool) (nb : BitVec 4) (e : BitVec 9), on matrix → s.streamOps b matrix = [] → k.errMode = false →
      let i := if matrix then (if wait then Instr.mbarw nb e else .mbara nb e) else if wait then .cbarW nb e else .cbar nb e
      let r := k.bars.get Bar.fresh nb.toNat
      let after := fun (t : State) => (t.blk b).bars.get Bar.fresh nb.toNat
      let str := fun (t : State) => if matrix then (t.blk b).m else (t.blk b).c
      let agrees := (r.arrivals = 0 ∨ e.toNat = r.expect) ∧ 0 < e.toNat ∧ e.toNat ≤ 258
      (agrees → r.arrivals + 1 < e.toNat → ∃ t, exec i s = .next t ∧ t.w = s.w ∧ t.mem = s.mem ∧ (after t).phase = r.phase ∧
        (after t).arrivals = r.arrivals + 1 ∧ (after t).expect = e.toNat ∧
        str t = { str s with pc := (str s).pc + 4, word := none, wait := if wait then some (nb.toNat, r.phase) else none }) ∧
      (agrees → e.toNat ≤ r.arrivals + 1 → ∃ t, exec i s = .next t ∧ (after t).phase = r.phase + 1 ∧ (after t).arrivals = 0 ∧
        (after t).err = false ∧ str t = { str s with pc := (str s).pc + 4, word := none, wait := none, knows := (str t).knows }) ∧
      (¬ agrees → k.fault = none → ∃ t y, exec i s = .next t ∧ (t.blk b).fault = some y ∧ y.code = 4 ∧ (t.blk b).bars = k.bars)) ∧
    (∀ (matrix wait : Bool) (nb : BitVec 4) (e : BitVec 9), on matrix → s.streamOps b matrix ≠ [] →
      exec (if matrix then (if wait then Instr.mbarw nb e else .mbara nb e) else if wait then .cbarW nb e else .cbar nb e) s = .next s ∧
      exec (if matrix then .mend else .cend) s = .next s) ∧
    (∀ matrix : Bool, on matrix → s.streamOps b matrix = [] → k.met = [] →
      HappensAs (if matrix then .mend else .cend) s (s.onBlk b fun k =>
        if matrix then { k with m := { k.m with st := .ended, word := none } } else { k with c := { k.c with st := .ended, word := none } })) ∧
    (on false → s.copyOps b ≠ [] ∨ s.copyTakes c (2 * (b % 4)) = false →
      ∀ sr dr r q, exec (.ccpyPlain sr dr r) s = .next s ∧ exec (.ccpyCvt sr dr r q) s = .next s) ∧
    (on false → s.copyOps b = [] → s.copyTakes c (2 * (b % 4)) = true → ∀ sr dr r hs hd word, bound sr hs → bound dr hd →
      let takes := fun (op : EngOp) => next false ((begins k.c.era op).onClu c fun x => { x with copyNext := (2 * (b % 4) + 1) % 8 })
      let op := fun (kind : CopyKind) => EngOp.copy { blk := b, pc := k.c.pc, word := word, h := sr.toNat, src := hs, kind := kind, rack := none, warp := 0 }
      (hs.tlr.fmt = hd.tlr.fmt → encode (.ccpyPlain sr dr r) = some word →
        HappensAs (.ccpyPlain sr dr r) s (takes (op (.ccpy hd (r.toNat + 1))))) ∧
      ∀ q : BitVec 3,
        let seed := k.hs.get SeedReg.fresh q.toNat
        q.toNat < k.seeds → hs.tlr.fmt ≤ 1 → hd.tlr.fmt ∈ [2, 3] → hd.cvtMisaligned (r.toNat + 1) = false →
        hd.tlr.bcode ≠ 0 → bOfCode hd.tlr.bcode = rotSize seed.b → hd.tlr.s0 = seed.s0 → encode (.ccpyCvt sr dr r q) = some word →
        HappensAs (.ccpyCvt sr dr r q) s (takes (op (.cvt hd (r.toNat + 1) seed)))) ∧
    (∀ (matrix : Bool) (word : Word), on matrix → k.met = [] → ∃ t, exec (.illFormedStreamWord word) s = .next t ∧ t.w.v = s.w.v ∧
      (if matrix then (t.blk b).m else (t.blk b).c).st = .halted ∧ (t.blk b).errMode = true ∧ (t.blk b).errors = k.errors + 1) ∧
    (∀ i word p, encode i = some word → 0xE0 ≤ word.toNat / 2 ^ 24 → word.toNat / 2 ^ 24 ≤ 0xEA → s.focus = .warp → s.w.path = some p →
      p.clause.isSome = true → Handles s.w → TrapsTo i s p 1 p.mask (word.setWidth 64) p.pc false)

/-! ## Events of warps and cores (spec/03, spec/09) -/

/-- R17, R52, R54, R144, R168, R181, R184, R187: the completion of an operation, with what is left of its accesses, the refill of the
divergence stack, the swap of a warp that has waited at its boundary, the guard against starvation, and the load cap's window, which closes in
the last cycle of every 1,024.
SEAMOVF at completion is log 24. -/
def Obligations.WarpEvents : Prop :=
  ∀ (s : State),
    (∀ u tag x, (s.warp u).pend.find? (·.tag == tag) = some x → x.kind = .counted →
      Reaches (.flagOperationComplete u tag) s fun t => (∀ v, v ≠ u → t.warp v = s.warp v) ∧
        (t.warp u).pend = (s.warp u).pend.filter (·.tag != tag) ∧
        (∀ k, (t.warp u).f.get 0 k = (s.warp u).f.get 0 k - (if x.flag = some k then 1 else 0)) ∧
        (t.warp u).parts = (s.warp u).parts.filter (fun y => !(y.tag == some tag)) ∧
        ((∀ y ∈ (s.warp u).parts, y.tag ≠ some tag) → t.mem = s.mem ∧
          { t.warp u with pend := [], f := [] } = { s.warp u with pend := [], f := [] })) ∧
    (∀ tag x, s.w.pend.find? (·.tag == tag) = some x → x.kind = .timed → x.flag = none →
      let u := s.onW fun w => { w with pend := w.pend.filter (·.tag != tag) }
      let v := u.onW fun w => { w with seam := w.seam ||| 0x100 }
      (x.ovf = 0 → exec (.resultWritten s.w.uid tag) s = .next u) ∧
      (x.ovf ≠ 0 → s.w.seam.getLsbD 9 = false → exec (.resultWritten s.w.uid tag) s = .next v) ∧
      (x.ovf ≠ 0 → s.w.seam.getLsbD 9 = true → s.w.ended = false → Handles s.w → ∀ p, s.w.path = some p →
        Reaches (.resultWritten s.w.uid tag) s fun t => Trapped v t p 6 x.ovf 0 p.pc false false)) ∧
    (let depth := s.w.below - 1
     (∀ locs e, s.w.stk.length < 4 → 0 < s.w.below → s.w.recHold = false → s.spillReach depth .load = .ok locs →
        Entry.ofRecord (s.readLocs s.myCore false locs).1 = some e →
        Reaches (.spillRefill s.w.uid) s fun t => t.w.stk = s.w.stk ++ [e.without (s.w.leaving depth)] ∧ t.w.below = depth ∧ t.w.a = s.w.a ∧
          t.w.b = s.w.b ∧ t.w.v = s.w.v ∧ t.w.s = s.w.s ∧ t.w.updates = s.w.updates.filter (·.depth != depth)) ∧
      ((4 ≤ s.w.stk.length ∨ s.w.below = 0) → exec (.spillRefill s.w.uid) s = .next s)) ∧
    (∀ core out, coreOf out = core → (s.warp out).placed = true → (s.warp out).ended = false → (s.warp out).active = true →
      (s.warp out).swappable = true →
      (32 < (s.warp out).waitCount → (s.core core).swapFree ≤ s.cycle →
        (∀ x ∈ s.resident core, x ≠ out → (s.warp x).active = true → (s.warp x).swappable = true → (s.warp x).waitCount ≠ (s.warp out).waitCount) →
        (s.nextIn core).isSome = true → let u := s.settled out
        ∀ v, u.nextIn core = some v → Reaches (.warpSwap core out) s fun t => t.mem = u.mem ∧ (t.core core).swapFree = u.cycle + 2 ∧
          ∀ x, t.warp x = { u.warp x with active := if x = out then false else if x = v then true else (u.warp x).active
                                          yieldSwap := if x = out then false else (u.warp x).yieldSwap }) ∧
      ((s.warp out).waitCount ≤ 32 → exec (.warpSwap core out) s = .next s)) ∧
    (∀ u, (s.warp u).placed = true → (s.warp u).ended = false → (s.warp u).active = true → 1024 ≤ (s.warp u).readyCount →
      (∀ v ∈ s.resident (coreOf u), (s.warp v).active = true → (s.warp v).readyCount ≤ (s.warp u).readyCount) →
      exec (.starvationGuard u) s = .next { s with sched := .issue u :: s.sched }) ∧
    ∀ core, (s.cycle % 1024 ≠ 1023 → exec (.loadCapWindow core) s = .next s) ∧ (s.cycle % 1024 = 1023 →
      Reaches (.loadCapWindow core) s fun t => Aside s t ∧ (t.core core).hits = 0 ∧
      let cap := (s.core core).loadCap
      (t.core core).loadCap = if s.carve core = 0 then 8 else if 16 < (s.core core).hits then max 2 (cap - 1)
        else if (s.core core).hits < 4 then min 8 (cap + 1) else cap)

/-! ## Events of a cluster (spec/10, spec/11) -/

/-- R203, R211, R213, R214, R218, R233 to R239, R245 to R248, R250, R251, R253, R312: what the copy engine, the granule allocator, the
accumulator port, the matrix engine and the power gate of a cluster do on their own. The copy engine takes the command of the first source
in its round that wants one; a copy of each kind writes what it has fetched; an operation goes on from where it was held.
The round of the copy engine is log 36, that granules are granted from the lowest free one log 92; that they hold zeros once power has gone is
the model's, beside R218's loss of contents (log 92); that all the blocks dispatched to a cluster that wakes are placed as it has woken is log 98. -/
def Obligations.ClusterEvents : Prop :=
  ∀ (s : State) (c : Nat),
    let x := s.clu c
    (∀ src r, s.copyFree c = true → (s.copyOrder c).find? (s.copyWants c) = some src → src % 2 = 1 →
      x.nextCpy (4 * c + src / 2) x.cpyWait [] = some r →
      let k := s.rackOf c r.rk
      Reaches (.cpyAccept c) s fun t => t.mem = s.mem ∧ r ∉ (t.clu c).cpyWait ∧ (t.clu c).copyNext = (src + 1) % 8 ∧
        (t.rackOf c r.rk).ic = k.ic + 1 ∧ (t.rackOf c r.rk).fc = k.fc ∧ (t.rackOf c r.rk).lc = k.lc ∧
        ∃ op, (t.clu c).engs = x.engs ++ [Eng.new x.nextTag 0 (.copy op)] ∧ op.blk = r.blk ∧ op.rack = some (r.rk, k.ic) ∧ op.h = r.h ∧
          op.warp = r.warp) ∧
    (s.copyFree c = false → exec (.cpyAccept c) s = .next s) ∧
    (∀ tag e op, x.engs.find? (·.tag == tag) = some e → e.op = .copy op → e.held = none →
      let blk := s.blk op.blk
      let h := op.src
      let z := elemSize h.tlr.fmt
      let slot := match op.rack with
        | some (rk, n) => ((s.rackOf c rk).slotAddr n, 128 * (s.rackOf c rk).size)
        | none => (0, 0)
      let copies := fun (cols : Nat) (left : Fetched → List Nat) (r : Acc Unit × Fetched × State) (runs : Fetched → List (Nat × List Byte)) =>
        ∀ f u k v, Fetches s c op.blk e h cols left r f u →
        u.engStores c (u.blk op.blk) e.wrote (runs f) = (.ok (), k, v) →
        Reaches (.copyPerformed c tag) s fun t => t.mem = v.mem ∧ (∀ g ∈ (t.clu c).engs, g.tag ≠ tag) ∧
          ∀ rk n, op.rack = some (rk, n) → n = (v.rackOf c rk).fc → n ≠ (v.rackOf c rk).ic → (∃ y ∈ (v.rackOf c rk).copies, y.num = n) →
            1 ≤ ((t.rackOf c rk).fc - n).toNat ∧ (t.rackOf c rk).ic = (v.rackOf c rk).ic
      (∀ rows cols, op.kind = .plain rows cols → recordError (some h) = none → rows * cols * z ≤ slot.2 →
        copies cols (fun f => (List.range (rows * cols)).drop f.vals.length) (s.fetchTile c blk h true 0 rows cols e.got) fun f => [(slot.1, f.values.flatMap fun v => bytesOf z v)]) ∧
      (∀ mx sat at_, op.kind = .sealing mx sat → recordError (some h) = none → h.tlr.tp = true → h.atTrailer = true → h.inside 0 0 = some at_ →
        let r := s.tileCodes c blk h.tlr at_ e.got.vals
        copies 64 (fun _ => []) (r.1, { e.got with vals := r.2.1 }, r.2.2) fun f =>
          let y := trailerBytes mx.toNat sat.toNat (crc32c (codeBytes f.vals)) h.tlr.fmt
          [(h.tlr.trailerAddr at_, y), (slot.1, y)]) ∧
      (∀ d rows, op.kind = .ccpy d rows →
        copies 64 (fun f => (List.range (rows * 64)).drop f.vals.length) (s.fetchTile c blk h true 0 rows 64 e.got) fun f => tileRuns d rows fun p =>
          Tbl.get 0 ((f.values.zip (List.range f.values.length)).map fun q => (q.2, q.1)) p) ∧
      ∀ d rows q, op.kind = .cvt d rows q →
        copies 64 (fun f => (List.range (rows * 64)).drop f.vals.length) (s.fetchTile c blk h false 0 rows 64 e.got) fun f =>
          let ys := cvtReals d rows q f.values
          let codes := cvtCodes d rows ys
          tileRuns d rows (fun p => (codes.1.get (0, false) p).1) ++ codes.2 ++ cvtTrailers d rows ys codes.1) ∧
    (∀ r rest, x.acq = r :: rest →
      (∀ i, (s.blk r.blk).freeRun r.k = some i → r.k ≤ x.freeGranules.length → Reaches (.acallocGrant c) s fun t => t.mem = s.mem ∧
        (t.clu c).acq = rest ∧ (t.warp r.warp).S r.sd = BitVec.ofNat 32 i ∧ (t.warp r.warp).Q r.qd = true ∧
        ∀ j < r.k, ∀ g, x.freeGranules[j]? = some g → (t.blk r.blk).gmap.get none (i + j) = some g ∧ (t.clu c).owner.get none g = some r.blk) ∧
      (∀ i, (s.blk r.blk).freeRun r.k = some i → x.freeGranules.length < r.k → exec (.acallocGrant c) s = .next s)) ∧
    (∀ r since, r ∈ x.acq → x.acSince = some since → since + 64 ≤ s.cycle →
      (∀ q ∈ x.acq, q ≠ r → lexLt [(s.launch (s.blk q.blk).launch).seq, (s.blk q.blk).index]
        [(s.launch (s.blk r.blk).launch).seq, (s.blk r.blk).index] = true) →
      Reaches (.acallocDeadlockFail c) s fun t => t.mem = s.mem ∧ r ∉ (t.clu c).acq ∧ (t.warp r.warp).S r.sd = 0xFFFFFFFF ∧
        (r.qd ≠ 7 → (t.warp r.warp).Q r.qd = false)) ∧
    (∀ g b, x.owner.get none g = some b → (∀ e ∈ (s.blk b).gmap, e.2 ≠ some g) → (∀ e ∈ x.engs, g ∉ e.op.granules) →
      (∀ o ∈ x.port, g ∉ o.phys) → exec (.granuleReturn c g) s =
        .next ((s.onClu c fun x => { x with owner := x.owner.del g }).forgetRows c fun o => o.1 == g)) ∧
    (∀ o rest, x.port = o :: rest → o.held = none → s.portUnordered c o = [] →
      let met := (s.blk o.blk).met
      (o.kind = .aczero → Reaches (.accumulatorPortDone c) s fun t => (t.clu c).port = rest ∧ (met = [] → t.mem = s.mem ∧
        ∀ g ∈ o.phys, ∀ row < 64, ∀ col < 64, t.accAt c g row col = 0)) ∧
      (∀ g k u, o.kind = .acrd → o.phys = [g] → s.engStores c (s.blk o.blk) o.wrote ((List.range o.nr).map fun i => (o.addr.toNat + 256 * i,
          (List.range 64).flatMap fun n => bytesOf 4 (s.accAt c g (o.r0 + i) n).toNat)) = (.ok (), k, u) →
        Reaches (.accumulatorPortDone c) s fun t => (t.clu c).port = rest ∧ (met = [] → t.mem = u.mem ∧ t.acc = u.acc ∧
          ((s.warp o.warp).due = [] → (t.warp o.warp).S o.sd = if (u.clu c).invalid.get false g = true then 1 else 0))) ∧
      (∀ k u, o.kind = .acwr → s.portRows c (s.blk o.blk) o o.wrote (o.nr - o.wrote) = (.ok (), k, u) →
        Reaches (.accumulatorPortDone c) s fun t => (t.clu c).port = rest ∧ (met = [] → t.mem = u.mem ∧ t.acc = u.acc)) ∧
      (∀ g y u, o.kind = .acwr → o.phys = [g] → o.nr = 1 → o.wrote = 0 → met = [] →
        s.engLoad c (s.blk o.blk) (o.addr.toNat + 256 * 0) 256 = (.ok y, u) → Reaches (.accumulatorPortDone c) s fun t => t.mem = u.mem ∧
          ∀ n < 64, t.acc.get 0 (4096 * (32 * c + g) + 64 * o.r0 + n) = BitVec.ofNat 32 (y.1 / 2 ^ (32 * n)))) ∧
    (∀ e rest, x.engs = e :: rest → (∀ q ∈ rest, q.tag ≠ e.tag) →
      (∀ b shape, e.op = .mcfg b shape → Reaches (.mcfgApply c) s fun t => Aside s t ∧ (t.clu c).shape = shape ∧ (t.clu c).weights = [] ∧
        (t.clu c).engs = rest) ∧
      (∀ b pc word hn h sub f u, e.op = .mwload b pc word hn h sub → e.held = none →
        Fetches s c b e h (colsOf x.shape) (fun f => (List.range (kOf x.shape h.tlr.fmt * colsOf x.shape)).drop f.vals.length)
          (s.fetchTile c (s.blk b) h false 0 (kOf x.shape h.tlr.fmt) (colsOf x.shape) e.got) f u →
        Reaches (.tileFetch c e.tag) s fun t => t.mem = u.mem ∧ (t.clu c).weights.get none sub =
          some { fmt := h.tlr.fmt, tag := h.kTag h.rowDim, vals := f.values, cols := colsOf x.shape } ∧ ∀ g ∈ (t.clu c).engs, g.tag ≠ e.tag) ∧
      (∀ b pc word hn h g phys rows cols n k u, e.op = .mstore b pc word hn h g phys rows cols n → e.held = none →
        s.engStores c (s.blk b) e.wrote (s.mstoreRuns c h phys rows cols) = (.ok (), k, u) → exec (.tileFetch c e.tag) s = .next (u.engDrop c e.tag)) ∧
      (∀ m vals, e.op = .mmul m → e.held = none → m.entered < m.rows → m.row = some vals →
        Reaches (.mmulRowEnter c e.tag) s fun t => Aside s t ∧ t.mmulAt c e.tag =
          some ({ m with row := none, entered := m.entered + 1, sums := m.sums ++ [rowSums vals m.wts] },
            { e with op := .mmul { m with row := none, entered := m.entered + 1, sums := m.sums ++ [rowSums vals m.wts] } })) ∧
      (∀ m g p ps, e.op = .mmul m → m.written < m.entered → m.phys[m.written / 64]? = some g → g ∉ m.undef → m.sums = p :: ps →
        let first := if m.shape = .q4 then 16 * m.sub else 0
        let n := match m.shape with | .q4 => 16 | .f14 => 64 | .f22 => 32 | .f41 => 16
        let row := m.written % 64
        Reaches (.mmulRowWrite c e.tag) s fun t => t.w = s.w ∧ t.warps = s.warps ∧ t.mem = s.mem ∧
          (∀ b, { t.blk b with operands := [] } = { s.blk b with operands := [] }) ∧
          (∀ j < n, t.acc.get 0 (accKey c g row (first + j)) = BitVec.ofNat 32 (if m.ov = true then p.getD j 0
            else (fp32.add .rne false false (s.accAt c g row (first + j)).toNat (p.getD j 0)).1)) ∧
          (∀ k, (∀ j < n, k ≠ accKey c g row (first + j)) → t.acc.get 0 k = s.acc.get 0 k) ∧
          (m.written + 1 < m.rows → ∃ m' h, t.mmulAt c e.tag = some (m', h) ∧ m'.written = m.written + 1 ∧ m'.sums = ps) ∧
          (m.written + 1 = m.rows → t.mmulAt c e.tag = none))) ∧
    (x.retired = false → x.gate = .idling → x.gateSince + 4096 ≤ s.cycle → Reaches (.gatingBegin c) s fun t => Aside s t ∧ (t.clu c).gate = .gating ∧
      (t.clu c).gateSince = s.cycle) ∧
    (x.retired = false → x.gate = .gating → x.gateSince + 64 ≤ s.cycle → x.wake = [] → Reaches (.gatingEnd c) s fun t => Aside s t ∧ (t.clu c).gate = .gated ∧
      (∀ core row, core / 16 = c → row < 4096 → t.rowValid.get false (4096 * core + row) = false) ∧
      ∀ g row col, g < 32 → row < 64 → col < 64 → t.acc.get 0 (accKey c g row col) = 0) ∧
    (x.retired = true → exec (.gatingBegin c) s = .next s ∧ exec (.gatingEnd c) s = .next s ∧ exec (.wakeEnd c) s = .next s) ∧
    (x.retired = false → x.gate = .waking → x.gateSince + 511 ≤ s.cycle →
      (∀ l i, (s.die (c / 324)).dcpStopped = true → x.wake = [.block l i false] → Reaches (.wakeEnd c) s fun t => Aside s t ∧
        (t.die (c / 324)).claimed = (s.die (c / 324)).claimed ++ [(l, i)]) ∧
      (x.wake = [] → Reaches (.wakeEnd c) s fun t => Aside s t ∧ (t.clu c).gate = if s.cluIdle c = true then .idling else .on) ∧
      ∀ l i p, (s.die (c / 324)).dcpStopped = false → ∃ u, Quiet (s.onClu c fun x => { x with gate := .on, gateSince := s.cycle, wake := [] }) u ∧
        (x.wake = [.block l i p] → exec (.wakeEnd c) s = .next ((u.placeBlock c l i p).unreserve (c / 324) l)) ∧
        ∀ j, x.wake = [.block l i p, .block l j p] → exec (.wakeEnd c) s = .next (((u.placeBlock c l i p).placeBlock c l j p).unreserve (c / 324) l))

/-! ## Launches and blocks on their way (spec/13, spec/15, spec/16) -/

/-- R268 to R271, R274, R275, R279, R280, R299 to R301, R338, R340, R346, R413: acceptance and dispatch of launches, claims in the turn of the
launch's queue, start ticks, the heap allocator, the porter mailbox, which answers another die over the fabric, and the release of a tree
barrier, by its root first and then at the clusters of one die after another.
Physical addresses of queues are log 18, completion and starts behind unplaced indices log 32, from when a gang holds its barriers log 39, the
packet of an answer log 44, the acquire actions at a dependence read log 62. -/
def Obligations.LaunchEvents : Prop :=
  ∀ (s : State) (p d l : Nat),
    let x := s.launch l
    let lpb := fun (off n : Nat) => s.lpbOf (dcp d) l off n
    (∀ q,
      let desc := (s.part p).queues.toNat + 64 * q
      let head := s.peekN (desc + 8) 8
      let entry := s.peekN (s.peekN desc 8 % 2 ^ 48 + 8 * (head % 2 ^ (s.peekN desc 8 / 2 ^ 48 % 32))) 8
      let n := s.launches.length
      let r := s.refusal p entry (dcp (s.firstDie p))
      ((s.part p).formed = true → (s.part p).draining = false → q < 64 → head ≠ s.peekN (desc + 16) 8 →
        Reaches (.launchAccept p q) s fun t => t.w = s.w ∧ t.peekN (desc + 8) 8 = (head + 1) % 2 ^ 64 ∧
          (t.launch n).lpb = BitVec.ofNat 64 entry ∧ (t.launch n).part = p ∧ (t.launch n).queue = q ∧
          (r = 0 → (t.launch n).state = 1 ∧ (t.launch n).seq = (s.part p).seq + 1) ∧ (r ≠ 0 → (t.launch n).state = 4)) ∧
      (((s.part p).formed = false ∨ (s.part p).draining = true ∨ head = s.peekN (desc + 16) 8) → exec (.launchAccept p q) s = .next s)) ∧
    (d = (s.launchDies l).headD 0 → x.state = 1 → x.prev = none →
      let wadr := lpb 88 8 % 2 ^ 48
      (wadr = 0 → Reaches (.launchBeginDispatch l) s fun t => t.w = s.w ∧ ((t.launch l).state = 2 ∨ (t.launch l).state = 3)) ∧
      (wadr ≠ 0 → x.recheck = true → s.vaRead (dcp d) wadr 8 < lpb 96 8 →
        exec (.launchBeginDispatch l) s = .next (((s.launchDies l).foldl (fun u y => u.dieAcquire y) s).onLaunch l fun y => { y with recheck := false }))) ∧
    exec (.dependenceRecheck l) s = .next (s.onLaunch l fun y => { y with recheck := true }) ∧
    (s.mayClaim d l = true → (s.die d).dcpStopped = false → s.outranked d l = false → s.itsTurn d l = true →
      let ticket := lpb 16 4
      let left := lpb 20 4 - ticket
      let took := fun (k : Nat) (t : State) => (t.die d).claimed = (s.die d).claimed ++ (List.range k).map fun i => (l, ticket + i)
      let k := min (min (lpb 28 4 % 16 + 1) left) (min (s.freePlaces d l) (16 - s.pendingLen d))
      ((lpb 28 4).testBit 6 = false → 0 < k → Reaches (.ticketClaim d l) s fun t => t.w = s.w ∧
        t.mem = (s.lpbSet (dcp d) l 16 4 (ticket + k)).mem ∧ took k t ∧ ∀ core, core / 5184 = d → ∀ line, ((t.core core).l1.get Line.empty line).valid =
          ((t.core core).l1.get Line.empty line).dirty) ∧
      ((lpb 28 4).testBit 6 = true → Reaches (.ticketClaim d l) s fun t => t.w = s.w ∧ (t.part x.part).reserving = some l ∧
        (∀ tb ∈ s.tbmOf d l, (t.tree x.part tb).gang = some l) ∧ ∃ n, n ≤ left ∧ n ≤ 16 ∧ took n t)) ∧
    ((s.mayClaim d l = false ∨ (s.die d).dcpStopped = true ∨ s.outranked d l = true ∨ s.itsTurn d l = false) →
      exec (.ticketClaim d l) s = .next s) ∧
    (∀ b at_, (s.blk b).hold = some at_ → exec (.timedStart b) s = .next
      (if at_ ≤ s.tick (dieOfBlk b) then s.onBlk b fun k => { k with hold := none } else s)) ∧
    (d = (s.launchDies l).headD 0 → x.state = 2 → x.start = none → (lpb 28 4).testBit 6 = true → lpb 16 4 = lpb 20 4 →
      (∀ e ∈ s.dies, ∀ y ∈ e.2.saved, y.blk.launch ≠ l) →
      Reaches (.gangReserve l) s fun t => t.w = s.w ∧ t.mem = s.mem ∧ ∃ at_, (t.launch l).start = some at_ ∧ (∃ d', s.tick d' + 2000 ≤ at_) ∧
        (t.part x.part).reserving ≠ some l ∧
        ∀ b ∈ s.blocksOf l, (t.blk b).hold = some at_) ∧
    (∀ at_, x.start = some at_ → s.unplaced l = false → Reaches (.gangStart l) s fun t => t.w = s.w ∧ t.mem = s.mem ∧
      ∀ b ∈ s.blocksOf l, (s.blk b).hold = some at_ → (t.blk b).hold = if at_ ≤ s.tick (dieOfBlk b) then none else some at_) ∧
    (∀ r rest, (s.die d).heapq = r :: rest →
      let u := s.onDie d fun y => { y with heapq := rest }
      let e := u.heapEntry (dieOf r.warp) r.heap
      (r.free = false →
        (∀ off h, r.size.toNat ≤ 2 ^ 32 → classOf r.size.toNat ≤ min 32 e.1 →
          (u.heapAt (dieOf r.warp) d r.heap).alloc (classOf r.size.toNat) = some (off, h) →
          Reaches (.heapAllocatorServe d) s fun t => t.mem = s.mem ∧ t.heapState.get Heap.down (264 * d + r.heap) = h ∧ (t.die d).heapq = rest ∧
            (t.warp r.warp).SP r.sd = BitVec.ofNat 64 (e.2.2 + off) ∧ (t.warp r.warp).Q r.qd = true) ∧
        (2 ^ 32 < r.size.toNat → r.must = false → Reaches (.heapAllocatorServe d) s fun t => t.mem = s.mem ∧ t.heapState = s.heapState ∧
          (t.die d).heapq = rest ∧ (t.warp r.warp).SP r.sd = 0 ∧ (r.qd ≠ 7 → (t.warp r.warp).Q r.qd = false)) ∧
        (2 ^ 32 < r.size.toNat → r.must = true → (s.blk (s.warp r.warp).blk).fault = none → Reaches (.heapAllocatorServe d) s fun t =>
          ∃ y, (t.blk (s.warp r.warp).blk).fault = some y ∧ y.code = 6 ∧ y.info = BitVec.ofNat 64 r.size.toNat)) ∧
      (r.free = true → u.heapHolding (dieOf r.warp) r.p.toNat = none → (s.blk (s.warp r.warp).blk).fault = none →
        Reaches (.heapAllocatorServe d) s fun t => ∃ y, (t.blk (s.warp r.warp).blk).fault = some y ∧ y.code = 7 ∧
          y.info = BitVec.ofNat 64 r.p.toNat) ∧
      (r.free = true → ∀ i home off h, u.heapHolding (dieOf r.warp) r.p.toNat = some (i, home, off) →
        (u.heapAt (dieOf r.warp) home i).dealloc off (u.heapEntry (dieOf r.warp) i).1 = some h →
        Reaches (.heapAllocatorServe d) s fun t => t.mem = s.mem ∧ t.heapState.get Heap.down (264 * home + i) = h ∧ (t.die d).heapq = rest)) ∧
    ((s.die d).heapq = [] → exec (.heapAllocatorServe d) s = .next s) ∧
    (∀ q rest, (s.die d).fwdq = q :: rest →
      let live := ∃ m, (s.die d).mailLaunch = some m ∧ (s.launch m).state = 2 ∧
        ((∃ e ∈ s.blocks, e.2.placed = true ∧ e.2.porter = true ∧ e.2.launch = m ∧ dieOfBlk e.1 = d) ∨
          ∃ y ∈ (s.die d).saved, y.blk.porter = true ∧ y.blk.launch = m)
      let told := fun (t : State) (st : Nat) => (q.src = d → (t.warp q.warp).S q.sd = BitVec.ofNat 32 st) ∧
        (q.src ≠ d → t.w = s.w ∧ t.warps = s.warps ∧
          ∃ k ∈ (t.site (siteOf d)).waiting, k.answer = some (q, st) ∧ k.dst = siteOf q.src ∧ k.vc = vcResponse)
      Reaches (.mailboxPacket d) s fun t => t.mem = s.mem ∧ (t.die d).fwdq = rest ∧
        (live → (s.die d).mailbox.length < 64 → (t.die d).mailbox = (s.die d).mailbox ++ [q] ∧ told t 0) ∧
        (live → 64 ≤ (s.die d).mailbox.length → (t.die d).mailbox = (s.die d).mailbox ∧ told t 1) ∧
        (¬ live → (t.die d).mailbox = (s.die d).mailbox ∧ told t 2)) ∧
    ∀ tb, (s.tree p tb).gang = some l →
      ((s.tree p tb).left = [] → s.treeReady p tb l = true → exec (.treeRelease p tb) s = .next (s.onTree p tb fun y =>
        { y with phase := y.phase + 1, arrived := [], mretOld := y.mret, mret := y.retNow, retNow := false, left := s.treeMembers p tb,
                 releasedAt := s.cycle })) ∧
      ((s.tree p tb).left = [] → s.treeReady p tb l = false → exec (.treeRelease p tb) s = .next s) ∧
      ∀ c cs, (s.tree p tb).left = c :: cs → Reaches (.treeRelease p tb) s fun t => t.mem = s.mem ∧
        (t.tree p tb).phase = (s.tree p tb).phase ∧ (t.tree p tb).left = (c :: cs).filter (fun y => dieOfClu y ≠ dieOfClu c) ∧
        ∀ y ∈ c :: cs, dieOfClu y = dieOfClu c → ∀ b ∈ s.gangOn y l, ∀ u ∈ (s.blk b).warps, ∀ ph sd tag, ph ≤ (s.tree p tb).phase →
          Wait.tbar tb ph sd tag ∉ (t.warp u).waits

/-- R206, R270 to R272, R274, R313 to R320: a block is placed on the cluster that its die chooses, a porter before its launch's indices and
the lowest index first, pre-empted, saved, resumed, and ended. A block that has not begun goes back to the pending list.
One pre-emption choice at a time is log 40. -/
def Obligations.BlockEvents : Prop :=
  ∀ (s : State) (d l b : Nat),
    let gang := (s.lpbOf (dcp d) l 28 4).testBit 6
    let placed := fun (t : State) (c n : Nat) (porter : Bool) => ∃ k, k / 4 = c ∧ (s.blk k).placed = false ∧ (t.blk k).placed = true ∧
      (t.blk k).launch = l ∧ (t.blk k).index = n ∧ (t.blk k).begun = false ∧ (t.blk k).porter = porter ∧ (t.blk k).m.st = .idle
    ((s.die d).dcpStopped = false → (s.launch l).state = 2 → s.outranked d l = false → ∀ c, (s.clu c).gate = .on → s.follows l c = true →
      (l ∈ (s.die d).porters → s.chooseCluster d (s.kernelAt (dcp d) (s.kernelOf d l).porter) (s.carveOf d l) none = some c →
        Reaches (.blockPlace d l) s fun t => l ∉ (t.die d).porters ∧ placed t c (s.lpbOf (dcp d) l 24 4 + d) true) ∧
      ∀ n, l ∉ (s.die d).porters → (∀ y ∈ (s.die d).saved, y.blk.launch ≠ l) →
        (l, n) ∈ (s.die d).claimed → (∀ m, (l, m) ∈ (s.die d).claimed → n ≤ m) →
        s.chooseCluster d (s.kernelOf d l) (s.carveOf d l) (if gang = true then some l else none) = some c →
        Reaches (.blockPlace d l) s fun t => (l, n) ∉ (t.die d).claimed ∧ placed t c n false) ∧
    (((s.launch l).state ≠ 2 ∨ s.outranked d l = true ∨ (s.die d).dcpStopped = true) → exec (.blockPlace d l) s = .next s) ∧
    (∀ c, l ∉ (s.die d).porters → s.chooseCluster d (s.kernelOf d l) (s.carveOf d l) (if gang = true then some l else none) = some c → s.follows l c = false →
      exec (.blockPlace d l) s = .next s) ∧
    (s.blockOver b = true → Reaches (.blockEnd b) s fun t => (t.blk b).placed = false ∧ ∀ u ∈ (s.blk b).warps, (t.warp u).placed = false) ∧
    (s.blockOver b = false → exec (.blockEnd b) s = .next s) ∧
    (s.savable b = true → Reaches (.blockSave b) s fun t => (t.blk b).placed = false ∧ ∃ y, (t.die (dieOfBlk b)).saved = (s.die (dieOfBlk b)).saved ++ [y] ∧
      ((∀ u ∈ (s.blk b).warps, (s.warp u).parts = []) → y.blk = s.blk b ∧ y.slot = (s.blk b).saveSlot ∧
        y.warps.length = (s.blk b).warps.length)) ∧
    (s.savable b = false → exec (.blockSave b) s = .next s) ∧
    ((s.die d).saved = [] → exec (.blockResume d) s = .next s) ∧
    (∀ y rest, (s.die d).saved = y :: rest → (∀ e ∈ s.clusters, e.1 / 324 = d → .saved ∉ e.2.wake) → (s.die d).dcpStopped = false →
      s.outranked d y.blk.launch = false → (∀ c, c / 324 = d → (s.clu c).gate = .on) →
      let g := y.blk.launch
      let whole := (s.lpbOf (dcp d) g 28 4).testBit 6
      let held := (((clustersOf d).filter fun c => (s.clu c).reserved == some g).map fun c => s.roomOn c (s.kernelOf d g) (s.carveOf d g) (some g)).sum
      let u := if whole = true then (s.onPart (s.launch g).part fun z => { z with reserving := some g }).reserve d g
        ((s.die d).saved.filter fun z => z.blk.launch = g).length (clustersOf d) held else s
      (whole = true → s.gangMay d g = true) →
      (∃ c, c / 324 = d ∧ u.takes c y (s.carveOf d g) = true ∧ (whole = true → (u.clu c).reserved = some g)) →
      Reaches (.blockResume d) s fun t => (t.die d).saved = rest ∧ ∃ k, k / 1296 = d ∧ (s.blk k).placed = false ∧ (t.blk k).launch = y.blk.launch ∧
        (t.blk k).index = y.blk.index ∧ (t.blk k).saving = false ∧ (t.blk k).begun = y.blk.begun ∧ (t.blk k).errors = y.blk.errors) ∧
    ((s.launch l).state = 2 → d ∈ s.launchDies l → s.lpbOf (dcp d) l 16 4 ≠ s.lpbOf (dcp d) l 20 4 → s.noRoom d l = true →
      (∀ e ∈ s.blocks, dieOfBlk e.1 = d → e.2.saving = false) →
      (s.preemptOn d l = none → exec (.preempt d l) s = .next s) ∧
      ∀ c n rest, s.preemptOn d l = some c → s.victims c (s.kernelOf d l) (s.carveOf d l) [] (s.youngestFirst c) = some [b] →
        (s.blk b).placed = true → (s.blk b).saving = false → (s.lpbOf (dcp d) (s.blk b).launch 28 4).testBit 6 = false →
        ((s.blk b).begun = true → s.freeSlots (dieOfBlk b) = n :: rest → Reaches (.preempt d l) s fun t => t.mem = s.mem ∧
          (t.blk b).saving = true ∧ (t.blk b).saveSlot = n ∧ n ∈ (t.die (dieOfBlk b)).slotsUsed ∧
          ∀ u ∈ (s.blk b).warps, (t.warp u).susp = none ∧ (t.warp u).frozen = ((s.warp u).frozen || (s.warp u).susp.isSome)) ∧
        ((s.blk b).begun = false → (s.blk b).porter = false → Reaches (.preempt d l) s fun t => (t.blk b).placed = false ∧
          ((s.blk b).launch, (s.blk b).index) ∈ (t.die (dieOfBlk b)).claimed))

/-! ## Caches and homes (spec/09, spec/14) -/

/-- R194, R286 to R293: what the caches do on their own, and the reads, writes and atomics that arrive at a home, which takes their line
into its L2; a host's reach the partition of their port. A pinned line expires too; a launch that waits on a host dependence reads it again
when its line changes (R269, R414). The address ranges of a port are log 95. Which set of the L2 and the RDC a line takes is log 15. -/
def Obligations.CachesAndHomes : Prop :=
  ∀ (s : State) (core d line : Nat),
    Reaches (.l1ReleaseDrain core) s (fun t => t.w = s.w ∧ (t.core core).fifo = [] ∧
      ∀ x ∈ (s.core core).fifo, ((t.core core).l1.get Line.empty x).dirty = 0) ∧
    Reaches (.lineExpiry false core line) s (fun t => t.w = s.w ∧ t.mem = s.mem ∧ (t.core core).fifo = (s.core core).fifo ∧
      ∀ x, (t.core core).l1.get Line.empty x =
        if x = line ∧ ((s.core core).l1.get Line.empty x).dirty = 0 then Line.empty else (s.core core).l1.get Line.empty x) ∧
    Reaches (.lineExpiry true d line) s (fun t => t.w = s.w ∧ t.mem = s.mem ∧ (t.die d).fifo = (s.die d).fifo ∧
      ∀ x, (t.die d).rdc.get Line.empty x =
        if x = line ∧ ((s.die d).rdc.get Line.empty x).dirty = 0 then Line.empty else (s.die d).rdc.get Line.empty x) ∧
    (∀ rest, (s.core core).fifo = line :: rest → Reaches (.dirtyWritebackTimeout false core) s fun t => t.w = s.w ∧
      (t.core core).fifo = rest.filter (· != line) ∧ ((t.core core).l1.get Line.empty line).dirty = 0) ∧
    (∀ rest, (s.die d).fifo = line :: rest → Reaches (.dirtyWritebackTimeout true d) s fun t => t.w = s.w ∧
      (t.die d).fifo = rest.filter (· != line) ∧ ((t.die d).rdc.get Line.empty line).dirty = 0) ∧
    (let u := s.rdcRoom d line
     s.homedOn d (128 * line) = false → ((s.die d).rdc.get Line.empty line).dirty = 0 →
      Reaches (.rdcFill d line) s fun t => t.w = s.w ∧ t.mem = u.mem ∧ (u.poisoned d (128 * line) = false →
        ∀ i < 128, ((t.die d).rdc.get Line.empty line).has i = true ∧
          ((t.die d).rdc.get Line.empty line).byte i = u.homeRead d (128 * line + i))) ∧
    (s.homedOn d (128 * line) = true → exec (.rdcFill d line) s = .next s) ∧
    Reaches (.rdcReleaseComplete d) s (fun t => t.w = s.w ∧ (t.die d).fifo = [] ∧
      ∀ x ∈ (s.die d).fifo, ((t.die d).rdc.get Line.empty x).dirty = 0) ∧
    Reaches (.rdcAcquireComplete d) s (fun t => t.w = s.w ∧ t.mem = s.mem ∧ (t.die d).fifo = (s.die d).fifo ∧
      ∀ x, ((t.die d).rdc.get Line.empty x).valid = ((s.die d).rdc.get Line.empty x).dirty ∧
        ((t.die d).rdc.get Line.empty x).dirty = ((s.die d).rdc.get Line.empty x).dirty) ∧
    (∀ pa (bytes : List Byte), (∀ i < bytes.length, paOk (pa + i) = true ∧ paKind (pa + i) = 0) →
      let stored := fun (t : State) => t.w = s.w ∧ (∀ i < bytes.length, some (t.peek (pa + i)) = bytes[i]?) ∧
        ∀ k, (∀ i < bytes.length, k ≠ pa + i) → t.peek k = s.peek k
      Reaches (.homeWrite d pa bytes) s stored ∧
        ∀ port p, s.hostPartition port = some p → (∀ i < bytes.length, s.hdm p (pa + i) = true) → Reaches (.hostCxlMemAccess port pa (.write bytes)) s stored) ∧
    (∀ port p, s.hostPartition port = some p →
      (∀ pa k (b : Byte), s.hdm p pa = true → s.homeOf (s.firstDie p) pa = some k → Reaches (.hostCxlMemAccess port pa (.write [b])) s fun t =>
        t.w = s.w ∧ t.peek k = b ∧ ∀ j, j ≠ k → t.peek j = s.peek j) ∧
      (∀ pa n, (∀ i < n, s.hdm p (pa + i) = true) → Reaches (.hostCxlMemAccess port pa (.read n)) s fun t => Aside s t ∧
        ∀ k h, s.homeOf (s.firstDie p) (pa / 128 * 128) = some k → homeDie k = some h →
          0 < n → pa % 128 + n ≤ 128 → (t.die h).l2.any (fun e => e.1 == k % 2 ^ 36 / 128) = true) ∧
      (∀ pa (bytes : List Byte) i, i < bytes.length → s.hdm p (pa + i) = false → exec (.hostCxlMemAccess port pa (.write bytes)) s = .next s) ∧
      ∀ pa n i, i < n → s.hdm p (pa + i) = false → exec (.hostCxlMemAccess port pa (.read n)) s = .next s) ∧
    (∀ port pa x, s.hostPartition port = none → exec (.hostCxlMemAccess port pa x) s = .next s) ∧
    (∀ pa (wide : Bool) op (a b : DWord),
      let n := if wide then 64 else 32
      (∀ i < n / 8, paOk (pa + i) = true ∧ paKind (pa + i) = 0) →
      Reaches (.homeAtomic d pa wide op a b) s fun t => t.w = s.w ∧
        t.peekN pa (n / 8) = atomNew op n (s.peekN pa (n / 8)) (b.toNat % 2 ^ n) (a.toNat % 2 ^ n) % 2 ^ n ∧
        ∀ k, k < pa ∨ pa + n / 8 ≤ k → t.peek k = s.peek k) ∧
    Reaches (.cxlSnoop line) s (fun t => t.w = s.w ∧ (∀ u, (t.core u).l1.get Line.empty line = Line.empty) ∧
      (∀ x, (t.die x).rdc.get Line.empty line = Line.empty) ∧
      ∀ e ∈ s.launches, paKind (128 * line) = 3 → e.2.state = 1 → (e.1, { e.2 with recheck := true }) ∈ t.launches)

/-! ## Translation, page faults and soft errors (spec/15) -/

/-- R305, R306, R309 to R312, R321, R322: a walk fills the cluster's TLB and the asking core's micro-TLB; a resolve word closes a fault
entry and its waiters try again, or end their block with XLATE, standing where they are, but for the target of a transfer and an update of
the divergence stack, which are tried again as not mapped; a write of the queue registers lets untabled requesters walk again; an
invalidation drops what its page covers; only a writer that reaches a control page changes it (R412); soft errors are counted, contained by dropping or poisoning a line, or retire a cluster.
When a leaf enters a TLB is log 11, and what a failed entry does log 26. -/
def Obligations.TranslationAndFaults : Prop :=
  ∀ (s : State) (c d : Nat) (va : Addr) (kind : AccKind) (v : DWord) (what pa : Nat) (by_ : PageWriter), s.reachesPage ⟨d, by_⟩ = true →
    (∀ frame leaf, s.walk (c / 324) va.toNat kind = .ok frame leaf →
      let cached := fun (t : State) => Aside s t ∧ leaf ∈ (t.clu c).tlb ∧ (t.clu c).tlb.length ≤ 1024
      Reaches (.translationWalk (.cluster c) va kind) s cached ∧
      ∀ k < 16, Reaches (.translationWalk (.core (16 * c + k)) va kind) s fun t => cached t ∧
        leaf ∈ (t.core (16 * c + k)).utlb ∧ (t.core (16 * c + k)).utlb.length ≤ 64) ∧
    ((∀ frame leaf, s.walk (c / 324) va.toNat kind ≠ .ok frame leaf) →
      exec (.translationWalk (.cluster c) va kind) s = .next (s.walkReads (c / 324) va.toNat) ∧
      ∀ k < 16, exec (.translationWalk (.core (16 * c + k)) va kind) s = .next (s.walkReads (c / 324) va.toNat)) ∧
    (∀ e f, e < 256 → (s.die d).fct.get none e = some f → (s.die d).recq = [] →
      (Reaches (.resolve ⟨d, by_⟩ (BitVec.ofNat 64 e)) s fun t => (t.die d).fct.get none e = none ∧ t.mem = s.mem ∧
        ∀ x, s.w.susp = some x → x.entry = some e → dieOf s.w.uid = d → t.w = { s.w with susp := none }) ∧
      (∀ x, s.w.susp = some x → x.entry = some e → dieOf s.w.uid = d →
        (∀ y ∈ s.warps, y.2.susp = none) → (∀ y ∈ s.blocks, y.2.m.held = none ∧ y.2.c.held = none) →
        (∀ y ∈ s.clusters, y.2.engs = [] ∧ y.2.port = []) → (s.die d).traceHeld = none →
        Reaches (.resolve ⟨d, by_⟩ (BitVec.ofNat 64 (256 + e))) s fun t => (t.die d).fct.get none e = none ∧
          (x.soft = true → t.w = { s.w with susp := none, failed := true }) ∧
          (x.soft = false → (s.blk s.w.blk).fault = none → t.w.susp = none ∧ t.w.frozen = true ∧
            ∃ y, (t.blk s.w.blk).fault = some y ∧ y.code = 3 ∧ y.info = x.va ∧ y.lanes = x.lanes))) ∧
    (∀ x : Nat, x < 2 ^ 64 → (512 ≤ x ∨ (s.die d).fct.get none (x % 256) = none) → exec (.resolve ⟨d, by_⟩ (BitVec.ofNat 64 x)) s = .next s) ∧
    ((s.die d).recq = [] →
      let again := fun (t : State) => t.mem = s.mem ∧ ∀ x, s.w.susp = some x → x.entry = none → dieOf s.w.uid = d → t.w = { s.w with susp := none }
      Reaches (.fqrpWrite ⟨d, by_⟩ v) s (fun t => again t ∧ (t.die d).fqrp = v ∧ (t.die d).fq = (s.die d).fq) ∧
      Reaches (.fqWrite ⟨d, by_⟩ v) s fun t => again t ∧ (t.die d).fq = v &&& 0xFFFFFFFFFFFFFF ∧ (t.die d).fqSet = true ∧ (t.die d).fqrp = (s.die d).fqrp) ∧
    (∀ q, s.reachesPage q = false → exec (.resolve q v) s = .next s ∧ exec (.fqrpWrite q v) s = .next s ∧ exec (.fqWrite q v) s = .next s ∧
      exec (.inval q v) s = .next s) ∧
    Reaches (.inval ⟨d, by_⟩ v) s (fun t => Aside s t ∧ t.clusters = s.clusters ∧ (t.die d).inval = v ∧ (t.die d).invalBusy = true) ∧
    (let x := (s.die d).inval.toNat
     let n := 2 ^ (16 + 8 * (x % 4))
     let lo := x / n * n
     let apart := fun (e : TlbEntry) => e.va + pageBytes e.size ≤ lo ∨ lo + n ≤ e.va
     ((s.die d).invalBusy = true → Reaches (.invalComplete d) s fun t => Aside s t ∧ (t.die d).invalBusy = false ∧
       (∀ k e, e ∈ (t.clu k).tlb ↔ e ∈ (s.clu k).tlb ∧ (k / 324 = d → apart e)) ∧
       ∀ k e, e ∈ (t.core k).utlb ↔ e ∈ (s.core k).utlb ∧ (k / 16 / 324 = d → apart e)) ∧
     ((s.die d).invalBusy = false → exec (.invalComplete d) s = .next s)) ∧
    Reaches (.correctableError d what) s (fun t => Aside s t ∧ ∀ k, t.counters.get Counter.off k =
      if k = ctrKey 2 d 15 then (s.counters.get Counter.off k).add 1 else s.counters.get Counter.off k) ∧
    (((s.core c).l1.get Line.empty (pa / 128)).dirty = 0 → Reaches (.uncorrectableError c 2 pa) s fun t => Aside s t ∧ t.poison = s.poison ∧
      ∀ x, (t.core c).l1.get Line.empty x = if x = pa / 128 then Line.empty else (s.core c).l1.get Line.empty x) ∧
    (((s.core c).l1.get Line.empty (pa / 128)).dirty ≠ 0 → (s.clu (c / 16)).retired = false → Reaches (.uncorrectableError c 2 pa) s fun t =>
      (t.clu (c / 16)).retired = true) ∧
    (∀ k, s.homeOf d pa = some k →
      (∀ w, (w = 7 ∨ w = 9) → exec (.uncorrectableError d w pa) s = .next { s with poison := s.poison.set false (k / 128) true }) ∧
      Reaches (.uncorrectableError d 8 pa) s fun t => Aside s t ∧ (t.die d).rdc.get Line.empty (pa / 128) = Line.empty ∧
        t.poison = if ((s.die d).rdc.get Line.empty (pa / 128)).dirty = 0 then s.poison else s.poison.set false (k / 128) true) ∧
    (what < 7 → what ≠ 2 → (s.clu c).retired = false → Reaches (.uncorrectableError c what pa) s fun t => (t.clu c).retired = true ∧
      (t.clu c).engs = [] ∧ ∀ k < 4, (t.blk (4 * c + k)).placed = false)

/-! ## The fabric and time (spec/16, spec/23) -/

/-- R4, R325 to R330: a flit brings its packet on, one that fails is sent again, and the link fails after eight retries or a lane lock lost
for 1,000 ticks; packets are delivered, go on along their route by the first output that can start one, and round a failed link by its detour,
from the spill area; none is delivered before an older one of its channel and pair; with no detour they are discarded, and a request of a warp
ends its block with XLATE. R332 to R335, R418: offsets are
measured once in 4,096 ticks, from stamps that agree with the counters, and worked off a tick at a time; the exchange of a span port gives
the panel's offset; frames pass the span ports of a partition, from and to buffers of the port's home stack. No exchange is made across a cut.
The ninth failure in a row and the credits are log 44, the rounding of the offset log 43, working it off log 74, the buffers of a span port log 96. -/
def Obligations.FabricAndTime : Prop :=
  ∀ (s : State) (site : Nat),
    (∀ dir next, neighbour site dir = some next → (s.link site dir).failed = false →
      let l := s.link site dir
      let fails := fun (t : State) => (t.link site dir).failed = true ∧ (t.link next (dirTo next site)).failed = true ∧
        (t.link site dir).flying = none ∧ ∀ p ∈ (t.site site).waiting, p.dst = site ∨ p.next site ≠ next
      (l.lost = none →
        (l.retries < 8 → exec (.flitReceive site dir false) s = .next (s.onLink site dir fun l => { l with retries := l.retries + 1 })) ∧
        (8 ≤ l.retries → Reaches (.flitReceive site dir false) s fails) ∧
        (l.flying = none → exec (.flitReceive site dir true) s = .next (s.onLink site dir fun l => { l with retries := 0 })) ∧
        (∀ p n, l.flying = some (p, n) →
          let q := { p with legs := p.legs.drop 1, came := some site }
          let u := s.onLink site dir fun l => { l with retries := 0, flying := none }
          (1 < n → exec (.flitReceive site dir true) s =
            .next (s.onLink site dir fun l => { l with retries := 0, flying := some (p, n - 1) })) ∧
          (n ≤ 1 → (q.dst ≠ next ∨ q.legs ≠ [] ∨ u.overtakes q = true) → Reaches (.flitReceive site dir true) s fun t => Aside s t ∧ (t.link site dir).flying = none ∧
            (t.site next).waiting = (s.site next).waiting ++ [q]) ∧
          (n ≤ 1 → q.dst = next → q.legs = [] → u.overtakes q = false → p.answer = none → Reaches (.flitReceive site dir true) s fun t => Aside s t ∧
            (t.link site dir).flying = none ∧ t.evq = s.evq ++ p.event.toList ∧
            ∀ x, p.fwd = some x → (t.die (dieOfSite next)).fwdq = (s.die (dieOfSite next)).fwdq ++ [x])) ∧
        exec (.laneLockLost site dir) s = .next (s.onLink site dir fun l => { l with lost := some (s.siteTick site) })) ∧
      (∀ at_, l.lost = some at_ → exec (.laneLockRegained site dir) s = .next (s.onLink site dir fun l => { l with lost := none }) ∧
        (∀ ok, exec (.flitReceive site dir ok) s = .next s) ∧
        (at_ + 1000 ≤ s.siteTick site → Reaches (.laneLockTimeout site dir) s fails) ∧
        (s.siteTick site < at_ + 1000 → exec (.laneLockTimeout site dir) s = .next s))) ∧
    ((s.site site).waiting = [] → exec (.packetForward site) s = .next s) ∧
    (let here := (s.site site).waiting.find? fun p => p.dst == site && !s.overtakes p
     let stuck := (s.site site).waiting.find? fun p => p.dst != site && !s.whole site (p.next site)
     let left := fun (p : Pkt) (t : State) => (t.site site).waiting = dropPkt p.num (s.site site).waiting
     (∀ p, here = some p →
       (p.answer = none → Reaches (.packetForward site) s fun t => Aside s t ∧ left p t ∧ t.evq = s.evq ++ p.event.toList ∧
         ∀ x, p.fwd = some x → (t.die (dieOfSite site)).fwdq = (s.die (dieOfSite site)).fwdq ++ [x]) ∧
       ∀ x st, p.answer = some (x, st) → Reaches (.packetForward site) s fun t => t.mem = s.mem ∧ left p t ∧
         (t.warp x.warp).S x.sd = BitVec.ofNat 32 st) ∧
     (∀ p, here = none → stuck = some p →
       (∀ legs, s.detour site (p.next site) = some legs → Reaches (.packetForward site) s fun t => Aside s t ∧ left p t ∧
         (t.site site).spilled = p.insert (s.site site).spilled ∧ (t.site site).nspilled = (s.site site).nspilled + 1) ∧
       (s.detour site (p.next site) = none → Reaches (.packetForward site) s fun t => t.mem = s.mem ∧ left p t ∧
         t.dropq = s.dropq ++ p.event.toList.map (·.1) ∧ (t.site site).ndropped = (s.site site).ndropped + 1 ∧
         (p.ofFwd = none → Aside s t) ∧
         ∀ x, p.ofFwd = some x → (s.blk (s.warp x.warp).blk).fault = none → ∃ y, (t.blk (s.warp x.warp).blk).fault = some y ∧ y.code = 3)) ∧
     ∀ dir p, here = none → stuck = none → (∀ k < dir, s.outputNext site k = none) → s.outputNext site dir = some p →
       Reaches (.packetForward site) s fun t => Aside s t ∧ left p t ∧ t.evq = s.evq ∧ (t.link site dir).flying = some (p, p.flits)) ∧
    (∀ p rest legs, (s.site site).spilled = p :: rest → s.detour site (p.next site) = some legs →
      let q := { p with vc := vcReroute, rerouted := true, legs := legs ++ p.legs.drop 1, came := none }
      Reaches (.spillReinject site) s fun t => (t.site site).spilled = rest ∧ q ∈ (t.site site).waiting ∧
        (rest = [] → (t.site site).nspilled = 0 ∧ (t.site site).ndropped = 0)) ∧
    ((s.site site).spilled = [] → exec (.spillReinject site) s = .next s) ∧
    (∀ (base : Bool) unit (t1 t2 t3 t4 : Int),
      let x := ((t1 - t2) + (t4 - t3)) / 2
      let ok := decide (-16 ≤ x ∧ x ≤ 16)
      let now := if base = true then s.baseTick unit else s.tick unit
      let last := if base = true then (s.die unit).baseExchange else (s.die unit).exchange
      let here := if base = true then homeSite unit else siteOf unit
      let due := last < now / 4096 ∧ t4 / 16 = now ∧ t1 ≤ t4 ∧ t2 ≤ t3 ∧ x = 16 * s.ahead base unit ∧ s.routeOk here refSite = true ∧
        s.routeOk refSite here = true
      (base = true → unit = refDie → exec (.timingExchange base unit t1 t2 t3 t4) s = .next s) ∧
      (¬ due → exec (.timingExchange base unit t1 t2 t3 t4) s = .next s) ∧
      (due → base = false → Reaches (.timingExchange base unit t1 t2 t3 t4) s fun t => Aside s t ∧ (t.die unit).tickoff = BitVec.ofInt 32 x ∧
        (t.die unit).locked = ok ∧ (t.die unit).owed = -s.ahead false unit ∧ (t.die unit).exchange = now / 4096 ∧
        t.interrupts = s.interrupts ++ (if (s.die unit).locked = true ∧ ok = false then [.tlock unit false] else [])) ∧
      (due → base = true → unit ≠ refDie → Reaches (.timingExchange base unit t1 t2 t3 t4) s fun t => Aside s t ∧
        (t.die unit).baseOff = BitVec.ofInt 32 x ∧ (t.die unit).baseLocked = ok ∧ (t.die unit).baseOwed = -s.ahead true unit ∧
        (t.die unit).baseExchange = now / 4096)) ∧
    (∀ unit,
      let z := s.die unit
      let by_ := fun (o : Int) => if o < 0 then (-1 : Int) else 1
      (s.slewable z.slewAt = true → z.owed ≠ 0 → exec (.tickSlew false unit) s = .next (s.onDie unit fun z =>
        { z with slew := z.slew + by_ z.owed, owed := z.owed - by_ z.owed, slewAt := s.rawTick })) ∧
      (s.slewable z.baseSlewAt = true → z.baseOwed ≠ 0 → unit ≠ refDie → exec (.tickSlew true unit) s = .next (s.onDie unit fun z =>
        { z with baseSlew := z.baseSlew + by_ z.baseOwed, baseOwed := z.baseOwed - by_ z.baseOwed, baseSlewAt := s.rawTick })) ∧
      ((s.slewable z.slewAt = false ∨ z.owed = 0) → exec (.tickSlew false unit) s = .next s) ∧
      ((s.slewable z.baseSlewAt = false ∨ z.baseOwed = 0) → exec (.tickSlew true unit) s = .next s)) ∧
    ∀ (port at_ n : Nat) (m : PtpMsg) (bytes : List Byte),
      let sp := fun (u : State) k => u.spans.get Span.idle k
      (20 ≤ port → exec (.ptpMessage port m) s = .next s) ∧
      (s.spanOwner port = none → ∀ io, exec (.spanFrame port at_ io) s = .next s) ∧
      (port < 20 → ∀ x, x = sp s port →
        (∀ at_, spanSite port = some at_ → Reaches (.ptpMessage port m) s fun t => Aside s t ∧ (∀ k, k ≠ port → sp t k = sp s k) ∧
          (x.ends m = false → t.refOwed = s.refOwed) ∧
          (∀ n, m = .sync n → x.master = true → (sp t port).ptpSent = x.ptpSent ++ [.sync n, .followUp n (s.siteTick at_)]) ∧
          (∀ n, m = .sync n → x.master = false → (sp t port).seq = n ∧ (sp t port).t2 = some (s.siteTick at_ : Int)) ∧
          (∀ n t1, m = .followUp n t1 → x.master = false → x.seq = n → x.t2.isSome = true →
            (sp t port).t1 = some t1 ∧ (sp t port).t3 = some (s.siteTick at_ : Int) ∧ (sp t port).ptpSent = x.ptpSent ++ [.delayReq n]) ∧
          (∀ n, m = .delayReq n → x.master = true → (sp t port).ptpSent = x.ptpSent ++ [.delayResp n (s.siteTick at_)]) ∧
          ∀ n t1 t2 t3 t4, m = .delayResp n t4 → x.master = false → x.seq = n → x.t1 = some t1 → x.t2 = some t2 → x.t3 = some t3 →
            (sp t port).offset = ((t2 - t1) - (t4 - t3)).tdiv 2 ∧ t.refOwed = -((t2 - t1) - (t4 - t3)).tdiv 2) ∧
        ∀ site p, spanSite port = some site → s.spanOwner port = some p →
          let pa := 2 ^ 36 * dieOfSite site + at_
          (at_ + n ≤ Config.stackBytes → Reaches (.spanFrame port at_ (.send n)) s fun t => Aside s t ∧ (∀ k, k ≠ port → sp t k = sp s k) ∧
            sp t port = { x with sent := x.sent ++ [(List.range n).map fun k => s.peek (pa + k)] }) ∧
          (Config.stackBytes < at_ + n → exec (.spanFrame port at_ (.send n)) s = .next s) ∧
          (at_ + bytes.length ≤ Config.stackBytes → Reaches (.spanFrame port at_ (.receive bytes)) s fun t => t.w = s.w ∧
            (∀ k, k ≠ port → sp t k = sp s k) ∧ sp t port = { x with received := x.received ++ [bytes] } ∧
            (∀ i < bytes.length, some (t.peek (pa + i)) = bytes[i]?) ∧ ∀ k, (k < pa ∨ pa + bytes.length ≤ k) → t.peek k = s.peek k) ∧
          (Config.stackBytes < at_ + bytes.length → exec (.spanFrame port at_ (.receive bytes)) s = .next s))

/-! ## Power and observation (spec/19, spec/20, spec/23) -/

/-- R356 to R363, R412: the current-step limit, which the supervisor alone writes, the cadence's three parts, onsets and islands, each at its
own time. R367 to R376: counters, the snapshot, sketches, stall samples in the cycles of their period, the trace ring, and the plain registers
of the control page, each changed only by a writer that reaches the page.
Stall reasons outside the table are log 46, the dwell log 48 and 68, the tick of a region log 69, the measured watts log 71;
what a ring's setup drops is log 51, an idle island log 52 and
75, whose tick counts the supervisor's beat log 76. -/
def Obligations.PowerAndObservation : Prop :=
  ∀ (s : State) (d r c i n : Nat) (v : DWord) (ctl : Word) (by_ : PageWriter), s.reachesPage ⟨d, by_⟩ = true →
    (exec (.cstepWrite ⟨d, .supervisor⟩ v) s = .next (s.onRegion (regionOf d) fun x => { x with limit := v.setWidth 10 }) ∧
      ∀ k, exec (.cstepWrite ⟨d, .image k⟩ v) s = .next s) ∧
    (∀ q off, s.reachesPage q = false → exec (.controlPageWrite q off v) s = .next s ∧ exec (.traceRingSetup q v) s = .next s ∧
      exec (.sketchFreeze q v) s = .next s ∧ exec (.sketchClear q v) s = .next s ∧ exec (.counterConfigure q ctl) s = .next s ∧
      exec (.counterClear q ctl) s = .next s) ∧
    (∀ watts, (s.refTick / 1000 ≤ s.measured → exec (.envelopeMeasure watts) s = .next s) ∧
      (s.measured < s.refTick / 1000 → Reaches (.envelopeMeasure watts) s fun t => Aside s t ∧ t.regions = s.regions ∧
        t.measured = s.refTick / 1000 ∧ t.envelope =
          if 60000 < watts then min 16 (s.envelope + 1) else if watts < 57000 then max 1 (s.envelope - 1) else s.envelope)) ∧
    (let x := s.region r
     let now := s.regionTick r
     let others := fun (t : State) => Aside s t ∧ ∀ q, q ≠ r → t.region q = s.region q
     (Reaches (.droopAlarm r) s fun t => others t ∧
       t.region r = { x with droop := min 16 (s.cad r + 4), lastAlarm := now, blockedUntil := now / 200 + 2,
                             blockedFrom := if now / 200 < x.blockedUntil then x.blockedFrom else now + 1 }) ∧
     (1 < x.droop → x.lastAlarm + 20000 ≤ now → Reaches (.droopDecay r) s fun t => others t ∧
       t.region r = { x with droop := x.droop - 1, lastAlarm := x.lastAlarm + 20000 }) ∧
     ((x.droop ≤ 1 ∨ now < x.lastAlarm + 20000) → exec (.droopDecay r) s = .next s) ∧
     (∀ o, x.onsets = [o] → x.interval = now / 200 → (now < x.blockedFrom ∨ x.blockedUntil ≤ x.interval) →
       (s.tickOver (o.clu / 324) o.tick = false → exec (.onsetInterval r) s = .next s) ∧
       (s.tickOver (o.clu / 324) o.tick = true → x.spent + o.charge ≤ 64 * x.limit.toNat → Reaches (.onsetInterval r) s fun t => others t ∧
         t.region r = { x with onsets := [], spent := x.spent + o.charge } ∧
         (o.isle = 4 → (t.clu o.clu).rowAsking = false) ∧
         (o.isle ≠ 4 → (t.clu o.clu).islands.get Island.fresh o.isle =
           { (s.clu o.clu).islands.get Island.fresh o.isle with
             st := .ramping, asking := false, windows := 0, admitted := s.tick (o.clu / 324) })) ∧
       (64 * x.limit.toNat < x.spent + o.charge → exec (.onsetInterval r) s = .next s)) ∧
     (x.interval = now / 200 → x.blockedFrom ≤ now → x.interval < x.blockedUntil → exec (.onsetInterval r) s = .next s) ∧
     (x.interval ≠ now / 200 → x.onsets = [] →
       exec (.onsetInterval r) s = .next (s.onRegion r fun x => { x with interval := now / 200, spent := 0 }))) ∧
    (∀ p,
      let rs := s.regionsOf p
      let ended := rs ≠ [] ∧ ∀ q ∈ rs, (s.region q).dwell < s.regionTick q / 20000
      (¬ ended → exec (.slackDwellEnd p) s = .next s) ∧
      (ended → s.heldTrees p = [] → Reaches (.slackDwellEnd p) s fun t => Aside s t ∧
        ∀ q ∈ rs, t.region q = { s.region q with slackTicks := 0, dwell := s.regionTick q / 20000 }) ∧
      ∀ tb l, ended → s.heldTrees p = [(tb, l)] → s.gangWaits p tb l = true → Reaches (.slackDwellEnd p) s fun t => Aside s t ∧
        ∀ q ∈ rs,
          let n := (s.region q).slackTicks
          let old := (s.region q).slack
          let new := if s.critical (s.regionsWith l) = some q then old - 1 else if 5000 < n then old + 1 else if n < 2000 then old - 1 else old
          t.region q = { s.region q with slackTicks := 0, dwell := s.regionTick q / 20000,
                                         slack := if q ∈ s.regionsWith l then new else old }) ∧
    (let x := (s.clu c).islands.get Island.fresh i
     let isle := fun (t : State) => (t.clu c).islands.get Island.fresh i
     let y := { x with window := n, busy := 0, loading := 0 }
     let bound := x.busy < 625 ∧ 1250 ≤ x.loading
     let ends := fun (z : Island) => Reaches (.islandWindowEnd (c / 324) (c % 324) i n) s fun t => Aside s t ∧ isle t = z
     (x.st = .ramping → Reaches (.islandRampDone c i) s fun t => Aside s t ∧ isle t = { x with st := .nominal, windows := 0 }) ∧
     (x.st ≠ .ramping → exec (.islandRampDone c i) s = .next s) ∧
     (x.st = .nominal → x.last + 4096 ≤ s.cycle + 1 → Reaches (.islandIdle c i) s fun t => Aside s t ∧
       isle t = { x with st := .near, windows := 0 }) ∧
     ((x.st ≠ .nominal ∨ s.cycle + 1 < x.last + 4096) → exec (.islandIdle c i) s = .next s) ∧
     ((n ≤ x.window ∨ s.tick (c / 324) < 1000 * n) → exec (.islandWindowEnd (c / 324) (c % 324) i n) s = .next s) ∧
     (x.window < n → 1000 * n ≤ s.tick (c / 324) →
       (x.st = .ramping → ends { y with windows := 0 }) ∧
       (x.st = .nominal → bound → x.windows < 9 → ends { y with windows := x.windows + 1 }) ∧
       (x.st = .nominal → bound → 9 ≤ x.windows → ends { y with st := .near, windows := 0 }) ∧
       (x.st = .nominal → ¬ bound → ends { y with windows := 0 }) ∧
       (x.st = .near → i < 4 → x.asking = false → ¬ bound → s.cycle < x.last + 2500 → 0 < x.last →
         Reaches (.islandWindowEnd (c / 324) (c % 324) i n) s fun t => Aside s t ∧ isle t = { y with asking := true } ∧
           ({ tick := s.tick (c / 324), clu := c, isle := i, charge := 1 } : Onset) ∈ (t.region (regionOf (c / 324))).onsets) ∧
       (x.st = .near → (x.asking = true ∨ bound ∨ x.last + 2500 ≤ s.cycle ∨ x.last = 0) → ends y))) ∧
    (let ctr := fun (u : State) k => u.counters.get Counter.off k
     (∀ at_, (s.die d).snap = some at_ →
       (s.tick d < at_ → exec (.snapshotLatch d) s = .next s) ∧
       (at_ ≤ s.tick d → Reaches (.snapshotLatch d) s fun t => Aside s t ∧ (t.die d).snap = none ∧
         ∀ k, ctr t k = if ctrDie k = d then { ctr s k with shadow := (ctr s k).value, swrap := (ctr s k).wrap } else ctr s k)) ∧
     (∀ key, s.selected d = some key → ctl.toNat < 2 ^ 10 →
       let y := if ctl.getLsbD 9 = true then { ctr s key with value := 0, wrap := false } else ctr s key
       let z := if ctrFixed (key / 2 ^ 40) (key % 16) = true then y else { y with en := ctl.getLsbD 8, sel := ctl.extractLsb' 0 8 }
       let does := fun (t : State) => Aside s t ∧ ∀ k, ctr t k = if k = key then z else ctr s k
       Reaches (.counterConfigure ⟨d, by_⟩ ctl) s does ∧ (ctl.getLsbD 9 = true → Reaches (.counterClear ⟨d, by_⟩ ctl) s does)) ∧
     ((s.selected d = none ∨ 2 ^ 10 ≤ ctl.toNat) → exec (.counterConfigure ⟨d, by_⟩ ctl) s = .next s) ∧
     (ctl.getLsbD 9 = false → exec (.counterClear ⟨d, by_⟩ ctl) s = .next s)) ∧
    (let k := bits v.toNat 2 1
     let wiped := fun (t : State) => ∀ q, (t.die d).sketch.get 0 q = if q / 8192 = k then 0 else (s.die d).sketch.get 0 q
     let frozen := fun (t : State) => Aside s t ∧ ∀ q, (t.die d).skFreeze.get false q = if q = k then v.getLsbD 0 else (s.die d).skFreeze.get false q
     (Reaches (.sketchFreeze ⟨d, by_⟩ v) s fun t => frozen t ∧ (v.getLsbD 1 = false → (t.die d).sketch = (s.die d).sketch) ∧ (v.getLsbD 1 = true → wiped t)) ∧
     (v.getLsbD 1 = true → Reaches (.sketchClear ⟨d, by_⟩ v) s fun t => frozen t ∧ wiped t ∧ (t.die d).skN.get 0 k = 0) ∧
     (v.getLsbD 1 = false → exec (.sketchClear ⟨d, by_⟩ v) s = .next s)) ∧
    (let n := (s.die d).traceq.length
     Reaches (.traceRingSetup ⟨d, by_⟩ v) s fun t => t.w = s.w ∧ (t.die d).trdesc = v &&& 0xFFFFFFFFFFFF ∧ (t.die d).traceq = [] ∧
      (t.die d).traceHeld = none ∧ (n = 0 → t.mem = s.mem ∧ (t.die d).gap = (s.die d).gap) ∧
      (n ≠ 0 → (t.die d).gap.map (·.1) = some (((s.die d).gap.map (·.1)).getD 0 + n))) ∧
    (exec (.controlPageWrite ⟨d, by_⟩ 0x000 v) s = .next (s.onDie d fun x => { x with troot := v &&& 0xFFFFFFFFFFFF }) ∧
      exec (.controlPageWrite ⟨d, by_⟩ 0x010 v) s = .next (s.onDie d fun x => { x with sets := v &&& 0xFFFFFFFFFFFF }) ∧
      exec (.controlPageWrite ⟨d, by_⟩ 0x018 v) s = .next (s.onDie d fun x => { x with heaps := v &&& 0xFFFFFFFFFFFF }) ∧
      exec (.controlPageWrite ⟨d, by_⟩ 0x040 v) s = .next (s.onDie d fun x => { x with save := v &&& 0xFFFFFFFFFFFFFF }) ∧
      exec (.controlPageWrite ⟨d, by_⟩ 0x048 v) s = .next (s.onDie d fun x => { x with samp := bits v.toNat 0 5 }) ∧
      exec (.controlPageWrite ⟨d, by_⟩ 0x080 v) s = .next (s.onDie d fun x => { x with csel := v.setWidth 32 &&& 0xDFFF000F }) ∧
      (let t := s.onDie d fun x => { x with beat := v }
       ((d ≠ 0 ∨ v = (s.die 0).beat) → exec (.controlPageWrite ⟨d, by_⟩ 0x110 v) s = .next t) ∧
       (d = 0 → v ≠ (s.die 0).beat → exec (.controlPageWrite ⟨d, by_⟩ 0x110 v) s = .next { t with beatTick := s.tick 199 })) ∧
      ∀ off, off ∉ [0x000, 0x010, 0x018, 0x040, 0x048, 0x080, 0x110] → exec (.controlPageWrite ⟨d, by_⟩ off v) s = .next s) ∧
    ∀ core pos p,
      let u := 16 * core + pos
      let w := s.warp u
      let die := core / 5184
      let shows := fun (reason : Nat) (prod : Addr) => Reaches (.stallSample core pos) s fun t => t.w = s.w ∧ t.mem = s.mem ∧
        (t.core core).samplePos = (pos + 1) % 16 ∧ ∃ l, (t.die die).traceq = (s.die die).traceq ++
          traceRecord 1 die (core / 16 % 324) (core % 16) pos (reason + (s.launch (s.blk w.blk).launch).seq % 2 ^ 24 * 256) (s.tick die)
            p.pc.toNat prod.toNat :: l
      let held := p.held = true ∧ w.handling = true
      (8 ≤ (s.die die).samp → (s.die die).samp ≤ 20 → s.cycle % 2 ^ (s.die die).samp = 0 → s.sampleTurn core = some pos →
        w.cur = false → w.a = some p → w.b = none →
        (w.ranAt = s.cycle + 1 → shows 0 0) ∧
        (w.ranAt ≠ s.cycle + 1 →
          (w.susp.isSome = true → shows 1 p.pc) ∧
          (w.susp = none → held → shows 2 w.trpc) ∧
          (w.susp = none → ¬ held → w.active = false → shows 3 0) ∧
          (w.susp = none → ¬ held → w.active = true → p.clause.isSome = true → s.inner w p = .free → w.stalled = true → shows w.why.1 w.why.2) ∧
          (w.susp = none → ¬ held → w.active = true → p.clause.isSome = true → s.inner w p = .free → w.stalled = false → shows 12 0) ∧
          ∀ cl word rest g ord sc, w.susp = none → ¬ held → w.active = true → p.clause = some cl → cl.words = word :: rest →
            decodeWord word = .ok (.fence g ord sc) → w.passes g = true → w.blocked [.q g.p.toNat] = false → w.fenceWaits p ord = true → shows 7 p.pc)) ∧
      (((s.die die).samp < 8 ∨ 20 < (s.die die).samp ∨ s.cycle % 2 ^ (s.die die).samp ≠ 0 ∨ s.sampleTurn core ≠ some pos) →
        exec (.stallSample core pos) s = .next s)

/-! ## Tack automata at work (spec/21) -/

/-- R386, R387, R389, R393 to R395, R406, R412: an event that arrives joins the hem, or makes its automaton lost; what is due is stepped in
key order along the arc that passes; timers expire; a STOP reaches the warps of its scope, its record is written, and stopped warps go on, but for one
that a block fault or a pre-emption holds where it stands (R315, R317); a STOP that is not recorded yet keeps what it has to say of them.
Resuming all of a die restarts its command processor (log 50). -/
def Obligations.TackEvents : Prop :=
  ∀ (s : State) (n d k m : Nat) (v : DWord) (by_ : PageWriter), s.reachesPage ⟨d, by_⟩ = true →
    (let x := s.tack n
     let lost := fun (t : State) (cause : Nat) => t.w = s.w ∧ t.mem = s.mem ∧ t.tack n = { x with run := .lost, lostCause := cause }
     let live := x.run = .primed ∨ x.run = .armed
     (takeFor n s.evq = none → exec (.hemArrival n false) s = .next s) ∧
     (∀ h rest, takeFor n s.evq = some (h, rest) →
       let behind := ∃ key, x.moved = some key ∧ lexLt h.key key = true
       ((¬ live ∨ h.ev.tick < x.armTick) → exec (.hemArrival n false) s = .next { s with evq := rest }) ∧
       (live → x.armTick ≤ h.ev.tick → behind → Reaches (.hemArrival n false) s fun t => lost t 2) ∧
       (live → x.armTick ≤ h.ev.tick → ¬ behind → 256 ≤ x.hem.length → Reaches (.hemArrival n false) s fun t => lost t 1) ∧
       (live → x.armTick ≤ h.ev.tick → ¬ behind → x.hem.length < 256 → Reaches (.hemArrival n false) s fun t => Aside s t ∧ t.evq = rest ∧
         t.tack n = { x with hem := h.insert x.hem })) ∧
     (n ∈ s.dropq → live → Reaches (.hemArrival n true) s fun t => lost t 3 ∧ t.dropq = s.dropq.erase n) ∧
     (n ∉ s.dropq → exec (.hemArrival n true) s = .next s)) ∧
    (k < 4 →
      let a := 4 * d + k
      let y := (s.tack a).moveDue a (s.tick d)
      (¬ ((s.tack a).run = .primed ∨ (s.tack a).run = .armed) → exec (.automatonStep d k) s = .next s) ∧
      ((s.tack a).run = .armed →
        (64 < y.queue.length → Reaches (.automatonStep d k) s fun t => t.tack a = { y with run := .lost, lostCause := 1 }) ∧
        (y.queue = [] → Reaches (.automatonStep d k) s fun t => Aside s t ∧ t.tack a = y) ∧
        ∀ h rest, y.queue = h :: rest → y.queue.length ≤ 64 → bits y.head 42 1 = 0 → bits y.head 37 1 = 0 →
          let z := { y with queue := rest, lastStep := h.ev.tick, tm := match h.timer with
            | some x => y.tm.set none x none
            | none => y.tm }
          (z.choose h = none → Reaches (.automatonStep d k) s fun t => Aside s t ∧ t.tack a = z) ∧
          ∀ i, z.choose h = some i →
            let arc := arcAt z.image z.state i
            let w := z.follow arc h.ev.tick
            (bits arc 33 4 = 0 → Reaches (.automatonStep d k) s fun t => Aside s t ∧
              t.tack a = if bits arc 26 1 = 1 then { w with run := .idle, hem := [], queue := [] } else w) ∧
            (bits arc 33 4 = 4 → bits arc 26 1 = 0 → Reaches (.automatonStep d k) s fun t => Aside s t ∧
              t.tack a = { w with flags := w.flags ||| 2 ^ bits arc 27 3, acc := true }) ∧
            (bits arc 33 4 = 1 → bits arc 26 1 = 0 → Reaches (.automatonStep d k) s fun t => Aside s t ∧ ∃ x : Stop,
              t.tack a = { w with stops := w.stops ++ [x], acc := true } ∧ x.ev = h.ev ∧ x.step = s.tick d ∧ x.delivered = none ∧
              x.scope = widen (bits arc 30 3) h.ev)) ∧
      (∀ dl, (s.tack a).run = .armed → (s.tack a).timer m = some dl → dl + (s.tack a).window ≤ s.tick d →
        (∀ h ∈ (s.tack a).queue, h.timer ≠ some m) → (s.tack a).queue.length < 64 →
        Reaches (.timerExpiry d k m) s fun t => Aside s t ∧ t.tack a = (s.tack a).move (expiry a m dl)) ∧
      (((s.tack a).run ≠ .armed ∨ (s.tack a).timer m = none) → exec (.timerExpiry d k m) s = .next s)) ∧
    (∀ x, (s.tack n).stops.find? (·.delivered.isNone) = some x → Reaches (.stopDelivery n) s fun t => t.mem = s.mem ∧
      (∀ u ∈ s.scopeWarps n x.scope x.ev, (t.warp u).stopped = true) ∧ (∀ u, u ∉ s.scopeWarps n x.scope x.ev → t.warp u = s.warp u) ∧
      (3 ≤ x.scope → ∀ e ∈ s.scopeDies n x.scope x.ev, (t.die e).dcpStopped = true)) ∧
    ((∀ x ∈ (s.tack n).stops, x.delivered.isSome = true) → exec (.stopDelivery n) s = .next s) ∧
    (∀ x, (s.tack n).stops.find? s.stopDone = some x → Reaches (.stopRecordWrite n) s fun t => (t.tack n).stops = (s.tack n).stops.erase x) ∧
    ((∀ x ∈ (s.tack n).stops, s.stopDone x = false) → exec (.stopRecordWrite n) s = .next s) ∧
    (let x := v.toNat
     let u := 256 * (324 * d + x % 512) + 16 * (x / 2 ^ 9 % 16) + x / 2 ^ 13 % 32
     x / 2 ^ 18 % 2 = 0 →
       (x % 512 < 324 → x / 2 ^ 13 % 32 < 16 → (s.warp u).placed = true → (s.warp u).ended = false → (s.warp u).stopped = true →
         Reaches (.stoppedWarpResume ⟨d, by_⟩ v) s fun t => t.mem = s.mem ∧ t.blocks = s.blocks ∧ (∀ y, y ≠ u → t.warp y = s.warp y) ∧
           t.warp u = { s.warp u with stopped := false, stopTick := none
                                      frozen := (s.warp u).frozen && ((s.warp u).winding || (s.blk (s.warp u).blk).saving) } ∧
           ∀ a, (t.tack a).stops = (s.tack a).stops.map fun y => { y with warps := y.warps.flatMap fun m =>
             if m.left.isSome = true ∨ m.uid ≠ u then [m] else if (s.warp u).stands = true then [s.keepMark y m] else [] }) ∧
       ((324 ≤ x % 512 ∨ 16 ≤ x / 2 ^ 13 % 32 ∨ (s.warp u).stopped = false) → exec (.stoppedWarpResume ⟨d, by_⟩ v) s = .next s)) ∧
    (∀ q, s.reachesPage q = false → exec (.stoppedWarpResume q v) s = .next s ∧ exec (.dieResumeAll q) s = .next s) ∧
    (let all := fun (t : State) => t.mem = s.mem ∧ (t.die d).dcpStopped = false ∧
      (t.w = if dieOf s.w.uid = d then { s.w with stopped := false, stopTick := none
                                                  frozen := s.w.frozen && (s.w.winding || (s.blk s.w.blk).saving) } else s.w) ∧
      ∀ b, b / 1296 = d → (s.blk b).fault = none → (t.blk b).m.stopped = false ∧ (t.blk b).c.stopped = false
     Reaches (.dieResumeAll ⟨d, by_⟩) s all ∧ (v.toNat / 2 ^ 18 % 2 = 1 → Reaches (.stoppedWarpResume ⟨d, by_⟩ v) s all))

/-! ## The panel and its service cores (spec/23) -/

/-- R4, R411, R414 to R417: SYSCALL performs device-scope release actions and its service core answers, with acquire actions, or all ones do at once where no image
runs; panel reset, which stands while its image's check has failed; life-cycle changes and region moves, into a partition or out of one, which wipe; failover of the
supervisor; attestation.
Reset and boot are log 13 and 56, the wipe log 53, SYSCALL without an image log 55, the operands of a region move log 54, the count of the failover log 76. -/
def Obligations.PanelAndServiceCores : Prop :=
  ∀ (s : State) (p : Path) (c : Clause) (g : Guard) (sd sa : Reg) (n : BitVec 8) (answer : Word),
    (UniIssues s p c g (sPair sa ++ [.s sd.toNat]) → s.w.atLimit (flagOf c.fb) = false →
      let rel := s.release s.myCore 3
      ((rel.die s.myDie).image = false → IssuesTo (.syscall g sd sa n) s
        (rel.onW fun w => (w.setS sd.toNat 0xFFFFFFFF).addPend [.s sd.toNat] (flagOf c.fb) .counted)) ∧
      ((rel.die s.myDie).image = true → IssuesTo (.syscall g sd sa n) s
        ((rel.onW fun w => w.addPend [.s sd.toNat] (flagOf c.fb) .unit).onDie s.myDie fun y => { y with syscalls := y.syscalls ++
          [{ warp := s.w.uid, tag := s.w.nextTag, n := n.toNat, arg := s.w.SP sa.toNat, sd := sd.toNat }] }))) ∧
    (∀ d (r : Syscall), (s.die d).syscalls.find? (·.tag == r.tag) = some r →
      exec (.syscallAnswer d r.tag answer) s = .next (((s.onDie d fun y => { y with syscalls := y.syscalls.erase r }).onWarp r.warp fun w =>
        (w.setS r.sd answer).answered r.tag).acquire (coreOf r.warp) 3)) ∧
    (∀ d tag, (∀ r ∈ (s.die d).syscalls, r.tag ≠ tag) → exec (.syscallAnswer d tag answer) s = .next s) ∧
    (∀ signed, Reaches (.panelReset signed) s fun t => t.inReset = !signed ∧ t.lifeCycle = s.lifeCycle ∧ t.cycle = 0 ∧ t.w = Warp.empty ∧
      t.warps = [] ∧ t.blocks = [] ∧ t.launches = [] ∧ t.dies = [] ∧ ∀ k, t.peek k = if (dieOfKey k).isSome = true then 0 else s.peek k) ∧
    (s.inReset = true → s.sched = [] → step s = .fault .heldInReset) ∧
    (∀ phase, Reaches (.lifeCycleChange phase) s fun t => t.lifeCycle = phase ∧ t.w = { s.w with v := [], p := [], s := [], q := [] } ∧
      (∀ k, t.peek k = if (dieOfKey k).isSome = true then 0 else s.peek k) ∧ (∀ k, (t.clu k).retired = (s.clu k).retired) ∧
      (∀ a, (t.tack a).run = .unloaded) ∧ (∀ d, (t.die d).saved = []) ∧ ∀ k, (t.counters.get Counter.off k).value = 0) ∧
    (∀ r part limit troot capbase listAt queues ports,
      let assign := exec (.regionAssign r part limit troot capbase listAt queues ports) s
      let may := s.mayLeave r = true ∧ ∀ j, part = some j → s.mayJoin r j.part queues = true
      (¬ may → assign = .next s) ∧
      (∀ q, may → (s.region r).part = some q → s.drained q = false → assign = .next (s.onPart q fun x => { x with draining := true })) ∧
      (∀ j, may → part = some j → (s.region r).part = none → ∃ t, assign = .next t ∧
        (t.region r).part = some j.part ∧ (t.region r).limit = BitVec.ofNat 10 limit ∧ (t.part j.part).formed = true ∧
        (t.part j.part).draining = false ∧ (t.part j.part).capbase = capbase ∧
        (t.part j.part).queues = (if (s.part j.part).formed = true then (s.part j.part).queues else queues) ∧
        (∀ y, y ∈ (t.part j.part).ports ↔ y ∈ ports ∧ hostSite y = true ∧ ∀ e ∈ s.parts, e.1 = j.part ∨ e.2.formed = false ∨ y ∉ e.2.ports) ∧
        (∀ d ∈ diesOfRegion r, (t.die d).troot = troot ∧ (t.die d).image = j.signed ∧ (t.die d).tk = [] ∧ (t.die d).saved = []) ∧
        (∀ d e f, e ∈ (t.die d).ef → e.2 = some f → regionOf (f.owner / 4) ≠ r) ∧
        ∀ k d, dieOfKey k = some d → regionOf d = r → k < listAt → t.peek k = 0) ∧
      (∀ q, may → part = none → (s.region r).part = some q → s.drained q = true → ∃ t, assign = .next t ∧ (t.region r).part = none ∧
        (t.part q).draining = false ∧ ((t.part q).formed = true ↔ ∃ k < 16, k ≠ r ∧ (s.region k).part = some q) ∧
        (∀ d ∈ diesOfRegion r, (t.die d).image = false ∧ (t.die d).tk = []) ∧ ∀ k d, dieOfKey k = some d → regionOf d = r → t.peek k = 0)) ∧
    ((s.supervisor = 0 → s.beatTick + 1000000 ≤ s.tick 199 → exec .supervisorFailover s = .next { s with supervisor := 199 }) ∧
      ((s.supervisor ≠ 0 ∨ s.tick 199 < s.beatTick + 1000000) → exec .supervisorFailover s = .next s)) ∧
    ∀ part nonce, ∃ x : Report, exec (.attestationRequest part nonce) s = .next { s with reports := s.reports ++ [x] } ∧ x.nonce = nonce ∧
      x.supervisor = Config.measurement 0 ∧ x.image = Config.measurement (part + 1) ∧ ∀ r, r ∈ x.regions ↔ r < 16 ∧ (s.region r).part = some part

/-! ## A step of the machine -/

/-- R16, R19, R28, R243 (and log 5): where the script names a warp that takes its core's issue slot and that has settled, a step runs the
word that stands next in its clause or at its boundary, as the instruction that it decodes to (ILLEGAL_ENCODING where it is none), after
what is left of the path's earlier accesses (log 3), with the lines of the word and of the clause that it starts asked for at their home L2s
(log 15), and a lane word waits while the lane datapath is busy. A stream that goes runs the
word at its PC, and an event that the script names happens. Every step then ends with what the end of a cycle brings, `tickOn`. -/
def Obligations.StepRunsDecoded : Prop :=
  ∀ (s : State) (rest : List Turn), s.inReset = false →
    let u := { s with sched := rest }
    let ran := fun (i : Instr) (v : State) => ∀ t, exec i v = .next t → step s = .next (t.tickOn s)
    let good := fun (x : Word) (i : Instr) => decodeWord x = .ok i ∧ WellFormed i = true
    let ill := fun (x : Word) => (∃ i, decodeWord x = .ok i ∧ WellFormed i = false) ∨ ∃ e, decodeWord x = .error e
    (s.sched = .issue s.w.uid :: rest → u.issuer s.w.uid = s.w.uid →
      let here := { u with focus := .warp, w := { s.w with stalled := false } }
      (here.eligible s.w.uid = false → step s = .next (here.tickOn s)) ∧
      ∀ v p, here.eligible s.w.uid = true → here.settle (settleFuel here.w) = .go v → v.w.path = some p →
        let r := v.performParts v.w.uid fun y => p.owns y.owner
        let next := p.clause.bind fun c => c.words.head?
        let asked := r.coreFetches r.myCore [p.pc.toNat]
        (∀ x, next = some x ∨ (next = none ∧ r.fetch r.myCore p.pc.toNat = .word x) →
          let y := (if next = none then asked else r).coreFetches r.myCore (r.fetchedWith p x)
          (x.toNat < 2 ^ 31 → y.cycle < (y.core y.myCore).laneFree → step s = .next (y.stall.tickOn s)) ∧
          ((x.toNat < 2 ^ 31 → (y.core y.myCore).laneFree ≤ y.cycle) →
            (∀ i, good x i → ran i y) ∧ (ill x → ran (.illegalEncoding x) y))) ∧
        (next = none → r.fetch r.myCore p.pc.toNat = .bad → step s = .next ((asked.badLanding p).tickOn s)) ∧
        (next = none → r.fetch r.myCore p.pc.toNat = .absent → step s = .next ((asked.suspend p.pc.toNat .fetch p.mask).tickOn s)) ∧
        (next = none → r.fetch r.myCore p.pc.toNat = .cut → step s = .next ((asked.requestCut p.pc.toNat).tickOn s))) ∧
    (∀ b matrix, s.sched = (if matrix = true then .matrix b else .copy b) :: rest →
      let asked := u.streamFetches b matrix
      (u.streamGoes b matrix = false → step s = .next (u.tickOn s)) ∧
      (u.streamGoes b matrix = true → (u.streamFetch b matrix = .bad ∨ u.streamFetch b matrix = .cut) →
        step s = .next ((asked.streamFetchBad b matrix).tickOn s)) ∧
      (u.streamGoes b matrix = true → u.streamFetch b matrix = .absent → step s = .next ((asked.streamFetchAbsent b matrix).tickOn s)) ∧
      ∀ x, u.streamGoes b matrix = true → u.streamFetch b matrix = .word x →
        let v := { (asked.onStreamOf b matrix fun y => { y with word := some x }) with focus := if matrix = true then .matrix b else .copy b }
        let code := 0xE0 ≤ x.toNat / 2 ^ 24 ∧ x.toNat / 2 ^ 24 ≤ 0xEA
        (∀ i, good x i → code → ran i v) ∧ ((ill x ∨ ¬ code) → ran (.illFormedStreamWord x) v)) ∧
    (∀ i, s.sched = .event i :: rest → isEvent i = true → ran i u)

/-- The canonical form of memory (log 1): whatever a step does, in whatever state, memory stays the one list that says what it
holds.
The form is the model's own. -/
def Obligations.MemoryStaysCanonical : Prop :=
  ∀ s t : State, Memory.wf s.mem → step s = .next t → Memory.wf t.mem

/-- R25, R45, R332, R357, R367, R390, R415, R416: what reset leaves. The values that the spec does not give are those of log 12, and
that every address reads 0 is log 1. -/
def Obligations.ResetState : Prop :=
  let s := State.reset
  Memory.wf s.mem ∧ s.inReset = false ∧ s.launches = [] ∧ s.blocks = [] ∧
  (∀ k, s.peek k = 0) ∧ (∀ c r i, (s.warp c).V r i = 0 ∧ (s.warp c).S r = 0) ∧
  (∀ d, s.tick d = 0 ∧ (s.die d).tickoff = 0 ∧ (s.die d).locked = true) ∧
  (∀ r, (s.region r).droop = 1 ∧ (s.region r).slack = 0 ∧ s.cad r = 1) ∧
  (∀ n, (s.tack n).run = .unloaded) ∧ (∀ d, (s.die d).ef = []) ∧ s.traced = false ∧ (∀ c, (s.core c).loadCap = 8) ∧
  (∀ p, (s.part p).formed = false) ∧ (∀ k, (s.counters.get Counter.off k).value = 0) ∧ ∀ x d, (s.link x d).failed = false
end

