-- ==== Sys2Proof/Laws/Encoding.lean ====
section
/-!
SUPPORT. Each word format of R11, R12 and R244 read back: what the decoder's fields give on the word that a packer
builds, and the composite fields (a code beside a predicate, a count beside a number).
-/
namespace Sys2Proof.Laws
set_option Elab.async false

theorem bit_toNat (b : Bool) : (b.toNat == 1) = b := by cases b <;> rfl
theorem reg_ext {a b : Reg} (h : a.toNat = b.toNat) : a = b := BitVec.eq_of_toNat_eq h


theorem fields_l3_toNat (opc : Nat) (pg : BitVec 3) (neg : Bool) (vd : Reg) (va : Reg) (vb : Reg) (md : Nat) (h : opc < 64) (hm : md < 8) : (packL3 opc pg neg vd va vb md).toNat = opc * 2 ^ 25 + pg.toNat * 2 ^ 22 + neg.toNat * 2 ^ 21 + vd.toNat * 2 ^ 15 + va.toNat * 2 ^ 9 + vb.toNat * 2 ^ 3 + md := by
  have := pg.isLt
  have := neg.toNat_le
  have := vd.isLt
  have := va.isLt
  have := vb.isLt
  simp only [packL3, BitVec.toNat_ofNat]; omega
/-- The fields of a word of this format. -/
theorem fields_l3 (opc : Nat) (pg : BitVec 3) (neg : Bool) (vd : Reg) (va : Reg) (vb : Reg) (md : Nat) (h : opc < 64) (hm : md < 8) :
    decodeWord (packL3 opc pg neg vd va vb md) = decodeLane ⟨packL3 opc pg neg vd va vb md⟩ ∧ 
    (⟨packL3 opc pg neg vd va vb md⟩ : Fields).opcL = opc ∧ 
    (⟨packL3 opc pg neg vd va vb md⟩ : Fields).guardL = ⟨pg, neg⟩ ∧ 
    (⟨packL3 opc pg neg vd va vb md⟩ : Fields).pg = pg ∧ 
    (⟨packL3 opc pg neg vd va vb md⟩ : Fields).neg = neg ∧ 
    (⟨packL3 opc pg neg vd va vb md⟩ : Fields).vd = vd ∧ 
    (⟨packL3 opc pg neg vd va vb md⟩ : Fields).va = va ∧ 
    (⟨packL3 opc pg neg vd va vb md⟩ : Fields).vb = vb ∧ 
    (⟨packL3 opc pg neg vd va vb md⟩ : Fields).md3 = md := by
  have e := fields_l3_toNat opc pg neg vd va vb md h hm
  have := pg.isLt
  have := neg.toNat_le
  have := vd.isLt
  have := va.isLt
  have := vb.isLt
  refine ⟨?_, ?_, ?_, ?_, ?_, ?_, ?_, ?_, ?_⟩
  · simp only [decodeWord, e]
    rw [if_pos (by omega)]
  · simp only [Fields.opcL, bitsOf, e]
    first | omega | (apply BitVec.eq_of_toNat_eq; simp only [BitVec.toNat_ofNat]; omega)
  · have h1 : (opc * 2 ^ 25 + pg.toNat * 2 ^ 22 + neg.toNat * 2 ^ 21 + vd.toNat * 2 ^ 15 + va.toNat * 2 ^ 9 + vb.toNat * 2 ^ 3 + md) / 2 ^ 22 % 2 ^ 3 = pg.toNat := by omega
    have h2 : (opc * 2 ^ 25 + pg.toNat * 2 ^ 22 + neg.toNat * 2 ^ 21 + vd.toNat * 2 ^ 15 + va.toNat * 2 ^ 9 + vb.toNat * 2 ^ 3 + md) / 2 ^ 21 % 2 ^ 1 = neg.toNat := by omega
    simp only [Fields.guardL, Fields.pg, Fields.neg, bitsOf, e, h1, h2, BitVec.ofNat_toNat, BitVec.setWidth_eq, bit_toNat]
  · simp only [Fields.pg, bitsOf, e]
    first | omega | (apply BitVec.eq_of_toNat_eq; simp only [BitVec.toNat_ofNat]; omega)
  · have h2 : (opc * 2 ^ 25 + pg.toNat * 2 ^ 22 + neg.toNat * 2 ^ 21 + vd.toNat * 2 ^ 15 + va.toNat * 2 ^ 9 + vb.toNat * 2 ^ 3 + md) / 2 ^ 21 % 2 ^ 1 = neg.toNat := by omega
    simp only [Fields.neg, bitsOf, e, h2, bit_toNat]
  · simp only [Fields.vd, fld6, bitsOf, e]
    first | omega | (apply BitVec.eq_of_toNat_eq; simp only [BitVec.toNat_ofNat]; omega)
  · simp only [Fields.va, fld6, bitsOf, e]
    first | omega | (apply BitVec.eq_of_toNat_eq; simp only [BitVec.toNat_ofNat]; omega)
  · simp only [Fields.vb, fld6, bitsOf, e]
    first | omega | (apply BitVec.eq_of_toNat_eq; simp only [BitVec.toNat_ofNat]; omega)
  · simp only [Fields.md3, bitsOf, e]
    first | omega | (apply BitVec.eq_of_toNat_eq; simp only [BitVec.toNat_ofNat]; omega)

theorem fields_li_toNat (opc : Nat) (pg : BitVec 3) (neg : Bool) (vd : Reg) (va : Reg) (imm : BitVec 9) (h : opc < 64) : (packLI opc pg neg vd va imm).toNat = opc * 2 ^ 25 + pg.toNat * 2 ^ 22 + neg.toNat * 2 ^ 21 + vd.toNat * 2 ^ 15 + va.toNat * 2 ^ 9 + imm.toNat := by
  have := pg.isLt
  have := neg.toNat_le
  have := vd.isLt
  have := va.isLt
  have := imm.isLt
  simp only [packLI, BitVec.toNat_ofNat]; omega
/-- The fields of a word of this format. -/
theorem fields_li (opc : Nat) (pg : BitVec 3) (neg : Bool) (vd : Reg) (va : Reg) (imm : BitVec 9) (h : opc < 64) :
    decodeWord (packLI opc pg neg vd va imm) = decodeLane ⟨packLI opc pg neg vd va imm⟩ ∧ 
    (⟨packLI opc pg neg vd va imm⟩ : Fields).opcL = opc ∧ 
    (⟨packLI opc pg neg vd va imm⟩ : Fields).guardL = ⟨pg, neg⟩ ∧ 
    (⟨packLI opc pg neg vd va imm⟩ : Fields).vd = vd ∧ 
    (⟨packLI opc pg neg vd va imm⟩ : Fields).va = va ∧ 
    (⟨packLI opc pg neg vd va imm⟩ : Fields).imm9 = imm := by
  have e := fields_li_toNat opc pg neg vd va imm h
  have := pg.isLt
  have := neg.toNat_le
  have := vd.isLt
  have := va.isLt
  have := imm.isLt
  refine ⟨?_, ?_, ?_, ?_, ?_, ?_⟩
  · simp only [decodeWord, e]
    rw [if_pos (by omega)]
  · simp only [Fields.opcL, bitsOf, e]
    first | omega | (apply BitVec.eq_of_toNat_eq; simp only [BitVec.toNat_ofNat]; omega)
  · have h1 : (opc * 2 ^ 25 + pg.toNat * 2 ^ 22 + neg.toNat * 2 ^ 21 + vd.toNat * 2 ^ 15 + va.toNat * 2 ^ 9 + imm.toNat) / 2 ^ 22 % 2 ^ 3 = pg.toNat := by omega
    have h2 : (opc * 2 ^ 25 + pg.toNat * 2 ^ 22 + neg.toNat * 2 ^ 21 + vd.toNat * 2 ^ 15 + va.toNat * 2 ^ 9 + imm.toNat) / 2 ^ 21 % 2 ^ 1 = neg.toNat := by omega
    simp only [Fields.guardL, Fields.pg, Fields.neg, bitsOf, e, h1, h2, BitVec.ofNat_toNat, BitVec.setWidth_eq, bit_toNat]
  · simp only [Fields.vd, fld6, bitsOf, e]
    first | omega | (apply BitVec.eq_of_toNat_eq; simp only [BitVec.toNat_ofNat]; omega)
  · simp only [Fields.va, fld6, bitsOf, e]
    first | omega | (apply BitVec.eq_of_toNat_eq; simp only [BitVec.toNat_ofNat]; omega)
  · simp only [Fields.imm9, bitsOf, e]
    first | omega | (apply BitVec.eq_of_toNat_eq; simp only [BitVec.toNat_ofNat]; omega)

theorem fields_lm_toNat (opc : Nat) (pg : BitVec 3) (neg : Bool) (vd : Reg) (va : Reg) (ab : BitVec 3) (imm : BitVec 6) (h : opc < 64) : (packLM opc pg neg vd va ab imm).toNat = opc * 2 ^ 25 + pg.toNat * 2 ^ 22 + neg.toNat * 2 ^ 21 + vd.toNat * 2 ^ 15 + va.toNat * 2 ^ 9 + ab.toNat * 2 ^ 6 + imm.toNat := by
  have := pg.isLt
  have := neg.toNat_le
  have := vd.isLt
  have := va.isLt
  have := ab.isLt
  have := imm.isLt
  simp only [packLM, BitVec.toNat_ofNat]; omega
/-- The fields of a word of this format. -/
theorem fields_lm (opc : Nat) (pg : BitVec 3) (neg : Bool) (vd : Reg) (va : Reg) (ab : BitVec 3) (imm : BitVec 6) (h : opc < 64) :
    decodeWord (packLM opc pg neg vd va ab imm) = decodeLane ⟨packLM opc pg neg vd va ab imm⟩ ∧ 
    (⟨packLM opc pg neg vd va ab imm⟩ : Fields).opcL = opc ∧ 
    (⟨packLM opc pg neg vd va ab imm⟩ : Fields).guardL = ⟨pg, neg⟩ ∧ 
    (⟨packLM opc pg neg vd va ab imm⟩ : Fields).vd = vd ∧ 
    (⟨packLM opc pg neg vd va ab imm⟩ : Fields).va = va ∧ 
    (⟨packLM opc pg neg vd va ab imm⟩ : Fields).ab = ab ∧ 
    (⟨packLM opc pg neg vd va ab imm⟩ : Fields).imm6 = imm := by
  have e := fields_lm_toNat opc pg neg vd va ab imm h
  have := pg.isLt
  have := neg.toNat_le
  have := vd.isLt
  have := va.isLt
  have := ab.isLt
  have := imm.isLt
  refine ⟨?_, ?_, ?_, ?_, ?_, ?_, ?_⟩
  · simp only [decodeWord, e]
    rw [if_pos (by omega)]
  · simp only [Fields.opcL, bitsOf, e]
    first | omega | (apply BitVec.eq_of_toNat_eq; simp only [BitVec.toNat_ofNat]; omega)
  · have h1 : (opc * 2 ^ 25 + pg.toNat * 2 ^ 22 + neg.toNat * 2 ^ 21 + vd.toNat * 2 ^ 15 + va.toNat * 2 ^ 9 + ab.toNat * 2 ^ 6 + imm.toNat) / 2 ^ 22 % 2 ^ 3 = pg.toNat := by omega
    have h2 : (opc * 2 ^ 25 + pg.toNat * 2 ^ 22 + neg.toNat * 2 ^ 21 + vd.toNat * 2 ^ 15 + va.toNat * 2 ^ 9 + ab.toNat * 2 ^ 6 + imm.toNat) / 2 ^ 21 % 2 ^ 1 = neg.toNat := by omega
    simp only [Fields.guardL, Fields.pg, Fields.neg, bitsOf, e, h1, h2, BitVec.ofNat_toNat, BitVec.setWidth_eq, bit_toNat]
  · simp only [Fields.vd, fld6, bitsOf, e]
    first | omega | (apply BitVec.eq_of_toNat_eq; simp only [BitVec.toNat_ofNat]; omega)
  · simp only [Fields.va, fld6, bitsOf, e]
    first | omega | (apply BitVec.eq_of_toNat_eq; simp only [BitVec.toNat_ofNat]; omega)
  · simp only [Fields.ab, bitsOf, e]
    first | omega | (apply BitVec.eq_of_toNat_eq; simp only [BitVec.toNat_ofNat]; omega)
  · simp only [Fields.imm6, bitsOf, e]
    first | omega | (apply BitVec.eq_of_toNat_eq; simp only [BitVec.toNat_ofNat]; omega)

theorem fields_l4_toNat (opc : Nat) (neg : Bool) (vd : Reg) (va : Reg) (vb : Reg) (vc : Reg) (h : opc < 64) : (packL4 opc neg vd va vb vc).toNat = opc * 2 ^ 25 + neg.toNat * 2 ^ 24 + vd.toNat * 2 ^ 18 + va.toNat * 2 ^ 12 + vb.toNat * 2 ^ 6 + vc.toNat := by
  have := neg.toNat_le
  have := vd.isLt
  have := va.isLt
  have := vb.isLt
  have := vc.isLt
  simp only [packL4, BitVec.toNat_ofNat]; omega
/-- The fields of a word of this format. -/
theorem fields_l4 (opc : Nat) (neg : Bool) (vd : Reg) (va : Reg) (vb : Reg) (vc : Reg) (h : opc < 64) :
    decodeWord (packL4 opc neg vd va vb vc) = decodeLane ⟨packL4 opc neg vd va vb vc⟩ ∧ 
    (⟨packL4 opc neg vd va vb vc⟩ : Fields).opcL = opc ∧ 
    (⟨packL4 opc neg vd va vb vc⟩ : Fields).n4 = neg ∧ 
    (⟨packL4 opc neg vd va vb vc⟩ : Fields).vd4 = vd ∧ 
    (⟨packL4 opc neg vd va vb vc⟩ : Fields).va4 = va ∧ 
    (⟨packL4 opc neg vd va vb vc⟩ : Fields).vb4 = vb ∧ 
    (⟨packL4 opc neg vd va vb vc⟩ : Fields).vc4 = vc := by
  have e := fields_l4_toNat opc neg vd va vb vc h
  have := neg.toNat_le
  have := vd.isLt
  have := va.isLt
  have := vb.isLt
  have := vc.isLt
  refine ⟨?_, ?_, ?_, ?_, ?_, ?_, ?_⟩
  · simp only [decodeWord, e]
    rw [if_pos (by omega)]
  · simp only [Fields.opcL, bitsOf, e]
    first | omega | (apply BitVec.eq_of_toNat_eq; simp only [BitVec.toNat_ofNat]; omega)
  · have h2 : (opc * 2 ^ 25 + neg.toNat * 2 ^ 24 + vd.toNat * 2 ^ 18 + va.toNat * 2 ^ 12 + vb.toNat * 2 ^ 6 + vc.toNat) / 2 ^ 24 % 2 ^ 1 = neg.toNat := by omega
    simp only [Fields.n4, bitsOf, e, h2, bit_toNat]
  · simp only [Fields.vd4, fld6, bitsOf, e]
    first | omega | (apply BitVec.eq_of_toNat_eq; simp only [BitVec.toNat_ofNat]; omega)
  · simp only [Fields.va4, fld6, bitsOf, e]
    first | omega | (apply BitVec.eq_of_toNat_eq; simp only [BitVec.toNat_ofNat]; omega)
  · simp only [Fields.vb4, fld6, bitsOf, e]
    first | omega | (apply BitVec.eq_of_toNat_eq; simp only [BitVec.toNat_ofNat]; omega)
  · simp only [Fields.vc4, fld6, bitsOf, e]
    first | omega | (apply BitVec.eq_of_toNat_eq; simp only [BitVec.toNat_ofNat]; omega)

theorem fields_u3_toNat (opc : Nat) (q : BitVec 3) (neg : Bool) (sd : Reg) (sa : Reg) (sb : Reg) (md : Nat) (h : opc < 128) (hm : md < 4) : (packU3 opc q neg sd sa sb md).toNat = 2 ^ 31 + opc * 2 ^ 24 + q.toNat * 2 ^ 21 + neg.toNat * 2 ^ 20 + sd.toNat * 2 ^ 14 + sa.toNat * 2 ^ 8 + sb.toNat * 2 ^ 2 + md := by
  have := q.isLt
  have := neg.toNat_le
  have := sd.isLt
  have := sa.isLt
  have := sb.isLt
  simp only [packU3, BitVec.toNat_ofNat]; omega
/-- The fields of a word of this format. -/
theorem fields_u3 (opc : Nat) (q : BitVec 3) (neg : Bool) (sd : Reg) (sa : Reg) (sb : Reg) (md : Nat) (h : opc < 128) (hm : md < 4) :
    decodeWord (packU3 opc q neg sd sa sb md) = decodeUniform ⟨packU3 opc q neg sd sa sb md⟩ ∧ 
    (⟨packU3 opc q neg sd sa sb md⟩ : Fields).opcU = opc ∧ 
    (⟨packU3 opc q neg sd sa sb md⟩ : Fields).guardU = ⟨q, neg⟩ ∧ 
    (⟨packU3 opc q neg sd sa sb md⟩ : Fields).sd = sd ∧ 
    (⟨packU3 opc q neg sd sa sb md⟩ : Fields).sa = sa ∧ 
    (⟨packU3 opc q neg sd sa sb md⟩ : Fields).sb = sb ∧ 
    (⟨packU3 opc q neg sd sa sb md⟩ : Fields).md2 = md := by
  have e := fields_u3_toNat opc q neg sd sa sb md h hm
  have := q.isLt
  have := neg.toNat_le
  have := sd.isLt
  have := sa.isLt
  have := sb.isLt
  refine ⟨?_, ?_, ?_, ?_, ?_, ?_, ?_⟩
  · simp only [decodeWord, e]
    rw [if_neg (by omega)]
  · simp only [Fields.opcU, bitsOf, e]
    first | omega | (apply BitVec.eq_of_toNat_eq; simp only [BitVec.toNat_ofNat]; omega)
  · have h1 : (2 ^ 31 + opc * 2 ^ 24 + q.toNat * 2 ^ 21 + neg.toNat * 2 ^ 20 + sd.toNat * 2 ^ 14 + sa.toNat * 2 ^ 8 + sb.toNat * 2 ^ 2 + md) / 2 ^ 21 % 2 ^ 3 = q.toNat := by omega
    have h2 : (2 ^ 31 + opc * 2 ^ 24 + q.toNat * 2 ^ 21 + neg.toNat * 2 ^ 20 + sd.toNat * 2 ^ 14 + sa.toNat * 2 ^ 8 + sb.toNat * 2 ^ 2 + md) / 2 ^ 20 % 2 ^ 1 = neg.toNat := by omega
    simp only [Fields.guardU, bitsOf, e, h1, h2, BitVec.ofNat_toNat, BitVec.setWidth_eq, bit_toNat]
  · simp only [Fields.sd, fld6, bitsOf, e]
    first | omega | (apply BitVec.eq_of_toNat_eq; simp only [BitVec.toNat_ofNat]; omega)
  · simp only [Fields.sa, fld6, bitsOf, e]
    first | omega | (apply BitVec.eq_of_toNat_eq; simp only [BitVec.toNat_ofNat]; omega)
  · simp only [Fields.sb, fld6, bitsOf, e]
    first | omega | (apply BitVec.eq_of_toNat_eq; simp only [BitVec.toNat_ofNat]; omega)
  · simp only [Fields.md2, bitsOf, e]
    first | omega | (apply BitVec.eq_of_toNat_eq; simp only [BitVec.toNat_ofNat]; omega)

theorem fields_ui_toNat (opc : Nat) (q : BitVec 3) (neg : Bool) (sd : Reg) (sa : Reg) (imm : BitVec 8) (h : opc < 128) : (packUI opc q neg sd sa imm).toNat = 2 ^ 31 + opc * 2 ^ 24 + q.toNat * 2 ^ 21 + neg.toNat * 2 ^ 20 + sd.toNat * 2 ^ 14 + sa.toNat * 2 ^ 8 + imm.toNat := by
  have := q.isLt
  have := neg.toNat_le
  have := sd.isLt
  have := sa.isLt
  have := imm.isLt
  simp only [packUI, BitVec.toNat_ofNat]; omega
/-- The fields of a word of this format. -/
theorem fields_ui (opc : Nat) (q : BitVec 3) (neg : Bool) (sd : Reg) (sa : Reg) (imm : BitVec 8) (h : opc < 128) :
    decodeWord (packUI opc q neg sd sa imm) = decodeUniform ⟨packUI opc q neg sd sa imm⟩ ∧ 
    (⟨packUI opc q neg sd sa imm⟩ : Fields).opcU = opc ∧ 
    (⟨packUI opc q neg sd sa imm⟩ : Fields).guardU = ⟨q, neg⟩ ∧ 
    (⟨packUI opc q neg sd sa imm⟩ : Fields).sd = sd ∧ 
    (⟨packUI opc q neg sd sa imm⟩ : Fields).sa = sa ∧ 
    (⟨packUI opc q neg sd sa imm⟩ : Fields).imm8 = imm := by
  have e := fields_ui_toNat opc q neg sd sa imm h
  have := q.isLt
  have := neg.toNat_le
  have := sd.isLt
  have := sa.isLt
  have := imm.isLt
  refine ⟨?_, ?_, ?_, ?_, ?_, ?_⟩
  · simp only [decodeWord, e]
    rw [if_neg (by omega)]
  · simp only [Fields.opcU, bitsOf, e]
    first | omega | (apply BitVec.eq_of_toNat_eq; simp only [BitVec.toNat_ofNat]; omega)
  · have h1 : (2 ^ 31 + opc * 2 ^ 24 + q.toNat * 2 ^ 21 + neg.toNat * 2 ^ 20 + sd.toNat * 2 ^ 14 + sa.toNat * 2 ^ 8 + imm.toNat) / 2 ^ 21 % 2 ^ 3 = q.toNat := by omega
    have h2 : (2 ^ 31 + opc * 2 ^ 24 + q.toNat * 2 ^ 21 + neg.toNat * 2 ^ 20 + sd.toNat * 2 ^ 14 + sa.toNat * 2 ^ 8 + imm.toNat) / 2 ^ 20 % 2 ^ 1 = neg.toNat := by omega
    simp only [Fields.guardU, bitsOf, e, h1, h2, BitVec.ofNat_toNat, BitVec.setWidth_eq, bit_toNat]
  · simp only [Fields.sd, fld6, bitsOf, e]
    first | omega | (apply BitVec.eq_of_toNat_eq; simp only [BitVec.toNat_ofNat]; omega)
  · simp only [Fields.sa, fld6, bitsOf, e]
    first | omega | (apply BitVec.eq_of_toNat_eq; simp only [BitVec.toNat_ofNat]; omega)
  · simp only [Fields.imm8, bitsOf, e]
    first | omega | (apply BitVec.eq_of_toNat_eq; simp only [BitVec.toNat_ofNat]; omega)

theorem fields_uw_toNat (opc : Nat) (sd : Reg) (imm : BitVec 18) (h : opc < 128) : (packUW opc sd imm).toNat = 2 ^ 31 + opc * 2 ^ 24 + sd.toNat * 2 ^ 18 + imm.toNat := by
  have := sd.isLt
  have := imm.isLt
  simp only [packUW, BitVec.toNat_ofNat]; omega
/-- The fields of a word of this format. -/
theorem fields_uw (opc : Nat) (sd : Reg) (imm : BitVec 18) (h : opc < 128) :
    decodeWord (packUW opc sd imm) = decodeUniform ⟨packUW opc sd imm⟩ ∧ 
    (⟨packUW opc sd imm⟩ : Fields).opcU = opc ∧ 
    (⟨packUW opc sd imm⟩ : Fields).sdW = sd ∧ 
    (⟨packUW opc sd imm⟩ : Fields).imm18 = imm := by
  have e := fields_uw_toNat opc sd imm h
  have := sd.isLt
  have := imm.isLt
  refine ⟨?_, ?_, ?_, ?_⟩
  · simp only [decodeWord, e]
    rw [if_neg (by omega)]
  · simp only [Fields.opcU, bitsOf, e]
    first | omega | (apply BitVec.eq_of_toNat_eq; simp only [BitVec.toNat_ofNat]; omega)
  · simp only [Fields.sdW, fld6, bitsOf, e]
    first | omega | (apply BitVec.eq_of_toNat_eq; simp only [BitVec.toNat_ofNat]; omega)
  · simp only [Fields.imm18, bitsOf, e]
    first | omega | (apply BitVec.eq_of_toNat_eq; simp only [BitVec.toNat_ofNat]; omega)

theorem fields_ub_toNat (opc : Nat) (q : BitVec 3) (neg : Bool) (off : BitVec 21) (h : opc < 127) (he : opc % 2 = 0) : (packUB opc q neg off).toNat = 2 ^ 31 + opc * 2 ^ 24 + off.toNat / 2 ^ 20 * 2 ^ 24 + q.toNat * 2 ^ 21 + neg.toNat * 2 ^ 20 + off.toNat % 2 ^ 20 := by
  have := q.isLt
  have := neg.toNat_le
  have := off.isLt
  simp only [packUB, BitVec.toNat_ofNat]; omega
/-- The fields of a word of this format. -/
theorem fields_ub (opc : Nat) (q : BitVec 3) (neg : Bool) (off : BitVec 21) (h : opc < 127) (he : opc % 2 = 0) :
    decodeWord (packUB opc q neg off) = decodeUniform ⟨packUB opc q neg off⟩ ∧ 
    (⟨packUB opc q neg off⟩ : Fields).opcU = opc + off.toNat / 2 ^ 20 ∧ 
    (⟨packUB opc q neg off⟩ : Fields).guardU = ⟨q, neg⟩ ∧ 
    (⟨packUB opc q neg off⟩ : Fields).off21 = off := by
  have e := fields_ub_toNat opc q neg off h he
  have := q.isLt
  have := neg.toNat_le
  have := off.isLt
  refine ⟨?_, ?_, ?_, ?_⟩
  · simp only [decodeWord, e]
    rw [if_neg (by omega)]
  · simp only [Fields.opcU, bitsOf, e]
    have : off.toNat / 2 ^ 20 ≤ 1 := by omega
    have : off.toNat % 2 ^ 20 < 2 ^ 20 := Nat.mod_lt _ (by decide)
    generalize off.toNat / 2 ^ 20 = a at *
    generalize off.toNat % 2 ^ 20 = b at *
    first | omega | (apply BitVec.eq_of_toNat_eq; simp only [BitVec.toNat_ofNat]; omega)
  · have h1 : (2 ^ 31 + opc * 2 ^ 24 + off.toNat / 2 ^ 20 * 2 ^ 24 + q.toNat * 2 ^ 21 + neg.toNat * 2 ^ 20 + off.toNat % 2 ^ 20) / 2 ^ 21 % 2 ^ 3 = q.toNat := by omega
    have h2 : (2 ^ 31 + opc * 2 ^ 24 + off.toNat / 2 ^ 20 * 2 ^ 24 + q.toNat * 2 ^ 21 + neg.toNat * 2 ^ 20 + off.toNat % 2 ^ 20) / 2 ^ 20 % 2 ^ 1 = neg.toNat := by omega
    simp only [Fields.guardU, bitsOf, e, h1, h2, BitVec.ofNat_toNat, BitVec.setWidth_eq, bit_toNat]
  · simp only [Fields.off21, bitsOf, e]
    first | omega | (apply BitVec.eq_of_toNat_eq; simp only [BitVec.toNat_ofNat]; omega)

theorem fields_brl_toNat (opc : Nat) (q : BitVec 3) (neg : Bool) (target : BitVec 12) (join : BitVec 8) (h : opc < 128) : (packBRL opc q neg target join).toNat = 2 ^ 31 + opc * 2 ^ 24 + q.toNat * 2 ^ 21 + neg.toNat * 2 ^ 20 + target.toNat * 2 ^ 8 + join.toNat := by
  have := q.isLt
  have := neg.toNat_le
  have := target.isLt
  have := join.isLt
  simp only [packBRL, BitVec.toNat_ofNat]; omega
/-- The fields of a word of this format. -/
theorem fields_brl (opc : Nat) (q : BitVec 3) (neg : Bool) (target : BitVec 12) (join : BitVec 8) (h : opc < 128) :
    decodeWord (packBRL opc q neg target join) = decodeUniform ⟨packBRL opc q neg target join⟩ ∧ 
    (⟨packBRL opc q neg target join⟩ : Fields).opcU = opc ∧ 
    (⟨packBRL opc q neg target join⟩ : Fields).guardU = ⟨q, neg⟩ ∧ 
    (⟨packBRL opc q neg target join⟩ : Fields).tgt12 = target ∧ 
    (⟨packBRL opc q neg target join⟩ : Fields).join8 = join := by
  have e := fields_brl_toNat opc q neg target join h
  have := q.isLt
  have := neg.toNat_le
  have := target.isLt
  have := join.isLt
  refine ⟨?_, ?_, ?_, ?_, ?_⟩
  · simp only [decodeWord, e]
    rw [if_neg (by omega)]
  · simp only [Fields.opcU, bitsOf, e]
    first | omega | (apply BitVec.eq_of_toNat_eq; simp only [BitVec.toNat_ofNat]; omega)
  · have h1 : (2 ^ 31 + opc * 2 ^ 24 + q.toNat * 2 ^ 21 + neg.toNat * 2 ^ 20 + target.toNat * 2 ^ 8 + join.toNat) / 2 ^ 21 % 2 ^ 3 = q.toNat := by omega
    have h2 : (2 ^ 31 + opc * 2 ^ 24 + q.toNat * 2 ^ 21 + neg.toNat * 2 ^ 20 + target.toNat * 2 ^ 8 + join.toNat) / 2 ^ 20 % 2 ^ 1 = neg.toNat := by omega
    simp only [Fields.guardU, bitsOf, e, h1, h2, BitVec.ofNat_toNat, BitVec.setWidth_eq, bit_toNat]
  · simp only [Fields.tgt12, bitsOf, e]
    first | omega | (apply BitVec.eq_of_toNat_eq; simp only [BitVec.toNat_ofNat]; omega)
  · simp only [Fields.join8, bitsOf, e]
    first | omega | (apply BitVec.eq_of_toNat_eq; simp only [BitVec.toNat_ofNat]; omega)

theorem fields_cl_toNat (wait : BitVec 12) (fa : BitVec 4) (fb : BitVec 4) (len : BitVec 4)  : (packCL wait fa fb len).toNat = 2 ^ 31 + wait.toNat * 2 ^ 12 + fa.toNat * 2 ^ 8 + fb.toNat * 2 ^ 4 + len.toNat := by
  have := wait.isLt
  have := fa.isLt
  have := fb.isLt
  have := len.isLt
  simp only [packCL, BitVec.toNat_ofNat]; omega
/-- The fields of a word of this format. -/
theorem fields_cl (wait : BitVec 12) (fa : BitVec 4) (fb : BitVec 4) (len : BitVec 4)  :
    decodeWord (packCL wait fa fb len) = decodeUniform ⟨packCL wait fa fb len⟩ ∧ 
    (⟨packCL wait fa fb len⟩ : Fields).opcU = 0 ∧ 
    (⟨packCL wait fa fb len⟩ : Fields).wait12 = wait ∧ 
    (⟨packCL wait fa fb len⟩ : Fields).fa4 = fa ∧ 
    (⟨packCL wait fa fb len⟩ : Fields).fb4 = fb ∧ 
    (⟨packCL wait fa fb len⟩ : Fields).len4 = len := by
  have e := fields_cl_toNat wait fa fb len 
  have := wait.isLt
  have := fa.isLt
  have := fb.isLt
  have := len.isLt
  refine ⟨?_, ?_, ?_, ?_, ?_, ?_⟩
  · simp only [decodeWord, e]
    rw [if_neg (by omega)]
  · simp only [Fields.opcU, bitsOf, e]
    first | omega | (apply BitVec.eq_of_toNat_eq; simp only [BitVec.toNat_ofNat]; omega)
  · simp only [Fields.wait12, bitsOf, e]
    first | omega | (apply BitVec.eq_of_toNat_eq; simp only [BitVec.toNat_ofNat]; omega)
  · simp only [Fields.fa4, bitsOf, e]
    first | omega | (apply BitVec.eq_of_toNat_eq; simp only [BitVec.toNat_ofNat]; omega)
  · simp only [Fields.fb4, bitsOf, e]
    first | omega | (apply BitVec.eq_of_toNat_eq; simp only [BitVec.toNat_ofNat]; omega)
  · simp only [Fields.len4, bitsOf, e]
    first | omega | (apply BitVec.eq_of_toNat_eq; simp only [BitVec.toNat_ofNat]; omega)

theorem fields_st_toNat (opc : Nat) (h : BitVec 5) (gr : BitVec 5) (x : BitVec 8) (y : BitVec 2) (z : BitVec 4) (ho : opc < 128) : (packST opc h gr x y z).toNat = 2 ^ 31 + opc * 2 ^ 24 + h.toNat * 2 ^ 19 + gr.toNat * 2 ^ 14 + x.toNat * 2 ^ 6 + y.toNat * 2 ^ 4 + z.toNat := by
  have := h.isLt
  have := gr.isLt
  have := x.isLt
  have := y.isLt
  have := z.isLt
  simp only [packST, BitVec.toNat_ofNat]; omega
/-- The fields of a word of this format. -/
theorem fields_st (opc : Nat) (h : BitVec 5) (gr : BitVec 5) (x : BitVec 8) (y : BitVec 2) (z : BitVec 4) (ho : opc < 128) :
    decodeWord (packST opc h gr x y z) = decodeUniform ⟨packST opc h gr x y z⟩ ∧ 
    (⟨packST opc h gr x y z⟩ : Fields).opcU = opc ∧ 
    (⟨packST opc h gr x y z⟩ : Fields).h = h ∧ 
    (⟨packST opc h gr x y z⟩ : Fields).gr = gr ∧ 
    (⟨packST opc h gr x y z⟩ : Fields).x = x ∧ 
    (⟨packST opc h gr x y z⟩ : Fields).y = y ∧ 
    (⟨packST opc h gr x y z⟩ : Fields).z = z ∧ 
    (⟨packST opc h gr x y z⟩ : Fields).pay = h.toNat * 2 ^ 19 + gr.toNat * 2 ^ 14 + x.toNat * 2 ^ 6 + y.toNat * 2 ^ 4 + z.toNat := by
  have e := fields_st_toNat opc h gr x y z ho
  have := h.isLt
  have := gr.isLt
  have := x.isLt
  have := y.isLt
  have := z.isLt
  refine ⟨?_, ?_, ?_, ?_, ?_, ?_, ?_, ?_⟩
  · simp only [decodeWord, e]
    rw [if_neg (by omega)]
  · simp only [Fields.opcU, bitsOf, e]
    first | omega | (apply BitVec.eq_of_toNat_eq; simp only [BitVec.toNat_ofNat]; omega)
  · simp only [Fields.h, bitsOf, e]
    first | omega | (apply BitVec.eq_of_toNat_eq; simp only [BitVec.toNat_ofNat]; omega)
  · simp only [Fields.gr, bitsOf, e]
    first | omega | (apply BitVec.eq_of_toNat_eq; simp only [BitVec.toNat_ofNat]; omega)
  · simp only [Fields.x, bitsOf, e]
    first | omega | (apply BitVec.eq_of_toNat_eq; simp only [BitVec.toNat_ofNat]; omega)
  · simp only [Fields.y, bitsOf, e]
    first | omega | (apply BitVec.eq_of_toNat_eq; simp only [BitVec.toNat_ofNat]; omega)
  · simp only [Fields.z, bitsOf, e]
    first | omega | (apply BitVec.eq_of_toNat_eq; simp only [BitVec.toNat_ofNat]; omega)
  · simp only [Fields.pay, bitsOf, e]
    first | omega | (apply BitVec.eq_of_toNat_eq; simp only [BitVec.toNat_ofNat]; omega)

theorem fields_sb_toNat (opc : Nat) (nb : BitVec 4) (ex : BitVec 9) (low : Nat) (ho : opc < 128) (hl : low < 2 ^ 11) : (packSB opc nb ex low).toNat = 2 ^ 31 + opc * 2 ^ 24 + nb.toNat * 2 ^ 20 + ex.toNat * 2 ^ 11 + low := by
  have := nb.isLt
  have := ex.isLt
  simp only [packSB, BitVec.toNat_ofNat]; omega
/-- The fields of a word of this format. -/
theorem fields_sb (opc : Nat) (nb : BitVec 4) (ex : BitVec 9) (low : Nat) (ho : opc < 128) (hl : low < 2 ^ 11) :
    decodeWord (packSB opc nb ex low) = decodeUniform ⟨packSB opc nb ex low⟩ ∧ 
    (⟨packSB opc nb ex low⟩ : Fields).opcU = opc ∧ 
    (⟨packSB opc nb ex low⟩ : Fields).nb4 = nb ∧ 
    (⟨packSB opc nb ex low⟩ : Fields).e9 = ex ∧ 
    (⟨packSB opc nb ex low⟩ : Fields).low11 = low := by
  have e := fields_sb_toNat opc nb ex low ho hl
  have := nb.isLt
  have := ex.isLt
  refine ⟨?_, ?_, ?_, ?_, ?_⟩
  · simp only [decodeWord, e]
    rw [if_neg (by omega)]
  · simp only [Fields.opcU, bitsOf, e]
    first | omega | (apply BitVec.eq_of_toNat_eq; simp only [BitVec.toNat_ofNat]; omega)
  · simp only [Fields.nb4, bitsOf, e]
    first | omega | (apply BitVec.eq_of_toNat_eq; simp only [BitVec.toNat_ofNat]; omega)
  · simp only [Fields.e9, bitsOf, e]
    first | omega | (apply BitVec.eq_of_toNat_eq; simp only [BitVec.toNat_ofNat]; omega)
  · simp only [Fields.low11, bitsOf, e]
    first | omega | (apply BitVec.eq_of_toNat_eq; simp only [BitVec.toNat_ofNat]; omega)

/-! Composite fields: closed facts over a few bits. -/

theorem hilo3_hi : ∀ k < 8, ∀ p : BitVec 3, (hilo3 k p).toNat / 8 = k := by decide
theorem hilo3_lo : ∀ k < 8, ∀ p : BitVec 3, lo3 (hilo3 k p) = p := by decide
theorem hilo3_small : ∀ p : BitVec 3, decide ((hilo3 0 p).toNat < 8) = true := by decide
theorem inv_ps : ∀ (i : Bool) (p : BitVec 3), let x := fld6 (8 * i.toNat + p.toNat)
    x.getLsbD 4 = false ∧ x.getLsbD 5 = false ∧ x.getLsbD 3 = i ∧ lo3 x = p := by decide
theorem narrow_vb : ∀ (q b : Bool) (h : BitVec 3), let x := fld6 (32 * q.toNat + 16 * b.toNat + h.toNat)
    x.getLsbD 3 = false ∧ x.getLsbD 4 = b ∧ x.getLsbD 5 = q ∧ lo3 x = h := by decide
theorem low5 : ∀ r : BitVec 5, (fld6 r.toNat).getLsbD 5 = false ∧ BitVec.ofNat 5 (fld6 r.toNat).toNat = r := by decide
theorem high5 : ∀ r : BitVec 5, (fld6 (32 + r.toNat)).getLsbD 5 = true ∧ BitVec.ofNat 5 (fld6 (32 + r.toNat)).toNat = r := by decide
theorem two_twos : ∀ c t : BitVec 2, let x := fld6 (4 * c.toNat + t.toNat)
    x.toNat < 16 ∧ x.toNat / 4 = c.toNat ∧ BitVec.ofNat 2 x.toNat = t ∧ BitVec.ofNat 2 (x.toNat / 4) = c := by decide
theorem bar_imm : ∀ (c : Bool) (nb : BitVec 4), let x := BitVec.ofNat 8 (16 * c.toNat + nb.toNat)
    x.toNat < 32 ∧ x.getLsbD 4 = c ∧ BitVec.ofNat 4 x.toNat = nb := by decide
theorem stitch_imm : ∀ (w : Bool) (n : BitVec 2), let x := BitVec.ofNat 8 (4 * w.toNat + n.toNat)
    x.toNat < 8 ∧ x.getLsbD 2 = w ∧ BitVec.ofNat 2 x.toNat = n := by decide
theorem shift9 : ∀ (k : BitVec 2) (n : BitVec 5), let x := BitVec.ofNat 9 (32 * k.toNat + n.toNat)
    x.toNat / 32 = k.toNat ∧ BitVec.ofNat 5 x.toNat = n := by decide
theorem shift8 : ∀ (k : BitVec 2) (n : BitVec 5), let x := BitVec.ofNat 8 (32 * k.toNat + n.toNat)
    x.toNat / 32 = k.toNat ∧ BitVec.ofNat 5 x.toNat = n := by decide
theorem col6 : ∀ c : BitVec 6, fld6 (16 * (BitVec.ofNat 2 (c.toNat / 16)).toNat + (BitVec.ofNat 4 c.toNat).toNat) = c := by decide
theorem cvt_hs : ∀ r : BitVec 3, let x := BitVec.ofNat 4 (2 * r.toNat)
    x.getLsbD 0 = false ∧ BitVec.ofNat 3 (x.toNat / 2) = r := by decide

end Sys2Proof.Laws
end

