-- ==== Sys2Proof/Laws/Tbl.lean ====
section
/-!
SUPPORT. Tables: a read after a write to the same key gives the value written, a write leaves every other key alone, and
writes keep the canonical form.
-/
namespace Sys2Proof.Machine

variable {α : Type}

@[simp] theorem Tbl.get_put_same (d v : α) (k : Nat) (t : Tbl α) : Tbl.get d (Tbl.put k v t) k = v := by
  induction t with
  | nil => simp [Tbl.put, Tbl.get]
  | cons e t ih =>
    obtain ⟨k', v'⟩ := e
    simp only [Tbl.put]
    split
    · rw [Tbl.get, if_neg (by omega), ih]
    · split <;> simp [Tbl.get]

theorem Tbl.get_put_other (d v : α) {k a : Nat} (h : a ≠ k) (t : Tbl α) : Tbl.get d (Tbl.put k v t) a = Tbl.get d t a := by
  induction t with
  | nil => simp [Tbl.put, Tbl.get, Ne.symm h]
  | cons e t ih =>
    obtain ⟨k', v'⟩ := e
    simp only [Tbl.put]
    split
    · simp only [Tbl.get, ih]
    · split
      · rename_i e; subst e; simp [Tbl.get, Ne.symm h]
      · simp [Tbl.get, Ne.symm h]

/-- A read after a write. -/
theorem Tbl.get_put (d v : α) (k a : Nat) (t : Tbl α) : Tbl.get d (Tbl.put k v t) a = if a = k then v else Tbl.get d t a := by
  split
  · subst_vars; simp
  · rename_i h; exact Tbl.get_put_other d v h t

theorem Tbl.get_del (d : α) (k a : Nat) (t : Tbl α) : Tbl.get d (Tbl.del k t) a = if a = k then d else Tbl.get d t a := by
  induction t with
  | nil => simp [Tbl.del, Tbl.get]
  | cons e t ih =>
    obtain ⟨k', v'⟩ := e
    simp only [Tbl.del]
    split
    · rw [ih]; split
      · rfl
      · rw [Tbl.get, if_neg (by omega)]
    · simp only [Tbl.get, ih]
      split
      · rw [if_neg (by omega)]
      · rfl

theorem Tbl.get_set [DecidableEq α] (d v : α) (k a : Nat) (t : Tbl α) :
    Tbl.get d (Tbl.set d k v t) a = if a = k then v else Tbl.get d t a := by
  unfold Tbl.set
  split
  · subst_vars; exact Tbl.get_del _ k a t
  · exact Tbl.get_put _ v k a t

@[simp] theorem Tbl.get_set_same [DecidableEq α] (d v : α) (k : Nat) (t : Tbl α) : Tbl.get d (Tbl.set d k v t) k = v := by
  simp [Tbl.get_set]

theorem Tbl.get_set_other [DecidableEq α] (d v : α) {k a : Nat} (h : a ≠ k) (t : Tbl α) :
    Tbl.get d (Tbl.set d k v t) a = Tbl.get d t a := by simp [Tbl.get_set, h]

/-! ## The canonical form -/

section
variable [DecidableEq α] {d : α}

/-- A key may stand after the bound. -/
def Tbl.above : Option Nat → Nat → Bool
  | none, _ => true
  | some l, k => decide (l < k)

theorem Tbl.rising_cons (lo : Option Nat) (k : Nat) (v : α) (t : Tbl α) :
    Tbl.risingFrom d lo ((k, v) :: t) = true ↔ Tbl.above lo k = true ∧ v ≠ d ∧ Tbl.risingFrom d (some k) t = true := by
  cases lo <;> simp [Tbl.risingFrom, Tbl.above, and_assoc]

theorem Tbl.rising_weaken {lo hi : Option Nat} (h : ∀ k, Tbl.above hi k = true → Tbl.above lo k = true) {t : Tbl α}
    (ht : Tbl.risingFrom d hi t = true) : Tbl.risingFrom d lo t = true := by
  cases t with
  | nil => simp [Tbl.risingFrom]
  | cons e t =>
    obtain ⟨k, v⟩ := e
    rw [Tbl.rising_cons] at ht ⊢
    exact ⟨h k ht.1, ht.2⟩

theorem Tbl.rising_del (k : Nat) : ∀ {lo : Option Nat} {t : Tbl α}, Tbl.risingFrom d lo t = true → Tbl.risingFrom d lo (Tbl.del k t) = true
  | _, [], _ => rfl
  | lo, (k', v') :: t, h => by
    rw [Tbl.rising_cons] at h
    simp only [Tbl.del]
    split
    · refine Tbl.rising_weaken (hi := some k') ?_ (Tbl.rising_del k h.2.2)
      intro j hj
      have h1 := h.1
      cases lo with
      | none => rfl
      | some l => simp only [Tbl.above, decide_eq_true_eq] at *; omega
    · rw [Tbl.rising_cons]
      exact ⟨h.1, h.2.1, Tbl.rising_del k h.2.2⟩

theorem Tbl.rising_put (k : Nat) {v : α} (hv : v ≠ d) : ∀ {lo : Option Nat} {t : Tbl α}, Tbl.above lo k = true →
    Tbl.risingFrom d lo t = true → Tbl.risingFrom d lo (Tbl.put k v t) = true
  | lo, [], hk, _ => by
    rw [Tbl.put, Tbl.rising_cons]; exact ⟨hk, hv, rfl⟩
  | lo, (k', v') :: t, hk, h => by
    rw [Tbl.rising_cons] at h
    simp only [Tbl.put]
    split
    · rw [Tbl.rising_cons]
      exact ⟨h.1, h.2.1, Tbl.rising_put k hv (by simpa [Tbl.above]) h.2.2⟩
    · split
      · subst_vars; rw [Tbl.rising_cons]; exact ⟨hk, hv, h.2.2⟩
      · rw [Tbl.rising_cons, Tbl.rising_cons]
        exact ⟨hk, hv, by simp only [Tbl.above, decide_eq_true_eq]; omega, h.2⟩

/-- Writing keeps the canonical form. -/
theorem Tbl.canonical_set (k : Nat) (v : α) {t : Tbl α} (h : Tbl.canonical d t = true) : Tbl.canonical d (Tbl.set d k v t) = true := by
  unfold Tbl.set
  split
  · exact Tbl.rising_del k h
  · rename_i hv; exact Tbl.rising_put k hv rfl h

/-- Removing keeps the canonical form. -/
theorem Tbl.canonical_del (k : Nat) {t : Tbl α} (h : Tbl.canonical d t = true) : Tbl.canonical d (Tbl.del k t) = true :=
  Tbl.rising_del k h

/-- Keeping only some entries keeps the canonical form. -/
theorem Tbl.rising_filter (f : Nat × α → Bool) : ∀ {lo : Option Nat} {t : Tbl α}, Tbl.risingFrom d lo t = true →
    Tbl.risingFrom d lo (t.filter f) = true
  | _, [], _ => rfl
  | lo, (k', v') :: t, h => by
    rw [Tbl.rising_cons] at h
    rw [List.filter_cons]
    split
    · rw [Tbl.rising_cons]; exact ⟨h.1, h.2.1, Tbl.rising_filter f h.2.2⟩
    · refine Tbl.rising_weaken (hi := some k') ?_ (Tbl.rising_filter f h.2.2)
      intro j hj
      have h1 := h.1
      cases lo with
      | none => rfl
      | some l => simp only [Tbl.above, decide_eq_true_eq] at *; omega
theorem Tbl.canonical_filter (f : Nat × α → Bool) {t : Tbl α} (h : Tbl.canonical d t = true) :
    Tbl.canonical d (t.filter f) = true := Tbl.rising_filter f h

/-- A canonical table lists no value that an unlisted key reads as, so equal reads make equal tables. -/
theorem Tbl.rising_get_low : ∀ {lo : Option Nat} {t : Tbl α} {k : Nat}, Tbl.risingFrom d lo t = true → Tbl.above lo k = false →
    Tbl.get d t k = d
  | _, [], _, _, _ => rfl
  | none, _ :: _, _, _, hk => by simp [Tbl.above] at hk
  | some l, (k', v') :: t, k, h, hk => by
    rw [Tbl.rising_cons] at h
    have h1 := h.1
    simp only [Tbl.above, decide_eq_true_eq, decide_eq_false_iff_not] at hk h1
    rw [Tbl.get, if_neg (by omega)]
    exact Tbl.rising_get_low h.2.2 (by simp only [Tbl.above, decide_eq_false_iff_not]; omega)
end

end Sys2Proof.Machine
end

