-- ==== Sys2Proof/Laws/State.lean ====
section
/-!
SUPPORT. What each update of one record leaves in every field of State, true by rfl, and what the records read as after it.
-/
namespace Sys2Proof.Machine
set_option Elab.async false


/-! onW -/

@[simp] theorem State.onW_focus (s : State) (f : Warp → Warp) : (s.onW f).focus = s.focus := rfl
@[simp] theorem State.onW_warps (s : State) (f : Warp → Warp) : (s.onW f).warps = s.warps := rfl
@[simp] theorem State.onW_cores (s : State) (f : Warp → Warp) : (s.onW f).cores = s.cores := rfl
@[simp] theorem State.onW_blocks (s : State) (f : Warp → Warp) : (s.onW f).blocks = s.blocks := rfl
@[simp] theorem State.onW_clusters (s : State) (f : Warp → Warp) : (s.onW f).clusters = s.clusters := rfl
@[simp] theorem State.onW_dies (s : State) (f : Warp → Warp) : (s.onW f).dies = s.dies := rfl
@[simp] theorem State.onW_regions (s : State) (f : Warp → Warp) : (s.onW f).regions = s.regions := rfl
@[simp] theorem State.onW_parts (s : State) (f : Warp → Warp) : (s.onW f).parts = s.parts := rfl
@[simp] theorem State.onW_launches (s : State) (f : Warp → Warp) : (s.onW f).launches = s.launches := rfl
@[simp] theorem State.onW_acc (s : State) (f : Warp → Warp) : (s.onW f).acc = s.acc := rfl
@[simp] theorem State.onW_mem (s : State) (f : Warp → Warp) : (s.onW f).mem = s.mem := rfl
@[simp] theorem State.onW_rowValid (s : State) (f : Warp → Warp) : (s.onW f).rowValid = s.rowValid := rfl
@[simp] theorem State.onW_poison (s : State) (f : Warp → Warp) : (s.onW f).poison = s.poison := rfl
@[simp] theorem State.onW_counters (s : State) (f : Warp → Warp) : (s.onW f).counters = s.counters := rfl
@[simp] theorem State.onW_heapState (s : State) (f : Warp → Warp) : (s.onW f).heapState = s.heapState := rfl
@[simp] theorem State.onW_links (s : State) (f : Warp → Warp) : (s.onW f).links = s.links := rfl
@[simp] theorem State.onW_sites (s : State) (f : Warp → Warp) : (s.onW f).sites = s.sites := rfl
@[simp] theorem State.onW_evq (s : State) (f : Warp → Warp) : (s.onW f).evq = s.evq := rfl
@[simp] theorem State.onW_dropq (s : State) (f : Warp → Warp) : (s.onW f).dropq = s.dropq := rfl
@[simp] theorem State.onW_routes (s : State) (f : Warp → Warp) : (s.onW f).routes = s.routes := rfl
@[simp] theorem State.onW_spans (s : State) (f : Warp → Warp) : (s.onW f).spans = s.spans := rfl
@[simp] theorem State.onW_envelope (s : State) (f : Warp → Warp) : (s.onW f).envelope = s.envelope := rfl
@[simp] theorem State.onW_interrupts (s : State) (f : Warp → Warp) : (s.onW f).interrupts = s.interrupts := rfl
@[simp] theorem State.onW_reports (s : State) (f : Warp → Warp) : (s.onW f).reports = s.reports := rfl
@[simp] theorem State.onW_supervisor (s : State) (f : Warp → Warp) : (s.onW f).supervisor = s.supervisor := rfl
@[simp] theorem State.onW_beatTick (s : State) (f : Warp → Warp) : (s.onW f).beatTick = s.beatTick := rfl
@[simp] theorem State.onW_inReset (s : State) (f : Warp → Warp) : (s.onW f).inReset = s.inReset := rfl
@[simp] theorem State.onW_lifeCycle (s : State) (f : Warp → Warp) : (s.onW f).lifeCycle = s.lifeCycle := rfl
@[simp] theorem State.onW_refSlew (s : State) (f : Warp → Warp) : (s.onW f).refSlew = s.refSlew := rfl
@[simp] theorem State.onW_refSlewAt (s : State) (f : Warp → Warp) : (s.onW f).refSlewAt = s.refSlewAt := rfl
@[simp] theorem State.onW_refOwed (s : State) (f : Warp → Warp) : (s.onW f).refOwed = s.refOwed := rfl
@[simp] theorem State.onW_measured (s : State) (f : Warp → Warp) : (s.onW f).measured = s.measured := rfl
@[simp] theorem State.onW_packets (s : State) (f : Warp → Warp) : (s.onW f).packets = s.packets := rfl
@[simp] theorem State.onW_cycle (s : State) (f : Warp → Warp) : (s.onW f).cycle = s.cycle := rfl
@[simp] theorem State.onW_fresh (s : State) (f : Warp → Warp) : (s.onW f).fresh = s.fresh := rfl
@[simp] theorem State.onW_traced (s : State) (f : Warp → Warp) : (s.onW f).traced = s.traced := rfl
@[simp] theorem State.onW_sched (s : State) (f : Warp → Warp) : (s.onW f).sched = s.sched := rfl
@[simp] theorem State.onW_w (s : State) (f : Warp → Warp) : (s.onW f).w = f s.w := rfl
@[simp] theorem State.onW_blk (s : State) (f : Warp → Warp) (y : Nat) : (s.onW f).blk y = s.blk y := rfl
@[simp] theorem State.onW_clu (s : State) (f : Warp → Warp) (y : Nat) : (s.onW f).clu y = s.clu y := rfl
@[simp] theorem State.onW_die (s : State) (f : Warp → Warp) (y : Nat) : (s.onW f).die y = s.die y := rfl
@[simp] theorem State.onW_core (s : State) (f : Warp → Warp) (y : Nat) : (s.onW f).core y = s.core y := rfl
@[simp] theorem State.onW_region (s : State) (f : Warp → Warp) (y : Nat) : (s.onW f).region y = s.region y := rfl
@[simp] theorem State.onW_part (s : State) (f : Warp → Warp) (y : Nat) : (s.onW f).part y = s.part y := rfl
@[simp] theorem State.onW_launch (s : State) (f : Warp → Warp) (y : Nat) : (s.onW f).launch y = s.launch y := rfl
@[simp] theorem State.onW_site (s : State) (f : Warp → Warp) (y : Nat) : (s.onW f).site y = s.site y := rfl
@[simp] theorem State.onW_peek (s : State) (f : Warp → Warp) (y : Nat) : (s.onW f).peek y = s.peek y := rfl

/-! onBlk -/

@[simp] theorem State.onBlk_w (s : State) (b : Nat) (f : Block → Block) : (s.onBlk b f).w = s.w := rfl
@[simp] theorem State.onBlk_focus (s : State) (b : Nat) (f : Block → Block) : (s.onBlk b f).focus = s.focus := rfl
@[simp] theorem State.onBlk_warps (s : State) (b : Nat) (f : Block → Block) : (s.onBlk b f).warps = s.warps := rfl
@[simp] theorem State.onBlk_cores (s : State) (b : Nat) (f : Block → Block) : (s.onBlk b f).cores = s.cores := rfl
@[simp] theorem State.onBlk_clusters (s : State) (b : Nat) (f : Block → Block) : (s.onBlk b f).clusters = s.clusters := rfl
@[simp] theorem State.onBlk_dies (s : State) (b : Nat) (f : Block → Block) : (s.onBlk b f).dies = s.dies := rfl
@[simp] theorem State.onBlk_regions (s : State) (b : Nat) (f : Block → Block) : (s.onBlk b f).regions = s.regions := rfl
@[simp] theorem State.onBlk_parts (s : State) (b : Nat) (f : Block → Block) : (s.onBlk b f).parts = s.parts := rfl
@[simp] theorem State.onBlk_launches (s : State) (b : Nat) (f : Block → Block) : (s.onBlk b f).launches = s.launches := rfl
@[simp] theorem State.onBlk_acc (s : State) (b : Nat) (f : Block → Block) : (s.onBlk b f).acc = s.acc := rfl
@[simp] theorem State.onBlk_mem (s : State) (b : Nat) (f : Block → Block) : (s.onBlk b f).mem = s.mem := rfl
@[simp] theorem State.onBlk_rowValid (s : State) (b : Nat) (f : Block → Block) : (s.onBlk b f).rowValid = s.rowValid := rfl
@[simp] theorem State.onBlk_poison (s : State) (b : Nat) (f : Block → Block) : (s.onBlk b f).poison = s.poison := rfl
@[simp] theorem State.onBlk_counters (s : State) (b : Nat) (f : Block → Block) : (s.onBlk b f).counters = s.counters := rfl
@[simp] theorem State.onBlk_heapState (s : State) (b : Nat) (f : Block → Block) : (s.onBlk b f).heapState = s.heapState := rfl
@[simp] theorem State.onBlk_links (s : State) (b : Nat) (f : Block → Block) : (s.onBlk b f).links = s.links := rfl
@[simp] theorem State.onBlk_sites (s : State) (b : Nat) (f : Block → Block) : (s.onBlk b f).sites = s.sites := rfl
@[simp] theorem State.onBlk_evq (s : State) (b : Nat) (f : Block → Block) : (s.onBlk b f).evq = s.evq := rfl
@[simp] theorem State.onBlk_dropq (s : State) (b : Nat) (f : Block → Block) : (s.onBlk b f).dropq = s.dropq := rfl
@[simp] theorem State.onBlk_routes (s : State) (b : Nat) (f : Block → Block) : (s.onBlk b f).routes = s.routes := rfl
@[simp] theorem State.onBlk_spans (s : State) (b : Nat) (f : Block → Block) : (s.onBlk b f).spans = s.spans := rfl
@[simp] theorem State.onBlk_envelope (s : State) (b : Nat) (f : Block → Block) : (s.onBlk b f).envelope = s.envelope := rfl
@[simp] theorem State.onBlk_interrupts (s : State) (b : Nat) (f : Block → Block) : (s.onBlk b f).interrupts = s.interrupts := rfl
@[simp] theorem State.onBlk_reports (s : State) (b : Nat) (f : Block → Block) : (s.onBlk b f).reports = s.reports := rfl
@[simp] theorem State.onBlk_supervisor (s : State) (b : Nat) (f : Block → Block) : (s.onBlk b f).supervisor = s.supervisor := rfl
@[simp] theorem State.onBlk_beatTick (s : State) (b : Nat) (f : Block → Block) : (s.onBlk b f).beatTick = s.beatTick := rfl
@[simp] theorem State.onBlk_inReset (s : State) (b : Nat) (f : Block → Block) : (s.onBlk b f).inReset = s.inReset := rfl
@[simp] theorem State.onBlk_lifeCycle (s : State) (b : Nat) (f : Block → Block) : (s.onBlk b f).lifeCycle = s.lifeCycle := rfl
@[simp] theorem State.onBlk_refSlew (s : State) (b : Nat) (f : Block → Block) : (s.onBlk b f).refSlew = s.refSlew := rfl
@[simp] theorem State.onBlk_refSlewAt (s : State) (b : Nat) (f : Block → Block) : (s.onBlk b f).refSlewAt = s.refSlewAt := rfl
@[simp] theorem State.onBlk_refOwed (s : State) (b : Nat) (f : Block → Block) : (s.onBlk b f).refOwed = s.refOwed := rfl
@[simp] theorem State.onBlk_measured (s : State) (b : Nat) (f : Block → Block) : (s.onBlk b f).measured = s.measured := rfl
@[simp] theorem State.onBlk_packets (s : State) (b : Nat) (f : Block → Block) : (s.onBlk b f).packets = s.packets := rfl
@[simp] theorem State.onBlk_cycle (s : State) (b : Nat) (f : Block → Block) : (s.onBlk b f).cycle = s.cycle := rfl
@[simp] theorem State.onBlk_fresh (s : State) (b : Nat) (f : Block → Block) : (s.onBlk b f).fresh = s.fresh := rfl
@[simp] theorem State.onBlk_traced (s : State) (b : Nat) (f : Block → Block) : (s.onBlk b f).traced = s.traced := rfl
@[simp] theorem State.onBlk_sched (s : State) (b : Nat) (f : Block → Block) : (s.onBlk b f).sched = s.sched := rfl
theorem State.onBlk_blk (s : State) (b : Nat) (f : Block → Block) (y : Nat) : (s.onBlk b f).blk y = if y = b then f (s.blk b) else s.blk y := by
  unfold State.onBlk State.blk; exact Tbl.get_put _ _ _ _ _
@[simp] theorem State.onBlk_blk_same (s : State) (b : Nat) (f : Block → Block) : (s.onBlk b f).blk b = f (s.blk b) := by simp [State.onBlk_blk]
@[simp] theorem State.onBlk_clu (s : State) (b : Nat) (f : Block → Block) (y : Nat) : (s.onBlk b f).clu y = s.clu y := rfl
@[simp] theorem State.onBlk_die (s : State) (b : Nat) (f : Block → Block) (y : Nat) : (s.onBlk b f).die y = s.die y := rfl
@[simp] theorem State.onBlk_core (s : State) (b : Nat) (f : Block → Block) (y : Nat) : (s.onBlk b f).core y = s.core y := rfl
@[simp] theorem State.onBlk_region (s : State) (b : Nat) (f : Block → Block) (y : Nat) : (s.onBlk b f).region y = s.region y := rfl
@[simp] theorem State.onBlk_part (s : State) (b : Nat) (f : Block → Block) (y : Nat) : (s.onBlk b f).part y = s.part y := rfl
@[simp] theorem State.onBlk_launch (s : State) (b : Nat) (f : Block → Block) (y : Nat) : (s.onBlk b f).launch y = s.launch y := rfl
@[simp] theorem State.onBlk_site (s : State) (b : Nat) (f : Block → Block) (y : Nat) : (s.onBlk b f).site y = s.site y := rfl
@[simp] theorem State.onBlk_warp (s : State) (b : Nat) (f : Block → Block) (y : Nat) : (s.onBlk b f).warp y = s.warp y := rfl
@[simp] theorem State.onBlk_peek (s : State) (b : Nat) (f : Block → Block) (y : Nat) : (s.onBlk b f).peek y = s.peek y := rfl

/-! onClu -/

@[simp] theorem State.onClu_w (s : State) (c : Nat) (f : Cluster → Cluster) : (s.onClu c f).w = s.w := rfl
@[simp] theorem State.onClu_focus (s : State) (c : Nat) (f : Cluster → Cluster) : (s.onClu c f).focus = s.focus := rfl
@[simp] theorem State.onClu_warps (s : State) (c : Nat) (f : Cluster → Cluster) : (s.onClu c f).warps = s.warps := rfl
@[simp] theorem State.onClu_cores (s : State) (c : Nat) (f : Cluster → Cluster) : (s.onClu c f).cores = s.cores := rfl
@[simp] theorem State.onClu_blocks (s : State) (c : Nat) (f : Cluster → Cluster) : (s.onClu c f).blocks = s.blocks := rfl
@[simp] theorem State.onClu_dies (s : State) (c : Nat) (f : Cluster → Cluster) : (s.onClu c f).dies = s.dies := rfl
@[simp] theorem State.onClu_regions (s : State) (c : Nat) (f : Cluster → Cluster) : (s.onClu c f).regions = s.regions := rfl
@[simp] theorem State.onClu_parts (s : State) (c : Nat) (f : Cluster → Cluster) : (s.onClu c f).parts = s.parts := rfl
@[simp] theorem State.onClu_launches (s : State) (c : Nat) (f : Cluster → Cluster) : (s.onClu c f).launches = s.launches := rfl
@[simp] theorem State.onClu_acc (s : State) (c : Nat) (f : Cluster → Cluster) : (s.onClu c f).acc = s.acc := rfl
@[simp] theorem State.onClu_mem (s : State) (c : Nat) (f : Cluster → Cluster) : (s.onClu c f).mem = s.mem := rfl
@[simp] theorem State.onClu_rowValid (s : State) (c : Nat) (f : Cluster → Cluster) : (s.onClu c f).rowValid = s.rowValid := rfl
@[simp] theorem State.onClu_poison (s : State) (c : Nat) (f : Cluster → Cluster) : (s.onClu c f).poison = s.poison := rfl
@[simp] theorem State.onClu_counters (s : State) (c : Nat) (f : Cluster → Cluster) : (s.onClu c f).counters = s.counters := rfl
@[simp] theorem State.onClu_heapState (s : State) (c : Nat) (f : Cluster → Cluster) : (s.onClu c f).heapState = s.heapState := rfl
@[simp] theorem State.onClu_links (s : State) (c : Nat) (f : Cluster → Cluster) : (s.onClu c f).links = s.links := rfl
@[simp] theorem State.onClu_sites (s : State) (c : Nat) (f : Cluster → Cluster) : (s.onClu c f).sites = s.sites := rfl
@[simp] theorem State.onClu_evq (s : State) (c : Nat) (f : Cluster → Cluster) : (s.onClu c f).evq = s.evq := rfl
@[simp] theorem State.onClu_dropq (s : State) (c : Nat) (f : Cluster → Cluster) : (s.onClu c f).dropq = s.dropq := rfl
@[simp] theorem State.onClu_routes (s : State) (c : Nat) (f : Cluster → Cluster) : (s.onClu c f).routes = s.routes := rfl
@[simp] theorem State.onClu_spans (s : State) (c : Nat) (f : Cluster → Cluster) : (s.onClu c f).spans = s.spans := rfl
@[simp] theorem State.onClu_envelope (s : State) (c : Nat) (f : Cluster → Cluster) : (s.onClu c f).envelope = s.envelope := rfl
@[simp] theorem State.onClu_interrupts (s : State) (c : Nat) (f : Cluster → Cluster) : (s.onClu c f).interrupts = s.interrupts := rfl
@[simp] theorem State.onClu_reports (s : State) (c : Nat) (f : Cluster → Cluster) : (s.onClu c f).reports = s.reports := rfl
@[simp] theorem State.onClu_supervisor (s : State) (c : Nat) (f : Cluster → Cluster) : (s.onClu c f).supervisor = s.supervisor := rfl
@[simp] theorem State.onClu_beatTick (s : State) (c : Nat) (f : Cluster → Cluster) : (s.onClu c f).beatTick = s.beatTick := rfl
@[simp] theorem State.onClu_inReset (s : State) (c : Nat) (f : Cluster → Cluster) : (s.onClu c f).inReset = s.inReset := rfl
@[simp] theorem State.onClu_lifeCycle (s : State) (c : Nat) (f : Cluster → Cluster) : (s.onClu c f).lifeCycle = s.lifeCycle := rfl
@[simp] theorem State.onClu_refSlew (s : State) (c : Nat) (f : Cluster → Cluster) : (s.onClu c f).refSlew = s.refSlew := rfl
@[simp] theorem State.onClu_refSlewAt (s : State) (c : Nat) (f : Cluster → Cluster) : (s.onClu c f).refSlewAt = s.refSlewAt := rfl
@[simp] theorem State.onClu_refOwed (s : State) (c : Nat) (f : Cluster → Cluster) : (s.onClu c f).refOwed = s.refOwed := rfl
@[simp] theorem State.onClu_measured (s : State) (c : Nat) (f : Cluster → Cluster) : (s.onClu c f).measured = s.measured := rfl
@[simp] theorem State.onClu_packets (s : State) (c : Nat) (f : Cluster → Cluster) : (s.onClu c f).packets = s.packets := rfl
@[simp] theorem State.onClu_cycle (s : State) (c : Nat) (f : Cluster → Cluster) : (s.onClu c f).cycle = s.cycle := rfl
@[simp] theorem State.onClu_fresh (s : State) (c : Nat) (f : Cluster → Cluster) : (s.onClu c f).fresh = s.fresh := rfl
@[simp] theorem State.onClu_traced (s : State) (c : Nat) (f : Cluster → Cluster) : (s.onClu c f).traced = s.traced := rfl
@[simp] theorem State.onClu_sched (s : State) (c : Nat) (f : Cluster → Cluster) : (s.onClu c f).sched = s.sched := rfl
@[simp] theorem State.onClu_blk (s : State) (c : Nat) (f : Cluster → Cluster) (y : Nat) : (s.onClu c f).blk y = s.blk y := rfl
theorem State.onClu_clu (s : State) (c : Nat) (f : Cluster → Cluster) (y : Nat) : (s.onClu c f).clu y = if y = c then f (s.clu c) else s.clu y := by
  unfold State.onClu State.clu; exact Tbl.get_put _ _ _ _ _
@[simp] theorem State.onClu_clu_same (s : State) (c : Nat) (f : Cluster → Cluster) : (s.onClu c f).clu c = f (s.clu c) := by simp [State.onClu_clu]
@[simp] theorem State.onClu_die (s : State) (c : Nat) (f : Cluster → Cluster) (y : Nat) : (s.onClu c f).die y = s.die y := rfl
@[simp] theorem State.onClu_core (s : State) (c : Nat) (f : Cluster → Cluster) (y : Nat) : (s.onClu c f).core y = s.core y := rfl
@[simp] theorem State.onClu_region (s : State) (c : Nat) (f : Cluster → Cluster) (y : Nat) : (s.onClu c f).region y = s.region y := rfl
@[simp] theorem State.onClu_part (s : State) (c : Nat) (f : Cluster → Cluster) (y : Nat) : (s.onClu c f).part y = s.part y := rfl
@[simp] theorem State.onClu_launch (s : State) (c : Nat) (f : Cluster → Cluster) (y : Nat) : (s.onClu c f).launch y = s.launch y := rfl
@[simp] theorem State.onClu_site (s : State) (c : Nat) (f : Cluster → Cluster) (y : Nat) : (s.onClu c f).site y = s.site y := rfl
@[simp] theorem State.onClu_warp (s : State) (c : Nat) (f : Cluster → Cluster) (y : Nat) : (s.onClu c f).warp y = s.warp y := rfl
@[simp] theorem State.onClu_peek (s : State) (c : Nat) (f : Cluster → Cluster) (y : Nat) : (s.onClu c f).peek y = s.peek y := rfl

/-! onDie -/

@[simp] theorem State.onDie_w (s : State) (d : Nat) (f : Die → Die) : (s.onDie d f).w = s.w := rfl
@[simp] theorem State.onDie_focus (s : State) (d : Nat) (f : Die → Die) : (s.onDie d f).focus = s.focus := rfl
@[simp] theorem State.onDie_warps (s : State) (d : Nat) (f : Die → Die) : (s.onDie d f).warps = s.warps := rfl
@[simp] theorem State.onDie_cores (s : State) (d : Nat) (f : Die → Die) : (s.onDie d f).cores = s.cores := rfl
@[simp] theorem State.onDie_blocks (s : State) (d : Nat) (f : Die → Die) : (s.onDie d f).blocks = s.blocks := rfl
@[simp] theorem State.onDie_clusters (s : State) (d : Nat) (f : Die → Die) : (s.onDie d f).clusters = s.clusters := rfl
@[simp] theorem State.onDie_regions (s : State) (d : Nat) (f : Die → Die) : (s.onDie d f).regions = s.regions := rfl
@[simp] theorem State.onDie_parts (s : State) (d : Nat) (f : Die → Die) : (s.onDie d f).parts = s.parts := rfl
@[simp] theorem State.onDie_launches (s : State) (d : Nat) (f : Die → Die) : (s.onDie d f).launches = s.launches := rfl
@[simp] theorem State.onDie_acc (s : State) (d : Nat) (f : Die → Die) : (s.onDie d f).acc = s.acc := rfl
@[simp] theorem State.onDie_mem (s : State) (d : Nat) (f : Die → Die) : (s.onDie d f).mem = s.mem := rfl
@[simp] theorem State.onDie_rowValid (s : State) (d : Nat) (f : Die → Die) : (s.onDie d f).rowValid = s.rowValid := rfl
@[simp] theorem State.onDie_poison (s : State) (d : Nat) (f : Die → Die) : (s.onDie d f).poison = s.poison := rfl
@[simp] theorem State.onDie_counters (s : State) (d : Nat) (f : Die → Die) : (s.onDie d f).counters = s.counters := rfl
@[simp] theorem State.onDie_heapState (s : State) (d : Nat) (f : Die → Die) : (s.onDie d f).heapState = s.heapState := rfl
@[simp] theorem State.onDie_links (s : State) (d : Nat) (f : Die → Die) : (s.onDie d f).links = s.links := rfl
@[simp] theorem State.onDie_sites (s : State) (d : Nat) (f : Die → Die) : (s.onDie d f).sites = s.sites := rfl
@[simp] theorem State.onDie_evq (s : State) (d : Nat) (f : Die → Die) : (s.onDie d f).evq = s.evq := rfl
@[simp] theorem State.onDie_dropq (s : State) (d : Nat) (f : Die → Die) : (s.onDie d f).dropq = s.dropq := rfl
@[simp] theorem State.onDie_routes (s : State) (d : Nat) (f : Die → Die) : (s.onDie d f).routes = s.routes := rfl
@[simp] theorem State.onDie_spans (s : State) (d : Nat) (f : Die → Die) : (s.onDie d f).spans = s.spans := rfl
@[simp] theorem State.onDie_envelope (s : State) (d : Nat) (f : Die → Die) : (s.onDie d f).envelope = s.envelope := rfl
@[simp] theorem State.onDie_interrupts (s : State) (d : Nat) (f : Die → Die) : (s.onDie d f).interrupts = s.interrupts := rfl
@[simp] theorem State.onDie_reports (s : State) (d : Nat) (f : Die → Die) : (s.onDie d f).reports = s.reports := rfl
@[simp] theorem State.onDie_supervisor (s : State) (d : Nat) (f : Die → Die) : (s.onDie d f).supervisor = s.supervisor := rfl
@[simp] theorem State.onDie_beatTick (s : State) (d : Nat) (f : Die → Die) : (s.onDie d f).beatTick = s.beatTick := rfl
@[simp] theorem State.onDie_inReset (s : State) (d : Nat) (f : Die → Die) : (s.onDie d f).inReset = s.inReset := rfl
@[simp] theorem State.onDie_lifeCycle (s : State) (d : Nat) (f : Die → Die) : (s.onDie d f).lifeCycle = s.lifeCycle := rfl
@[simp] theorem State.onDie_refSlew (s : State) (d : Nat) (f : Die → Die) : (s.onDie d f).refSlew = s.refSlew := rfl
@[simp] theorem State.onDie_refSlewAt (s : State) (d : Nat) (f : Die → Die) : (s.onDie d f).refSlewAt = s.refSlewAt := rfl
@[simp] theorem State.onDie_refOwed (s : State) (d : Nat) (f : Die → Die) : (s.onDie d f).refOwed = s.refOwed := rfl
@[simp] theorem State.onDie_measured (s : State) (d : Nat) (f : Die → Die) : (s.onDie d f).measured = s.measured := rfl
@[simp] theorem State.onDie_packets (s : State) (d : Nat) (f : Die → Die) : (s.onDie d f).packets = s.packets := rfl
@[simp] theorem State.onDie_cycle (s : State) (d : Nat) (f : Die → Die) : (s.onDie d f).cycle = s.cycle := rfl
@[simp] theorem State.onDie_fresh (s : State) (d : Nat) (f : Die → Die) : (s.onDie d f).fresh = s.fresh := rfl
@[simp] theorem State.onDie_traced (s : State) (d : Nat) (f : Die → Die) : (s.onDie d f).traced = s.traced := rfl
@[simp] theorem State.onDie_sched (s : State) (d : Nat) (f : Die → Die) : (s.onDie d f).sched = s.sched := rfl
@[simp] theorem State.onDie_blk (s : State) (d : Nat) (f : Die → Die) (y : Nat) : (s.onDie d f).blk y = s.blk y := rfl
@[simp] theorem State.onDie_clu (s : State) (d : Nat) (f : Die → Die) (y : Nat) : (s.onDie d f).clu y = s.clu y := rfl
theorem State.onDie_die (s : State) (d : Nat) (f : Die → Die) (y : Nat) : (s.onDie d f).die y = if y = d then f (s.die d) else s.die y := by
  unfold State.onDie State.die; exact Tbl.get_put _ _ _ _ _
@[simp] theorem State.onDie_die_same (s : State) (d : Nat) (f : Die → Die) : (s.onDie d f).die d = f (s.die d) := by simp [State.onDie_die]
@[simp] theorem State.onDie_core (s : State) (d : Nat) (f : Die → Die) (y : Nat) : (s.onDie d f).core y = s.core y := rfl
@[simp] theorem State.onDie_region (s : State) (d : Nat) (f : Die → Die) (y : Nat) : (s.onDie d f).region y = s.region y := rfl
@[simp] theorem State.onDie_part (s : State) (d : Nat) (f : Die → Die) (y : Nat) : (s.onDie d f).part y = s.part y := rfl
@[simp] theorem State.onDie_launch (s : State) (d : Nat) (f : Die → Die) (y : Nat) : (s.onDie d f).launch y = s.launch y := rfl
@[simp] theorem State.onDie_site (s : State) (d : Nat) (f : Die → Die) (y : Nat) : (s.onDie d f).site y = s.site y := rfl
@[simp] theorem State.onDie_warp (s : State) (d : Nat) (f : Die → Die) (y : Nat) : (s.onDie d f).warp y = s.warp y := rfl
@[simp] theorem State.onDie_peek (s : State) (d : Nat) (f : Die → Die) (y : Nat) : (s.onDie d f).peek y = s.peek y := rfl

/-! onCore -/

@[simp] theorem State.onCore_w (s : State) (c : Nat) (f : CoreS → CoreS) : (s.onCore c f).w = s.w := rfl
@[simp] theorem State.onCore_focus (s : State) (c : Nat) (f : CoreS → CoreS) : (s.onCore c f).focus = s.focus := rfl
@[simp] theorem State.onCore_warps (s : State) (c : Nat) (f : CoreS → CoreS) : (s.onCore c f).warps = s.warps := rfl
@[simp] theorem State.onCore_blocks (s : State) (c : Nat) (f : CoreS → CoreS) : (s.onCore c f).blocks = s.blocks := rfl
@[simp] theorem State.onCore_clusters (s : State) (c : Nat) (f : CoreS → CoreS) : (s.onCore c f).clusters = s.clusters := rfl
@[simp] theorem State.onCore_dies (s : State) (c : Nat) (f : CoreS → CoreS) : (s.onCore c f).dies = s.dies := rfl
@[simp] theorem State.onCore_regions (s : State) (c : Nat) (f : CoreS → CoreS) : (s.onCore c f).regions = s.regions := rfl
@[simp] theorem State.onCore_parts (s : State) (c : Nat) (f : CoreS → CoreS) : (s.onCore c f).parts = s.parts := rfl
@[simp] theorem State.onCore_launches (s : State) (c : Nat) (f : CoreS → CoreS) : (s.onCore c f).launches = s.launches := rfl
@[simp] theorem State.onCore_acc (s : State) (c : Nat) (f : CoreS → CoreS) : (s.onCore c f).acc = s.acc := rfl
@[simp] theorem State.onCore_mem (s : State) (c : Nat) (f : CoreS → CoreS) : (s.onCore c f).mem = s.mem := rfl
@[simp] theorem State.onCore_rowValid (s : State) (c : Nat) (f : CoreS → CoreS) : (s.onCore c f).rowValid = s.rowValid := rfl
@[simp] theorem State.onCore_poison (s : State) (c : Nat) (f : CoreS → CoreS) : (s.onCore c f).poison = s.poison := rfl
@[simp] theorem State.onCore_counters (s : State) (c : Nat) (f : CoreS → CoreS) : (s.onCore c f).counters = s.counters := rfl
@[simp] theorem State.onCore_heapState (s : State) (c : Nat) (f : CoreS → CoreS) : (s.onCore c f).heapState = s.heapState := rfl
@[simp] theorem State.onCore_links (s : State) (c : Nat) (f : CoreS → CoreS) : (s.onCore c f).links = s.links := rfl
@[simp] theorem State.onCore_sites (s : State) (c : Nat) (f : CoreS → CoreS) : (s.onCore c f).sites = s.sites := rfl
@[simp] theorem State.onCore_evq (s : State) (c : Nat) (f : CoreS → CoreS) : (s.onCore c f).evq = s.evq := rfl
@[simp] theorem State.onCore_dropq (s : State) (c : Nat) (f : CoreS → CoreS) : (s.onCore c f).dropq = s.dropq := rfl
@[simp] theorem State.onCore_routes (s : State) (c : Nat) (f : CoreS → CoreS) : (s.onCore c f).routes = s.routes := rfl
@[simp] theorem State.onCore_spans (s : State) (c : Nat) (f : CoreS → CoreS) : (s.onCore c f).spans = s.spans := rfl
@[simp] theorem State.onCore_envelope (s : State) (c : Nat) (f : CoreS → CoreS) : (s.onCore c f).envelope = s.envelope := rfl
@[simp] theorem State.onCore_interrupts (s : State) (c : Nat) (f : CoreS → CoreS) : (s.onCore c f).interrupts = s.interrupts := rfl
@[simp] theorem State.onCore_reports (s : State) (c : Nat) (f : CoreS → CoreS) : (s.onCore c f).reports = s.reports := rfl
@[simp] theorem State.onCore_supervisor (s : State) (c : Nat) (f : CoreS → CoreS) : (s.onCore c f).supervisor = s.supervisor := rfl
@[simp] theorem State.onCore_beatTick (s : State) (c : Nat) (f : CoreS → CoreS) : (s.onCore c f).beatTick = s.beatTick := rfl
@[simp] theorem State.onCore_inReset (s : State) (c : Nat) (f : CoreS → CoreS) : (s.onCore c f).inReset = s.inReset := rfl
@[simp] theorem State.onCore_lifeCycle (s : State) (c : Nat) (f : CoreS → CoreS) : (s.onCore c f).lifeCycle = s.lifeCycle := rfl
@[simp] theorem State.onCore_refSlew (s : State) (c : Nat) (f : CoreS → CoreS) : (s.onCore c f).refSlew = s.refSlew := rfl
@[simp] theorem State.onCore_refSlewAt (s : State) (c : Nat) (f : CoreS → CoreS) : (s.onCore c f).refSlewAt = s.refSlewAt := rfl
@[simp] theorem State.onCore_refOwed (s : State) (c : Nat) (f : CoreS → CoreS) : (s.onCore c f).refOwed = s.refOwed := rfl
@[simp] theorem State.onCore_measured (s : State) (c : Nat) (f : CoreS → CoreS) : (s.onCore c f).measured = s.measured := rfl
@[simp] theorem State.onCore_packets (s : State) (c : Nat) (f : CoreS → CoreS) : (s.onCore c f).packets = s.packets := rfl
@[simp] theorem State.onCore_cycle (s : State) (c : Nat) (f : CoreS → CoreS) : (s.onCore c f).cycle = s.cycle := rfl
@[simp] theorem State.onCore_fresh (s : State) (c : Nat) (f : CoreS → CoreS) : (s.onCore c f).fresh = s.fresh := rfl
@[simp] theorem State.onCore_traced (s : State) (c : Nat) (f : CoreS → CoreS) : (s.onCore c f).traced = s.traced := rfl
@[simp] theorem State.onCore_sched (s : State) (c : Nat) (f : CoreS → CoreS) : (s.onCore c f).sched = s.sched := rfl
@[simp] theorem State.onCore_blk (s : State) (c : Nat) (f : CoreS → CoreS) (y : Nat) : (s.onCore c f).blk y = s.blk y := rfl
@[simp] theorem State.onCore_clu (s : State) (c : Nat) (f : CoreS → CoreS) (y : Nat) : (s.onCore c f).clu y = s.clu y := rfl
@[simp] theorem State.onCore_die (s : State) (c : Nat) (f : CoreS → CoreS) (y : Nat) : (s.onCore c f).die y = s.die y := rfl
theorem State.onCore_core (s : State) (c : Nat) (f : CoreS → CoreS) (y : Nat) : (s.onCore c f).core y = if y = c then f (s.core c) else s.core y := by
  unfold State.onCore State.core; exact Tbl.get_put _ _ _ _ _
@[simp] theorem State.onCore_core_same (s : State) (c : Nat) (f : CoreS → CoreS) : (s.onCore c f).core c = f (s.core c) := by simp [State.onCore_core]
@[simp] theorem State.onCore_region (s : State) (c : Nat) (f : CoreS → CoreS) (y : Nat) : (s.onCore c f).region y = s.region y := rfl
@[simp] theorem State.onCore_part (s : State) (c : Nat) (f : CoreS → CoreS) (y : Nat) : (s.onCore c f).part y = s.part y := rfl
@[simp] theorem State.onCore_launch (s : State) (c : Nat) (f : CoreS → CoreS) (y : Nat) : (s.onCore c f).launch y = s.launch y := rfl
@[simp] theorem State.onCore_site (s : State) (c : Nat) (f : CoreS → CoreS) (y : Nat) : (s.onCore c f).site y = s.site y := rfl
@[simp] theorem State.onCore_warp (s : State) (c : Nat) (f : CoreS → CoreS) (y : Nat) : (s.onCore c f).warp y = s.warp y := rfl
@[simp] theorem State.onCore_peek (s : State) (c : Nat) (f : CoreS → CoreS) (y : Nat) : (s.onCore c f).peek y = s.peek y := rfl

/-! onRegion -/

@[simp] theorem State.onRegion_w (s : State) (r : Nat) (f : Region → Region) : (s.onRegion r f).w = s.w := rfl
@[simp] theorem State.onRegion_focus (s : State) (r : Nat) (f : Region → Region) : (s.onRegion r f).focus = s.focus := rfl
@[simp] theorem State.onRegion_warps (s : State) (r : Nat) (f : Region → Region) : (s.onRegion r f).warps = s.warps := rfl
@[simp] theorem State.onRegion_cores (s : State) (r : Nat) (f : Region → Region) : (s.onRegion r f).cores = s.cores := rfl
@[simp] theorem State.onRegion_blocks (s : State) (r : Nat) (f : Region → Region) : (s.onRegion r f).blocks = s.blocks := rfl
@[simp] theorem State.onRegion_clusters (s : State) (r : Nat) (f : Region → Region) : (s.onRegion r f).clusters = s.clusters := rfl
@[simp] theorem State.onRegion_dies (s : State) (r : Nat) (f : Region → Region) : (s.onRegion r f).dies = s.dies := rfl
@[simp] theorem State.onRegion_parts (s : State) (r : Nat) (f : Region → Region) : (s.onRegion r f).parts = s.parts := rfl
@[simp] theorem State.onRegion_launches (s : State) (r : Nat) (f : Region → Region) : (s.onRegion r f).launches = s.launches := rfl
@[simp] theorem State.onRegion_acc (s : State) (r : Nat) (f : Region → Region) : (s.onRegion r f).acc = s.acc := rfl
@[simp] theorem State.onRegion_mem (s : State) (r : Nat) (f : Region → Region) : (s.onRegion r f).mem = s.mem := rfl
@[simp] theorem State.onRegion_rowValid (s : State) (r : Nat) (f : Region → Region) : (s.onRegion r f).rowValid = s.rowValid := rfl
@[simp] theorem State.onRegion_poison (s : State) (r : Nat) (f : Region → Region) : (s.onRegion r f).poison = s.poison := rfl
@[simp] theorem State.onRegion_counters (s : State) (r : Nat) (f : Region → Region) : (s.onRegion r f).counters = s.counters := rfl
@[simp] theorem State.onRegion_heapState (s : State) (r : Nat) (f : Region → Region) : (s.onRegion r f).heapState = s.heapState := rfl
@[simp] theorem State.onRegion_links (s : State) (r : Nat) (f : Region → Region) : (s.onRegion r f).links = s.links := rfl
@[simp] theorem State.onRegion_sites (s : State) (r : Nat) (f : Region → Region) : (s.onRegion r f).sites = s.sites := rfl
@[simp] theorem State.onRegion_evq (s : State) (r : Nat) (f : Region → Region) : (s.onRegion r f).evq = s.evq := rfl
@[simp] theorem State.onRegion_dropq (s : State) (r : Nat) (f : Region → Region) : (s.onRegion r f).dropq = s.dropq := rfl
@[simp] theorem State.onRegion_routes (s : State) (r : Nat) (f : Region → Region) : (s.onRegion r f).routes = s.routes := rfl
@[simp] theorem State.onRegion_spans (s : State) (r : Nat) (f : Region → Region) : (s.onRegion r f).spans = s.spans := rfl
@[simp] theorem State.onRegion_envelope (s : State) (r : Nat) (f : Region → Region) : (s.onRegion r f).envelope = s.envelope := rfl
@[simp] theorem State.onRegion_interrupts (s : State) (r : Nat) (f : Region → Region) : (s.onRegion r f).interrupts = s.interrupts := rfl
@[simp] theorem State.onRegion_reports (s : State) (r : Nat) (f : Region → Region) : (s.onRegion r f).reports = s.reports := rfl
@[simp] theorem State.onRegion_supervisor (s : State) (r : Nat) (f : Region → Region) : (s.onRegion r f).supervisor = s.supervisor := rfl
@[simp] theorem State.onRegion_beatTick (s : State) (r : Nat) (f : Region → Region) : (s.onRegion r f).beatTick = s.beatTick := rfl
@[simp] theorem State.onRegion_inReset (s : State) (r : Nat) (f : Region → Region) : (s.onRegion r f).inReset = s.inReset := rfl
@[simp] theorem State.onRegion_lifeCycle (s : State) (r : Nat) (f : Region → Region) : (s.onRegion r f).lifeCycle = s.lifeCycle := rfl
@[simp] theorem State.onRegion_refSlew (s : State) (r : Nat) (f : Region → Region) : (s.onRegion r f).refSlew = s.refSlew := rfl
@[simp] theorem State.onRegion_refSlewAt (s : State) (r : Nat) (f : Region → Region) : (s.onRegion r f).refSlewAt = s.refSlewAt := rfl
@[simp] theorem State.onRegion_refOwed (s : State) (r : Nat) (f : Region → Region) : (s.onRegion r f).refOwed = s.refOwed := rfl
@[simp] theorem State.onRegion_measured (s : State) (r : Nat) (f : Region → Region) : (s.onRegion r f).measured = s.measured := rfl
@[simp] theorem State.onRegion_packets (s : State) (r : Nat) (f : Region → Region) : (s.onRegion r f).packets = s.packets := rfl
@[simp] theorem State.onRegion_cycle (s : State) (r : Nat) (f : Region → Region) : (s.onRegion r f).cycle = s.cycle := rfl
@[simp] theorem State.onRegion_fresh (s : State) (r : Nat) (f : Region → Region) : (s.onRegion r f).fresh = s.fresh := rfl
@[simp] theorem State.onRegion_traced (s : State) (r : Nat) (f : Region → Region) : (s.onRegion r f).traced = s.traced := rfl
@[simp] theorem State.onRegion_sched (s : State) (r : Nat) (f : Region → Region) : (s.onRegion r f).sched = s.sched := rfl
@[simp] theorem State.onRegion_blk (s : State) (r : Nat) (f : Region → Region) (y : Nat) : (s.onRegion r f).blk y = s.blk y := rfl
@[simp] theorem State.onRegion_clu (s : State) (r : Nat) (f : Region → Region) (y : Nat) : (s.onRegion r f).clu y = s.clu y := rfl
@[simp] theorem State.onRegion_die (s : State) (r : Nat) (f : Region → Region) (y : Nat) : (s.onRegion r f).die y = s.die y := rfl
@[simp] theorem State.onRegion_core (s : State) (r : Nat) (f : Region → Region) (y : Nat) : (s.onRegion r f).core y = s.core y := rfl
theorem State.onRegion_region (s : State) (r : Nat) (f : Region → Region) (y : Nat) : (s.onRegion r f).region y = if y = r then f (s.region r) else s.region y := by
  unfold State.onRegion State.region; exact Tbl.get_put _ _ _ _ _
@[simp] theorem State.onRegion_region_same (s : State) (r : Nat) (f : Region → Region) : (s.onRegion r f).region r = f (s.region r) := by simp [State.onRegion_region]
@[simp] theorem State.onRegion_part (s : State) (r : Nat) (f : Region → Region) (y : Nat) : (s.onRegion r f).part y = s.part y := rfl
@[simp] theorem State.onRegion_launch (s : State) (r : Nat) (f : Region → Region) (y : Nat) : (s.onRegion r f).launch y = s.launch y := rfl
@[simp] theorem State.onRegion_site (s : State) (r : Nat) (f : Region → Region) (y : Nat) : (s.onRegion r f).site y = s.site y := rfl
@[simp] theorem State.onRegion_warp (s : State) (r : Nat) (f : Region → Region) (y : Nat) : (s.onRegion r f).warp y = s.warp y := rfl
@[simp] theorem State.onRegion_peek (s : State) (r : Nat) (f : Region → Region) (y : Nat) : (s.onRegion r f).peek y = s.peek y := rfl

/-! onPart -/

@[simp] theorem State.onPart_w (s : State) (p : Nat) (f : Partition → Partition) : (s.onPart p f).w = s.w := rfl
@[simp] theorem State.onPart_focus (s : State) (p : Nat) (f : Partition → Partition) : (s.onPart p f).focus = s.focus := rfl
@[simp] theorem State.onPart_warps (s : State) (p : Nat) (f : Partition → Partition) : (s.onPart p f).warps = s.warps := rfl
@[simp] theorem State.onPart_cores (s : State) (p : Nat) (f : Partition → Partition) : (s.onPart p f).cores = s.cores := rfl
@[simp] theorem State.onPart_blocks (s : State) (p : Nat) (f : Partition → Partition) : (s.onPart p f).blocks = s.blocks := rfl
@[simp] theorem State.onPart_clusters (s : State) (p : Nat) (f : Partition → Partition) : (s.onPart p f).clusters = s.clusters := rfl
@[simp] theorem State.onPart_dies (s : State) (p : Nat) (f : Partition → Partition) : (s.onPart p f).dies = s.dies := rfl
@[simp] theorem State.onPart_regions (s : State) (p : Nat) (f : Partition → Partition) : (s.onPart p f).regions = s.regions := rfl
@[simp] theorem State.onPart_launches (s : State) (p : Nat) (f : Partition → Partition) : (s.onPart p f).launches = s.launches := rfl
@[simp] theorem State.onPart_acc (s : State) (p : Nat) (f : Partition → Partition) : (s.onPart p f).acc = s.acc := rfl
@[simp] theorem State.onPart_mem (s : State) (p : Nat) (f : Partition → Partition) : (s.onPart p f).mem = s.mem := rfl
@[simp] theorem State.onPart_rowValid (s : State) (p : Nat) (f : Partition → Partition) : (s.onPart p f).rowValid = s.rowValid := rfl
@[simp] theorem State.onPart_poison (s : State) (p : Nat) (f : Partition → Partition) : (s.onPart p f).poison = s.poison := rfl
@[simp] theorem State.onPart_counters (s : State) (p : Nat) (f : Partition → Partition) : (s.onPart p f).counters = s.counters := rfl
@[simp] theorem State.onPart_heapState (s : State) (p : Nat) (f : Partition → Partition) : (s.onPart p f).heapState = s.heapState := rfl
@[simp] theorem State.onPart_links (s : State) (p : Nat) (f : Partition → Partition) : (s.onPart p f).links = s.links := rfl
@[simp] theorem State.onPart_sites (s : State) (p : Nat) (f : Partition → Partition) : (s.onPart p f).sites = s.sites := rfl
@[simp] theorem State.onPart_evq (s : State) (p : Nat) (f : Partition → Partition) : (s.onPart p f).evq = s.evq := rfl
@[simp] theorem State.onPart_dropq (s : State) (p : Nat) (f : Partition → Partition) : (s.onPart p f).dropq = s.dropq := rfl
@[simp] theorem State.onPart_routes (s : State) (p : Nat) (f : Partition → Partition) : (s.onPart p f).routes = s.routes := rfl
@[simp] theorem State.onPart_spans (s : State) (p : Nat) (f : Partition → Partition) : (s.onPart p f).spans = s.spans := rfl
@[simp] theorem State.onPart_envelope (s : State) (p : Nat) (f : Partition → Partition) : (s.onPart p f).envelope = s.envelope := rfl
@[simp] theorem State.onPart_interrupts (s : State) (p : Nat) (f : Partition → Partition) : (s.onPart p f).interrupts = s.interrupts := rfl
@[simp] theorem State.onPart_reports (s : State) (p : Nat) (f : Partition → Partition) : (s.onPart p f).reports = s.reports := rfl
@[simp] theorem State.onPart_supervisor (s : State) (p : Nat) (f : Partition → Partition) : (s.onPart p f).supervisor = s.supervisor := rfl
@[simp] theorem State.onPart_beatTick (s : State) (p : Nat) (f : Partition → Partition) : (s.onPart p f).beatTick = s.beatTick := rfl
@[simp] theorem State.onPart_inReset (s : State) (p : Nat) (f : Partition → Partition) : (s.onPart p f).inReset = s.inReset := rfl
@[simp] theorem State.onPart_lifeCycle (s : State) (p : Nat) (f : Partition → Partition) : (s.onPart p f).lifeCycle = s.lifeCycle := rfl
@[simp] theorem State.onPart_refSlew (s : State) (p : Nat) (f : Partition → Partition) : (s.onPart p f).refSlew = s.refSlew := rfl
@[simp] theorem State.onPart_refSlewAt (s : State) (p : Nat) (f : Partition → Partition) : (s.onPart p f).refSlewAt = s.refSlewAt := rfl
@[simp] theorem State.onPart_refOwed (s : State) (p : Nat) (f : Partition → Partition) : (s.onPart p f).refOwed = s.refOwed := rfl
@[simp] theorem State.onPart_measured (s : State) (p : Nat) (f : Partition → Partition) : (s.onPart p f).measured = s.measured := rfl
@[simp] theorem State.onPart_packets (s : State) (p : Nat) (f : Partition → Partition) : (s.onPart p f).packets = s.packets := rfl
@[simp] theorem State.onPart_cycle (s : State) (p : Nat) (f : Partition → Partition) : (s.onPart p f).cycle = s.cycle := rfl
@[simp] theorem State.onPart_fresh (s : State) (p : Nat) (f : Partition → Partition) : (s.onPart p f).fresh = s.fresh := rfl
@[simp] theorem State.onPart_traced (s : State) (p : Nat) (f : Partition → Partition) : (s.onPart p f).traced = s.traced := rfl
@[simp] theorem State.onPart_sched (s : State) (p : Nat) (f : Partition → Partition) : (s.onPart p f).sched = s.sched := rfl
@[simp] theorem State.onPart_blk (s : State) (p : Nat) (f : Partition → Partition) (y : Nat) : (s.onPart p f).blk y = s.blk y := rfl
@[simp] theorem State.onPart_clu (s : State) (p : Nat) (f : Partition → Partition) (y : Nat) : (s.onPart p f).clu y = s.clu y := rfl
@[simp] theorem State.onPart_die (s : State) (p : Nat) (f : Partition → Partition) (y : Nat) : (s.onPart p f).die y = s.die y := rfl
@[simp] theorem State.onPart_core (s : State) (p : Nat) (f : Partition → Partition) (y : Nat) : (s.onPart p f).core y = s.core y := rfl
@[simp] theorem State.onPart_region (s : State) (p : Nat) (f : Partition → Partition) (y : Nat) : (s.onPart p f).region y = s.region y := rfl
theorem State.onPart_part (s : State) (p : Nat) (f : Partition → Partition) (y : Nat) : (s.onPart p f).part y = if y = p then f (s.part p) else s.part y := by
  unfold State.onPart State.part; exact Tbl.get_put _ _ _ _ _
@[simp] theorem State.onPart_part_same (s : State) (p : Nat) (f : Partition → Partition) : (s.onPart p f).part p = f (s.part p) := by simp [State.onPart_part]
@[simp] theorem State.onPart_launch (s : State) (p : Nat) (f : Partition → Partition) (y : Nat) : (s.onPart p f).launch y = s.launch y := rfl
@[simp] theorem State.onPart_site (s : State) (p : Nat) (f : Partition → Partition) (y : Nat) : (s.onPart p f).site y = s.site y := rfl
@[simp] theorem State.onPart_warp (s : State) (p : Nat) (f : Partition → Partition) (y : Nat) : (s.onPart p f).warp y = s.warp y := rfl
@[simp] theorem State.onPart_peek (s : State) (p : Nat) (f : Partition → Partition) (y : Nat) : (s.onPart p f).peek y = s.peek y := rfl

/-! onLaunch -/

@[simp] theorem State.onLaunch_w (s : State) (l : Nat) (f : Launch → Launch) : (s.onLaunch l f).w = s.w := rfl
@[simp] theorem State.onLaunch_focus (s : State) (l : Nat) (f : Launch → Launch) : (s.onLaunch l f).focus = s.focus := rfl
@[simp] theorem State.onLaunch_warps (s : State) (l : Nat) (f : Launch → Launch) : (s.onLaunch l f).warps = s.warps := rfl
@[simp] theorem State.onLaunch_cores (s : State) (l : Nat) (f : Launch → Launch) : (s.onLaunch l f).cores = s.cores := rfl
@[simp] theorem State.onLaunch_blocks (s : State) (l : Nat) (f : Launch → Launch) : (s.onLaunch l f).blocks = s.blocks := rfl
@[simp] theorem State.onLaunch_clusters (s : State) (l : Nat) (f : Launch → Launch) : (s.onLaunch l f).clusters = s.clusters := rfl
@[simp] theorem State.onLaunch_dies (s : State) (l : Nat) (f : Launch → Launch) : (s.onLaunch l f).dies = s.dies := rfl
@[simp] theorem State.onLaunch_regions (s : State) (l : Nat) (f : Launch → Launch) : (s.onLaunch l f).regions = s.regions := rfl
@[simp] theorem State.onLaunch_parts (s : State) (l : Nat) (f : Launch → Launch) : (s.onLaunch l f).parts = s.parts := rfl
@[simp] theorem State.onLaunch_acc (s : State) (l : Nat) (f : Launch → Launch) : (s.onLaunch l f).acc = s.acc := rfl
@[simp] theorem State.onLaunch_mem (s : State) (l : Nat) (f : Launch → Launch) : (s.onLaunch l f).mem = s.mem := rfl
@[simp] theorem State.onLaunch_rowValid (s : State) (l : Nat) (f : Launch → Launch) : (s.onLaunch l f).rowValid = s.rowValid := rfl
@[simp] theorem State.onLaunch_poison (s : State) (l : Nat) (f : Launch → Launch) : (s.onLaunch l f).poison = s.poison := rfl
@[simp] theorem State.onLaunch_counters (s : State) (l : Nat) (f : Launch → Launch) : (s.onLaunch l f).counters = s.counters := rfl
@[simp] theorem State.onLaunch_heapState (s : State) (l : Nat) (f : Launch → Launch) : (s.onLaunch l f).heapState = s.heapState := rfl
@[simp] theorem State.onLaunch_links (s : State) (l : Nat) (f : Launch → Launch) : (s.onLaunch l f).links = s.links := rfl
@[simp] theorem State.onLaunch_sites (s : State) (l : Nat) (f : Launch → Launch) : (s.onLaunch l f).sites = s.sites := rfl
@[simp] theorem State.onLaunch_evq (s : State) (l : Nat) (f : Launch → Launch) : (s.onLaunch l f).evq = s.evq := rfl
@[simp] theorem State.onLaunch_dropq (s : State) (l : Nat) (f : Launch → Launch) : (s.onLaunch l f).dropq = s.dropq := rfl
@[simp] theorem State.onLaunch_routes (s : State) (l : Nat) (f : Launch → Launch) : (s.onLaunch l f).routes = s.routes := rfl
@[simp] theorem State.onLaunch_spans (s : State) (l : Nat) (f : Launch → Launch) : (s.onLaunch l f).spans = s.spans := rfl
@[simp] theorem State.onLaunch_envelope (s : State) (l : Nat) (f : Launch → Launch) : (s.onLaunch l f).envelope = s.envelope := rfl
@[simp] theorem State.onLaunch_interrupts (s : State) (l : Nat) (f : Launch → Launch) : (s.onLaunch l f).interrupts = s.interrupts := rfl
@[simp] theorem State.onLaunch_reports (s : State) (l : Nat) (f : Launch → Launch) : (s.onLaunch l f).reports = s.reports := rfl
@[simp] theorem State.onLaunch_supervisor (s : State) (l : Nat) (f : Launch → Launch) : (s.onLaunch l f).supervisor = s.supervisor := rfl
@[simp] theorem State.onLaunch_beatTick (s : State) (l : Nat) (f : Launch → Launch) : (s.onLaunch l f).beatTick = s.beatTick := rfl
@[simp] theorem State.onLaunch_inReset (s : State) (l : Nat) (f : Launch → Launch) : (s.onLaunch l f).inReset = s.inReset := rfl
@[simp] theorem State.onLaunch_lifeCycle (s : State) (l : Nat) (f : Launch → Launch) : (s.onLaunch l f).lifeCycle = s.lifeCycle := rfl
@[simp] theorem State.onLaunch_refSlew (s : State) (l : Nat) (f : Launch → Launch) : (s.onLaunch l f).refSlew = s.refSlew := rfl
@[simp] theorem State.onLaunch_refSlewAt (s : State) (l : Nat) (f : Launch → Launch) : (s.onLaunch l f).refSlewAt = s.refSlewAt := rfl
@[simp] theorem State.onLaunch_refOwed (s : State) (l : Nat) (f : Launch → Launch) : (s.onLaunch l f).refOwed = s.refOwed := rfl
@[simp] theorem State.onLaunch_measured (s : State) (l : Nat) (f : Launch → Launch) : (s.onLaunch l f).measured = s.measured := rfl
@[simp] theorem State.onLaunch_packets (s : State) (l : Nat) (f : Launch → Launch) : (s.onLaunch l f).packets = s.packets := rfl
@[simp] theorem State.onLaunch_cycle (s : State) (l : Nat) (f : Launch → Launch) : (s.onLaunch l f).cycle = s.cycle := rfl
@[simp] theorem State.onLaunch_fresh (s : State) (l : Nat) (f : Launch → Launch) : (s.onLaunch l f).fresh = s.fresh := rfl
@[simp] theorem State.onLaunch_traced (s : State) (l : Nat) (f : Launch → Launch) : (s.onLaunch l f).traced = s.traced := rfl
@[simp] theorem State.onLaunch_sched (s : State) (l : Nat) (f : Launch → Launch) : (s.onLaunch l f).sched = s.sched := rfl
@[simp] theorem State.onLaunch_blk (s : State) (l : Nat) (f : Launch → Launch) (y : Nat) : (s.onLaunch l f).blk y = s.blk y := rfl
@[simp] theorem State.onLaunch_clu (s : State) (l : Nat) (f : Launch → Launch) (y : Nat) : (s.onLaunch l f).clu y = s.clu y := rfl
@[simp] theorem State.onLaunch_die (s : State) (l : Nat) (f : Launch → Launch) (y : Nat) : (s.onLaunch l f).die y = s.die y := rfl
@[simp] theorem State.onLaunch_core (s : State) (l : Nat) (f : Launch → Launch) (y : Nat) : (s.onLaunch l f).core y = s.core y := rfl
@[simp] theorem State.onLaunch_region (s : State) (l : Nat) (f : Launch → Launch) (y : Nat) : (s.onLaunch l f).region y = s.region y := rfl
@[simp] theorem State.onLaunch_part (s : State) (l : Nat) (f : Launch → Launch) (y : Nat) : (s.onLaunch l f).part y = s.part y := rfl
theorem State.onLaunch_launch (s : State) (l : Nat) (f : Launch → Launch) (y : Nat) : (s.onLaunch l f).launch y = if y = l then f (s.launch l) else s.launch y := by
  unfold State.onLaunch State.launch; exact Tbl.get_put _ _ _ _ _
@[simp] theorem State.onLaunch_launch_same (s : State) (l : Nat) (f : Launch → Launch) : (s.onLaunch l f).launch l = f (s.launch l) := by simp [State.onLaunch_launch]
@[simp] theorem State.onLaunch_site (s : State) (l : Nat) (f : Launch → Launch) (y : Nat) : (s.onLaunch l f).site y = s.site y := rfl
@[simp] theorem State.onLaunch_warp (s : State) (l : Nat) (f : Launch → Launch) (y : Nat) : (s.onLaunch l f).warp y = s.warp y := rfl
@[simp] theorem State.onLaunch_peek (s : State) (l : Nat) (f : Launch → Launch) (y : Nat) : (s.onLaunch l f).peek y = s.peek y := rfl

/-! onSite -/

@[simp] theorem State.onSite_w (s : State) (x : Nat) (f : Site → Site) : (s.onSite x f).w = s.w := rfl
@[simp] theorem State.onSite_focus (s : State) (x : Nat) (f : Site → Site) : (s.onSite x f).focus = s.focus := rfl
@[simp] theorem State.onSite_warps (s : State) (x : Nat) (f : Site → Site) : (s.onSite x f).warps = s.warps := rfl
@[simp] theorem State.onSite_cores (s : State) (x : Nat) (f : Site → Site) : (s.onSite x f).cores = s.cores := rfl
@[simp] theorem State.onSite_blocks (s : State) (x : Nat) (f : Site → Site) : (s.onSite x f).blocks = s.blocks := rfl
@[simp] theorem State.onSite_clusters (s : State) (x : Nat) (f : Site → Site) : (s.onSite x f).clusters = s.clusters := rfl
@[simp] theorem State.onSite_dies (s : State) (x : Nat) (f : Site → Site) : (s.onSite x f).dies = s.dies := rfl
@[simp] theorem State.onSite_regions (s : State) (x : Nat) (f : Site → Site) : (s.onSite x f).regions = s.regions := rfl
@[simp] theorem State.onSite_parts (s : State) (x : Nat) (f : Site → Site) : (s.onSite x f).parts = s.parts := rfl
@[simp] theorem State.onSite_launches (s : State) (x : Nat) (f : Site → Site) : (s.onSite x f).launches = s.launches := rfl
@[simp] theorem State.onSite_acc (s : State) (x : Nat) (f : Site → Site) : (s.onSite x f).acc = s.acc := rfl
@[simp] theorem State.onSite_mem (s : State) (x : Nat) (f : Site → Site) : (s.onSite x f).mem = s.mem := rfl
@[simp] theorem State.onSite_rowValid (s : State) (x : Nat) (f : Site → Site) : (s.onSite x f).rowValid = s.rowValid := rfl
@[simp] theorem State.onSite_poison (s : State) (x : Nat) (f : Site → Site) : (s.onSite x f).poison = s.poison := rfl
@[simp] theorem State.onSite_counters (s : State) (x : Nat) (f : Site → Site) : (s.onSite x f).counters = s.counters := rfl
@[simp] theorem State.onSite_heapState (s : State) (x : Nat) (f : Site → Site) : (s.onSite x f).heapState = s.heapState := rfl
@[simp] theorem State.onSite_links (s : State) (x : Nat) (f : Site → Site) : (s.onSite x f).links = s.links := rfl
@[simp] theorem State.onSite_evq (s : State) (x : Nat) (f : Site → Site) : (s.onSite x f).evq = s.evq := rfl
@[simp] theorem State.onSite_dropq (s : State) (x : Nat) (f : Site → Site) : (s.onSite x f).dropq = s.dropq := rfl
@[simp] theorem State.onSite_routes (s : State) (x : Nat) (f : Site → Site) : (s.onSite x f).routes = s.routes := rfl
@[simp] theorem State.onSite_spans (s : State) (x : Nat) (f : Site → Site) : (s.onSite x f).spans = s.spans := rfl
@[simp] theorem State.onSite_envelope (s : State) (x : Nat) (f : Site → Site) : (s.onSite x f).envelope = s.envelope := rfl
@[simp] theorem State.onSite_interrupts (s : State) (x : Nat) (f : Site → Site) : (s.onSite x f).interrupts = s.interrupts := rfl
@[simp] theorem State.onSite_reports (s : State) (x : Nat) (f : Site → Site) : (s.onSite x f).reports = s.reports := rfl
@[simp] theorem State.onSite_supervisor (s : State) (x : Nat) (f : Site → Site) : (s.onSite x f).supervisor = s.supervisor := rfl
@[simp] theorem State.onSite_beatTick (s : State) (x : Nat) (f : Site → Site) : (s.onSite x f).beatTick = s.beatTick := rfl
@[simp] theorem State.onSite_inReset (s : State) (x : Nat) (f : Site → Site) : (s.onSite x f).inReset = s.inReset := rfl
@[simp] theorem State.onSite_lifeCycle (s : State) (x : Nat) (f : Site → Site) : (s.onSite x f).lifeCycle = s.lifeCycle := rfl
@[simp] theorem State.onSite_refSlew (s : State) (x : Nat) (f : Site → Site) : (s.onSite x f).refSlew = s.refSlew := rfl
@[simp] theorem State.onSite_refSlewAt (s : State) (x : Nat) (f : Site → Site) : (s.onSite x f).refSlewAt = s.refSlewAt := rfl
@[simp] theorem State.onSite_refOwed (s : State) (x : Nat) (f : Site → Site) : (s.onSite x f).refOwed = s.refOwed := rfl
@[simp] theorem State.onSite_measured (s : State) (x : Nat) (f : Site → Site) : (s.onSite x f).measured = s.measured := rfl
@[simp] theorem State.onSite_packets (s : State) (x : Nat) (f : Site → Site) : (s.onSite x f).packets = s.packets := rfl
@[simp] theorem State.onSite_cycle (s : State) (x : Nat) (f : Site → Site) : (s.onSite x f).cycle = s.cycle := rfl
@[simp] theorem State.onSite_fresh (s : State) (x : Nat) (f : Site → Site) : (s.onSite x f).fresh = s.fresh := rfl
@[simp] theorem State.onSite_traced (s : State) (x : Nat) (f : Site → Site) : (s.onSite x f).traced = s.traced := rfl
@[simp] theorem State.onSite_sched (s : State) (x : Nat) (f : Site → Site) : (s.onSite x f).sched = s.sched := rfl
@[simp] theorem State.onSite_blk (s : State) (x : Nat) (f : Site → Site) (y : Nat) : (s.onSite x f).blk y = s.blk y := rfl
@[simp] theorem State.onSite_clu (s : State) (x : Nat) (f : Site → Site) (y : Nat) : (s.onSite x f).clu y = s.clu y := rfl
@[simp] theorem State.onSite_die (s : State) (x : Nat) (f : Site → Site) (y : Nat) : (s.onSite x f).die y = s.die y := rfl
@[simp] theorem State.onSite_core (s : State) (x : Nat) (f : Site → Site) (y : Nat) : (s.onSite x f).core y = s.core y := rfl
@[simp] theorem State.onSite_region (s : State) (x : Nat) (f : Site → Site) (y : Nat) : (s.onSite x f).region y = s.region y := rfl
@[simp] theorem State.onSite_part (s : State) (x : Nat) (f : Site → Site) (y : Nat) : (s.onSite x f).part y = s.part y := rfl
@[simp] theorem State.onSite_launch (s : State) (x : Nat) (f : Site → Site) (y : Nat) : (s.onSite x f).launch y = s.launch y := rfl
theorem State.onSite_site (s : State) (x : Nat) (f : Site → Site) (y : Nat) : (s.onSite x f).site y = if y = x then f (s.site x) else s.site y := by
  unfold State.onSite State.site; exact Tbl.get_put _ _ _ _ _
@[simp] theorem State.onSite_site_same (s : State) (x : Nat) (f : Site → Site) : (s.onSite x f).site x = f (s.site x) := by simp [State.onSite_site]
@[simp] theorem State.onSite_warp (s : State) (x : Nat) (f : Site → Site) (y : Nat) : (s.onSite x f).warp y = s.warp y := rfl
@[simp] theorem State.onSite_peek (s : State) (x : Nat) (f : Site → Site) (y : Nat) : (s.onSite x f).peek y = s.peek y := rfl

/-! poke -/

@[simp] theorem State.poke_w (s : State) (k : Nat) (b : Byte) : (s.poke k b).w = s.w := rfl
@[simp] theorem State.poke_focus (s : State) (k : Nat) (b : Byte) : (s.poke k b).focus = s.focus := rfl
@[simp] theorem State.poke_warps (s : State) (k : Nat) (b : Byte) : (s.poke k b).warps = s.warps := rfl
@[simp] theorem State.poke_cores (s : State) (k : Nat) (b : Byte) : (s.poke k b).cores = s.cores := rfl
@[simp] theorem State.poke_blocks (s : State) (k : Nat) (b : Byte) : (s.poke k b).blocks = s.blocks := rfl
@[simp] theorem State.poke_clusters (s : State) (k : Nat) (b : Byte) : (s.poke k b).clusters = s.clusters := rfl
@[simp] theorem State.poke_dies (s : State) (k : Nat) (b : Byte) : (s.poke k b).dies = s.dies := rfl
@[simp] theorem State.poke_regions (s : State) (k : Nat) (b : Byte) : (s.poke k b).regions = s.regions := rfl
@[simp] theorem State.poke_parts (s : State) (k : Nat) (b : Byte) : (s.poke k b).parts = s.parts := rfl
@[simp] theorem State.poke_launches (s : State) (k : Nat) (b : Byte) : (s.poke k b).launches = s.launches := rfl
@[simp] theorem State.poke_acc (s : State) (k : Nat) (b : Byte) : (s.poke k b).acc = s.acc := rfl
@[simp] theorem State.poke_rowValid (s : State) (k : Nat) (b : Byte) : (s.poke k b).rowValid = s.rowValid := rfl
@[simp] theorem State.poke_poison (s : State) (k : Nat) (b : Byte) : (s.poke k b).poison = s.poison := rfl
@[simp] theorem State.poke_counters (s : State) (k : Nat) (b : Byte) : (s.poke k b).counters = s.counters := rfl
@[simp] theorem State.poke_heapState (s : State) (k : Nat) (b : Byte) : (s.poke k b).heapState = s.heapState := rfl
@[simp] theorem State.poke_links (s : State) (k : Nat) (b : Byte) : (s.poke k b).links = s.links := rfl
@[simp] theorem State.poke_sites (s : State) (k : Nat) (b : Byte) : (s.poke k b).sites = s.sites := rfl
@[simp] theorem State.poke_evq (s : State) (k : Nat) (b : Byte) : (s.poke k b).evq = s.evq := rfl
@[simp] theorem State.poke_dropq (s : State) (k : Nat) (b : Byte) : (s.poke k b).dropq = s.dropq := rfl
@[simp] theorem State.poke_routes (s : State) (k : Nat) (b : Byte) : (s.poke k b).routes = s.routes := rfl
@[simp] theorem State.poke_spans (s : State) (k : Nat) (b : Byte) : (s.poke k b).spans = s.spans := rfl
@[simp] theorem State.poke_envelope (s : State) (k : Nat) (b : Byte) : (s.poke k b).envelope = s.envelope := rfl
@[simp] theorem State.poke_interrupts (s : State) (k : Nat) (b : Byte) : (s.poke k b).interrupts = s.interrupts := rfl
@[simp] theorem State.poke_reports (s : State) (k : Nat) (b : Byte) : (s.poke k b).reports = s.reports := rfl
@[simp] theorem State.poke_supervisor (s : State) (k : Nat) (b : Byte) : (s.poke k b).supervisor = s.supervisor := rfl
@[simp] theorem State.poke_beatTick (s : State) (k : Nat) (b : Byte) : (s.poke k b).beatTick = s.beatTick := rfl
@[simp] theorem State.poke_inReset (s : State) (k : Nat) (b : Byte) : (s.poke k b).inReset = s.inReset := rfl
@[simp] theorem State.poke_lifeCycle (s : State) (k : Nat) (b : Byte) : (s.poke k b).lifeCycle = s.lifeCycle := rfl
@[simp] theorem State.poke_refSlew (s : State) (k : Nat) (b : Byte) : (s.poke k b).refSlew = s.refSlew := rfl
@[simp] theorem State.poke_refSlewAt (s : State) (k : Nat) (b : Byte) : (s.poke k b).refSlewAt = s.refSlewAt := rfl
@[simp] theorem State.poke_refOwed (s : State) (k : Nat) (b : Byte) : (s.poke k b).refOwed = s.refOwed := rfl
@[simp] theorem State.poke_measured (s : State) (k : Nat) (b : Byte) : (s.poke k b).measured = s.measured := rfl
@[simp] theorem State.poke_packets (s : State) (k : Nat) (b : Byte) : (s.poke k b).packets = s.packets := rfl
@[simp] theorem State.poke_cycle (s : State) (k : Nat) (b : Byte) : (s.poke k b).cycle = s.cycle := rfl
@[simp] theorem State.poke_fresh (s : State) (k : Nat) (b : Byte) : (s.poke k b).fresh = s.fresh := rfl
@[simp] theorem State.poke_traced (s : State) (k : Nat) (b : Byte) : (s.poke k b).traced = s.traced := rfl
@[simp] theorem State.poke_sched (s : State) (k : Nat) (b : Byte) : (s.poke k b).sched = s.sched := rfl
@[simp] theorem State.poke_mem (s : State) (k : Nat) (b : Byte) : (s.poke k b).mem = s.mem.set Memory.unlisted k b := rfl
@[simp] theorem State.poke_blk (s : State) (k : Nat) (b : Byte) (y : Nat) : (s.poke k b).blk y = s.blk y := rfl
@[simp] theorem State.poke_clu (s : State) (k : Nat) (b : Byte) (y : Nat) : (s.poke k b).clu y = s.clu y := rfl
@[simp] theorem State.poke_die (s : State) (k : Nat) (b : Byte) (y : Nat) : (s.poke k b).die y = s.die y := rfl
@[simp] theorem State.poke_core (s : State) (k : Nat) (b : Byte) (y : Nat) : (s.poke k b).core y = s.core y := rfl
@[simp] theorem State.poke_region (s : State) (k : Nat) (b : Byte) (y : Nat) : (s.poke k b).region y = s.region y := rfl
@[simp] theorem State.poke_part (s : State) (k : Nat) (b : Byte) (y : Nat) : (s.poke k b).part y = s.part y := rfl
@[simp] theorem State.poke_launch (s : State) (k : Nat) (b : Byte) (y : Nat) : (s.poke k b).launch y = s.launch y := rfl
@[simp] theorem State.poke_site (s : State) (k : Nat) (b : Byte) (y : Nat) : (s.poke k b).site y = s.site y := rfl
@[simp] theorem State.poke_warp (s : State) (k : Nat) (b : Byte) (y : Nat) : (s.poke k b).warp y = s.warp y := rfl

/-! interrupt -/

@[simp] theorem State.interrupt_w (s : State) (i : Interrupt) : (s.interrupt i).w = s.w := rfl
@[simp] theorem State.interrupt_focus (s : State) (i : Interrupt) : (s.interrupt i).focus = s.focus := rfl
@[simp] theorem State.interrupt_warps (s : State) (i : Interrupt) : (s.interrupt i).warps = s.warps := rfl
@[simp] theorem State.interrupt_cores (s : State) (i : Interrupt) : (s.interrupt i).cores = s.cores := rfl
@[simp] theorem State.interrupt_blocks (s : State) (i : Interrupt) : (s.interrupt i).blocks = s.blocks := rfl
@[simp] theorem State.interrupt_clusters (s : State) (i : Interrupt) : (s.interrupt i).clusters = s.clusters := rfl
@[simp] theorem State.interrupt_dies (s : State) (i : Interrupt) : (s.interrupt i).dies = s.dies := rfl
@[simp] theorem State.interrupt_regions (s : State) (i : Interrupt) : (s.interrupt i).regions = s.regions := rfl
@[simp] theorem State.interrupt_parts (s : State) (i : Interrupt) : (s.interrupt i).parts = s.parts := rfl
@[simp] theorem State.interrupt_launches (s : State) (i : Interrupt) : (s.interrupt i).launches = s.launches := rfl
@[simp] theorem State.interrupt_acc (s : State) (i : Interrupt) : (s.interrupt i).acc = s.acc := rfl
@[simp] theorem State.interrupt_mem (s : State) (i : Interrupt) : (s.interrupt i).mem = s.mem := rfl
@[simp] theorem State.interrupt_rowValid (s : State) (i : Interrupt) : (s.interrupt i).rowValid = s.rowValid := rfl
@[simp] theorem State.interrupt_poison (s : State) (i : Interrupt) : (s.interrupt i).poison = s.poison := rfl
@[simp] theorem State.interrupt_counters (s : State) (i : Interrupt) : (s.interrupt i).counters = s.counters := rfl
@[simp] theorem State.interrupt_heapState (s : State) (i : Interrupt) : (s.interrupt i).heapState = s.heapState := rfl
@[simp] theorem State.interrupt_links (s : State) (i : Interrupt) : (s.interrupt i).links = s.links := rfl
@[simp] theorem State.interrupt_sites (s : State) (i : Interrupt) : (s.interrupt i).sites = s.sites := rfl
@[simp] theorem State.interrupt_evq (s : State) (i : Interrupt) : (s.interrupt i).evq = s.evq := rfl
@[simp] theorem State.interrupt_dropq (s : State) (i : Interrupt) : (s.interrupt i).dropq = s.dropq := rfl
@[simp] theorem State.interrupt_routes (s : State) (i : Interrupt) : (s.interrupt i).routes = s.routes := rfl
@[simp] theorem State.interrupt_spans (s : State) (i : Interrupt) : (s.interrupt i).spans = s.spans := rfl
@[simp] theorem State.interrupt_envelope (s : State) (i : Interrupt) : (s.interrupt i).envelope = s.envelope := rfl
@[simp] theorem State.interrupt_reports (s : State) (i : Interrupt) : (s.interrupt i).reports = s.reports := rfl
@[simp] theorem State.interrupt_supervisor (s : State) (i : Interrupt) : (s.interrupt i).supervisor = s.supervisor := rfl
@[simp] theorem State.interrupt_beatTick (s : State) (i : Interrupt) : (s.interrupt i).beatTick = s.beatTick := rfl
@[simp] theorem State.interrupt_inReset (s : State) (i : Interrupt) : (s.interrupt i).inReset = s.inReset := rfl
@[simp] theorem State.interrupt_lifeCycle (s : State) (i : Interrupt) : (s.interrupt i).lifeCycle = s.lifeCycle := rfl
@[simp] theorem State.interrupt_refSlew (s : State) (i : Interrupt) : (s.interrupt i).refSlew = s.refSlew := rfl
@[simp] theorem State.interrupt_refSlewAt (s : State) (i : Interrupt) : (s.interrupt i).refSlewAt = s.refSlewAt := rfl
@[simp] theorem State.interrupt_refOwed (s : State) (i : Interrupt) : (s.interrupt i).refOwed = s.refOwed := rfl
@[simp] theorem State.interrupt_measured (s : State) (i : Interrupt) : (s.interrupt i).measured = s.measured := rfl
@[simp] theorem State.interrupt_packets (s : State) (i : Interrupt) : (s.interrupt i).packets = s.packets := rfl
@[simp] theorem State.interrupt_cycle (s : State) (i : Interrupt) : (s.interrupt i).cycle = s.cycle := rfl
@[simp] theorem State.interrupt_fresh (s : State) (i : Interrupt) : (s.interrupt i).fresh = s.fresh := rfl
@[simp] theorem State.interrupt_traced (s : State) (i : Interrupt) : (s.interrupt i).traced = s.traced := rfl
@[simp] theorem State.interrupt_sched (s : State) (i : Interrupt) : (s.interrupt i).sched = s.sched := rfl
@[simp] theorem State.interrupt_interrupts (s : State) (i : Interrupt) : (s.interrupt i).interrupts = s.interrupts ++ [i] := rfl
@[simp] theorem State.interrupt_blk (s : State) (i : Interrupt) (y : Nat) : (s.interrupt i).blk y = s.blk y := rfl
@[simp] theorem State.interrupt_clu (s : State) (i : Interrupt) (y : Nat) : (s.interrupt i).clu y = s.clu y := rfl
@[simp] theorem State.interrupt_die (s : State) (i : Interrupt) (y : Nat) : (s.interrupt i).die y = s.die y := rfl
@[simp] theorem State.interrupt_core (s : State) (i : Interrupt) (y : Nat) : (s.interrupt i).core y = s.core y := rfl
@[simp] theorem State.interrupt_region (s : State) (i : Interrupt) (y : Nat) : (s.interrupt i).region y = s.region y := rfl
@[simp] theorem State.interrupt_part (s : State) (i : Interrupt) (y : Nat) : (s.interrupt i).part y = s.part y := rfl
@[simp] theorem State.interrupt_launch (s : State) (i : Interrupt) (y : Nat) : (s.interrupt i).launch y = s.launch y := rfl
@[simp] theorem State.interrupt_site (s : State) (i : Interrupt) (y : Nat) : (s.interrupt i).site y = s.site y := rfl
@[simp] theorem State.interrupt_warp (s : State) (i : Interrupt) (y : Nat) : (s.interrupt i).warp y = s.warp y := rfl
@[simp] theorem State.interrupt_peek (s : State) (i : Interrupt) (y : Nat) : (s.interrupt i).peek y = s.peek y := rfl

/-! Memory, byte by byte -/

/-- A read after a write. -/
theorem State.poke_peek (s : State) (k : Nat) (b : Byte) (a : Nat) : (s.poke k b).peek a = if a = k then b else s.peek a := by
  unfold State.poke State.peek; exact Tbl.get_set _ _ _ _ _
@[simp] theorem State.poke_peek_same (s : State) (k : Nat) (b : Byte) : (s.poke k b).peek k = b := by simp [State.poke_peek]
/-- A write keeps the canonical form. -/
theorem State.poke_wf {s : State} (k : Nat) (b : Byte) (h : Memory.wf s.mem) : Memory.wf (s.poke k b).mem := Tbl.canonical_set k b h

end Sys2Proof.Machine
end

