-- ==== Sys2Proof/Laws/Issue.lean ====
section
/-!
SUPPORT. What events, counters and the issue of a word leave alone: the laws that proofs about warp words cite in place of
unfolding `counted`, `done` and the gates `word`, `laneWord` and `uniWord`.
-/
namespace Sys2Proof.Safety
set_option Elab.async false
open Sys2Proof.Machine

theorem Quiet.refl (s : State) : Quiet s s := ⟨rfl, fun _ => rfl, fun _ => rfl, fun _ => rfl, fun _ => rfl, fun _ => rfl⟩
theorem Quiet.trans {a b c : State} (h : Quiet a b) (k : Quiet b c) : Quiet a c :=
  ⟨k.outside.trans h.outside, fun x => (k.cores x).trans (h.cores x), fun x => (k.blocks x).trans (h.blocks x), fun x => (k.clusters x).trans (h.clusters x),
   fun x => (k.dies x).trans (h.dies x), fun x => (k.regions x).trans (h.regions x)⟩
/-- A change of the warp at issue alone is quiet. -/
theorem Quiet.onW {s t : State} (h : Quiet s t) (f : Warp → Warp) : Quiet s (t.onW f) := ⟨h.outside, h.cores, h.blocks, h.clusters, h.dies, h.regions⟩
theorem Quiet.ofOnW {s t : State} (f : Warp → Warp) (h : Quiet (s.onW f) t) : Quiet s t :=
  ⟨h.outside, h.cores, h.blocks, h.clusters, h.dies, h.regions⟩

/-- An update that only touches one die's event numbers and trace queue. -/
theorem quiet_onDie (s : State) (d : Nat) (f : Die → Die)
    (h : ∀ x : Die, { f x with seqs := [], traceq := [] } = { x with seqs := [], traceq := [] }) : Quiet s (s.onDie d f) := by
  refine ⟨rfl, fun _ => rfl, fun _ => rfl, fun _ => rfl, fun x => ?_, fun _ => rfl⟩
  rw [State.onDie_die]; split
  · subst_vars; exact h _
  · rfl

theorem foldl_keeps {α : Type} (R : State → State → Prop) (hr : ∀ s, R s s) (ht : ∀ a b c, R a b → R b c → R a c)
    (f : State → α → State) (hf : ∀ s x, R s (f s x)) (l : List α) : ∀ s, R s (l.foldl f s) := by
  induction l with
  | nil => exact hr
  | cons x l ih => intro s; exact ht _ _ _ (hf s x) (ih _)

/-- Quiet, and the warp at issue is as before. -/
def Still (s t : State) : Prop := Quiet s t ∧ t.w = s.w ∧ ∀ b, t.blk b = s.blk b
theorem Still.refl (s : State) : Still s s := ⟨Quiet.refl s, rfl, fun _ => rfl⟩
theorem Still.trans {a b c : State} (h : Still a b) (k : Still b c) : Still a c :=
  ⟨h.1.trans k.1, k.2.1.trans h.2.1, fun x => (k.2.2 x).trans (h.2.2 x)⟩

theorem Still.ite {c : Bool} {s a b : State} (h : Still s a) (k : Still s b) : Still s (if c = true then a else b) := by
  cases c
  · exact k
  · exact h

theorem still_sendEvent (s : State) (o site : Nat) (h : HemEvent) : Still s (s.sendEvent o site h) := by
  unfold State.sendEvent
  split
  · exact ⟨⟨rfl, fun _ => rfl, fun _ => rfl, fun _ => rfl, fun _ => rfl, fun _ => rfl⟩, rfl, fun _ => rfl⟩
  · exact ⟨⟨rfl, fun _ => rfl, fun _ => rfl, fun _ => rfl, fun _ => rfl, fun _ => rfl⟩, rfl, fun _ => rfl⟩

theorem still_onDie (s : State) (d : Nat) (f : Die → Die)
    (h : ∀ x : Die, { f x with seqs := [], traceq := [] } = { x with seqs := [], traceq := [] }) : Still s (s.onDie d f) :=
  ⟨quiet_onDie s d f h, rfl, fun _ => rfl⟩

theorem still_seqs (s : State) (d : Nat) (g : Die → Tbl Nat) : Still s (s.onDie d fun x => { x with seqs := g x }) :=
  still_onDie s d _ fun _ => rfl
theorem still_traceq (s : State) (d : Nat) (g : Die → List (List Byte)) : Still s (s.onDie d fun x => { x with traceq := g x }) :=
  still_onDie s d _ fun _ => rfl

/-- Emitting an event touches only event numbers, the trace queue and the events on their way (R199, R383). -/
theorem still_emitAt (s : State) (site tick ty d clu core warp : Nat) (p : DWord) : Still s (s.emitAt site tick ty d clu core warp p) := by
  unfold State.emitAt
  simp only []
  split
  · exact Still.refl s
  · refine Still.trans ?_ (foldl_keeps Still Still.refl (fun _ _ _ => Still.trans) _ (fun s o => still_sendEvent s o _ _) _ _)
    exact Still.ite ((still_seqs s d _).trans (still_traceq _ d _)) (still_seqs s d _)

theorem still_emit (s : State) (ty d clu core warp : Nat) (p : DWord) : Still s (s.emit ty d clu core warp p) := still_emitAt _ _ _ _ _ _ _ _ _
theorem still_emitWarp (s : State) (ty u p : Nat) : Still s (s.emitWarp ty u p) := still_emit _ _ _ _ _ _ _
theorem still_emitCore (s : State) (ty u p : Nat) : Still s (s.emitCore ty u p) := still_emit _ _ _ _ _ _ _
theorem still_emitClu (s : State) (ty u p : Nat) : Still s (s.emitClu ty u p) := still_emit _ _ _ _ _ _ _
theorem still_emitDie (s : State) (ty u p : Nat) : Still s (s.emitDie ty u p) := still_emit _ _ _ _ _ _ _

/-- Counting touches only counters (R367). -/
theorem still_countUnit (s : State) (l u src n : Nat) : Still s (s.countUnit l u src n) := by
  unfold State.countUnit
  refine foldl_keeps Still Still.refl (fun _ _ _ => Still.trans) _ (fun s i => ?_) _ _
  simp only []
  split
  · exact ⟨⟨rfl, fun _ => rfl, fun _ => rfl, fun _ => rfl, fun _ => rfl, fun _ => rfl⟩, rfl, fun _ => rfl⟩
  · exact Still.refl _
theorem still_countCore (s : State) (u src n : Nat) : Still s (s.countCore u src n) :=
  ((still_countUnit _ _ _ _ _).trans (still_countUnit _ _ _ _ _)).trans (still_countUnit _ _ _ _ _)
theorem still_countClu (s : State) (u src n : Nat) : Still s (s.countClu u src n) :=
  (still_countUnit _ _ _ _ _).trans (still_countUnit _ _ _ _ _)
theorem still_countDie (s : State) (u src n : Nat) : Still s (s.countDie u src n) := still_countUnit _ _ _ _ _

theorem still_islands (s : State) (c : Nat) (g : Cluster → Tbl Island) : Still s (s.onClu c fun x => { x with islands := g x }) := by
  refine ⟨⟨rfl, fun _ => rfl, fun _ => rfl, fun x => ?_, fun _ => rfl, fun _ => rfl⟩, rfl, fun _ => rfl⟩
  rw [State.onClu_clu]; split
  · subst_vars; rfl
  · rfl
theorem still_onsets (s : State) (r : Nat) (g : Region → List Onset) : Still s (s.onRegion r fun x => { x with onsets := g x }) := by
  refine ⟨⟨rfl, fun _ => rfl, fun _ => rfl, fun _ => rfl, fun _ => rfl, fun x => ?_⟩, rfl, fun _ => rfl⟩
  rw [State.onRegion_region]; split
  · subst_vars; rfl
  · rfl

/-- The lane datapath of a core takes a word (R183), and an island that wakes asks for its onset (R356); nothing else moves. -/
theorem still_wakeIsland (s : State) (core : Nat) : Still s (s.wakeIsland core) := by
  have lane : ∀ (t : State) (n : Nat), Still t (t.onCore core fun x => { x with laneFree := n }) := fun t n => by
    refine ⟨⟨rfl, fun u => ?_, fun _ => rfl, fun _ => rfl, fun _ => rfl, fun _ => rfl⟩, rfl, fun _ => rfl⟩
    rw [State.onCore_core]; split
    · subst_vars; rfl
    · rfl
  have asks : Still s (s.askOnset (core / 16) (core % 16 / 4) 1) := by
    unfold State.askOnset
    simp only []
    rw [if_neg (by omega)]
    exact (still_onsets s _ _).trans (still_islands _ _ _)
  exact ((Still.ite asks (Still.refl s)).trans (still_islands _ _ _)).trans (lane _ _)

/-- The first word of a block begins it, and nothing else moves but its event (R272). -/
theorem quiet_beginBlock (s : State) : Quiet s s.beginBlock ∧ s.beginBlock.w = s.w ∧ (s.beginBlock.blk s.w.blk).begun = true := by
  unfold State.beginBlock
  split
  · rename_i h; exact ⟨Quiet.refl s, rfl, h⟩
  · have e := still_emitClu (s.onBlk s.w.blk fun k => { k with begun := true }) 0x52 s.myClu (s.placePayload s.w.blk)
    refine ⟨Quiet.trans (b := State.onBlk _ _ _) ⟨rfl, fun _ => rfl, fun x => ?_, fun _ => rfl, fun _ => rfl, fun _ => rfl⟩ e.1, e.2.1, ?_⟩
    · rw [State.onBlk_blk]; split
      · subst_vars; rfl
      · rfl
    · rw [e.2.2]; simp

/-- The warp's record after a word has been counted (R46, R180, R184). -/
structure Counted (w v : Warp) : Prop where
  regs : v.v = w.v
  preds : v.p = w.p
  uniform : v.s = w.s
  upreds : v.q = w.q
  flags : v.f = w.f
  pend : v.pend = w.pend
  tag : v.nextTag = w.nextTag
  pathA : v.a = w.a
  pathB : v.b = w.b
  cur : v.cur = w.cur
  loops : v.loops = w.loops
  depth : v.depth = w.depth
  count : v.cnt = w.cnt + 1
  going : v.stalled = false
  bare : bare v = bare w

/-- Counting a word as issued. -/
theorem counted_spec (s : State) (lane : Bool) :
    Quiet s (s.counted lane) ∧ ((s.counted lane).blk s.w.blk).begun = true ∧ Counted s.w (s.counted lane).w := by
  unfold State.counted
  obtain ⟨h1, h2, h3⟩ := quiet_beginBlock s
  have h4 : ∃ t, (if lane then s.beginBlock.wakeIsland s.beginBlock.myCore else s.beginBlock) = t ∧ Still s.beginBlock t := by
    cases lane
    · exact ⟨_, rfl, Still.refl _⟩
    · exact ⟨_, rfl, still_wakeIsland _ _⟩
  obtain ⟨t, e, h4⟩ := h4
  simp only [e]
  have h5 := still_countCore t t.myCore (if lane then 2 else 3) 1
  have h6 := h4.trans h5
  have hw : (t.countCore t.myCore (if lane then 2 else 3) 1).w = s.w := h6.2.1.trans h2
  refine ⟨(h1.trans h6.1).onW _, ?_, ?_⟩
  · show (State.blk _ s.w.blk).begun = true
    have := h6.2.2 s.w.blk
    simp only [State.onW_blk]
    rw [this]; exact h3
  · simp only [State.onW_w, hw]
    exact ⟨rfl, rfl, rfl, rfl, rfl, rfl, rfl, rfl, rfl, rfl, rfl, rfl, rfl, rfl, rfl⟩

end Sys2Proof.Safety
end

