-- ==== Sys2Proof/Laws/Memory.lean ====
section
/-!
SUPPORT. Every operation of the machine on memory keeps the canonical form of the byte store: the bytes at their homes, the
RDC and the L1 above them, local memory, releases and acquires, and the wipes of R415. Cite these in place of unfolding the
caches.
-/
namespace Sys2Proof.Safety
set_option Elab.async false
open Sys2Proof.Machine

/-- If memory was in canonical form before, it is after. -/
def Kept (s t : State) : Prop := Memory.wf s.mem → Memory.wf t.mem
theorem Kept.refl (s : State) : Kept s s := id
theorem Kept.trans {a b c : State} (h : Kept a b) (k : Kept b c) : Kept a c := k ∘ h
/-- A step that leaves the byte store alone. -/
theorem Kept.ofEq {s t : State} (h : t.mem = s.mem) : Kept s t := fun w => h ▸ w
theorem Kept.ite {c : Prop} [Decidable c] {s a b : State} (h : Kept s a) (k : Kept s b) : Kept s (if c then a else b) := by
  split
  · exact h
  · exact k
theorem Quiet.kept {s t : State} (h : Quiet s t) : Kept s t := Kept.ofEq (by
  have e : (Safety.outside t).mem = (Safety.outside s).mem := by rw [h.outside]
  exact e)
theorem kept_foldl {α : Type} (f : State → α → State) (h : ∀ s x, Kept s (f s x)) (l : List α) (s : State) : Kept s (l.foldl f s) :=
  foldl_keeps Kept Kept.refl (fun _ _ _ => Kept.trans) f h l s

theorem reset_mem_wf : Memory.wf State.reset.mem := rfl

/-! ## Bytes at their homes -/

theorem kept_poke (s : State) (k : Nat) (b : Byte) : Kept s (s.poke k b) := Tbl.canonical_set k b
theorem kept_pokeN (s : State) (k n x : Nat) : Kept s (s.pokeN k n x) := kept_foldl _ (fun s _ => kept_poke s _ _) _ s
theorem kept_pokeBytes (l : List Byte) : ∀ (s : State) (k : Nat), Kept s (s.pokeBytes k l) := by
  induction l with
  | nil => intro s _; exact Kept.refl s
  | cons b t ih => intro s k; exact (kept_poke s k b).trans (ih _ _)
theorem kept_homeWrite (s : State) (d pa : Nat) (b : Byte) : Kept s (s.homeWrite d pa b) := by
  unfold State.homeWrite
  split
  · exact kept_poke s _ b
  · exact Kept.refl s
theorem kept_clearPoison (s : State) (d line : Nat) : Kept s (s.clearPoison d line) := by
  unfold State.clearPoison
  split <;> exact Kept.refl s
theorem kept_onDie (s : State) (d : Nat) (f : Die → Die) : Kept s (s.onDie d f) := Kept.ofEq (State.onDie_mem _ _ _)
/-- A request that a home L2 serves changes no byte (R286). -/
theorem kept_l2Touch (s : State) (key : Nat) : Kept s (s.l2Touch key) := by
  unfold State.l2Touch
  split
  · exact Kept.refl s
  · simp only []
    exact Kept.ite (kept_onDie _ _ _) ((still_countDie _ _ _ _).1.kept.trans (kept_onDie _ _ _))
theorem kept_diverted (s : State) (p : Pkt) : Kept s (s.diverted p) := Kept.ite (Kept.ofEq rfl) (Kept.refl s)
theorem kept_mailed (s : State) (p : Pkt) : Kept s (s.mailed p) := by
  unfold State.mailed
  split
  · exact (kept_onDie _ _ _).trans (kept_diverted _ p)
  · exact kept_diverted s p
/-- The packets that a request comes after are delivered, which changes no byte (R326). -/
theorem kept_catchUp (s : State) (d h : Nat) : Kept s (s.catchUp d h) :=
  kept_foldl _ (fun s p => Kept.trans (b := s.takePkt p) (Kept.ofEq rfl) (kept_mailed _ p)) _ s
theorem kept_visit (s : State) (d key : Nat) : Kept s (s.visit d key) := by
  unfold State.visit
  simp only []
  have h : Kept s (((homeDie key).map (s.catchUp d)).getD s) := by
    cases homeDie key with
    | none => exact Kept.refl s
    | some x => exact kept_catchUp s d x
  refine (h.trans (kept_l2Touch _ key)).trans (Kept.ite (Kept.refl _) ?_)
  split
  · exact Kept.refl _
  · exact Kept.ite (Kept.refl _) (Kept.ofEq rfl)
theorem kept_visitAt (s : State) (d pa : Nat) : Kept s (s.visitAt d pa) := by
  unfold State.visitAt
  split
  · exact kept_visit s d _
  · exact Kept.refl s

/-! ## The RDC (R288, R289) -/

/-- Some bytes of a line written at home, and the line's poison if all of them are (R321). -/
theorem kept_homeLine (s : State) (d line : Nat) (which : Nat → Bool) (byte : Nat → Byte) (whole : Bool) : Kept s
    (let t := (List.range 128).foldl (fun s i => if which i then s.homeWrite d (128 * line + i) (byte i) else s) s
     if whole then t.clearPoison d line else t) := by
  simp only []
  refine Kept.trans (kept_foldl _ (fun s i => ?_) (List.range 128) s) (Kept.ite (kept_clearPoison _ _ _) (Kept.refl _))
  exact Kept.ite (kept_homeWrite s _ _ _) (Kept.refl s)
theorem kept_rdcWriteBack (s : State) (d line : Nat) : Kept s (s.rdcWriteBack d line) := by
  unfold State.rdcWriteBack
  refine Kept.trans (Kept.ite (Kept.refl s) ?_) (kept_onDie _ _ _)
  exact (kept_visitAt s d _).trans (kept_homeLine _ d line _ _ _)
theorem kept_rdcFill (s : State) (d line : Nat) : Kept s (s.rdcFill d line) := by
  unfold State.rdcFill
  refine Kept.trans ?_ (kept_onDie _ _ _)
  exact (Kept.ite (still_countDie s d 13 1).1.kept (Kept.refl s)).trans (kept_visitAt _ d _)
theorem kept_rdcRoom (s : State) (d line : Nat) : Kept s (s.rdcRoom d line) := by
  unfold State.rdcRoom
  split
  · exact (kept_rdcWriteBack s d _).trans (kept_onDie _ _ _)
  · exact Kept.refl s
theorem kept_rdcUse (s : State) (d line : Nat) : Kept s (s.rdcUse d line) := kept_onDie _ _ _
theorem kept_rdcRead (s : State) (d pa : Nat) : Kept s (s.rdcRead d pa).2 := by
  unfold State.rdcRead
  simp only []
  split
  · exact kept_rdcUse s d _
  · exact (kept_rdcRoom s d _).trans (kept_rdcFill _ d _)
theorem kept_rdcWrite (s : State) (d pa : Nat) (b : Byte) : Kept s (s.rdcWrite d pa b) := by
  unfold State.rdcWrite
  simp only []
  refine Kept.trans ?_ (Kept.ofEq (State.onDie_mem _ _ _))
  refine (kept_rdcRoom s d _).trans (Kept.ite ?_ (Kept.refl _))
  split
  · exact kept_rdcWriteBack _ d _
  · exact Kept.refl _
theorem kept_lowRead (s : State) (d pa : Nat) (uc : Bool) : Kept s (s.lowRead d pa uc).2 := by
  unfold State.lowRead
  split
  · exact kept_visitAt s d pa
  · exact kept_rdcRead s d pa
theorem kept_lowWrite (s : State) (d pa : Nat) (uc : Bool) (b : Byte) : Kept s (s.lowWrite d pa uc b) :=
  Kept.ite ((kept_visitAt s d pa).trans (kept_homeWrite _ d pa b)) (kept_rdcWrite s d pa b)
/-- A whole line from below the L1. -/
theorem kept_lowLine (s : State) (d line : Nat) : Kept s (s.lowLine d line).2 := by
  unfold State.lowLine
  simp only []
  split
  · exact kept_visitAt s d _
  · exact Kept.ite (kept_rdcUse s d line) ((kept_rdcRoom s d line).trans (kept_rdcFill _ d line))
theorem kept_rdcDrain (s : State) (d : Nat) : Kept s (s.rdcDrain d) :=
  (kept_foldl _ (fun s _ => kept_rdcWriteBack s d _) _ s).trans (still_emitDie _ _ _ _).1.kept
theorem kept_rdcInvalidate (s : State) (d : Nat) : Kept s (s.rdcInvalidate d) :=
  (Kept.ite (Kept.refl s) (Kept.ofEq (State.onDie_mem _ _ _))).trans (still_emitDie _ _ _ _).1.kept

/-! ## The L1 (R194) -/

theorem kept_onCore (s : State) (c : Nat) (f : CoreS → CoreS) : Kept s (s.onCore c f) := Kept.ofEq (State.onCore_mem _ _ _)
theorem kept_l1WriteBack (s : State) (core line : Nat) : Kept s (s.l1WriteBack core line) := by
  unfold State.l1WriteBack
  refine Kept.trans (Kept.ite (Kept.refl s) (Kept.ite ?_ ?_)) (kept_onCore _ _ _)
  · exact (kept_visitAt s _ _).trans (kept_homeLine _ _ line _ _ _)
  · refine kept_foldl _ (fun s i => ?_) _ s
    exact Kept.ite (kept_rdcWrite s _ _ _) (Kept.refl s)
theorem kept_l1Room (s : State) (core line : Nat) : Kept s (s.l1Room core line) := by
  unfold State.l1Room
  split
  · exact (kept_l1WriteBack s core _).trans (kept_onCore _ _ _)
  · exact Kept.refl s
theorem kept_l1Fill (s : State) (core line : Nat) : Kept s (s.l1Fill core line) := by
  unfold State.l1Fill
  exact ((kept_l1Room s core line).trans (kept_lowLine _ _ line)).trans (kept_onCore _ _ _)
theorem kept_victimHit (s : State) (core line : Nat) : Kept s (s.victimHit core line) :=
  Kept.ite ((kept_onCore _ _ _).trans (still_countCore _ _ _ _).1.kept) (Kept.refl s)
theorem kept_l1Read (s : State) (core pa : Nat) (uc hit : Bool) : Kept s (s.l1Read core pa uc hit).2 := by
  unfold State.l1Read
  simp only []
  split
  · exact kept_lowRead s _ pa uc
  · split
    · exact kept_onCore _ _ _
    · exact (Kept.ite (kept_victimHit s core _) (Kept.refl s)).trans (kept_l1Fill _ core _)
theorem kept_l1Write (s : State) (core pa : Nat) (uc : Bool) (b : Byte) : Kept s (s.l1Write core pa uc b) := by
  unfold State.l1Write
  simp only []
  split
  · exact kept_lowWrite s _ pa uc b
  · refine Kept.trans ?_ (kept_onCore _ _ _)
    refine (kept_l1Room s core _).trans (Kept.ite ?_ (Kept.refl _))
    split
    · exact kept_l1WriteBack _ core _
    · exact Kept.refl _
theorem kept_l1Drain (s : State) (core : Nat) : Kept s (s.l1Drain core) := kept_foldl _ (fun s _ => kept_l1WriteBack s core _) _ s
theorem kept_l1Invalidate (s : State) (core : Nat) : Kept s (s.l1Invalidate core) := Kept.ite (Kept.refl s) (kept_onCore _ _ _)

/-! ## Scopes, lines and engines (R170, R292, R293) -/

theorem kept_release (s : State) (core scope : Nat) : Kept s (s.release core scope) := by
  unfold State.release
  simp only []
  refine Kept.trans (b := if 1 ≤ scope then s.l1Drain core else s) (Kept.ite (kept_l1Drain s core) (Kept.refl s)) ?_
  exact Kept.ite (kept_rdcDrain _ _) (Kept.refl _)
theorem kept_acquire (s : State) (core scope : Nat) : Kept s (s.acquire core scope) := by
  unfold State.acquire
  simp only []
  refine Kept.trans (b := if 1 ≤ scope then s.l1Invalidate core else s) (Kept.ite (kept_l1Invalidate s core) (Kept.refl s)) ?_
  exact Kept.ite (kept_rdcInvalidate _ _) (Kept.refl _)
theorem kept_flushLine (s : State) (core pa : Nat) : Kept s (s.flushLine core pa) := by
  unfold State.flushLine
  simp only []
  refine Kept.trans (b := if (s.core core).l1.any (·.1 == pa / 128) then
    (s.l1WriteBack core (pa / 128)).onCore core fun x => { x with l1 := x.l1.del (pa / 128) } else s)
    (Kept.ite ((kept_l1WriteBack s core _).trans (kept_onCore _ _ _)) (Kept.refl s)) ?_
  exact Kept.ite ((kept_rdcWriteBack _ _ _).trans (kept_onDie _ _ _)) (Kept.refl _)
theorem kept_engWrite (s : State) (d pa : Nat) (b : Byte) : Kept s (s.engWrite d pa b) := by
  unfold State.engWrite
  simp only []
  exact ((kept_visitAt s d pa).trans (kept_homeWrite _ d pa b)).trans (Kept.ite (kept_onDie _ _ _) (Kept.refl _))

/-! ## Local memory, and bytes of any place (R191) -/

theorem kept_localWrite (s : State) (core off : Nat) (b : Byte) : Kept s (s.localWrite core off b) := by
  unfold State.localWrite
  simp only []
  refine Kept.trans (Kept.ite (Kept.refl s) ?_) (kept_poke _ _ b)
  have h := kept_foldl (fun s i => s.poke (localKey core (off / 64 * 64 + i)) 0) (fun s _ => kept_poke s _ _) (List.range 64) s
  generalize (List.range 64).foldl (fun s i => s.poke (localKey core (off / 64 * 64 + i)) 0) s = t at h ⊢
  exact h
theorem kept_readLoc (s : State) (core : Nat) (hit : Bool) (l : Loc) : Kept s (s.readLoc core hit l).2 := by
  cases l with
  | loc c o => exact Kept.refl s
  | glob pa uc => exact kept_l1Read s core pa uc hit
theorem kept_writeLoc (s : State) (core : Nat) (b : Byte) (l : Loc) : Kept s (s.writeLoc core b l) := by
  cases l with
  | loc c o => exact kept_localWrite s c o b
  | glob pa uc => exact kept_l1Write s core pa uc b
theorem kept_readEach (core : Nat) (hit : Bool) (l : List Loc) : ∀ s : State, Kept s (s.readEach core hit l).2 := by
  induction l with
  | nil => exact Kept.refl
  | cons a l ih => intro s; exact Kept.trans (b := (s.readLoc core hit a).2) (kept_readLoc s core hit a) (ih _)
theorem kept_readLocs (core : Nat) (hit : Bool) (l : List Loc) (s : State) : Kept s (s.readLocs core hit l).2 :=
  Kept.trans (b := s.fetchLocs core hit l) (kept_foldl _ (fun s x => kept_readLoc s core hit x) l s) (kept_readEach core hit l _)
theorem kept_writeLocs (core : Nat) (l : List (Loc × Byte)) : ∀ s : State, Kept s (s.writeLocs core l) := by
  induction l with
  | nil => exact Kept.refl
  | cons a l ih => intro s; rw [State.writeLocs]; exact (kept_writeLoc s core a.2 a.1).trans (ih _)

/-! ## Wipes (R415, R416) -/

theorem kept_wipe (s : State) (scope : Nat → Bool) : Kept s (s.wipe scope) := Tbl.canonical_filter _
theorem kept_panelReset (signed : Bool) (s t : State) (h : execPanelReset signed s = .next t) : Kept s t := by
  cases h; exact Tbl.canonical_filter _

end Sys2Proof.Safety
end

