-- ==== Sys2Proof/Laws/PerInstr.lean ====
section
/-!
SUPPORT. RoundTrip, made per instruction: the decoder reads back the word that the encoder writes for a well-formed
instruction (R10 to R27, R244), every operand at every value its field admits.
-/
namespace Sys2Proof.Laws
set_option Elab.async false

set_option linter.unusedSimpArgs false

/-- Decoding the word of a well-formed instruction gives the instruction back. -/
def RoundTrip.Statement (i : Instr) : Prop := ∀ w, WellFormed i = true → encode i = some w → decodeWord w = .ok i

theorem RoundTrip.clause (wait : BitVec 12) (fa : BitVec 4) (fb : BitVec 4) (len : BitVec 4) : RoundTrip.Statement (.clause wait fa fb len) := by
  intro w hw he
  have he : some (packCL wait fa fb len) = some w := he
  rw [← Option.some.inj he]
  obtain ⟨h0, h1, h2, h3, h4, h5⟩ := fields_cl wait fa fb len
  rw [h0]; unfold decodeUniform
  simp only [h1, h2, h3, h4, h5]
  all_goals (rfl)

theorem RoundTrip.add (g : Guard) (t : AddT) (vd : Reg) (va : Reg) (vb : Reg) : RoundTrip.Statement (.add g t vd va vb) := by
  intro w hw he
  have he : some (packL3 0 g.p g.neg vd va vb t.code) = some w := he
  rw [← Option.some.inj he]
  obtain ⟨h0, h1, h2, h3, h4, h5, h6, h7, h8⟩ := fields_l3 0 g.p g.neg vd va vb t.code (by decide) (by cases t <;> decide)
  rw [h0]; unfold decodeLane
  simp only [h1, h2, h3, h4, h5, h6, h7, h8]
  all_goals (cases t <;> rfl)

theorem RoundTrip.sub (g : Guard) (t : AddT) (vd : Reg) (va : Reg) (vb : Reg) : RoundTrip.Statement (.sub g t vd va vb) := by
  intro w hw he
  have he : some (packL3 1 g.p g.neg vd va vb t.code) = some w := he
  rw [← Option.some.inj he]
  obtain ⟨h0, h1, h2, h3, h4, h5, h6, h7, h8⟩ := fields_l3 1 g.p g.neg vd va vb t.code (by decide) (by cases t <;> decide)
  rw [h0]; unfold decodeLane
  simp only [h1, h2, h3, h4, h5, h6, h7, h8]
  all_goals (cases t <;> rfl)

theorem RoundTrip.addc (t : Wd) (vd : Reg) (va : Reg) (vb : Reg) (pc : BitVec 3) : RoundTrip.Statement (.addc t vd va vb pc) := by
  intro w hw he
  have he : some (packL3 2 pc false vd va vb (0 + t.code)) = some w := he
  rw [← Option.some.inj he]
  obtain ⟨h0, h1, h2, h3, h4, h5, h6, h7, h8⟩ := fields_l3 2 pc false vd va vb (0 + t.code) (by decide) (by cases t <;> decide)
  rw [h0]; unfold decodeLane
  simp only [h1, h2, h3, h4, h5, h6, h7, h8]
  all_goals (cases t <;> rfl)

theorem RoundTrip.subb (t : Wd) (vd : Reg) (va : Reg) (vb : Reg) (pc : BitVec 3) : RoundTrip.Statement (.subb t vd va vb pc) := by
  intro w hw he
  have he : some (packL3 2 pc false vd va vb (2 + t.code)) = some w := he
  rw [← Option.some.inj he]
  obtain ⟨h0, h1, h2, h3, h4, h5, h6, h7, h8⟩ := fields_l3 2 pc false vd va vb (2 + t.code) (by decide) (by cases t <;> decide)
  rw [h0]; unfold decodeLane
  simp only [h1, h2, h3, h4, h5, h6, h7, h8]
  all_goals (cases t <;> rfl)

theorem RoundTrip.mul (g : Guard) (t : Wd) (vd : Reg) (va : Reg) (vb : Reg) : RoundTrip.Statement (.mul g t vd va vb) := by
  intro w hw he
  have he : some (packL3 3 g.p g.neg vd va vb t.code) = some w := he
  rw [← Option.some.inj he]
  obtain ⟨h0, h1, h2, h3, h4, h5, h6, h7, h8⟩ := fields_l3 3 g.p g.neg vd va vb t.code (by decide) (by cases t <;> decide)
  rw [h0]; unfold decodeLane
  simp only [h1, h2, h3, h4, h5, h6, h7, h8]
  all_goals (cases t <;> rfl)

theorem RoundTrip.mulh (g : Guard) (t : IntT) (vd : Reg) (va : Reg) (vb : Reg) : RoundTrip.Statement (.mulh g t vd va vb) := by
  intro w hw he
  have he : some (packL3 3 g.p g.neg vd va vb (t.code + 2)) = some w := he
  rw [← Option.some.inj he]
  obtain ⟨h0, h1, h2, h3, h4, h5, h6, h7, h8⟩ := fields_l3 3 g.p g.neg vd va vb (t.code + 2) (by decide) (by cases t <;> decide)
  rw [h0]; unfold decodeLane
  simp only [h1, h2, h3, h4, h5, h6, h7, h8]
  all_goals (cases t <;> rfl)

theorem RoundTrip.madc (vd : Reg) (va : Reg) (vb : Reg) (pc : BitVec 3) : RoundTrip.Statement (.madc vd va vb pc) := by
  intro w hw he
  have he : some (packL3 4 pc false vd va vb 0) = some w := he
  rw [← Option.some.inj he]
  obtain ⟨h0, h1, h2, h3, h4, h5, h6, h7, h8⟩ := fields_l3 4 pc false vd va vb 0 (by decide) (by decide)
  rw [h0]; unfold decodeLane
  simp only [h1, h2, h3, h4, h5, h6, h7, h8]
  all_goals (rfl)

theorem RoundTrip.andL (g : Guard) (t : Wd) (vd : Reg) (va : Reg) (vb : Reg) : RoundTrip.Statement (.andL g t vd va vb) := by
  intro w hw he
  have he : some (packL3 5 g.p g.neg vd va vb (0 + t.code)) = some w := he
  rw [← Option.some.inj he]
  obtain ⟨h0, h1, h2, h3, h4, h5, h6, h7, h8⟩ := fields_l3 5 g.p g.neg vd va vb (0 + t.code) (by decide) (by cases t <;> decide)
  rw [h0]; unfold decodeLane
  simp only [h1, h2, h3, h4, h5, h6, h7, h8]
  all_goals (cases t <;> rfl)

theorem RoundTrip.orL (g : Guard) (t : Wd) (vd : Reg) (va : Reg) (vb : Reg) : RoundTrip.Statement (.orL g t vd va vb) := by
  intro w hw he
  have he : some (packL3 5 g.p g.neg vd va vb (2 + t.code)) = some w := he
  rw [← Option.some.inj he]
  obtain ⟨h0, h1, h2, h3, h4, h5, h6, h7, h8⟩ := fields_l3 5 g.p g.neg vd va vb (2 + t.code) (by decide) (by cases t <;> decide)
  rw [h0]; unfold decodeLane
  simp only [h1, h2, h3, h4, h5, h6, h7, h8]
  all_goals (cases t <;> rfl)

theorem RoundTrip.xorL (g : Guard) (t : Wd) (vd : Reg) (va : Reg) (vb : Reg) : RoundTrip.Statement (.xorL g t vd va vb) := by
  intro w hw he
  have he : some (packL3 5 g.p g.neg vd va vb (4 + t.code)) = some w := he
  rw [← Option.some.inj he]
  obtain ⟨h0, h1, h2, h3, h4, h5, h6, h7, h8⟩ := fields_l3 5 g.p g.neg vd va vb (4 + t.code) (by decide) (by cases t <;> decide)
  rw [h0]; unfold decodeLane
  simp only [h1, h2, h3, h4, h5, h6, h7, h8]
  all_goals (cases t <;> rfl)

theorem RoundTrip.shl (g : Guard) (t : Wd) (vd : Reg) (va : Reg) (vb : Reg) : RoundTrip.Statement (.shl g t vd va vb) := by
  intro w hw he
  have he : some (packL3 6 g.p g.neg vd va vb t.code) = some w := he
  rw [← Option.some.inj he]
  obtain ⟨h0, h1, h2, h3, h4, h5, h6, h7, h8⟩ := fields_l3 6 g.p g.neg vd va vb t.code (by decide) (by cases t <;> decide)
  rw [h0]; unfold decodeLane
  simp only [h1, h2, h3, h4, h5, h6, h7, h8]
  all_goals (cases t <;> rfl)

theorem RoundTrip.shr (g : Guard) (t : IntT) (vd : Reg) (va : Reg) (vb : Reg) : RoundTrip.Statement (.shr g t vd va vb) := by
  intro w hw he
  have he : some (packL3 6 g.p g.neg vd va vb (t.shrCode + 2)) = some w := he
  rw [← Option.some.inj he]
  obtain ⟨h0, h1, h2, h3, h4, h5, h6, h7, h8⟩ := fields_l3 6 g.p g.neg vd va vb (t.shrCode + 2) (by decide) (by cases t <;> decide)
  rw [h0]; unfold decodeLane
  simp only [h1, h2, h3, h4, h5, h6, h7, h8]
  all_goals (cases t <;> rfl)

theorem RoundTrip.bfe (g : Guard) (signed : Bool) (vd : Reg) (va : Reg) (vb : Reg) : RoundTrip.Statement (.bfe g signed vd va vb) := by
  intro w hw he
  have he : some (packL3 7 g.p g.neg vd va vb signed.toNat) = some w := he
  rw [← Option.some.inj he]
  obtain ⟨h0, h1, h2, h3, h4, h5, h6, h7, h8⟩ := fields_l3 7 g.p g.neg vd va vb signed.toNat (by decide) (by cases signed <;> decide)
  rw [h0]; unfold decodeLane
  simp only [h1, h2, h3, h4, h5, h6, h7, h8]
  all_goals (cases signed <;> rfl)

theorem RoundTrip.bfi (g : Guard) (vd : Reg) (va : Reg) (vb : Reg) : RoundTrip.Statement (.bfi g vd va vb) := by
  intro w hw he
  have he : some (packL3 7 g.p g.neg vd va vb 2) = some w := he
  rw [← Option.some.inj he]
  obtain ⟨h0, h1, h2, h3, h4, h5, h6, h7, h8⟩ := fields_l3 7 g.p g.neg vd va vb 2 (by decide) (by decide)
  rw [h0]; unfold decodeLane
  simp only [h1, h2, h3, h4, h5, h6, h7, h8]
  all_goals (rfl)

theorem RoundTrip.popc (g : Guard) (t : Wd) (vd : Reg) (va : Reg) : RoundTrip.Statement (.popc g t vd va) := by
  intro w hw he
  have he : some (packL3 8 g.p g.neg vd va 0 (0 + t.code)) = some w := he
  rw [← Option.some.inj he]
  obtain ⟨h0, h1, h2, h3, h4, h5, h6, h7, h8⟩ := fields_l3 8 g.p g.neg vd va 0 (0 + t.code) (by decide) (by cases t <;> decide)
  rw [h0]; unfold decodeLane
  simp only [h1, h2, h3, h4, h5, h6, h7, h8]
  all_goals (cases t <;> rfl)

theorem RoundTrip.clz (g : Guard) (t : Wd) (vd : Reg) (va : Reg) : RoundTrip.Statement (.clz g t vd va) := by
  intro w hw he
  have he : some (packL3 8 g.p g.neg vd va 0 (2 + t.code)) = some w := he
  rw [← Option.some.inj he]
  obtain ⟨h0, h1, h2, h3, h4, h5, h6, h7, h8⟩ := fields_l3 8 g.p g.neg vd va 0 (2 + t.code) (by decide) (by cases t <;> decide)
  rw [h0]; unfold decodeLane
  simp only [h1, h2, h3, h4, h5, h6, h7, h8]
  all_goals (cases t <;> rfl)

theorem RoundTrip.minL (g : Guard) (t : IntT) (vd : Reg) (va : Reg) (vb : Reg) : RoundTrip.Statement (.minL g t vd va vb) := by
  intro w hw he
  have he : some (packL3 9 g.p g.neg vd va vb (0 + t.code)) = some w := he
  rw [← Option.some.inj he]
  obtain ⟨h0, h1, h2, h3, h4, h5, h6, h7, h8⟩ := fields_l3 9 g.p g.neg vd va vb (0 + t.code) (by decide) (by cases t <;> decide)
  rw [h0]; unfold decodeLane
  simp only [h1, h2, h3, h4, h5, h6, h7, h8]
  all_goals (cases t <;> rfl)

theorem RoundTrip.maxL (g : Guard) (t : IntT) (vd : Reg) (va : Reg) (vb : Reg) : RoundTrip.Statement (.maxL g t vd va vb) := by
  intro w hw he
  have he : some (packL3 9 g.p g.neg vd va vb (4 + t.code)) = some w := he
  rw [← Option.some.inj he]
  obtain ⟨h0, h1, h2, h3, h4, h5, h6, h7, h8⟩ := fields_l3 9 g.p g.neg vd va vb (4 + t.code) (by decide) (by cases t <;> decide)
  rw [h0]; unfold decodeLane
  simp only [h1, h2, h3, h4, h5, h6, h7, h8]
  all_goals (cases t <;> rfl)

theorem RoundTrip.abs (g : Guard) (t : Wd) (vd : Reg) (va : Reg) : RoundTrip.Statement (.abs g t vd va) := by
  intro w hw he
  have he : some (packL3 10 g.p g.neg vd va 0 t.code) = some w := he
  rw [← Option.some.inj he]
  obtain ⟨h0, h1, h2, h3, h4, h5, h6, h7, h8⟩ := fields_l3 10 g.p g.neg vd va 0 t.code (by decide) (by cases t <;> decide)
  rw [h0]; unfold decodeLane
  simp only [h1, h2, h3, h4, h5, h6, h7, h8]
  all_goals (cases t <;> rfl)

theorem RoundTrip.sel (ps : Guard) (t : Wd) (vd : Reg) (va : Reg) (vb : Reg) : RoundTrip.Statement (.sel ps t vd va vb) := by
  intro w hw he
  have he : some (packL3 11 ps.p ps.neg vd va vb t.code) = some w := he
  rw [← Option.some.inj he]
  obtain ⟨h0, h1, h2, h3, h4, h5, h6, h7, h8⟩ := fields_l3 11 ps.p ps.neg vd va vb t.code (by decide) (by cases t <;> decide)
  rw [h0]; unfold decodeLane
  simp only [h1, h2, h3, h4, h5, h6, h7, h8]
  all_goals (cases t <;> rfl)

theorem RoundTrip.cmp (g : Guard) (c : Cond) (t : IntT) (pd : BitVec 3) (va : Reg) (vb : Reg) : RoundTrip.Statement (.cmp g c t pd va vb) := by
  intro w hw he
  have he : some (packL3 12 g.p g.neg (hilo3 c.code pd) va vb t.code) = some w := he
  rw [← Option.some.inj he]
  obtain ⟨h0, h1, h2, h3, h4, h5, h6, h7, h8⟩ := fields_l3 12 g.p g.neg (hilo3 c.code pd) va vb t.code (by decide) (by cases t <;> decide)
  have k5 := hilo3_lo c.code (by cases c <;> decide) pd
  have k6 := hilo3_hi c.code (by cases c <;> decide) pd
  rw [h0]; unfold decodeLane
  simp only [h1, h2, h3, h4, h5, h6, h7, h8, k5, k6]
  all_goals (cases c <;> cases t <;> rfl)

theorem RoundTrip.fcmp (g : Guard) (c : Cond) (t : Fmt) (pd : BitVec 3) (va : Reg) (vb : Reg) : RoundTrip.Statement (.fcmp g c t pd va vb) := by
  intro w hw he
  have he : some (packL3 12 g.p g.neg (hilo3 c.code pd) va vb (t.code + 4)) = some w := he
  rw [← Option.some.inj he]
  obtain ⟨h0, h1, h2, h3, h4, h5, h6, h7, h8⟩ := fields_l3 12 g.p g.neg (hilo3 c.code pd) va vb (t.code + 4) (by decide) (by cases t <;> decide)
  have k5 := hilo3_lo c.code (by cases c <;> decide) pd
  have k6 := hilo3_hi c.code (by cases c <;> decide) pd
  rw [h0]; unfold decodeLane
  simp only [h1, h2, h3, h4, h5, h6, h7, h8, k5, k6]
  all_goals (cases c <;> cases t <;> rfl)

theorem RoundTrip.movUniform (g : Guard) (t : Wd) (vd : Reg) (va : Reg) : RoundTrip.Statement (.movUniform g t vd va) := by
  intro w hw he
  have he : some (packL3 13 g.p g.neg vd va 0 t.code) = some w := he
  rw [← Option.some.inj he]
  obtain ⟨h0, h1, h2, h3, h4, h5, h6, h7, h8⟩ := fields_l3 13 g.p g.neg vd va 0 t.code (by decide) (by cases t <;> decide)
  rw [h0]; unfold decodeLane
  simp only [h1, h2, h3, h4, h5, h6, h7, h8]
  all_goals (cases t <;> rfl)

theorem RoundTrip.movLane (g : Guard) (vd : Reg) : RoundTrip.Statement (.movLane g vd) := by
  intro w hw he
  have he : some (packL3 13 g.p g.neg vd 0 0 2) = some w := he
  rw [← Option.some.inj he]
  obtain ⟨h0, h1, h2, h3, h4, h5, h6, h7, h8⟩ := fields_l3 13 g.p g.neg vd 0 0 2 (by decide) (by decide)
  rw [h0]; unfold decodeLane
  simp only [h1, h2, h3, h4, h5, h6, h7, h8]
  all_goals (rfl)

theorem RoundTrip.fadd (g : Guard) (t : Fmt) (vd : Reg) (va : Reg) (vb : Reg) : RoundTrip.Statement (.fadd g t vd va vb) := by
  intro w hw he
  have he : some (packL3 14 g.p g.neg vd va vb t.code) = some w := he
  rw [← Option.some.inj he]
  obtain ⟨h0, h1, h2, h3, h4, h5, h6, h7, h8⟩ := fields_l3 14 g.p g.neg vd va vb t.code (by decide) (by cases t <;> decide)
  rw [h0]; unfold decodeLane
  simp only [h1, h2, h3, h4, h5, h6, h7, h8]
  all_goals (cases t <;> rfl)

theorem RoundTrip.fsub (g : Guard) (t : Fmt) (vd : Reg) (va : Reg) (vb : Reg) : RoundTrip.Statement (.fsub g t vd va vb) := by
  intro w hw he
  have he : some (packL3 15 g.p g.neg vd va vb t.code) = some w := he
  rw [← Option.some.inj he]
  obtain ⟨h0, h1, h2, h3, h4, h5, h6, h7, h8⟩ := fields_l3 15 g.p g.neg vd va vb t.code (by decide) (by cases t <;> decide)
  rw [h0]; unfold decodeLane
  simp only [h1, h2, h3, h4, h5, h6, h7, h8]
  all_goals (cases t <;> rfl)

theorem RoundTrip.fmul (g : Guard) (t : Fmt) (vd : Reg) (va : Reg) (vb : Reg) : RoundTrip.Statement (.fmul g t vd va vb) := by
  intro w hw he
  have he : some (packL3 16 g.p g.neg vd va vb t.code) = some w := he
  rw [← Option.some.inj he]
  obtain ⟨h0, h1, h2, h3, h4, h5, h6, h7, h8⟩ := fields_l3 16 g.p g.neg vd va vb t.code (by decide) (by cases t <;> decide)
  rw [h0]; unfold decodeLane
  simp only [h1, h2, h3, h4, h5, h6, h7, h8]
  all_goals (cases t <;> rfl)

theorem RoundTrip.fmin (g : Guard) (t : Fmt) (vd : Reg) (va : Reg) (vb : Reg) : RoundTrip.Statement (.fmin g t vd va vb) := by
  intro w hw he
  have he : some (packL3 17 g.p g.neg vd va vb (0 + t.code)) = some w := he
  rw [← Option.some.inj he]
  obtain ⟨h0, h1, h2, h3, h4, h5, h6, h7, h8⟩ := fields_l3 17 g.p g.neg vd va vb (0 + t.code) (by decide) (by cases t <;> decide)
  rw [h0]; unfold decodeLane
  simp only [h1, h2, h3, h4, h5, h6, h7, h8]
  all_goals (cases t <;> rfl)

theorem RoundTrip.fmax (g : Guard) (t : Fmt) (vd : Reg) (va : Reg) (vb : Reg) : RoundTrip.Statement (.fmax g t vd va vb) := by
  intro w hw he
  have he : some (packL3 17 g.p g.neg vd va vb (2 + t.code)) = some w := he
  rw [← Option.some.inj he]
  obtain ⟨h0, h1, h2, h3, h4, h5, h6, h7, h8⟩ := fields_l3 17 g.p g.neg vd va vb (2 + t.code) (by decide) (by cases t <;> decide)
  rw [h0]; unfold decodeLane
  simp only [h1, h2, h3, h4, h5, h6, h7, h8]
  all_goals (cases t <;> rfl)

theorem RoundTrip.fclass (g : Guard) (t : Fmt) (vd : Reg) (va : Reg) : RoundTrip.Statement (.fclass g t vd va) := by
  intro w hw he
  have he : some (packL3 18 g.p g.neg vd va 0 t.code) = some w := he
  rw [← Option.some.inj he]
  obtain ⟨h0, h1, h2, h3, h4, h5, h6, h7, h8⟩ := fields_l3 18 g.p g.neg vd va 0 t.code (by decide) (by cases t <;> decide)
  rw [h0]; unfold decodeLane
  simp only [h1, h2, h3, h4, h5, h6, h7, h8]
  all_goals (cases t <;> rfl)

theorem RoundTrip.rcp (g : Guard) (vd : Reg) (va : Reg) : RoundTrip.Statement (.rcp g vd va) := by
  intro w hw he
  have he : some (packL3 19 g.p g.neg vd va 0 0) = some w := he
  rw [← Option.some.inj he]
  obtain ⟨h0, h1, h2, h3, h4, h5, h6, h7, h8⟩ := fields_l3 19 g.p g.neg vd va 0 0 (by decide) (by decide)
  rw [h0]; unfold decodeLane
  simp only [h1, h2, h3, h4, h5, h6, h7, h8]
  all_goals (rfl)

theorem RoundTrip.rsq (g : Guard) (vd : Reg) (va : Reg) : RoundTrip.Statement (.rsq g vd va) := by
  intro w hw he
  have he : some (packL3 19 g.p g.neg vd va 0 1) = some w := he
  rw [← Option.some.inj he]
  obtain ⟨h0, h1, h2, h3, h4, h5, h6, h7, h8⟩ := fields_l3 19 g.p g.neg vd va 0 1 (by decide) (by decide)
  rw [h0]; unfold decodeLane
  simp only [h1, h2, h3, h4, h5, h6, h7, h8]
  all_goals (rfl)

theorem RoundTrip.exp2 (g : Guard) (vd : Reg) (va : Reg) : RoundTrip.Statement (.exp2 g vd va) := by
  intro w hw he
  have he : some (packL3 19 g.p g.neg vd va 0 2) = some w := he
  rw [← Option.some.inj he]
  obtain ⟨h0, h1, h2, h3, h4, h5, h6, h7, h8⟩ := fields_l3 19 g.p g.neg vd va 0 2 (by decide) (by decide)
  rw [h0]; unfold decodeLane
  simp only [h1, h2, h3, h4, h5, h6, h7, h8]
  all_goals (rfl)

theorem RoundTrip.log2 (g : Guard) (vd : Reg) (va : Reg) : RoundTrip.Statement (.log2 g vd va) := by
  intro w hw he
  have he : some (packL3 19 g.p g.neg vd va 0 3) = some w := he
  rw [← Option.some.inj he]
  obtain ⟨h0, h1, h2, h3, h4, h5, h6, h7, h8⟩ := fields_l3 19 g.p g.neg vd va 0 3 (by decide) (by decide)
  rw [h0]; unfold decodeLane
  simp only [h1, h2, h3, h4, h5, h6, h7, h8]
  all_goals (rfl)

theorem RoundTrip.sin (g : Guard) (vd : Reg) (va : Reg) : RoundTrip.Statement (.sin g vd va) := by
  intro w hw he
  have he : some (packL3 19 g.p g.neg vd va 0 4) = some w := he
  rw [← Option.some.inj he]
  obtain ⟨h0, h1, h2, h3, h4, h5, h6, h7, h8⟩ := fields_l3 19 g.p g.neg vd va 0 4 (by decide) (by decide)
  rw [h0]; unfold decodeLane
  simp only [h1, h2, h3, h4, h5, h6, h7, h8]
  all_goals (rfl)

theorem RoundTrip.cos (g : Guard) (vd : Reg) (va : Reg) : RoundTrip.Statement (.cos g vd va) := by
  intro w hw he
  have he : some (packL3 19 g.p g.neg vd va 0 5) = some w := he
  rw [← Option.some.inj he]
  obtain ⟨h0, h1, h2, h3, h4, h5, h6, h7, h8⟩ := fields_l3 19 g.p g.neg vd va 0 5 (by decide) (by decide)
  rw [h0]; unfold decodeLane
  simp only [h1, h2, h3, h4, h5, h6, h7, h8]
  all_goals (rfl)

theorem RoundTrip.ddiv (g : Guard) (vd : Reg) (va : Reg) (vb : Reg) : RoundTrip.Statement (.ddiv g vd va vb) := by
  intro w hw he
  have he : some (packL3 19 g.p g.neg vd va vb 6) = some w := he
  rw [← Option.some.inj he]
  obtain ⟨h0, h1, h2, h3, h4, h5, h6, h7, h8⟩ := fields_l3 19 g.p g.neg vd va vb 6 (by decide) (by decide)
  rw [h0]; unfold decodeLane
  simp only [h1, h2, h3, h4, h5, h6, h7, h8]
  all_goals (rfl)

theorem RoundTrip.dsqrt (g : Guard) (vd : Reg) (va : Reg) : RoundTrip.Statement (.dsqrt g vd va) := by
  intro w hw he
  have he : some (packL3 19 g.p g.neg vd va 0 7) = some w := he
  rw [← Option.some.inj he]
  obtain ⟨h0, h1, h2, h3, h4, h5, h6, h7, h8⟩ := fields_l3 19 g.p g.neg vd va 0 7 (by decide) (by decide)
  rw [h0]; unfold decodeLane
  simp only [h1, h2, h3, h4, h5, h6, h7, h8]
  all_goals (rfl)

theorem RoundTrip.cvt (g : Guard) (rm : RmSel) (td : CvtT) (ts : CvtT) (vd : Reg) (va : Reg) : RoundTrip.Statement (.cvt g rm td ts vd va) := by
  intro w hw he
  have he : some (packL3 20 g.p g.neg vd va (fld6 (8 * td.code + ts.code)) rm.code) = some w := he
  rw [← Option.some.inj he]
  obtain ⟨h0, h1, h2, h3, h4, h5, h6, h7, h8⟩ := fields_l3 20 g.p g.neg vd va (fld6 (8 * td.code + ts.code)) rm.code (by decide) (by cases rm <;> decide)
  rw [h0]; unfold decodeLane
  simp only [h1, h2, h3, h4, h5, h6, h7, h8]
  all_goals (cases rm <;> cases td <;> cases ts <;> rfl)

theorem RoundTrip.narrow (g : Guard) (tr : Bool) (q : Q8) (bf : Bool) (hs : BitVec 3) (vd : Reg) (va : Reg) : RoundTrip.Statement (.narrow g tr q bf hs vd va) := by
  intro w hw he
  have he : some (packL3 21 g.p g.neg vd va (fld6 (32 * q.code + 16 * bf.toNat + hs.toNat)) tr.toNat) = some w := he
  rw [← Option.some.inj he]
  obtain ⟨h0, h1, h2, h3, h4, h5, h6, h7, h8⟩ := fields_l3 21 g.p g.neg vd va (fld6 (32 * q.code + 16 * bf.toNat + hs.toNat)) tr.toNat (by decide) (by cases tr <;> decide)
  have kq : (q.code == 1).toNat = q.code := by cases q <;> rfl
  obtain ⟨k1, k2, k3, k4⟩ := narrow_vb (q.code == 1) bf hs
  rw [kq] at k1 k2 k3 k4
  rw [h0]; unfold decodeLane
  simp only [h1, h2, h3, h4, h5, h6, h7, h8, k1, k2, k3, k4]
  all_goals (cases q <;> cases tr <;> rfl)

theorem RoundTrip.widen (g : Guard) (q : Q8) (hs : BitVec 3) (vd : Reg) (va : Reg) : RoundTrip.Statement (.widen g q hs vd va) := by
  intro w hw he
  have he : some (packL3 22 g.p g.neg vd va (fld6 (32 * q.code + hs.toNat)) 0) = some w := he
  rw [← Option.some.inj he]
  obtain ⟨h0, h1, h2, h3, h4, h5, h6, h7, h8⟩ := fields_l3 22 g.p g.neg vd va (fld6 (32 * q.code + hs.toNat)) 0 (by decide) (by decide)
  have kq : 32 * (q.code == 1).toNat + 16 * false.toNat + hs.toNat = 32 * q.code + hs.toNat := by cases q <;> rfl
  obtain ⟨k1, k2, k3, k4⟩ := narrow_vb (q.code == 1) false hs
  rw [kq] at k1 k2 k3 k4
  rw [h0]; unfold decodeLane
  simp only [h1, h2, h3, h4, h5, h6, h7, h8, k1, k2, k3, k4]
  all_goals (cases q <;> rfl)

theorem RoundTrip.shflFwd (g : Guard) (t : Wd) (vd : Reg) (va : Reg) (k : Reg) : RoundTrip.Statement (.shflFwd g t vd va k) := by
  intro w hw he
  have he : some (packL3 23 g.p g.neg vd va k (0 + 4 * t.code)) = some w := he
  rw [← Option.some.inj he]
  obtain ⟨h0, h1, h2, h3, h4, h5, h6, h7, h8⟩ := fields_l3 23 g.p g.neg vd va k (0 + 4 * t.code) (by decide) (by cases t <;> decide)
  rw [h0]; unfold decodeLane
  simp only [h1, h2, h3, h4, h5, h6, h7, h8]
  all_goals (cases t <;> rfl)

theorem RoundTrip.shflBack (g : Guard) (t : Wd) (vd : Reg) (va : Reg) (k : Reg) : RoundTrip.Statement (.shflBack g t vd va k) := by
  intro w hw he
  have he : some (packL3 23 g.p g.neg vd va k (1 + 4 * t.code)) = some w := he
  rw [← Option.some.inj he]
  obtain ⟨h0, h1, h2, h3, h4, h5, h6, h7, h8⟩ := fields_l3 23 g.p g.neg vd va k (1 + 4 * t.code) (by decide) (by cases t <;> decide)
  rw [h0]; unfold decodeLane
  simp only [h1, h2, h3, h4, h5, h6, h7, h8]
  all_goals (cases t <;> rfl)

theorem RoundTrip.shflSwap (g : Guard) (t : Wd) (vd : Reg) (va : Reg) (k : Reg) : RoundTrip.Statement (.shflSwap g t vd va k) := by
  intro w hw he
  have he : some (packL3 23 g.p g.neg vd va k (2 + 4 * t.code)) = some w := he
  rw [← Option.some.inj he]
  obtain ⟨h0, h1, h2, h3, h4, h5, h6, h7, h8⟩ := fields_l3 23 g.p g.neg vd va k (2 + 4 * t.code) (by decide) (by cases t <;> decide)
  rw [h0]; unfold decodeLane
  simp only [h1, h2, h3, h4, h5, h6, h7, h8]
  all_goals (cases t <;> rfl)

theorem RoundTrip.shflFrom (g : Guard) (t : Wd) (vd : Reg) (va : Reg) (vb : Reg) : RoundTrip.Statement (.shflFrom g t vd va vb) := by
  intro w hw he
  have he : some (packL3 23 g.p g.neg vd va vb (3 + 4 * t.code)) = some w := he
  rw [← Option.some.inj he]
  obtain ⟨h0, h1, h2, h3, h4, h5, h6, h7, h8⟩ := fields_l3 23 g.p g.neg vd va vb (3 + 4 * t.code) (by decide) (by cases t <;> decide)
  rw [h0]; unfold decodeLane
  simp only [h1, h2, h3, h4, h5, h6, h7, h8]
  all_goals (cases t <;> rfl)

theorem RoundTrip.bcast (g : Guard) (t : Wd) (vd : Reg) (va : Reg) (n : Reg) : RoundTrip.Statement (.bcast g t vd va n) := by
  intro w hw he
  have he : some (packL3 24 g.p g.neg vd va n (4 * t.code)) = some w := he
  rw [← Option.some.inj he]
  obtain ⟨h0, h1, h2, h3, h4, h5, h6, h7, h8⟩ := fields_l3 24 g.p g.neg vd va n (4 * t.code) (by decide) (by cases t <;> decide)
  rw [h0]; unfold decodeLane
  simp only [h1, h2, h3, h4, h5, h6, h7, h8]
  all_goals (cases t <;> rfl)

theorem RoundTrip.bcastLow (g : Guard) (t : Wd) (vd : Reg) (va : Reg) : RoundTrip.Statement (.bcastLow g t vd va) := by
  intro w hw he
  have he : some (packL3 24 g.p g.neg vd va 0 (1 + 4 * t.code)) = some w := he
  rw [← Option.some.inj he]
  obtain ⟨h0, h1, h2, h3, h4, h5, h6, h7, h8⟩ := fields_l3 24 g.p g.neg vd va 0 (1 + 4 * t.code) (by decide) (by cases t <;> decide)
  rw [h0]; unfold decodeLane
  simp only [h1, h2, h3, h4, h5, h6, h7, h8]
  all_goals (cases t <;> rfl)

theorem RoundTrip.voteCount (g : Guard) (vd : Reg) (ps : BitVec 3) (inv : Bool) : RoundTrip.Statement (.voteCount g vd ps inv) := by
  intro w hw he
  have he : some (packL3 25 g.p g.neg vd (fld6 (8 * inv.toNat + ps.toNat)) 0 0) = some w := he
  rw [← Option.some.inj he]
  obtain ⟨h0, h1, h2, h3, h4, h5, h6, h7, h8⟩ := fields_l3 25 g.p g.neg vd (fld6 (8 * inv.toNat + ps.toNat)) 0 0 (by decide) (by decide)
  obtain ⟨k1, k2, k3, k4⟩ := inv_ps inv ps
  rw [h0]; unfold decodeLane
  simp only [h1, h2, h3, h4, h5, h6, h7, h8, k1, k2, k3, k4]
  all_goals (rfl)

theorem RoundTrip.voteRank (g : Guard) (vd : Reg) (ps : BitVec 3) (inv : Bool) : RoundTrip.Statement (.voteRank g vd ps inv) := by
  intro w hw he
  have he : some (packL3 25 g.p g.neg vd (fld6 (8 * inv.toNat + ps.toNat)) 0 1) = some w := he
  rw [← Option.some.inj he]
  obtain ⟨h0, h1, h2, h3, h4, h5, h6, h7, h8⟩ := fields_l3 25 g.p g.neg vd (fld6 (8 * inv.toNat + ps.toNat)) 0 1 (by decide) (by decide)
  obtain ⟨k1, k2, k3, k4⟩ := inv_ps inv ps
  rw [h0]; unfold decodeLane
  simp only [h1, h2, h3, h4, h5, h6, h7, h8, k1, k2, k3, k4]
  all_goals (rfl)

theorem RoundTrip.voteAtleast (g : Guard) (pd : BitVec 3) (ps : BitVec 3) (inv : Bool) (st : Reg) : RoundTrip.Statement (.voteAtleast g pd ps inv st) := by
  intro w hw he
  have he : some (packL3 25 g.p g.neg (hilo3 0 pd) (fld6 (8 * inv.toNat + ps.toNat)) st 2) = some w := he
  rw [← Option.some.inj he]
  obtain ⟨h0, h1, h2, h3, h4, h5, h6, h7, h8⟩ := fields_l3 25 g.p g.neg (hilo3 0 pd) (fld6 (8 * inv.toNat + ps.toNat)) st 2 (by decide) (by decide)
  obtain ⟨k1, k2, k3, k4⟩ := inv_ps inv ps
  have k5 := hilo3_lo 0 (by decide) pd
  have k6 := hilo3_small pd
  rw [h0]; unfold decodeLane
  simp only [h1, h2, h3, h4, h5, h6, h7, h8, k1, k2, k3, k4, k5, k6]
  all_goals (rfl)

theorem RoundTrip.voteEvery (g : Guard) (pd : BitVec 3) (ps : BitVec 3) (inv : Bool) : RoundTrip.Statement (.voteEvery g pd ps inv) := by
  intro w hw he
  have he : some (packL3 25 g.p g.neg (hilo3 0 pd) (fld6 (8 * inv.toNat + ps.toNat)) 0 3) = some w := he
  rw [← Option.some.inj he]
  obtain ⟨h0, h1, h2, h3, h4, h5, h6, h7, h8⟩ := fields_l3 25 g.p g.neg (hilo3 0 pd) (fld6 (8 * inv.toNat + ps.toNat)) 0 3 (by decide) (by decide)
  obtain ⟨k1, k2, k3, k4⟩ := inv_ps inv ps
  have k5 := hilo3_lo 0 (by decide) pd
  have k6 := hilo3_small pd
  rw [h0]; unfold decodeLane
  simp only [h1, h2, h3, h4, h5, h6, h7, h8, k1, k2, k3, k4, k5, k6]
  all_goals (rfl)

theorem RoundTrip.voteAgree (g : Guard) (pd : BitVec 3) (ps : BitVec 3) (inv : Bool) : RoundTrip.Statement (.voteAgree g pd ps inv) := by
  intro w hw he
  have he : some (packL3 25 g.p g.neg (hilo3 0 pd) (fld6 (8 * inv.toNat + ps.toNat)) 0 4) = some w := he
  rw [← Option.some.inj he]
  obtain ⟨h0, h1, h2, h3, h4, h5, h6, h7, h8⟩ := fields_l3 25 g.p g.neg (hilo3 0 pd) (fld6 (8 * inv.toNat + ps.toNat)) 0 4 (by decide) (by decide)
  obtain ⟨k1, k2, k3, k4⟩ := inv_ps inv ps
  have k5 := hilo3_lo 0 (by decide) pd
  have k6 := hilo3_small pd
  rw [h0]; unfold decodeLane
  simp only [h1, h2, h3, h4, h5, h6, h7, h8, k1, k2, k3, k4, k5, k6]
  all_goals (rfl)

theorem RoundTrip.voteMask (g : Guard) (vd : Reg) (ps : BitVec 3) (inv : Bool) : RoundTrip.Statement (.voteMask g vd ps inv) := by
  intro w hw he
  have he : some (packL3 25 g.p g.neg vd (fld6 (8 * inv.toNat + ps.toNat)) 0 5) = some w := he
  rw [← Option.some.inj he]
  obtain ⟨h0, h1, h2, h3, h4, h5, h6, h7, h8⟩ := fields_l3 25 g.p g.neg vd (fld6 (8 * inv.toNat + ps.toNat)) 0 5 (by decide) (by decide)
  obtain ⟨k1, k2, k3, k4⟩ := inv_ps inv ps
  rw [h0]; unfold decodeLane
  simp only [h1, h2, h3, h4, h5, h6, h7, h8, k1, k2, k3, k4]
  all_goals (rfl)

theorem RoundTrip.lred (g : Guard) (op : RedOp) (vd : Reg) (va : Reg) : RoundTrip.Statement (.lred g op vd va) := by
  intro w hw he
  have he : some (packL3 26 g.p g.neg vd va 0 op.code) = some w := he
  rw [← Option.some.inj he]
  obtain ⟨h0, h1, h2, h3, h4, h5, h6, h7, h8⟩ := fields_l3 26 g.p g.neg vd va 0 op.code (by decide) (by cases op <;> decide)
  rw [h0]; unfold decodeLane
  simp only [h1, h2, h3, h4, h5, h6, h7, h8]
  all_goals (cases op <;> rfl)

theorem RoundTrip.sadd (g : Guard) (vd : Reg) (va : Reg) (vb : Reg) : RoundTrip.Statement (.sadd g vd va vb) := by
  intro w hw he
  have he : some (packL3 27 g.p g.neg vd va vb 0) = some w := he
  rw [← Option.some.inj he]
  obtain ⟨h0, h1, h2, h3, h4, h5, h6, h7, h8⟩ := fields_l3 27 g.p g.neg vd va vb 0 (by decide) (by decide)
  rw [h0]; unfold decodeLane
  simp only [h1, h2, h3, h4, h5, h6, h7, h8]
  all_goals (rfl)

theorem RoundTrip.ssub (g : Guard) (vd : Reg) (va : Reg) (vb : Reg) : RoundTrip.Statement (.ssub g vd va vb) := by
  intro w hw he
  have he : some (packL3 27 g.p g.neg vd va vb 1) = some w := he
  rw [← Option.some.inj he]
  obtain ⟨h0, h1, h2, h3, h4, h5, h6, h7, h8⟩ := fields_l3 27 g.p g.neg vd va vb 1 (by decide) (by decide)
  rw [h0]; unfold decodeLane
  simp only [h1, h2, h3, h4, h5, h6, h7, h8]
  all_goals (rfl)

theorem RoundTrip.sshl (g : Guard) (limb : Bool) (vd : Reg) (va : Reg) (c : Reg) : RoundTrip.Statement (.sshl g limb vd va c) := by
  intro w hw he
  have he : some (packL3 28 g.p g.neg vd va c (0 + limb.toNat)) = some w := he
  rw [← Option.some.inj he]
  obtain ⟨h0, h1, h2, h3, h4, h5, h6, h7, h8⟩ := fields_l3 28 g.p g.neg vd va c (0 + limb.toNat) (by decide) (by cases limb <;> decide)
  rw [h0]; unfold decodeLane
  simp only [h1, h2, h3, h4, h5, h6, h7, h8]
  all_goals (cases limb <;> rfl)

theorem RoundTrip.sshrI (g : Guard) (limb : Bool) (vd : Reg) (va : Reg) (c : Reg) : RoundTrip.Statement (.sshrI g limb vd va c) := by
  intro w hw he
  have he : some (packL3 28 g.p g.neg vd va c (2 + limb.toNat)) = some w := he
  rw [← Option.some.inj he]
  obtain ⟨h0, h1, h2, h3, h4, h5, h6, h7, h8⟩ := fields_l3 28 g.p g.neg vd va c (2 + limb.toNat) (by decide) (by cases limb <;> decide)
  rw [h0]; unfold decodeLane
  simp only [h1, h2, h3, h4, h5, h6, h7, h8]
  all_goals (cases limb <;> rfl)

theorem RoundTrip.sshrN (g : Guard) (limb : Bool) (vd : Reg) (va : Reg) (c : Reg) : RoundTrip.Statement (.sshrN g limb vd va c) := by
  intro w hw he
  have he : some (packL3 28 g.p g.neg vd va c (4 + limb.toNat)) = some w := he
  rw [← Option.some.inj he]
  obtain ⟨h0, h1, h2, h3, h4, h5, h6, h7, h8⟩ := fields_l3 28 g.p g.neg vd va c (4 + limb.toNat) (by decide) (by cases limb <;> decide)
  rw [h0]; unfold decodeLane
  simp only [h1, h2, h3, h4, h5, h6, h7, h8]
  all_goals (cases limb <;> rfl)

theorem RoundTrip.sneg (g : Guard) (vd : Reg) (va : Reg) : RoundTrip.Statement (.sneg g vd va) := by
  intro w hw he
  have he : some (packL3 29 g.p g.neg vd va 0 0) = some w := he
  rw [← Option.some.inj he]
  obtain ⟨h0, h1, h2, h3, h4, h5, h6, h7, h8⟩ := fields_l3 29 g.p g.neg vd va 0 0 (by decide) (by decide)
  rw [h0]; unfold decodeLane
  simp only [h1, h2, h3, h4, h5, h6, h7, h8]
  all_goals (rfl)

theorem RoundTrip.scmp (g : Guard) (c : Cond) (pd : BitVec 3) (va : Reg) (vb : Reg) : RoundTrip.Statement (.scmp g c pd va vb) := by
  intro w hw he
  have he : some (packL3 30 g.p g.neg (hilo3 c.code pd) va vb 0) = some w := he
  rw [← Option.some.inj he]
  obtain ⟨h0, h1, h2, h3, h4, h5, h6, h7, h8⟩ := fields_l3 30 g.p g.neg (hilo3 c.code pd) va vb 0 (by decide) (by decide)
  have k5 := hilo3_lo c.code (by cases c <;> decide) pd
  have k6 := hilo3_hi c.code (by cases c <;> decide) pd
  rw [h0]; unfold decodeLane
  simp only [h1, h2, h3, h4, h5, h6, h7, h8, k5, k6]
  all_goals (cases c <;> rfl)

theorem RoundTrip.smac (g : Guard) (signed : Bool) (vd : Reg) (va : Reg) (sm : Reg) : RoundTrip.Statement (.smac g signed vd va sm) := by
  intro w hw he
  have he : some (packL3 31 g.p g.neg vd va sm signed.toNat) = some w := he
  rw [← Option.some.inj he]
  obtain ⟨h0, h1, h2, h3, h4, h5, h6, h7, h8⟩ := fields_l3 31 g.p g.neg vd va sm signed.toNat (by decide) (by cases signed <;> decide)
  rw [h0]; unfold decodeLane
  simp only [h1, h2, h3, h4, h5, h6, h7, h8]
  all_goals (cases signed <;> rfl)

theorem RoundTrip.fxacc (g : Guard) (op : FxOp) (vd : Reg) (va : Reg) (vb : Reg) : RoundTrip.Statement (.fxacc g op vd va vb) := by
  intro w hw he
  have he : some (packL3 32 g.p g.neg vd va vb op.code) = some w := he
  rw [← Option.some.inj he]
  obtain ⟨h0, h1, h2, h3, h4, h5, h6, h7, h8⟩ := fields_l3 32 g.p g.neg vd va vb op.code (by decide) (by cases op <;> decide)
  have hw : (even va && even vb && (op.hasFactor || vb == 0)) = true := hw
  simp only [Bool.and_eq_true] at hw
  have hv := hw.2
  rw [h0]; unfold decodeLane
  simp only [h1, h2, h3, h4, h5, h6, h7, h8]
  cases op
  case add => simp only [FxOp.hasFactor, Bool.false_or] at hv; simp only [hv]; rfl
  case sub => simp only [FxOp.hasFactor, Bool.false_or] at hv; simp only [hv]; rfl
  all_goals rfl

theorem RoundTrip.fxsign (g : Guard) (pd : BitVec 3) (va : Reg) : RoundTrip.Statement (.fxsign g pd va) := by
  intro w hw he
  have he : some (packL3 33 g.p g.neg (hilo3 0 pd) va 0 0) = some w := he
  rw [← Option.some.inj he]
  obtain ⟨h0, h1, h2, h3, h4, h5, h6, h7, h8⟩ := fields_l3 33 g.p g.neg (hilo3 0 pd) va 0 0 (by decide) (by decide)
  have k5 := hilo3_lo 0 (by decide) pd
  have k6 := hilo3_small pd
  rw [h0]; unfold decodeLane
  simp only [h1, h2, h3, h4, h5, h6, h7, h8, k5, k6]
  all_goals (rfl)

theorem RoundTrip.fxcvt (g : Guard) (rm : RmSel) (vd : Reg) (va : Reg) : RoundTrip.Statement (.fxcvt g rm vd va) := by
  intro w hw he
  have he : some (packL3 34 g.p g.neg vd va 0 rm.code) = some w := he
  rw [← Option.some.inj he]
  obtain ⟨h0, h1, h2, h3, h4, h5, h6, h7, h8⟩ := fields_l3 34 g.p g.neg vd va 0 rm.code (by decide) (by cases rm <;> decide)
  rw [h0]; unfold decodeLane
  simp only [h1, h2, h3, h4, h5, h6, h7, h8]
  all_goals (cases rm <;> rfl)

theorem RoundTrip.addImm (g : Guard) (vd : Reg) (va : Reg) (imm : BitVec 9) : RoundTrip.Statement (.addImm g vd va imm) := by
  intro w hw he
  have he : some (packLI 35 g.p g.neg vd va imm) = some w := he
  rw [← Option.some.inj he]
  obtain ⟨h0, h1, h2, h3, h4, h5⟩ := fields_li 35 g.p g.neg vd va imm (by decide)
  rw [h0]; unfold decodeLane
  simp only [h1, h2, h3, h4, h5]
  all_goals (rfl)

theorem RoundTrip.andImm (g : Guard) (vd : Reg) (va : Reg) (imm : BitVec 9) : RoundTrip.Statement (.andImm g vd va imm) := by
  intro w hw he
  have he : some (packLI 36 g.p g.neg vd va imm) = some w := he
  rw [← Option.some.inj he]
  obtain ⟨h0, h1, h2, h3, h4, h5⟩ := fields_li 36 g.p g.neg vd va imm (by decide)
  rw [h0]; unfold decodeLane
  simp only [h1, h2, h3, h4, h5]
  all_goals (rfl)

theorem RoundTrip.orImm (g : Guard) (vd : Reg) (va : Reg) (imm : BitVec 9) : RoundTrip.Statement (.orImm g vd va imm) := by
  intro w hw he
  have he : some (packLI 37 g.p g.neg vd va imm) = some w := he
  rw [← Option.some.inj he]
  obtain ⟨h0, h1, h2, h3, h4, h5⟩ := fields_li 37 g.p g.neg vd va imm (by decide)
  rw [h0]; unfold decodeLane
  simp only [h1, h2, h3, h4, h5]
  all_goals (rfl)

theorem RoundTrip.xorImm (g : Guard) (vd : Reg) (va : Reg) (imm : BitVec 9) : RoundTrip.Statement (.xorImm g vd va imm) := by
  intro w hw he
  have he : some (packLI 38 g.p g.neg vd va imm) = some w := he
  rw [← Option.some.inj he]
  obtain ⟨h0, h1, h2, h3, h4, h5⟩ := fields_li 38 g.p g.neg vd va imm (by decide)
  rw [h0]; unfold decodeLane
  simp only [h1, h2, h3, h4, h5]
  all_goals (rfl)

theorem RoundTrip.shlImm (g : Guard) (vd : Reg) (va : Reg) (n : BitVec 5) : RoundTrip.Statement (.shlImm g vd va n) := by
  intro w hw he
  have he : some (packLI 39 g.p g.neg vd va (BitVec.ofNat 9 n.toNat)) = some w := he
  rw [← Option.some.inj he]
  obtain ⟨h0, h1, h2, h3, h4, h5⟩ := fields_li 39 g.p g.neg vd va (BitVec.ofNat 9 n.toNat) (by decide)
  obtain ⟨k1, k2⟩ := shift9 0#2 n
  have kz : 32 * (0#2).toNat + n.toNat = n.toNat := by simp
  rw [kz] at k1 k2
  rw [h0]; unfold decodeLane
  simp only [h1, h2, h3, h4, h5, k1, k2]
  all_goals (rfl)

theorem RoundTrip.shrImm (g : Guard) (signed : Bool) (vd : Reg) (va : Reg) (n : BitVec 5) : RoundTrip.Statement (.shrImm g signed vd va n) := by
  intro w hw he
  have he : some (packLI 39 g.p g.neg vd va (BitVec.ofNat 9 (32 + 32 * signed.toNat + n.toNat))) = some w := he
  rw [← Option.some.inj he]
  obtain ⟨h0, h1, h2, h3, h4, h5⟩ := fields_li 39 g.p g.neg vd va (BitVec.ofNat 9 (32 + 32 * signed.toNat + n.toNat)) (by decide)
  obtain ⟨k1, k2⟩ := shift9 (if signed then 2 else 1) n
  have kz : 32 * (if signed then (2 : BitVec 2) else 1).toNat + n.toNat = 32 + 32 * signed.toNat + n.toNat := by cases signed <;> rfl
  rw [kz] at k1 k2
  rw [h0]; unfold decodeLane
  simp only [h1, h2, h3, h4, h5, k1, k2]
  all_goals (cases signed <;> rfl)

theorem RoundTrip.movImm (g : Guard) (vd : Reg) (imm : BitVec 9) : RoundTrip.Statement (.movImm g vd imm) := by
  intro w hw he
  have he : some (packLI 40 g.p g.neg vd 0 imm) = some w := he
  rw [← Option.some.inj he]
  obtain ⟨h0, h1, h2, h3, h4, h5⟩ := fields_li 40 g.p g.neg vd 0 imm (by decide)
  rw [h0]; unfold decodeLane
  simp only [h1, h2, h3, h4, h5]
  all_goals (rfl)

theorem RoundTrip.fmaF32 (neg : Bool) (vd : Reg) (va : Reg) (vb : Reg) (vc : Reg) : RoundTrip.Statement (.fmaF32 neg vd va vb vc) := by
  intro w hw he
  have he : some (packL4 41 neg vd va vb vc) = some w := he
  rw [← Option.some.inj he]
  obtain ⟨h0, h1, h2, h3, h4, h5, h6⟩ := fields_l4 41 neg vd va vb vc (by decide)
  rw [h0]; unfold decodeLane
  simp only [h1, h2, h3, h4, h5, h6]
  all_goals (rfl)

theorem RoundTrip.fmaF64 (neg : Bool) (vd : Reg) (va : Reg) (vb : Reg) (vc : Reg) : RoundTrip.Statement (.fmaF64 neg vd va vb vc) := by
  intro w hw he
  have he : some (packL4 42 neg vd va vb vc) = some w := he
  rw [← Option.some.inj he]
  obtain ⟨h0, h1, h2, h3, h4, h5, h6⟩ := fields_l4 42 neg vd va vb vc (by decide)
  rw [h0]; unfold decodeLane
  simp only [h1, h2, h3, h4, h5, h6]
  all_goals (rfl)

theorem RoundTrip.madwI32 (neg : Bool) (vd : Reg) (va : Reg) (vb : Reg) (vc : Reg) : RoundTrip.Statement (.madwI32 neg vd va vb vc) := by
  intro w hw he
  have he : some (packL4 43 neg vd va vb vc) = some w := he
  rw [← Option.some.inj he]
  obtain ⟨h0, h1, h2, h3, h4, h5, h6⟩ := fields_l4 43 neg vd va vb vc (by decide)
  rw [h0]; unfold decodeLane
  simp only [h1, h2, h3, h4, h5, h6]
  all_goals (rfl)

theorem RoundTrip.madwN32 (neg : Bool) (vd : Reg) (va : Reg) (vb : Reg) (vc : Reg) : RoundTrip.Statement (.madwN32 neg vd va vb vc) := by
  intro w hw he
  have he : some (packL4 44 neg vd va vb vc) = some w := he
  rw [← Option.some.inj he]
  obtain ⟨h0, h1, h2, h3, h4, h5, h6⟩ := fields_l4 44 neg vd va vb vc (by decide)
  rw [h0]; unfold decodeLane
  simp only [h1, h2, h3, h4, h5, h6]
  all_goals (rfl)

theorem RoundTrip.ldI8 (g : Guard) (vd : Reg) (va : Reg) (ab : BitVec 3) (disp : BitVec 6) : RoundTrip.Statement (.ldI8 g vd va ab disp) := by
  intro w hw he
  have he : some (packLM 45 g.p g.neg vd va ab disp) = some w := he
  rw [← Option.some.inj he]
  obtain ⟨h0, h1, h2, h3, h4, h5, h6⟩ := fields_lm 45 g.p g.neg vd va ab disp (by decide)
  rw [h0]; unfold decodeLane
  simp only [h1, h2, h3, h4, h5, h6]
  all_goals (rfl)

theorem RoundTrip.ldN8 (g : Guard) (vd : Reg) (va : Reg) (ab : BitVec 3) (disp : BitVec 6) : RoundTrip.Statement (.ldN8 g vd va ab disp) := by
  intro w hw he
  have he : some (packLM 46 g.p g.neg vd va ab disp) = some w := he
  rw [← Option.some.inj he]
  obtain ⟨h0, h1, h2, h3, h4, h5, h6⟩ := fields_lm 46 g.p g.neg vd va ab disp (by decide)
  rw [h0]; unfold decodeLane
  simp only [h1, h2, h3, h4, h5, h6]
  all_goals (rfl)

theorem RoundTrip.ldI16 (g : Guard) (vd : Reg) (va : Reg) (ab : BitVec 3) (disp : BitVec 6) : RoundTrip.Statement (.ldI16 g vd va ab disp) := by
  intro w hw he
  have he : some (packLM 47 g.p g.neg vd va ab disp) = some w := he
  rw [← Option.some.inj he]
  obtain ⟨h0, h1, h2, h3, h4, h5, h6⟩ := fields_lm 47 g.p g.neg vd va ab disp (by decide)
  rw [h0]; unfold decodeLane
  simp only [h1, h2, h3, h4, h5, h6]
  all_goals (rfl)

theorem RoundTrip.ldN16 (g : Guard) (vd : Reg) (va : Reg) (ab : BitVec 3) (disp : BitVec 6) : RoundTrip.Statement (.ldN16 g vd va ab disp) := by
  intro w hw he
  have he : some (packLM 48 g.p g.neg vd va ab disp) = some w := he
  rw [← Option.some.inj he]
  obtain ⟨h0, h1, h2, h3, h4, h5, h6⟩ := fields_lm 48 g.p g.neg vd va ab disp (by decide)
  rw [h0]; unfold decodeLane
  simp only [h1, h2, h3, h4, h5, h6]
  all_goals (rfl)

theorem RoundTrip.ldB32 (g : Guard) (vd : Reg) (va : Reg) (ab : BitVec 3) (disp : BitVec 6) : RoundTrip.Statement (.ldB32 g vd va ab disp) := by
  intro w hw he
  have he : some (packLM 49 g.p g.neg vd va ab disp) = some w := he
  rw [← Option.some.inj he]
  obtain ⟨h0, h1, h2, h3, h4, h5, h6⟩ := fields_lm 49 g.p g.neg vd va ab disp (by decide)
  rw [h0]; unfold decodeLane
  simp only [h1, h2, h3, h4, h5, h6]
  all_goals (rfl)

theorem RoundTrip.ldB64 (g : Guard) (vd : Reg) (va : Reg) (ab : BitVec 3) (disp : BitVec 6) : RoundTrip.Statement (.ldB64 g vd va ab disp) := by
  intro w hw he
  have he : some (packLM 50 g.p g.neg vd va ab disp) = some w := he
  rw [← Option.some.inj he]
  obtain ⟨h0, h1, h2, h3, h4, h5, h6⟩ := fields_lm 50 g.p g.neg vd va ab disp (by decide)
  rw [h0]; unfold decodeLane
  simp only [h1, h2, h3, h4, h5, h6]
  all_goals (rfl)

theorem RoundTrip.ldB128 (g : Guard) (vd : Reg) (va : Reg) (ab : BitVec 3) (disp : BitVec 6) : RoundTrip.Statement (.ldB128 g vd va ab disp) := by
  intro w hw he
  have he : some (packLM 51 g.p g.neg vd va ab disp) = some w := he
  rw [← Option.some.inj he]
  obtain ⟨h0, h1, h2, h3, h4, h5, h6⟩ := fields_lm 51 g.p g.neg vd va ab disp (by decide)
  rw [h0]; unfold decodeLane
  simp only [h1, h2, h3, h4, h5, h6]
  all_goals (rfl)

theorem RoundTrip.stN8 (g : Guard) (vs : Reg) (va : Reg) (ab : BitVec 3) (disp : BitVec 6) : RoundTrip.Statement (.stN8 g vs va ab disp) := by
  intro w hw he
  have he : some (packLM 52 g.p g.neg vs va ab disp) = some w := he
  rw [← Option.some.inj he]
  obtain ⟨h0, h1, h2, h3, h4, h5, h6⟩ := fields_lm 52 g.p g.neg vs va ab disp (by decide)
  rw [h0]; unfold decodeLane
  simp only [h1, h2, h3, h4, h5, h6]
  all_goals (rfl)

theorem RoundTrip.stN16 (g : Guard) (vs : Reg) (va : Reg) (ab : BitVec 3) (disp : BitVec 6) : RoundTrip.Statement (.stN16 g vs va ab disp) := by
  intro w hw he
  have he : some (packLM 53 g.p g.neg vs va ab disp) = some w := he
  rw [← Option.some.inj he]
  obtain ⟨h0, h1, h2, h3, h4, h5, h6⟩ := fields_lm 53 g.p g.neg vs va ab disp (by decide)
  rw [h0]; unfold decodeLane
  simp only [h1, h2, h3, h4, h5, h6]
  all_goals (rfl)

theorem RoundTrip.stB32 (g : Guard) (vs : Reg) (va : Reg) (ab : BitVec 3) (disp : BitVec 6) : RoundTrip.Statement (.stB32 g vs va ab disp) := by
  intro w hw he
  have he : some (packLM 54 g.p g.neg vs va ab disp) = some w := he
  rw [← Option.some.inj he]
  obtain ⟨h0, h1, h2, h3, h4, h5, h6⟩ := fields_lm 54 g.p g.neg vs va ab disp (by decide)
  rw [h0]; unfold decodeLane
  simp only [h1, h2, h3, h4, h5, h6]
  all_goals (rfl)

theorem RoundTrip.stB64 (g : Guard) (vs : Reg) (va : Reg) (ab : BitVec 3) (disp : BitVec 6) : RoundTrip.Statement (.stB64 g vs va ab disp) := by
  intro w hw he
  have he : some (packLM 55 g.p g.neg vs va ab disp) = some w := he
  rw [← Option.some.inj he]
  obtain ⟨h0, h1, h2, h3, h4, h5, h6⟩ := fields_lm 55 g.p g.neg vs va ab disp (by decide)
  rw [h0]; unfold decodeLane
  simp only [h1, h2, h3, h4, h5, h6]
  all_goals (rfl)

theorem RoundTrip.stB128 (g : Guard) (vs : Reg) (va : Reg) (ab : BitVec 3) (disp : BitVec 6) : RoundTrip.Statement (.stB128 g vs va ab disp) := by
  intro w hw he
  have he : some (packLM 56 g.p g.neg vs va ab disp) = some w := he
  rw [← Option.some.inj he]
  obtain ⟨h0, h1, h2, h3, h4, h5, h6⟩ := fields_lm 56 g.p g.neg vs va ab disp (by decide)
  rw [h0]; unfold decodeLane
  simp only [h1, h2, h3, h4, h5, h6]
  all_goals (rfl)

theorem RoundTrip.pref (g : Guard) (lv : PrefLv) (va : Reg) (ab : BitVec 3) (disp : BitVec 6) : RoundTrip.Statement (.pref g lv va ab disp) := by
  intro w hw he
  have he : some (packLM 57 g.p g.neg (fld6 lv.code) va ab disp) = some w := he
  rw [← Option.some.inj he]
  obtain ⟨h0, h1, h2, h3, h4, h5, h6⟩ := fields_lm 57 g.p g.neg (fld6 lv.code) va ab disp (by decide)
  rw [h0]; unfold decodeLane
  simp only [h1, h2, h3, h4, h5, h6]
  all_goals (cases lv <;> rfl)

theorem RoundTrip.atomB32Die (g : Guard) (op : AtomOp) (ord : AtomOrd) (vd : Reg) (va : Reg) (ab : BitVec 3) : RoundTrip.Statement (.atomB32Die g op ord vd va ab) := by
  intro w hw he
  have he : some (packLM 58 g.p g.neg vd va ab (fld6 (4 * op.code + ord.code))) = some w := he
  rw [← Option.some.inj he]
  obtain ⟨h0, h1, h2, h3, h4, h5, h6⟩ := fields_lm 58 g.p g.neg vd va ab (fld6 (4 * op.code + ord.code)) (by decide)
  rw [h0]; unfold decodeLane
  simp only [h1, h2, h3, h4, h5, h6]
  all_goals (cases op <;> cases ord <;> rfl)

theorem RoundTrip.atomB32Dev (g : Guard) (op : AtomOp) (ord : AtomOrd) (vd : Reg) (va : Reg) (ab : BitVec 3) : RoundTrip.Statement (.atomB32Dev g op ord vd va ab) := by
  intro w hw he
  have he : some (packLM 59 g.p g.neg vd va ab (fld6 (4 * op.code + ord.code))) = some w := he
  rw [← Option.some.inj he]
  obtain ⟨h0, h1, h2, h3, h4, h5, h6⟩ := fields_lm 59 g.p g.neg vd va ab (fld6 (4 * op.code + ord.code)) (by decide)
  rw [h0]; unfold decodeLane
  simp only [h1, h2, h3, h4, h5, h6]
  all_goals (cases op <;> cases ord <;> rfl)

theorem RoundTrip.atomB32Sys (g : Guard) (op : AtomOp) (ord : AtomOrd) (vd : Reg) (va : Reg) (ab : BitVec 3) : RoundTrip.Statement (.atomB32Sys g op ord vd va ab) := by
  intro w hw he
  have he : some (packLM 60 g.p g.neg vd va ab (fld6 (4 * op.code + ord.code))) = some w := he
  rw [← Option.some.inj he]
  obtain ⟨h0, h1, h2, h3, h4, h5, h6⟩ := fields_lm 60 g.p g.neg vd va ab (fld6 (4 * op.code + ord.code)) (by decide)
  rw [h0]; unfold decodeLane
  simp only [h1, h2, h3, h4, h5, h6]
  all_goals (cases op <;> cases ord <;> rfl)

theorem RoundTrip.atomB64Die (g : Guard) (op : AtomOp) (ord : AtomOrd) (vd : Reg) (va : Reg) (ab : BitVec 3) : RoundTrip.Statement (.atomB64Die g op ord vd va ab) := by
  intro w hw he
  have he : some (packLM 61 g.p g.neg vd va ab (fld6 (4 * op.code + ord.code))) = some w := he
  rw [← Option.some.inj he]
  obtain ⟨h0, h1, h2, h3, h4, h5, h6⟩ := fields_lm 61 g.p g.neg vd va ab (fld6 (4 * op.code + ord.code)) (by decide)
  rw [h0]; unfold decodeLane
  simp only [h1, h2, h3, h4, h5, h6]
  all_goals (cases op <;> cases ord <;> rfl)

theorem RoundTrip.atomB64Dev (g : Guard) (op : AtomOp) (ord : AtomOrd) (vd : Reg) (va : Reg) (ab : BitVec 3) : RoundTrip.Statement (.atomB64Dev g op ord vd va ab) := by
  intro w hw he
  have he : some (packLM 62 g.p g.neg vd va ab (fld6 (4 * op.code + ord.code))) = some w := he
  rw [← Option.some.inj he]
  obtain ⟨h0, h1, h2, h3, h4, h5, h6⟩ := fields_lm 62 g.p g.neg vd va ab (fld6 (4 * op.code + ord.code)) (by decide)
  rw [h0]; unfold decodeLane
  simp only [h1, h2, h3, h4, h5, h6]
  all_goals (cases op <;> cases ord <;> rfl)

theorem RoundTrip.atomB64Sys (g : Guard) (op : AtomOp) (ord : AtomOrd) (vd : Reg) (va : Reg) (ab : BitVec 3) : RoundTrip.Statement (.atomB64Sys g op ord vd va ab) := by
  intro w hw he
  have he : some (packLM 63 g.p g.neg vd va ab (fld6 (4 * op.code + ord.code))) = some w := he
  rw [← Option.some.inj he]
  obtain ⟨h0, h1, h2, h3, h4, h5, h6⟩ := fields_lm 63 g.p g.neg vd va ab (fld6 (4 * op.code + ord.code)) (by decide)
  rw [h0]; unfold decodeLane
  simp only [h1, h2, h3, h4, h5, h6]
  all_goals (cases op <;> cases ord <;> rfl)

theorem RoundTrip.uadd (g : Guard) (t : Wd) (sd : Reg) (sa : Reg) (sb : Reg) : RoundTrip.Statement (.uadd g t sd sa sb) := by
  intro w hw he
  have he : some (packU3 1 g.p g.neg sd sa sb t.code) = some w := he
  rw [← Option.some.inj he]
  obtain ⟨h0, h1, h2, h3, h4, h5, h6⟩ := fields_u3 1 g.p g.neg sd sa sb t.code (by decide) (by cases t <;> decide)
  rw [h0]; unfold decodeUniform
  simp only [h1, h2, h3, h4, h5, h6]
  all_goals (cases t <;> rfl)

theorem RoundTrip.usub (g : Guard) (t : Wd) (sd : Reg) (sa : Reg) (sb : Reg) : RoundTrip.Statement (.usub g t sd sa sb) := by
  intro w hw he
  have he : some (packU3 2 g.p g.neg sd sa sb t.code) = some w := he
  rw [← Option.some.inj he]
  obtain ⟨h0, h1, h2, h3, h4, h5, h6⟩ := fields_u3 2 g.p g.neg sd sa sb t.code (by decide) (by cases t <;> decide)
  rw [h0]; unfold decodeUniform
  simp only [h1, h2, h3, h4, h5, h6]
  all_goals (cases t <;> rfl)

theorem RoundTrip.uaddImm (g : Guard) (sd : Reg) (sa : Reg) (imm : BitVec 8) : RoundTrip.Statement (.uaddImm g sd sa imm) := by
  intro w hw he
  have he : some (packUI 3 g.p g.neg sd sa imm) = some w := he
  rw [← Option.some.inj he]
  obtain ⟨h0, h1, h2, h3, h4, h5⟩ := fields_ui 3 g.p g.neg sd sa imm (by decide)
  rw [h0]; unfold decodeUniform
  simp only [h1, h2, h3, h4, h5]
  all_goals (rfl)

theorem RoundTrip.umul (g : Guard) (t : Wd) (sd : Reg) (sa : Reg) (sb : Reg) : RoundTrip.Statement (.umul g t sd sa sb) := by
  intro w hw he
  have he : some (packU3 4 g.p g.neg sd sa sb t.code) = some w := he
  rw [← Option.some.inj he]
  obtain ⟨h0, h1, h2, h3, h4, h5, h6⟩ := fields_u3 4 g.p g.neg sd sa sb t.code (by decide) (by cases t <;> decide)
  rw [h0]; unfold decodeUniform
  simp only [h1, h2, h3, h4, h5, h6]
  all_goals (cases t <;> rfl)

theorem RoundTrip.umulh (g : Guard) (signed : Bool) (sd : Reg) (sa : Reg) (sb : Reg) : RoundTrip.Statement (.umulh g signed sd sa sb) := by
  intro w hw he
  have he : some (packU3 4 g.p g.neg sd sa sb (3 - signed.toNat)) = some w := he
  rw [← Option.some.inj he]
  obtain ⟨h0, h1, h2, h3, h4, h5, h6⟩ := fields_u3 4 g.p g.neg sd sa sb (3 - signed.toNat) (by decide) (by cases signed <;> decide)
  rw [h0]; unfold decodeUniform
  simp only [h1, h2, h3, h4, h5, h6]
  all_goals (cases signed <;> rfl)

theorem RoundTrip.uand (g : Guard) (t : Wd) (sd : Reg) (sa : Reg) (sb : Reg) : RoundTrip.Statement (.uand g t sd sa sb) := by
  intro w hw he
  have he : some (packU3 5 g.p g.neg sd sa sb t.code) = some w := he
  rw [← Option.some.inj he]
  obtain ⟨h0, h1, h2, h3, h4, h5, h6⟩ := fields_u3 5 g.p g.neg sd sa sb t.code (by decide) (by cases t <;> decide)
  rw [h0]; unfold decodeUniform
  simp only [h1, h2, h3, h4, h5, h6]
  all_goals (cases t <;> rfl)

theorem RoundTrip.uor (g : Guard) (t : Wd) (sd : Reg) (sa : Reg) (sb : Reg) : RoundTrip.Statement (.uor g t sd sa sb) := by
  intro w hw he
  have he : some (packU3 6 g.p g.neg sd sa sb t.code) = some w := he
  rw [← Option.some.inj he]
  obtain ⟨h0, h1, h2, h3, h4, h5, h6⟩ := fields_u3 6 g.p g.neg sd sa sb t.code (by decide) (by cases t <;> decide)
  rw [h0]; unfold decodeUniform
  simp only [h1, h2, h3, h4, h5, h6]
  all_goals (cases t <;> rfl)

theorem RoundTrip.uxor (g : Guard) (t : Wd) (sd : Reg) (sa : Reg) (sb : Reg) : RoundTrip.Statement (.uxor g t sd sa sb) := by
  intro w hw he
  have he : some (packU3 7 g.p g.neg sd sa sb t.code) = some w := he
  rw [← Option.some.inj he]
  obtain ⟨h0, h1, h2, h3, h4, h5, h6⟩ := fields_u3 7 g.p g.neg sd sa sb t.code (by decide) (by cases t <;> decide)
  rw [h0]; unfold decodeUniform
  simp only [h1, h2, h3, h4, h5, h6]
  all_goals (cases t <;> rfl)

theorem RoundTrip.ushl (g : Guard) (t : Wd) (sd : Reg) (sa : Reg) (sb : Reg) : RoundTrip.Statement (.ushl g t sd sa sb) := by
  intro w hw he
  have he : some (packU3 8 g.p g.neg sd sa sb t.code) = some w := he
  rw [← Option.some.inj he]
  obtain ⟨h0, h1, h2, h3, h4, h5, h6⟩ := fields_u3 8 g.p g.neg sd sa sb t.code (by decide) (by cases t <;> decide)
  rw [h0]; unfold decodeUniform
  simp only [h1, h2, h3, h4, h5, h6]
  all_goals (cases t <;> rfl)

theorem RoundTrip.ushr (g : Guard) (t : IntT) (sd : Reg) (sa : Reg) (sb : Reg) : RoundTrip.Statement (.ushr g t sd sa sb) := by
  intro w hw he
  have he : some (packU3 9 g.p g.neg sd sa sb t.shrCode) = some w := he
  rw [← Option.some.inj he]
  obtain ⟨h0, h1, h2, h3, h4, h5, h6⟩ := fields_u3 9 g.p g.neg sd sa sb t.shrCode (by decide) (by cases t <;> decide)
  rw [h0]; unfold decodeUniform
  simp only [h1, h2, h3, h4, h5, h6]
  all_goals (cases t <;> rfl)

theorem RoundTrip.umin (g : Guard) (t : IntT) (sd : Reg) (sa : Reg) (sb : Reg) : RoundTrip.Statement (.umin g t sd sa sb) := by
  intro w hw he
  have he : some (packU3 10 g.p g.neg sd sa sb t.code) = some w := he
  rw [← Option.some.inj he]
  obtain ⟨h0, h1, h2, h3, h4, h5, h6⟩ := fields_u3 10 g.p g.neg sd sa sb t.code (by decide) (by cases t <;> decide)
  rw [h0]; unfold decodeUniform
  simp only [h1, h2, h3, h4, h5, h6]
  all_goals (cases t <;> rfl)

theorem RoundTrip.umax (g : Guard) (t : IntT) (sd : Reg) (sa : Reg) (sb : Reg) : RoundTrip.Statement (.umax g t sd sa sb) := by
  intro w hw he
  have he : some (packU3 11 g.p g.neg sd sa sb t.code) = some w := he
  rw [← Option.some.inj he]
  obtain ⟨h0, h1, h2, h3, h4, h5, h6⟩ := fields_u3 11 g.p g.neg sd sa sb t.code (by decide) (by cases t <;> decide)
  rw [h0]; unfold decodeUniform
  simp only [h1, h2, h3, h4, h5, h6]
  all_goals (cases t <;> rfl)

theorem RoundTrip.ucmp (g : Guard) (c : Cond) (t : IntT) (qd : BitVec 3) (sa : Reg) (sb : Reg) : RoundTrip.Statement (.ucmp g c t qd sa sb) := by
  intro w hw he
  have he : some (packU3 12 g.p g.neg (hilo3 c.code qd) sa sb t.code) = some w := he
  rw [← Option.some.inj he]
  obtain ⟨h0, h1, h2, h3, h4, h5, h6⟩ := fields_u3 12 g.p g.neg (hilo3 c.code qd) sa sb t.code (by decide) (by cases t <;> decide)
  have k5 := hilo3_lo c.code (by cases c <;> decide) qd
  have k6 := hilo3_hi c.code (by cases c <;> decide) qd
  rw [h0]; unfold decodeUniform
  simp only [h1, h2, h3, h4, h5, h6, k5, k6]
  all_goals (cases c <;> cases t <;> rfl)

theorem RoundTrip.usel (qs : Guard) (t : Wd) (sd : Reg) (sa : Reg) (sb : Reg) : RoundTrip.Statement (.usel qs t sd sa sb) := by
  intro w hw he
  have he : some (packU3 13 qs.p qs.neg sd sa sb t.code) = some w := he
  rw [← Option.some.inj he]
  obtain ⟨h0, h1, h2, h3, h4, h5, h6⟩ := fields_u3 13 qs.p qs.neg sd sa sb t.code (by decide) (by cases t <;> decide)
  rw [h0]; unfold decodeUniform
  simp only [h1, h2, h3, h4, h5, h6]
  all_goals (cases t <;> rfl)

theorem RoundTrip.uandImm (g : Guard) (sd : Reg) (sa : Reg) (imm : BitVec 8) : RoundTrip.Statement (.uandImm g sd sa imm) := by
  intro w hw he
  have he : some (packUI 14 g.p g.neg sd sa imm) = some w := he
  rw [← Option.some.inj he]
  obtain ⟨h0, h1, h2, h3, h4, h5⟩ := fields_ui 14 g.p g.neg sd sa imm (by decide)
  rw [h0]; unfold decodeUniform
  simp only [h1, h2, h3, h4, h5]
  all_goals (rfl)

theorem RoundTrip.uorImm (g : Guard) (sd : Reg) (sa : Reg) (imm : BitVec 8) : RoundTrip.Statement (.uorImm g sd sa imm) := by
  intro w hw he
  have he : some (packUI 15 g.p g.neg sd sa imm) = some w := he
  rw [← Option.some.inj he]
  obtain ⟨h0, h1, h2, h3, h4, h5⟩ := fields_ui 15 g.p g.neg sd sa imm (by decide)
  rw [h0]; unfold decodeUniform
  simp only [h1, h2, h3, h4, h5]
  all_goals (rfl)

theorem RoundTrip.uxorImm (g : Guard) (sd : Reg) (sa : Reg) (imm : BitVec 8) : RoundTrip.Statement (.uxorImm g sd sa imm) := by
  intro w hw he
  have he : some (packUI 16 g.p g.neg sd sa imm) = some w := he
  rw [← Option.some.inj he]
  obtain ⟨h0, h1, h2, h3, h4, h5⟩ := fields_ui 16 g.p g.neg sd sa imm (by decide)
  rw [h0]; unfold decodeUniform
  simp only [h1, h2, h3, h4, h5]
  all_goals (rfl)

theorem RoundTrip.ushlImm (g : Guard) (sd : Reg) (sa : Reg) (n : BitVec 5) : RoundTrip.Statement (.ushlImm g sd sa n) := by
  intro w hw he
  have he : some (packUI 17 g.p g.neg sd sa (BitVec.ofNat 8 n.toNat)) = some w := he
  rw [← Option.some.inj he]
  obtain ⟨h0, h1, h2, h3, h4, h5⟩ := fields_ui 17 g.p g.neg sd sa (BitVec.ofNat 8 n.toNat) (by decide)
  obtain ⟨k1, k2⟩ := shift8 0#2 n
  have kz : 32 * (0#2).toNat + n.toNat = n.toNat := by simp
  rw [kz] at k1 k2
  rw [h0]; unfold decodeUniform
  simp only [h1, h2, h3, h4, h5, k1, k2]
  all_goals (rfl)

theorem RoundTrip.ushrImm (g : Guard) (signed : Bool) (sd : Reg) (sa : Reg) (n : BitVec 5) : RoundTrip.Statement (.ushrImm g signed sd sa n) := by
  intro w hw he
  have he : some (packUI 17 g.p g.neg sd sa (BitVec.ofNat 8 (32 + 32 * signed.toNat + n.toNat))) = some w := he
  rw [← Option.some.inj he]
  obtain ⟨h0, h1, h2, h3, h4, h5⟩ := fields_ui 17 g.p g.neg sd sa (BitVec.ofNat 8 (32 + 32 * signed.toNat + n.toNat)) (by decide)
  obtain ⟨k1, k2⟩ := shift8 (if signed then 2 else 1) n
  have kz : 32 * (if signed then (2 : BitVec 2) else 1).toNat + n.toNat = 32 + 32 * signed.toNat + n.toNat := by cases signed <;> rfl
  rw [kz] at k1 k2
  rw [h0]; unfold decodeUniform
  simp only [h1, h2, h3, h4, h5, k1, k2]
  all_goals (cases signed <;> rfl)

theorem RoundTrip.umovi (sd : Reg) (imm : BitVec 18) : RoundTrip.Statement (.umovi sd imm) := by
  intro w hw he
  have he : some (packUW 18 sd imm) = some w := he
  rw [← Option.some.inj he]
  obtain ⟨h0, h1, h2, h3⟩ := fields_uw 18 sd imm (by decide)
  rw [h0]; unfold decodeUniform
  simp only [h1, h2, h3]
  all_goals (rfl)

theorem RoundTrip.ului (sd : Reg) (imm : BitVec 18) : RoundTrip.Statement (.ului sd imm) := by
  intro w hw he
  have he : some (packUW 19 sd imm) = some w := he
  rw [← Option.some.inj he]
  obtain ⟨h0, h1, h2, h3⟩ := fields_uw 19 sd imm (by decide)
  rw [h0]; unfold decodeUniform
  simp only [h1, h2, h3]
  all_goals (rfl)

theorem RoundTrip.usr (g : Guard) (sd : Reg) (n : BitVec 8) : RoundTrip.Statement (.usr g sd n) := by
  intro w hw he
  have he : some (packUI 20 g.p g.neg sd 0 n) = some w := he
  rw [← Option.some.inj he]
  obtain ⟨h0, h1, h2, h3, h4, h5⟩ := fields_ui 20 g.p g.neg sd 0 n (by decide)
  rw [h0]; unfold decodeUniform
  simp only [h1, h2, h3, h4, h5]
  all_goals (rfl)

theorem RoundTrip.usw (g : Guard) (n : BitVec 8) (sa : Reg) : RoundTrip.Statement (.usw g n sa) := by
  intro w hw he
  have he : some (packUI 21 g.p g.neg 0 sa n) = some w := he
  rw [← Option.some.inj he]
  obtain ⟨h0, h1, h2, h3, h4, h5⟩ := fields_ui 21 g.p g.neg 0 sa n (by decide)
  rw [h0]; unfold decodeUniform
  simp only [h1, h2, h3, h4, h5]
  all_goals (rfl)

theorem RoundTrip.uldB32 (g : Guard) (sd : Reg) (sa : Reg) (imm : BitVec 8) : RoundTrip.Statement (.uldB32 g sd sa imm) := by
  intro w hw he
  have he : some (packUI 22 g.p g.neg sd sa imm) = some w := he
  rw [← Option.some.inj he]
  obtain ⟨h0, h1, h2, h3, h4, h5⟩ := fields_ui 22 g.p g.neg sd sa imm (by decide)
  rw [h0]; unfold decodeUniform
  simp only [h1, h2, h3, h4, h5]
  all_goals (rfl)

theorem RoundTrip.uldB64 (g : Guard) (sd : Reg) (sa : Reg) (imm : BitVec 8) : RoundTrip.Statement (.uldB64 g sd sa imm) := by
  intro w hw he
  have he : some (packUI 23 g.p g.neg sd sa imm) = some w := he
  rw [← Option.some.inj he]
  obtain ⟨h0, h1, h2, h3, h4, h5⟩ := fields_ui 23 g.p g.neg sd sa imm (by decide)
  rw [h0]; unfold decodeUniform
  simp only [h1, h2, h3, h4, h5]
  all_goals (rfl)

theorem RoundTrip.ustB32 (g : Guard) (ss : Reg) (sa : Reg) (imm : BitVec 8) : RoundTrip.Statement (.ustB32 g ss sa imm) := by
  intro w hw he
  have he : some (packUI 24 g.p g.neg ss sa imm) = some w := he
  rw [← Option.some.inj he]
  obtain ⟨h0, h1, h2, h3, h4, h5⟩ := fields_ui 24 g.p g.neg ss sa imm (by decide)
  rw [h0]; unfold decodeUniform
  simp only [h1, h2, h3, h4, h5]
  all_goals (rfl)

theorem RoundTrip.ustB64 (g : Guard) (ss : Reg) (sa : Reg) (imm : BitVec 8) : RoundTrip.Statement (.ustB64 g ss sa imm) := by
  intro w hw he
  have he : some (packUI 25 g.p g.neg ss sa imm) = some w := he
  rw [← Option.some.inj he]
  obtain ⟨h0, h1, h2, h3, h4, h5⟩ := fields_ui 25 g.p g.neg ss sa imm (by decide)
  rw [h0]; unfold decodeUniform
  simp only [h1, h2, h3, h4, h5]
  all_goals (rfl)

theorem RoundTrip.uatomB32 (g : Guard) (op : AtomOp) (scope : AtomScope) (ord : AtomOrd) (sd : Reg) (sa : Reg) : RoundTrip.Statement (.uatomB32 g op scope ord sd sa) := by
  intro w hw he
  have he : some (packUI 26 g.p g.neg sd sa (BitVec.ofNat 8 (16 * op.code + 4 * scope.code + ord.code))) = some w := he
  rw [← Option.some.inj he]
  obtain ⟨h0, h1, h2, h3, h4, h5⟩ := fields_ui 26 g.p g.neg sd sa (BitVec.ofNat 8 (16 * op.code + 4 * scope.code + ord.code)) (by decide)
  rw [h0]; unfold decodeUniform
  simp only [h1, h2, h3, h4, h5]
  all_goals (cases op <;> cases scope <;> cases ord <;> rfl)

theorem RoundTrip.uatomB64 (g : Guard) (op : AtomOp) (scope : AtomScope) (ord : AtomOrd) (sd : Reg) (sa : Reg) : RoundTrip.Statement (.uatomB64 g op scope ord sd sa) := by
  intro w hw he
  have he : some (packUI 27 g.p g.neg sd sa (BitVec.ofNat 8 (16 * op.code + 4 * scope.code + ord.code))) = some w := he
  rw [← Option.some.inj he]
  obtain ⟨h0, h1, h2, h3, h4, h5⟩ := fields_ui 27 g.p g.neg sd sa (BitVec.ofNat 8 (16 * op.code + 4 * scope.code + ord.code)) (by decide)
  rw [h0]; unfold decodeUniform
  simp only [h1, h2, h3, h4, h5]
  all_goals (cases op <;> cases scope <;> cases ord <;> rfl)

theorem RoundTrip.fence (g : Guard) (ord : FenceOrd) (scope : FenceScope) : RoundTrip.Statement (.fence g ord scope) := by
  intro w hw he
  have he : some (packUI 28 g.p g.neg 0 0 (BitVec.ofNat 8 (8 * ord.code + scope.code))) = some w := he
  rw [← Option.some.inj he]
  obtain ⟨h0, h1, h2, h3, h4, h5⟩ := fields_ui 28 g.p g.neg 0 0 (BitVec.ofNat 8 (8 * ord.code + scope.code)) (by decide)
  rw [h0]; unfold decodeUniform
  simp only [h1, h2, h3, h4, h5]
  all_goals (cases ord <;> cases scope <;> rfl)

theorem RoundTrip.stitch (g : Guard) (w64 : Bool) (n : BitVec 2) : RoundTrip.Statement (.stitch g w64 n) := by
  intro w hw he
  have he : some (packUI 29 g.p g.neg 0 0 (BitVec.ofNat 8 (4 * w64.toNat + n.toNat))) = some w := he
  rw [← Option.some.inj he]
  obtain ⟨h0, h1, h2, h3, h4, h5⟩ := fields_ui 29 g.p g.neg 0 0 (BitVec.ofNat 8 (4 * w64.toNat + n.toNat)) (by decide)
  obtain ⟨k1, k2, k3⟩ := stitch_imm w64 n
  rw [h0]; unfold decodeUniform
  simp only [h1, h2, h3, h4, h5, k1, k2, k3]
  all_goals (rfl)

theorem RoundTrip.unstitch (g : Guard) : RoundTrip.Statement (.unstitch g) := by
  intro w hw he
  have he : some (packU3 30 g.p g.neg 0 0 0 0) = some w := he
  rw [← Option.some.inj he]
  obtain ⟨h0, h1, h2, h3, h4, h5, h6⟩ := fields_u3 30 g.p g.neg 0 0 0 0 (by decide) (by decide)
  rw [h0]; unfold decodeUniform
  simp only [h1, h2, h3, h4, h5, h6]
  all_goals (rfl)

theorem RoundTrip.br (g : Guard) (off : BitVec 21) : RoundTrip.Statement (.br g off) := by
  intro w hw he
  have he : some (packUB 32 g.p g.neg off) = some w := he
  rw [← Option.some.inj he]
  obtain ⟨h0, h1, h2, h3⟩ := fields_ub 32 g.p g.neg off (by decide) (by decide)
  have ko : off.toNat / 2 ^ 20 = 0 ∨ off.toNat / 2 ^ 20 = 1 := by have := off.isLt; omega
  rcases ko with ko | ko <;>
    (rw [h0]; rw [ko] at h1; unfold decodeUniform; simp only [h1, h2, h3])

theorem RoundTrip.jmp (off : BitVec 21) : RoundTrip.Statement (.jmp off) := by
  intro w hw he
  have he : some (packUB 34 7 false off) = some w := he
  rw [← Option.some.inj he]
  obtain ⟨h0, h1, h2, h3⟩ := fields_ub 34 7 false off (by decide) (by decide)
  have ko : off.toNat / 2 ^ 20 = 0 ∨ off.toNat / 2 ^ 20 = 1 := by have := off.isLt; omega
  rcases ko with ko | ko <;>
    (rw [h0]; rw [ko] at h1; unfold decodeUniform; simp only [h1, h2, h3]; rfl)

theorem RoundTrip.call (g : Guard) (off : BitVec 21) : RoundTrip.Statement (.call g off) := by
  intro w hw he
  have he : some (packUB 36 g.p g.neg off) = some w := he
  rw [← Option.some.inj he]
  obtain ⟨h0, h1, h2, h3⟩ := fields_ub 36 g.p g.neg off (by decide) (by decide)
  have ko : off.toNat / 2 ^ 20 = 0 ∨ off.toNat / 2 ^ 20 = 1 := by have := off.isLt; omega
  rcases ko with ko | ko <;>
    (rw [h0]; rw [ko] at h1; unfold decodeUniform; simp only [h1, h2, h3])

theorem RoundTrip.brl (p : Guard) (target : BitVec 12) (join : BitVec 8) : RoundTrip.Statement (.brl p target join) := by
  intro w hw he
  have he : some (packBRL 38 p.p p.neg target join) = some w := he
  rw [← Option.some.inj he]
  obtain ⟨h0, h1, h2, h3, h4⟩ := fields_brl 38 p.p p.neg target join (by decide)
  rw [h0]; unfold decodeUniform
  simp only [h1, h2, h3, h4]
  all_goals (rfl)

theorem RoundTrip.jmpi (g : Guard) (sa : Reg) : RoundTrip.Statement (.jmpi g sa) := by
  intro w hw he
  have he : some (packU3 39 g.p g.neg 0 sa 0 0) = some w := he
  rw [← Option.some.inj he]
  obtain ⟨h0, h1, h2, h3, h4, h5, h6⟩ := fields_u3 39 g.p g.neg 0 sa 0 0 (by decide) (by decide)
  rw [h0]; unfold decodeUniform
  simp only [h1, h2, h3, h4, h5, h6]
  all_goals (rfl)

theorem RoundTrip.jmpl (g : Guard) (va : Reg) (join : BitVec 8) : RoundTrip.Statement (.jmpl g va join) := by
  intro w hw he
  have he : some (packUI 40 g.p g.neg 0 va join) = some w := he
  rw [← Option.some.inj he]
  obtain ⟨h0, h1, h2, h3, h4, h5⟩ := fields_ui 40 g.p g.neg 0 va join (by decide)
  rw [h0]; unfold decodeUniform
  simp only [h1, h2, h3, h4, h5]
  all_goals (rfl)

theorem RoundTrip.ret (g : Guard) (sa : Reg) : RoundTrip.Statement (.ret g sa) := by
  intro w hw he
  have he : some (packU3 41 g.p g.neg 0 sa 0 0) = some w := he
  rw [← Option.some.inj he]
  obtain ⟨h0, h1, h2, h3, h4, h5, h6⟩ := fields_u3 41 g.p g.neg 0 sa 0 0 (by decide) (by decide)
  rw [h0]; unfold decodeUniform
  simp only [h1, h2, h3, h4, h5, h6]
  all_goals (rfl)

theorem RoundTrip.loop (g : Guard) (sa : Reg) (imm : BitVec 8) : RoundTrip.Statement (.loop g sa imm) := by
  intro w hw he
  have he : some (packUI 42 g.p g.neg 0 sa imm) = some w := he
  rw [← Option.some.inj he]
  obtain ⟨h0, h1, h2, h3, h4, h5⟩ := fields_ui 42 g.p g.neg 0 sa imm (by decide)
  rw [h0]; unfold decodeUniform
  simp only [h1, h2, h3, h4, h5]
  all_goals (rfl)

theorem RoundTrip.lbrk (g : Guard) : RoundTrip.Statement (.lbrk g) := by
  intro w hw he
  have he : some (packU3 43 g.p g.neg 0 0 0 0) = some w := he
  rw [← Option.some.inj he]
  obtain ⟨h0, h1, h2, h3, h4, h5, h6⟩ := fields_u3 43 g.p g.neg 0 0 0 0 (by decide) (by decide)
  rw [h0]; unfold decodeUniform
  simp only [h1, h2, h3, h4, h5, h6]
  all_goals (rfl)

theorem RoundTrip.exit (g : Guard) : RoundTrip.Statement (.exit g) := by
  intro w hw he
  have he : some (packU3 44 g.p g.neg 0 0 0 0) = some w := he
  rw [← Option.some.inj he]
  obtain ⟨h0, h1, h2, h3, h4, h5, h6⟩ := fields_u3 44 g.p g.neg 0 0 0 0 (by decide) (by decide)
  rw [h0]; unfold decodeUniform
  simp only [h1, h2, h3, h4, h5, h6]
  all_goals (rfl)

theorem RoundTrip.trap (g : Guard) (code : BitVec 8) : RoundTrip.Statement (.trap g code) := by
  intro w hw he
  have he : some (packUI 45 g.p g.neg 0 0 code) = some w := he
  rw [← Option.some.inj he]
  obtain ⟨h0, h1, h2, h3, h4, h5⟩ := fields_ui 45 g.p g.neg 0 0 code (by decide)
  rw [h0]; unfold decodeUniform
  simp only [h1, h2, h3, h4, h5]
  all_goals (rfl)

theorem RoundTrip.resume (g : Guard) : RoundTrip.Statement (.resume g) := by
  intro w hw he
  have he : some (packUI 46 g.p g.neg 0 0 0) = some w := he
  rw [← Option.some.inj he]
  obtain ⟨h0, h1, h2, h3, h4, h5⟩ := fields_ui 46 g.p g.neg 0 0 0 (by decide)
  rw [h0]; unfold decodeUniform
  simp only [h1, h2, h3, h4, h5]
  all_goals (rfl)

theorem RoundTrip.resumeSkip (g : Guard) : RoundTrip.Statement (.resumeSkip g) := by
  intro w hw he
  have he : some (packUI 46 g.p g.neg 0 0 1) = some w := he
  rw [← Option.some.inj he]
  obtain ⟨h0, h1, h2, h3, h4, h5⟩ := fields_ui 46 g.p g.neg 0 0 1 (by decide)
  rw [h0]; unfold decodeUniform
  simp only [h1, h2, h3, h4, h5]
  all_goals (rfl)

theorem RoundTrip.yieldQ (g : Guard) : RoundTrip.Statement (.yieldQ g) := by
  intro w hw he
  have he : some (packU3 47 g.p g.neg 0 0 0 0) = some w := he
  rw [← Option.some.inj he]
  obtain ⟨h0, h1, h2, h3, h4, h5, h6⟩ := fields_u3 47 g.p g.neg 0 0 0 0 (by decide) (by decide)
  rw [h0]; unfold decodeUniform
  simp only [h1, h2, h3, h4, h5, h6]
  all_goals (rfl)

theorem RoundTrip.twait (g : Guard) (sa : Reg) : RoundTrip.Statement (.twait g sa) := by
  intro w hw he
  have he : some (packU3 48 g.p g.neg 0 sa 0 0) = some w := he
  rw [← Option.some.inj he]
  obtain ⟨h0, h1, h2, h3, h4, h5, h6⟩ := fields_u3 48 g.p g.neg 0 sa 0 0 (by decide) (by decide)
  rw [h0]; unfold decodeUniform
  simp only [h1, h2, h3, h4, h5, h6]
  all_goals (rfl)

theorem RoundTrip.nop (g : Guard) : RoundTrip.Statement (.nop g) := by
  intro w hw he
  have he : some (packU3 49 g.p g.neg 0 0 0 0) = some w := he
  rw [← Option.some.inj he]
  obtain ⟨h0, h1, h2, h3, h4, h5, h6⟩ := fields_u3 49 g.p g.neg 0 0 0 0 (by decide) (by decide)
  rw [h0]; unfold decodeUniform
  simp only [h1, h2, h3, h4, h5, h6]
  all_goals (rfl)

theorem RoundTrip.barw (g : Guard) (nb : BitVec 4) (cnt : Bool) (sa : Reg) : RoundTrip.Statement (.barw g nb cnt sa) := by
  intro w hw he
  have he : some (packUI 50 g.p g.neg 0 sa (BitVec.ofNat 8 (16 * cnt.toNat + nb.toNat))) = some w := he
  rw [← Option.some.inj he]
  obtain ⟨h0, h1, h2, h3, h4, h5⟩ := fields_ui 50 g.p g.neg 0 sa (BitVec.ofNat 8 (16 * cnt.toNat + nb.toNat)) (by decide)
  obtain ⟨k1, k2, k3⟩ := bar_imm cnt nb
  have hw : (cnt || sa == 0) = true := hw
  rw [h0]; unfold decodeUniform
  simp only [h1, h2, h3, h4, h5, k1, k2, k3, hw]
  all_goals (rfl)

theorem RoundTrip.bara (g : Guard) (nb : BitVec 4) (cnt : Bool) (sa : Reg) : RoundTrip.Statement (.bara g nb cnt sa) := by
  intro w hw he
  have he : some (packUI 51 g.p g.neg 0 sa (BitVec.ofNat 8 (16 * cnt.toNat + nb.toNat))) = some w := he
  rw [← Option.some.inj he]
  obtain ⟨h0, h1, h2, h3, h4, h5⟩ := fields_ui 51 g.p g.neg 0 sa (BitVec.ofNat 8 (16 * cnt.toNat + nb.toNat)) (by decide)
  obtain ⟨k1, k2, k3⟩ := bar_imm cnt nb
  have hw : (cnt || sa == 0) = true := hw
  rw [h0]; unfold decodeUniform
  simp only [h1, h2, h3, h4, h5, k1, k2, k3, hw]
  all_goals (rfl)

theorem RoundTrip.fork (g : Guard) (which : ForkSel) : RoundTrip.Statement (.fork g which) := by
  intro w hw he
  have he : some (packU3 52 g.p g.neg 0 0 0 which.code) = some w := he
  rw [← Option.some.inj he]
  obtain ⟨h0, h1, h2, h3, h4, h5, h6⟩ := fields_u3 52 g.p g.neg 0 0 0 which.code (by decide) (by cases which <;> decide)
  rw [h0]; unfold decodeUniform
  simp only [h1, h2, h3, h4, h5, h6]
  all_goals (cases which <;> rfl)

theorem RoundTrip.rendez (g : Guard) : RoundTrip.Statement (.rendez g) := by
  intro w hw he
  have he : some (packU3 53 g.p g.neg 0 0 0 0) = some w := he
  rw [← Option.some.inj he]
  obtain ⟨h0, h1, h2, h3, h4, h5, h6⟩ := fields_u3 53 g.p g.neg 0 0 0 0 (by decide) (by decide)
  rw [h0]; unfold decodeUniform
  simp only [h1, h2, h3, h4, h5, h6]
  all_goals (rfl)

theorem RoundTrip.seed (g : Guard) (b : RotB) (hs : BitVec 3) (sa : Reg) : RoundTrip.Statement (.seed g b hs sa) := by
  intro w hw he
  have he : some (packU3 54 g.p g.neg (hilo3 0 hs) sa 0 b.code) = some w := he
  rw [← Option.some.inj he]
  obtain ⟨h0, h1, h2, h3, h4, h5, h6⟩ := fields_u3 54 g.p g.neg (hilo3 0 hs) sa 0 b.code (by decide) (by cases b <;> decide)
  have k5 := hilo3_lo 0 (by decide) hs
  have k6 := hilo3_small hs
  rw [h0]; unfold decodeUniform
  simp only [h1, h2, h3, h4, h5, h6, k5, k6]
  all_goals (cases b <;> rfl)

theorem RoundTrip.thbind (g : Guard) (th : BitVec 5) (sa : Reg) (sb : Reg) : RoundTrip.Statement (.thbind g th sa sb) := by
  intro w hw he
  have he : some (packU3 55 g.p g.neg (fld6 (0 + th.toNat)) sa sb 0) = some w := he
  rw [← Option.some.inj he]
  obtain ⟨h0, h1, h2, h3, h4, h5, h6⟩ := fields_u3 55 g.p g.neg (fld6 (0 + th.toNat)) sa sb 0 (by decide) (by decide)
  obtain ⟨kth, jth⟩ := low5 th
  rw [h0]; unfold decodeUniform
  simp only [h1, h2, h3, h4, h5, h6]
  simp only [Nat.zero_add, kth, jth]
  all_goals (rfl)

theorem RoundTrip.thbindT (g : Guard) (th : BitVec 5) (sa : Reg) (sb : Reg) : RoundTrip.Statement (.thbindT g th sa sb) := by
  intro w hw he
  have he : some (packU3 55 g.p g.neg (fld6 (32 + th.toNat)) sa sb 0) = some w := he
  rw [← Option.some.inj he]
  obtain ⟨h0, h1, h2, h3, h4, h5, h6⟩ := fields_u3 55 g.p g.neg (fld6 (32 + th.toNat)) sa sb 0 (by decide) (by decide)
  obtain ⟨kth, jth⟩ := high5 th
  rw [h0]; unfold decodeUniform
  simp only [h1, h2, h3, h4, h5, h6]
  simp only [Nat.zero_add, kth, jth]
  all_goals (rfl)

theorem RoundTrip.rkinit (g : Guard) (rk : BitVec 5) (sa : Reg) (sb : Reg) : RoundTrip.Statement (.rkinit g rk sa sb) := by
  intro w hw he
  have he : some (packU3 56 g.p g.neg (fld6 rk.toNat) sa sb 0) = some w := he
  rw [← Option.some.inj he]
  obtain ⟨h0, h1, h2, h3, h4, h5, h6⟩ := fields_u3 56 g.p g.neg (fld6 rk.toNat) sa sb 0 (by decide) (by decide)
  obtain ⟨krk, jrk⟩ := low5 rk
  rw [h0]; unfold decodeUniform
  simp only [h1, h2, h3, h4, h5, h6]
  simp only [Nat.zero_add, krk, jrk]
  all_goals (rfl)

theorem RoundTrip.cpy (g : Guard) (rk : BitVec 5) (th : BitVec 5) (sb : Reg) : RoundTrip.Statement (.cpy g rk th sb) := by
  intro w hw he
  have he : some (packU3 57 g.p g.neg (fld6 (0 + rk.toNat)) (fld6 th.toNat) sb 0) = some w := he
  rw [← Option.some.inj he]
  obtain ⟨h0, h1, h2, h3, h4, h5, h6⟩ := fields_u3 57 g.p g.neg (fld6 (0 + rk.toNat)) (fld6 th.toNat) sb 0 (by decide) (by decide)
  obtain ⟨krk, jrk⟩ := low5 rk
  obtain ⟨kth, jth⟩ := low5 th
  rw [h0]; unfold decodeUniform
  simp only [h1, h2, h3, h4, h5, h6]
  simp only [Nat.zero_add, krk, jrk, Nat.zero_add, kth, jth]
  all_goals (rfl)

theorem RoundTrip.cpySeal (g : Guard) (rk : BitVec 5) (th : BitVec 5) (sb : Reg) : RoundTrip.Statement (.cpySeal g rk th sb) := by
  intro w hw he
  have he : some (packU3 57 g.p g.neg (fld6 (32 + rk.toNat)) (fld6 th.toNat) sb 0) = some w := he
  rw [← Option.some.inj he]
  obtain ⟨h0, h1, h2, h3, h4, h5, h6⟩ := fields_u3 57 g.p g.neg (fld6 (32 + rk.toNat)) (fld6 th.toNat) sb 0 (by decide) (by decide)
  obtain ⟨krk, jrk⟩ := high5 rk
  obtain ⟨kth, jth⟩ := low5 th
  rw [h0]; unfold decodeUniform
  simp only [h1, h2, h3, h4, h5, h6]
  simp only [Nat.zero_add, krk, jrk, Nat.zero_add, kth, jth]
  all_goals (rfl)

theorem RoundTrip.awaitf (g : Guard) (rk : BitVec 5) (sa : Reg) : RoundTrip.Statement (.awaitf g rk sa) := by
  intro w hw he
  have he : some (packU3 58 g.p g.neg (fld6 rk.toNat) sa 0 0) = some w := he
  rw [← Option.some.inj he]
  obtain ⟨h0, h1, h2, h3, h4, h5, h6⟩ := fields_u3 58 g.p g.neg (fld6 rk.toNat) sa 0 0 (by decide) (by decide)
  obtain ⟨krk, jrk⟩ := low5 rk
  rw [h0]; unfold decodeUniform
  simp only [h1, h2, h3, h4, h5, h6]
  simp only [Nat.zero_add, krk, jrk]
  all_goals (rfl)

theorem RoundTrip.relslot (g : Guard) (rk : BitVec 5) : RoundTrip.Statement (.relslot g rk) := by
  intro w hw he
  have he : some (packU3 59 g.p g.neg (fld6 rk.toNat) 0 0 0) = some w := he
  rw [← Option.some.inj he]
  obtain ⟨h0, h1, h2, h3, h4, h5, h6⟩ := fields_u3 59 g.p g.neg (fld6 rk.toNat) 0 0 0 (by decide) (by decide)
  obtain ⟨krk, jrk⟩ := low5 rk
  rw [h0]; unfold decodeUniform
  simp only [h1, h2, h3, h4, h5, h6]
  simp only [Nat.zero_add, krk, jrk]
  all_goals (rfl)

theorem RoundTrip.acalloc (g : Guard) (sd : Reg) (sa : Reg) (qd : BitVec 3) : RoundTrip.Statement (.acalloc g sd sa qd) := by
  intro w hw he
  have he : some (packU3 60 g.p g.neg sd sa (hilo3 0 qd) 0) = some w := he
  rw [← Option.some.inj he]
  obtain ⟨h0, h1, h2, h3, h4, h5, h6⟩ := fields_u3 60 g.p g.neg sd sa (hilo3 0 qd) 0 (by decide) (by decide)
  have k5 := hilo3_lo 0 (by decide) qd
  have k6 := hilo3_small qd
  rw [h0]; unfold decodeUniform
  simp only [h1, h2, h3, h4, h5, h6, k5, k6]
  all_goals (rfl)

theorem RoundTrip.acfree (g : Guard) (sa : Reg) (sb : Reg) : RoundTrip.Statement (.acfree g sa sb) := by
  intro w hw he
  have he : some (packU3 61 g.p g.neg 0 sa sb 0) = some w := he
  rw [← Option.some.inj he]
  obtain ⟨h0, h1, h2, h3, h4, h5, h6⟩ := fields_u3 61 g.p g.neg 0 sa sb 0 (by decide) (by decide)
  rw [h0]; unfold decodeUniform
  simp only [h1, h2, h3, h4, h5, h6]
  all_goals (rfl)

theorem RoundTrip.acrd (g : Guard) (sd : Reg) (sa : Reg) (sb : Reg) : RoundTrip.Statement (.acrd g sd sa sb) := by
  intro w hw he
  have he : some (packU3 62 g.p g.neg sd sa sb 0) = some w := he
  rw [← Option.some.inj he]
  obtain ⟨h0, h1, h2, h3, h4, h5, h6⟩ := fields_u3 62 g.p g.neg sd sa sb 0 (by decide) (by decide)
  rw [h0]; unfold decodeUniform
  simp only [h1, h2, h3, h4, h5, h6]
  all_goals (rfl)

theorem RoundTrip.acwr (g : Guard) (sa : Reg) (sb : Reg) : RoundTrip.Statement (.acwr g sa sb) := by
  intro w hw he
  have he : some (packU3 63 g.p g.neg 0 sa sb 0) = some w := he
  rw [← Option.some.inj he]
  obtain ⟨h0, h1, h2, h3, h4, h5, h6⟩ := fields_u3 63 g.p g.neg 0 sa sb 0 (by decide) (by decide)
  rw [h0]; unfold decodeUniform
  simp only [h1, h2, h3, h4, h5, h6]
  all_goals (rfl)

theorem RoundTrip.aczero (g : Guard) (sa : Reg) : RoundTrip.Statement (.aczero g sa) := by
  intro w hw he
  have he : some (packU3 64 g.p g.neg 0 sa 0 0) = some w := he
  rw [← Option.some.inj he]
  obtain ⟨h0, h1, h2, h3, h4, h5, h6⟩ := fields_u3 64 g.p g.neg 0 sa 0 0 (by decide) (by decide)
  rw [h0]; unfold decodeUniform
  simp only [h1, h2, h3, h4, h5, h6]
  all_goals (rfl)

theorem RoundTrip.halloc (g : Guard) (sd : Reg) (sa : Reg) (qd : BitVec 3) : RoundTrip.Statement (.halloc g sd sa qd) := by
  intro w hw he
  have he : some (packU3 65 g.p g.neg sd sa (hilo3 0 qd) 0) = some w := he
  rw [← Option.some.inj he]
  obtain ⟨h0, h1, h2, h3, h4, h5, h6⟩ := fields_u3 65 g.p g.neg sd sa (hilo3 0 qd) 0 (by decide) (by decide)
  have k5 := hilo3_lo 0 (by decide) qd
  have k6 := hilo3_small qd
  rw [h0]; unfold decodeUniform
  simp only [h1, h2, h3, h4, h5, h6, k5, k6]
  all_goals (rfl)

theorem RoundTrip.hallocF (g : Guard) (sd : Reg) (sa : Reg) (qd : BitVec 3) : RoundTrip.Statement (.hallocF g sd sa qd) := by
  intro w hw he
  have he : some (packU3 65 g.p g.neg sd sa (hilo3 0 qd) 1) = some w := he
  rw [← Option.some.inj he]
  obtain ⟨h0, h1, h2, h3, h4, h5, h6⟩ := fields_u3 65 g.p g.neg sd sa (hilo3 0 qd) 1 (by decide) (by decide)
  have k5 := hilo3_lo 0 (by decide) qd
  have k6 := hilo3_small qd
  rw [h0]; unfold decodeUniform
  simp only [h1, h2, h3, h4, h5, h6, k5, k6]
  all_goals (rfl)

theorem RoundTrip.hfree (g : Guard) (sa : Reg) : RoundTrip.Statement (.hfree g sa) := by
  intro w hw he
  have he : some (packU3 66 g.p g.neg 0 sa 0 0) = some w := he
  rw [← Option.some.inj he]
  obtain ⟨h0, h1, h2, h3, h4, h5, h6⟩ := fields_u3 66 g.p g.neg 0 sa 0 0 (by decide) (by decide)
  rw [h0]; unfold decodeUniform
  simp only [h1, h2, h3, h4, h5, h6]
  all_goals (rfl)

theorem RoundTrip.grow (g : Guard) (sd : Reg) (sa : Reg) (qd : BitVec 3) : RoundTrip.Statement (.grow g sd sa qd) := by
  intro w hw he
  have he : some (packU3 67 g.p g.neg sd sa (hilo3 0 qd) 0) = some w := he
  rw [← Option.some.inj he]
  obtain ⟨h0, h1, h2, h3, h4, h5, h6⟩ := fields_u3 67 g.p g.neg sd sa (hilo3 0 qd) 0 (by decide) (by decide)
  have k5 := hilo3_lo 0 (by decide) qd
  have k6 := hilo3_small qd
  rw [h0]; unfold decodeUniform
  simp only [h1, h2, h3, h4, h5, h6, k5, k6]
  all_goals (rfl)

theorem RoundTrip.spawn (g : Guard) (sd : Reg) (sa : Reg) : RoundTrip.Statement (.spawn g sd sa) := by
  intro w hw he
  have he : some (packU3 68 g.p g.neg sd sa 0 0) = some w := he
  rw [← Option.some.inj he]
  obtain ⟨h0, h1, h2, h3, h4, h5, h6⟩ := fields_u3 68 g.p g.neg sd sa 0 0 (by decide) (by decide)
  rw [h0]; unfold decodeUniform
  simp only [h1, h2, h3, h4, h5, h6]
  all_goals (rfl)

theorem RoundTrip.pktrx (g : Guard) (sd : Reg) (qd : BitVec 3) : RoundTrip.Statement (.pktrx g sd qd) := by
  intro w hw he
  have he : some (packU3 69 g.p g.neg sd 0 (hilo3 0 qd) 0) = some w := he
  rw [← Option.some.inj he]
  obtain ⟨h0, h1, h2, h3, h4, h5, h6⟩ := fields_u3 69 g.p g.neg sd 0 (hilo3 0 qd) 0 (by decide) (by decide)
  have k5 := hilo3_lo 0 (by decide) qd
  have k6 := hilo3_small qd
  rw [h0]; unfold decodeUniform
  simp only [h1, h2, h3, h4, h5, h6, k5, k6]
  all_goals (rfl)

theorem RoundTrip.fwd (g : Guard) (sd : Reg) (sa : Reg) (sb : Reg) : RoundTrip.Statement (.fwd g sd sa sb) := by
  intro w hw he
  have he : some (packU3 70 g.p g.neg sd sa sb 0) = some w := he
  rw [← Option.some.inj he]
  obtain ⟨h0, h1, h2, h3, h4, h5, h6⟩ := fields_u3 70 g.p g.neg sd sa sb 0 (by decide) (by decide)
  rw [h0]; unfold decodeUniform
  simp only [h1, h2, h3, h4, h5, h6]
  all_goals (rfl)

theorem RoundTrip.tbarrive (g : Guard) (tb : BitVec 3) : RoundTrip.Statement (.tbarrive g tb) := by
  intro w hw he
  have he : some (packU3 71 g.p g.neg 0 0 (hilo3 0 tb) 0) = some w := he
  rw [← Option.some.inj he]
  obtain ⟨h0, h1, h2, h3, h4, h5, h6⟩ := fields_u3 71 g.p g.neg 0 0 (hilo3 0 tb) 0 (by decide) (by decide)
  have k5 := hilo3_lo 0 (by decide) tb
  have k6 := hilo3_small tb
  rw [h0]; unfold decodeUniform
  simp only [h1, h2, h3, h4, h5, h6, k5, k6]
  all_goals (rfl)

theorem RoundTrip.tbarwait (g : Guard) (sd : Reg) (tb : BitVec 3) : RoundTrip.Statement (.tbarwait g sd tb) := by
  intro w hw he
  have he : some (packU3 72 g.p g.neg sd 0 (hilo3 0 tb) 0) = some w := he
  rw [← Option.some.inj he]
  obtain ⟨h0, h1, h2, h3, h4, h5, h6⟩ := fields_u3 72 g.p g.neg sd 0 (hilo3 0 tb) 0 (by decide) (by decide)
  have k5 := hilo3_lo 0 (by decide) tb
  have k6 := hilo3_small tb
  rw [h0]; unfold decodeUniform
  simp only [h1, h2, h3, h4, h5, h6, k5, k6]
  all_goals (rfl)

theorem RoundTrip.tbarst (g : Guard) (sd : Reg) (tb : BitVec 3) : RoundTrip.Statement (.tbarst g sd tb) := by
  intro w hw he
  have he : some (packU3 73 g.p g.neg sd 0 (hilo3 0 tb) 0) = some w := he
  rw [← Option.some.inj he]
  obtain ⟨h0, h1, h2, h3, h4, h5, h6⟩ := fields_u3 73 g.p g.neg sd 0 (hilo3 0 tb) 0 (by decide) (by decide)
  have k5 := hilo3_lo 0 (by decide) tb
  have k6 := hilo3_small tb
  rw [h0]; unfold decodeUniform
  simp only [h1, h2, h3, h4, h5, h6, k5, k6]
  all_goals (rfl)

theorem RoundTrip.blt (g : Guard) (sd : Reg) (sa : Reg) (sb : Reg) : RoundTrip.Statement (.blt g sd sa sb) := by
  intro w hw he
  have he : some (packU3 74 g.p g.neg sd sa sb 0) = some w := he
  rw [← Option.some.inj he]
  obtain ⟨h0, h1, h2, h3, h4, h5, h6⟩ := fields_u3 74 g.p g.neg sd sa sb 0 (by decide) (by decide)
  rw [h0]; unfold decodeUniform
  simp only [h1, h2, h3, h4, h5, h6]
  all_goals (rfl)

theorem RoundTrip.cntr (g : Guard) (sd : Reg) (sa : Reg) : RoundTrip.Statement (.cntr g sd sa) := by
  intro w hw he
  have he : some (packU3 75 g.p g.neg sd sa 0 0) = some w := he
  rw [← Option.some.inj he]
  obtain ⟨h0, h1, h2, h3, h4, h5, h6⟩ := fields_u3 75 g.p g.neg sd sa 0 0 (by decide) (by decide)
  rw [h0]; unfold decodeUniform
  simp only [h1, h2, h3, h4, h5, h6]
  all_goals (rfl)

theorem RoundTrip.snap (g : Guard) (sd : Reg) (sa : Reg) : RoundTrip.Statement (.snap g sd sa) := by
  intro w hw he
  have he : some (packU3 76 g.p g.neg sd sa 0 0) = some w := he
  rw [← Option.some.inj he]
  obtain ⟨h0, h1, h2, h3, h4, h5, h6⟩ := fields_u3 76 g.p g.neg sd sa 0 0 (by decide) (by decide)
  rw [h0]; unfold decodeUniform
  simp only [h1, h2, h3, h4, h5, h6]
  all_goals (rfl)

theorem RoundTrip.skincPc (g : Guard) (sa : Reg) (sb : Reg) : RoundTrip.Statement (.skincPc g sa sb) := by
  intro w hw he
  have he : some (packU3 77 g.p g.neg 0 sa sb 0) = some w := he
  rw [← Option.some.inj he]
  obtain ⟨h0, h1, h2, h3, h4, h5, h6⟩ := fields_u3 77 g.p g.neg 0 sa sb 0 (by decide) (by decide)
  rw [h0]; unfold decodeUniform
  simp only [h1, h2, h3, h4, h5, h6]
  all_goals (rfl)

theorem RoundTrip.skincKn (g : Guard) (sa : Reg) (sb : Reg) : RoundTrip.Statement (.skincKn g sa sb) := by
  intro w hw he
  have he : some (packU3 77 g.p g.neg 1 sa sb 0) = some w := he
  rw [← Option.some.inj he]
  obtain ⟨h0, h1, h2, h3, h4, h5, h6⟩ := fields_u3 77 g.p g.neg 1 sa sb 0 (by decide) (by decide)
  rw [h0]; unfold decodeUniform
  simp only [h1, h2, h3, h4, h5, h6]
  all_goals (rfl)

theorem RoundTrip.tkload (g : Guard) (sd : Reg) (sa : Reg) (tk : BitVec 2) : RoundTrip.Statement (.tkload g sd sa tk) := by
  intro w hw he
  have he : some (packU3 80 g.p g.neg sd sa (fld6 tk.toNat) 0) = some w := he
  rw [← Option.some.inj he]
  obtain ⟨h0, h1, h2, h3, h4, h5, h6⟩ := fields_u3 80 g.p g.neg sd sa (fld6 tk.toNat) 0 (by decide) (by decide)
  obtain ⟨k1, k2, k3, k4⟩ := two_twos 0#2 tk
  have kt : 4 * (0#2).toNat + tk.toNat = tk.toNat := by simp
  rw [kt] at k1 k2 k3 k4
  have k0 : (fld6 (tk.toNat)).toNat < 4 := by have := k2; simp only [BitVec.toNat_ofNat] at this; omega
  rw [h0]; unfold decodeUniform
  simp only [h1, h2, h3, h4, h5, h6, k0, k2, k3]
  all_goals (rfl)

theorem RoundTrip.tkarm (g : Guard) (sd : Reg) (tk : BitVec 2) : RoundTrip.Statement (.tkarm g sd tk) := by
  intro w hw he
  have he : some (packU3 81 g.p g.neg sd 0 (fld6 (0 + tk.toNat)) 0) = some w := he
  rw [← Option.some.inj he]
  obtain ⟨h0, h1, h2, h3, h4, h5, h6⟩ := fields_u3 81 g.p g.neg sd 0 (fld6 (0 + tk.toNat)) 0 (by decide) (by decide)
  obtain ⟨k1, k2, k3, k4⟩ := two_twos 0#2 tk
  have kt : 4 * (0#2).toNat + tk.toNat = 0 + tk.toNat := by simp
  rw [kt] at k1 k2 k3 k4
  have k0 : (fld6 (0 + tk.toNat)).toNat < 4 := by have := k2; simp only [BitVec.toNat_ofNat] at this; omega
  rw [h0]; unfold decodeUniform
  simp only [h1, h2, h3, h4, h5, h6, k0, k2, k3]
  all_goals (rfl)

theorem RoundTrip.tkarmP (g : Guard) (sd : Reg) (tk : BitVec 2) : RoundTrip.Statement (.tkarmP g sd tk) := by
  intro w hw he
  have he : some (packU3 81 g.p g.neg sd 0 (fld6 (4 + tk.toNat)) 0) = some w := he
  rw [← Option.some.inj he]
  obtain ⟨h0, h1, h2, h3, h4, h5, h6⟩ := fields_u3 81 g.p g.neg sd 0 (fld6 (4 + tk.toNat)) 0 (by decide) (by decide)
  obtain ⟨k1, k2, k3, k4⟩ := two_twos 1#2 tk
  have kt : 4 * (1#2).toNat + tk.toNat = 4 + tk.toNat := by rfl
  rw [kt] at k1 k2 k3 k4
  rw [h0]; unfold decodeUniform
  simp only [h1, h2, h3, h4, h5, h6, k2, k3]
  all_goals (rfl)

theorem RoundTrip.tkdisarm (g : Guard) (tk : BitVec 2) : RoundTrip.Statement (.tkdisarm g tk) := by
  intro w hw he
  have he : some (packU3 82 g.p g.neg 0 0 (fld6 tk.toNat) 0) = some w := he
  rw [← Option.some.inj he]
  obtain ⟨h0, h1, h2, h3, h4, h5, h6⟩ := fields_u3 82 g.p g.neg 0 0 (fld6 tk.toNat) 0 (by decide) (by decide)
  obtain ⟨k1, k2, k3, k4⟩ := two_twos 0#2 tk
  have kt : 4 * (0#2).toNat + tk.toNat = tk.toNat := by simp
  rw [kt] at k1 k2 k3 k4
  have k0 : (fld6 (tk.toNat)).toNat < 4 := by have := k2; simp only [BitVec.toNat_ofNat] at this; omega
  rw [h0]; unfold decodeUniform
  simp only [h1, h2, h3, h4, h5, h6, k0, k2, k3]
  all_goals (rfl)

theorem RoundTrip.tkstat (g : Guard) (sd : Reg) (tk : BitVec 2) (c : BitVec 2) : RoundTrip.Statement (.tkstat g sd tk c) := by
  intro w hw he
  have he : some (packU3 83 g.p g.neg sd 0 (fld6 (4 * c.toNat + tk.toNat)) 0) = some w := he
  rw [← Option.some.inj he]
  obtain ⟨h0, h1, h2, h3, h4, h5, h6⟩ := fields_u3 83 g.p g.neg sd 0 (fld6 (4 * c.toNat + tk.toNat)) 0 (by decide) (by decide)
  obtain ⟨k1, k2, k3, k4⟩ := two_twos c tk
  rw [h0]; unfold decodeUniform
  simp only [h1, h2, h3, h4, h5, h6, k1, k3, k4]
  all_goals (rfl)

theorem RoundTrip.tkpoll (g : Guard) (sd : Reg) (tk : BitVec 2) : RoundTrip.Statement (.tkpoll g sd tk) := by
  intro w hw he
  have he : some (packU3 84 g.p g.neg sd 0 (fld6 (0 + tk.toNat)) 0) = some w := he
  rw [← Option.some.inj he]
  obtain ⟨h0, h1, h2, h3, h4, h5, h6⟩ := fields_u3 84 g.p g.neg sd 0 (fld6 (0 + tk.toNat)) 0 (by decide) (by decide)
  obtain ⟨k1, k2, k3, k4⟩ := two_twos 0#2 tk
  have kt : 4 * (0#2).toNat + tk.toNat = 0 + tk.toNat := by simp
  rw [kt] at k1 k2 k3 k4
  have k0 : (fld6 (0 + tk.toNat)).toNat < 4 := by have := k2; simp only [BitVec.toNat_ofNat] at this; omega
  rw [h0]; unfold decodeUniform
  simp only [h1, h2, h3, h4, h5, h6, k0, k2, k3]
  all_goals (rfl)

theorem RoundTrip.tkpollC (g : Guard) (sd : Reg) (tk : BitVec 2) : RoundTrip.Statement (.tkpollC g sd tk) := by
  intro w hw he
  have he : some (packU3 84 g.p g.neg sd 0 (fld6 (4 + tk.toNat)) 0) = some w := he
  rw [← Option.some.inj he]
  obtain ⟨h0, h1, h2, h3, h4, h5, h6⟩ := fields_u3 84 g.p g.neg sd 0 (fld6 (4 + tk.toNat)) 0 (by decide) (by decide)
  obtain ⟨k1, k2, k3, k4⟩ := two_twos 1#2 tk
  have kt : 4 * (1#2).toNat + tk.toNat = 4 + tk.toNat := by rfl
  rw [kt] at k1 k2 k3 k4
  rw [h0]; unfold decodeUniform
  simp only [h1, h2, h3, h4, h5, h6, k2, k3]
  all_goals (rfl)

theorem RoundTrip.tkemit (g : Guard) (sa : Reg) : RoundTrip.Statement (.tkemit g sa) := by
  intro w hw he
  have he : some (packU3 85 g.p g.neg 0 sa 0 0) = some w := he
  rw [← Option.some.inj he]
  obtain ⟨h0, h1, h2, h3, h4, h5, h6⟩ := fields_u3 85 g.p g.neg 0 sa 0 0 (by decide) (by decide)
  rw [h0]; unfold decodeUniform
  simp only [h1, h2, h3, h4, h5, h6]
  all_goals (rfl)

theorem RoundTrip.syscall (g : Guard) (sd : Reg) (sa : Reg) (n : BitVec 8) : RoundTrip.Statement (.syscall g sd sa n) := by
  intro w hw he
  have he : some (packUI 88 g.p g.neg sd sa n) = some w := he
  rw [← Option.some.inj he]
  obtain ⟨h0, h1, h2, h3, h4, h5⟩ := fields_ui 88 g.p g.neg sd sa n (by decide)
  rw [h0]; unfold decodeUniform
  simp only [h1, h2, h3, h4, h5]
  all_goals (rfl)

theorem RoundTrip.mcfg (shape : Shape) : RoundTrip.Statement (.mcfg shape) := by
  intro w hw he
  have he : some (packST 96 0 0 0 0 (BitVec.ofNat 4 shape.code)) = some w := he
  rw [← Option.some.inj he]
  obtain ⟨h0, h1, h2, h3, h4, h5, h6, h7⟩ := fields_st 96 0 0 0 0 (BitVec.ofNat 4 shape.code) (by decide)
  rw [h0]; unfold decodeUniform
  simp only [h1, h2, h3, h4, h5, h6, h7]
  all_goals (cases shape <;> rfl)

theorem RoundTrip.mwload (h : BitVec 5) (a : BitVec 2) : RoundTrip.Statement (.mwload h a) := by
  intro w hw he
  have he : some (packST 97 h 0 0 a 0) = some w := he
  rw [← Option.some.inj he]
  obtain ⟨h0, h1, h2, h3, h4, h5, h6, h7⟩ := fields_st 97 h 0 0 a 0 (by decide)
  rw [h0]; unfold decodeUniform
  simp only [h1, h2, h3, h4, h5, h6, h7]
  all_goals (rfl)

theorem RoundTrip.mmul (h : BitVec 5) (gr : BitVec 5) (m : BitVec 8) (a : BitVec 2) (fmt : MFmt) (ov : Bool) : RoundTrip.Statement (.mmul h gr m a fmt ov) := by
  intro w hw he
  have he : some (packST 98 h gr m a (BitVec.ofNat 4 (4 * fmt.code + ov.toNat))) = some w := he
  rw [← Option.some.inj he]
  obtain ⟨h0, h1, h2, h3, h4, h5, h6, h7⟩ := fields_st 98 h gr m a (BitVec.ofNat 4 (4 * fmt.code + ov.toNat)) (by decide)
  rw [h0]; unfold decodeUniform
  simp only [h1, h2, h3, h4, h5, h6, h7]
  all_goals (cases fmt <;> cases ov <;> rfl)

theorem RoundTrip.mstore (h : BitVec 5) (gr : BitVec 5) (r : BitVec 8) (c : Reg) : RoundTrip.Statement (.mstore h gr r c) := by
  intro w hw he
  have he : some (packST 99 h gr r (BitVec.ofNat 2 (c.toNat / 16)) (BitVec.ofNat 4 c.toNat)) = some w := he
  rw [← Option.some.inj he]
  obtain ⟨h0, h1, h2, h3, h4, h5, h6, h7⟩ := fields_st 99 h gr r (BitVec.ofNat 2 (c.toNat / 16)) (BitVec.ofNat 4 c.toNat) (by decide)
  have k1 := col6 c
  rw [h0]; unfold decodeUniform
  simp only [h1, h2, h3, h4, h5, h6, h7, k1]
  all_goals (rfl)

theorem RoundTrip.mbarw (nb : BitVec 4) (e : BitVec 9) : RoundTrip.Statement (.mbarw nb e) := by
  intro w hw he
  have he : some (packSB 100 nb e 0) = some w := he
  rw [← Option.some.inj he]
  obtain ⟨h0, h1, h2, h3, h4⟩ := fields_sb 100 nb e 0 (by decide) (by decide)
  rw [h0]; unfold decodeUniform
  simp only [h1, h2, h3, h4]
  all_goals (rfl)

theorem RoundTrip.mbara (nb : BitVec 4) (e : BitVec 9) : RoundTrip.Statement (.mbara nb e) := by
  intro w hw he
  have he : some (packSB 101 nb e 0) = some w := he
  rw [← Option.some.inj he]
  obtain ⟨h0, h1, h2, h3, h4⟩ := fields_sb 101 nb e 0 (by decide) (by decide)
  rw [h0]; unfold decodeUniform
  simp only [h1, h2, h3, h4]
  all_goals (rfl)

theorem RoundTrip.mend : RoundTrip.Statement (.mend) := by
  intro w hw he
  have he : some (packST 102 0 0 0 0 0) = some w := he
  rw [← Option.some.inj he]
  obtain ⟨h0, h1, h2, h3, h4, h5, h6, h7⟩ := fields_st 102 0 0 0 0 0 (by decide)
  have k0 : (⟨packST 102 0 0 0 0 0⟩ : Fields).pay = 0 := by rw [h7]; simp
  rw [h0]; unfold decodeUniform
  simp only [h1, k0]; rfl

theorem RoundTrip.ccpyPlain (s : BitVec 5) (d : BitVec 5) (r : BitVec 8) : RoundTrip.Statement (.ccpyPlain s d r) := by
  intro w hw he
  have he : some (packST 104 s d r 0 0) = some w := he
  rw [← Option.some.inj he]
  obtain ⟨h0, h1, h2, h3, h4, h5, h6, h7⟩ := fields_st 104 s d r 0 0 (by decide)
  rw [h0]; unfold decodeUniform
  simp only [h1, h2, h3, h4, h5, h6, h7]
  all_goals (rfl)

theorem RoundTrip.ccpyCvt (s : BitVec 5) (d : BitVec 5) (r : BitVec 8) (hs : BitVec 3) : RoundTrip.Statement (.ccpyCvt s d r hs) := by
  intro w hw he
  have he : some (packST 104 s d r 1 (BitVec.ofNat 4 (2 * hs.toNat))) = some w := he
  rw [← Option.some.inj he]
  obtain ⟨h0, h1, h2, h3, h4, h5, h6, h7⟩ := fields_st 104 s d r 1 (BitVec.ofNat 4 (2 * hs.toNat)) (by decide)
  obtain ⟨k1, k2⟩ := cvt_hs hs
  rw [h0]; unfold decodeUniform
  simp only [h1, h2, h3, h4, h5, h6, h7, k1, k2]
  all_goals (rfl)

theorem RoundTrip.cbar (nb : BitVec 4) (e : BitVec 9) : RoundTrip.Statement (.cbar nb e) := by
  intro w hw he
  have he : some (packSB 105 nb e 0) = some w := he
  rw [← Option.some.inj he]
  obtain ⟨h0, h1, h2, h3, h4⟩ := fields_sb 105 nb e 0 (by decide) (by decide)
  rw [h0]; unfold decodeUniform
  simp only [h1, h2, h3, h4]
  all_goals (rfl)

theorem RoundTrip.cbarW (nb : BitVec 4) (e : BitVec 9) : RoundTrip.Statement (.cbarW nb e) := by
  intro w hw he
  have he : some (packSB 105 nb e 1024) = some w := he
  rw [← Option.some.inj he]
  obtain ⟨h0, h1, h2, h3, h4⟩ := fields_sb 105 nb e 1024 (by decide) (by decide)
  rw [h0]; unfold decodeUniform
  simp only [h1, h2, h3, h4]
  all_goals (rfl)

theorem RoundTrip.cend : RoundTrip.Statement (.cend) := by
  intro w hw he
  have he : some (packST 106 0 0 0 0 0) = some w := he
  rw [← Option.some.inj he]
  obtain ⟨h0, h1, h2, h3, h4, h5, h6, h7⟩ := fields_st 106 0 0 0 0 0 (by decide)
  have k0 : (⟨packST 106 0 0 0 0 0⟩ : Fields).pay = 0 := by rw [h7]; simp
  rw [h0]; unfold decodeUniform
  simp only [h1, k0]; rfl

theorem RoundTrip.spillRefill (w : Nat) : RoundTrip.Statement (.spillRefill w) := fun _ _ h => nomatch h

theorem RoundTrip.flagOperationComplete (w : Nat) (tag : Nat) : RoundTrip.Statement (.flagOperationComplete w tag) := fun _ _ h => nomatch h

theorem RoundTrip.twaitWake (w : Nat) : RoundTrip.Statement (.twaitWake w) := fun _ _ h => nomatch h

theorem RoundTrip.cpyAccept (c : Nat) : RoundTrip.Statement (.cpyAccept c) := fun _ _ h => nomatch h

theorem RoundTrip.copyPerformed (c : Nat) (tag : Nat) : RoundTrip.Statement (.copyPerformed c tag) := fun _ _ h => nomatch h

theorem RoundTrip.acallocGrant (c : Nat) : RoundTrip.Statement (.acallocGrant c) := fun _ _ h => nomatch h

theorem RoundTrip.acallocDeadlockFail (c : Nat) : RoundTrip.Statement (.acallocDeadlockFail c) := fun _ _ h => nomatch h

theorem RoundTrip.granuleReturn (c : Nat) (g : Nat) : RoundTrip.Statement (.granuleReturn c g) := fun _ _ h => nomatch h

theorem RoundTrip.heapAllocatorServe (n : Nat) : RoundTrip.Statement (.heapAllocatorServe n) := fun _ _ h => nomatch h

theorem RoundTrip.mailboxPacket (n : Nat) : RoundTrip.Statement (.mailboxPacket n) := fun _ _ h => nomatch h

theorem RoundTrip.mcfgApply (c : Nat) : RoundTrip.Statement (.mcfgApply c) := fun _ _ h => nomatch h

theorem RoundTrip.mmulRowEnter (c : Nat) (tag : Nat) : RoundTrip.Statement (.mmulRowEnter c tag) := fun _ _ h => nomatch h

theorem RoundTrip.mmulRowWrite (c : Nat) (tag : Nat) : RoundTrip.Statement (.mmulRowWrite c tag) := fun _ _ h => nomatch h

theorem RoundTrip.tileFetch (c : Nat) (tag : Nat) : RoundTrip.Statement (.tileFetch c tag) := fun _ _ h => nomatch h

theorem RoundTrip.invalComplete (d : Nat) : RoundTrip.Statement (.invalComplete d) := fun _ _ h => nomatch h

theorem RoundTrip.snapshotLatch (d : Nat) : RoundTrip.Statement (.snapshotLatch d) := fun _ _ h => nomatch h

theorem RoundTrip.gatingBegin (c : Nat) : RoundTrip.Statement (.gatingBegin c) := fun _ _ h => nomatch h

theorem RoundTrip.gatingEnd (c : Nat) : RoundTrip.Statement (.gatingEnd c) := fun _ _ h => nomatch h

theorem RoundTrip.wakeEnd (c : Nat) : RoundTrip.Statement (.wakeEnd c) := fun _ _ h => nomatch h

theorem RoundTrip.launchAccept (part : Nat) (queue : Nat) : RoundTrip.Statement (.launchAccept part queue) := fun _ _ h => nomatch h

theorem RoundTrip.launchBeginDispatch (l : Nat) : RoundTrip.Statement (.launchBeginDispatch l) := fun _ _ h => nomatch h

theorem RoundTrip.dependenceRecheck (l : Nat) : RoundTrip.Statement (.dependenceRecheck l) := fun _ _ h => nomatch h

theorem RoundTrip.ticketClaim (d : Nat) (l : Nat) : RoundTrip.Statement (.ticketClaim d l) := fun _ _ h => nomatch h

theorem RoundTrip.blockPlace (d : Nat) (l : Nat) : RoundTrip.Statement (.blockPlace d l) := fun _ _ h => nomatch h

theorem RoundTrip.timedStart (blk : Nat) : RoundTrip.Statement (.timedStart blk) := fun _ _ h => nomatch h

theorem RoundTrip.gangReserve (l : Nat) : RoundTrip.Statement (.gangReserve l) := fun _ _ h => nomatch h

theorem RoundTrip.gangStart (l : Nat) : RoundTrip.Statement (.gangStart l) := fun _ _ h => nomatch h

theorem RoundTrip.blockEnd (blk : Nat) : RoundTrip.Statement (.blockEnd blk) := fun _ _ h => nomatch h

theorem RoundTrip.blockSave (blk : Nat) : RoundTrip.Statement (.blockSave blk) := fun _ _ h => nomatch h

theorem RoundTrip.blockResume (d : Nat) : RoundTrip.Statement (.blockResume d) := fun _ _ h => nomatch h

theorem RoundTrip.spillReinject (site : Nat) : RoundTrip.Statement (.spillReinject site) := fun _ _ h => nomatch h

theorem RoundTrip.packetForward (site : Nat) : RoundTrip.Statement (.packetForward site) := fun _ _ h => nomatch h

theorem RoundTrip.treeRelease (part : Nat) (tb : Nat) : RoundTrip.Statement (.treeRelease part tb) := fun _ _ h => nomatch h

theorem RoundTrip.droopDecay (r : Nat) : RoundTrip.Statement (.droopDecay r) := fun _ _ h => nomatch h

theorem RoundTrip.onsetInterval (r : Nat) : RoundTrip.Statement (.onsetInterval r) := fun _ _ h => nomatch h

theorem RoundTrip.islandRampDone (c : Nat) (i : Nat) : RoundTrip.Statement (.islandRampDone c i) := fun _ _ h => nomatch h

theorem RoundTrip.hemArrival (n : Nat) (lost : Bool) : RoundTrip.Statement (.hemArrival n lost) := fun _ _ h => nomatch h

theorem RoundTrip.automatonStep (d : Nat) (n : Nat) : RoundTrip.Statement (.automatonStep d n) := fun _ _ h => nomatch h

theorem RoundTrip.timerExpiry (d : Nat) (n : Nat) (m : Nat) : RoundTrip.Statement (.timerExpiry d n m) := fun _ _ h => nomatch h

theorem RoundTrip.stopDelivery (n : Nat) : RoundTrip.Statement (.stopDelivery n) := fun _ _ h => nomatch h

theorem RoundTrip.stopRecordWrite (n : Nat) : RoundTrip.Statement (.stopRecordWrite n) := fun _ _ h => nomatch h

theorem RoundTrip.resultWritten (w : Nat) (tag : Nat) : RoundTrip.Statement (.resultWritten w tag) := fun _ _ h => nomatch h

theorem RoundTrip.accumulatorPortDone (c : Nat) : RoundTrip.Statement (.accumulatorPortDone c) := fun _ _ h => nomatch h

theorem RoundTrip.illegalEncoding (word : Word) : RoundTrip.Statement (.illegalEncoding word) := fun _ _ h => nomatch h

theorem RoundTrip.illFormedStreamWord (word : Word) : RoundTrip.Statement (.illFormedStreamWord word) := fun _ _ h => nomatch h

theorem RoundTrip.syscallAnswer (d : Nat) (tag : Nat) (answer : Word) : RoundTrip.Statement (.syscallAnswer d tag answer) := fun _ _ h => nomatch h

theorem RoundTrip.warpSwap (core : Nat) (out : Nat) : RoundTrip.Statement (.warpSwap core out) := fun _ _ h => nomatch h

theorem RoundTrip.starvationGuard (w : Nat) : RoundTrip.Statement (.starvationGuard w) := fun _ _ h => nomatch h

theorem RoundTrip.loadCapWindow (core : Nat) : RoundTrip.Statement (.loadCapWindow core) := fun _ _ h => nomatch h

theorem RoundTrip.l1ReleaseDrain (core : Nat) : RoundTrip.Statement (.l1ReleaseDrain core) := fun _ _ h => nomatch h

theorem RoundTrip.lineExpiry (rdc : Bool) (unit : Nat) (line : Nat) : RoundTrip.Statement (.lineExpiry rdc unit line) := fun _ _ h => nomatch h

theorem RoundTrip.dirtyWritebackTimeout (rdc : Bool) (unit : Nat) : RoundTrip.Statement (.dirtyWritebackTimeout rdc unit) := fun _ _ h => nomatch h

theorem RoundTrip.rdcFill (d : Nat) (line : Nat) : RoundTrip.Statement (.rdcFill d line) := fun _ _ h => nomatch h

theorem RoundTrip.rdcReleaseComplete (d : Nat) : RoundTrip.Statement (.rdcReleaseComplete d) := fun _ _ h => nomatch h

theorem RoundTrip.rdcAcquireComplete (d : Nat) : RoundTrip.Statement (.rdcAcquireComplete d) := fun _ _ h => nomatch h

theorem RoundTrip.homeWrite (d : Nat) (pa : Nat) (bytes : List Byte) : RoundTrip.Statement (.homeWrite d pa bytes) := fun _ _ h => nomatch h

theorem RoundTrip.homeAtomic (d : Nat) (pa : Nat) (wide : Bool) (op : AtomOp) (a : DWord) (b : DWord) : RoundTrip.Statement (.homeAtomic d pa wide op a b) := fun _ _ h => nomatch h

theorem RoundTrip.hostCxlMemAccess (port : Nat) (pa : Nat) (access : HostAccess) : RoundTrip.Statement (.hostCxlMemAccess port pa access) := fun _ _ h => nomatch h

theorem RoundTrip.cxlSnoop (line : Nat) : RoundTrip.Statement (.cxlSnoop line) := fun _ _ h => nomatch h

theorem RoundTrip.translationWalk (walker : Walker) (va : Addr) (kind : AccKind) : RoundTrip.Statement (.translationWalk walker va kind) := fun _ _ h => nomatch h

theorem RoundTrip.resolve (d : Page) (word : DWord) : RoundTrip.Statement (.resolve d word) := fun _ _ h => nomatch h

theorem RoundTrip.fqrpWrite (d : Page) (v : DWord) : RoundTrip.Statement (.fqrpWrite d v) := fun _ _ h => nomatch h

theorem RoundTrip.fqWrite (d : Page) (v : DWord) : RoundTrip.Statement (.fqWrite d v) := fun _ _ h => nomatch h

theorem RoundTrip.inval (d : Page) (v : DWord) : RoundTrip.Statement (.inval d v) := fun _ _ h => nomatch h

theorem RoundTrip.cstepWrite (d : Page) (v : DWord) : RoundTrip.Statement (.cstepWrite d v) := fun _ _ h => nomatch h

theorem RoundTrip.counterClear (d : Page) (ctl : Word) : RoundTrip.Statement (.counterClear d ctl) := fun _ _ h => nomatch h

theorem RoundTrip.counterConfigure (d : Page) (ctl : Word) : RoundTrip.Statement (.counterConfigure d ctl) := fun _ _ h => nomatch h

theorem RoundTrip.sketchFreeze (d : Page) (v : DWord) : RoundTrip.Statement (.sketchFreeze d v) := fun _ _ h => nomatch h

theorem RoundTrip.sketchClear (d : Page) (v : DWord) : RoundTrip.Statement (.sketchClear d v) := fun _ _ h => nomatch h

theorem RoundTrip.stoppedWarpResume (d : Page) (v : DWord) : RoundTrip.Statement (.stoppedWarpResume d v) := fun _ _ h => nomatch h

theorem RoundTrip.dieResumeAll (d : Page) : RoundTrip.Statement (.dieResumeAll d) := fun _ _ h => nomatch h

theorem RoundTrip.traceRingSetup (d : Page) (v : DWord) : RoundTrip.Statement (.traceRingSetup d v) := fun _ _ h => nomatch h

theorem RoundTrip.controlPageWrite (d : Page) (off : Nat) (v : DWord) : RoundTrip.Statement (.controlPageWrite d off v) := fun _ _ h => nomatch h

theorem RoundTrip.stallSample (core : Nat) (pos : Nat) : RoundTrip.Statement (.stallSample core pos) := fun _ _ h => nomatch h

theorem RoundTrip.preempt (d : Nat) (l : Nat) : RoundTrip.Statement (.preempt d l) := fun _ _ h => nomatch h

theorem RoundTrip.correctableError (d : Nat) (what : Nat) : RoundTrip.Statement (.correctableError d what) := fun _ _ h => nomatch h

theorem RoundTrip.uncorrectableError (unit : Nat) (what : Nat) (pa : Nat) : RoundTrip.Statement (.uncorrectableError unit what pa) := fun _ _ h => nomatch h

theorem RoundTrip.flitReceive (site : Nat) (dir : Nat) (ok : Bool) : RoundTrip.Statement (.flitReceive site dir ok) := fun _ _ h => nomatch h

theorem RoundTrip.laneLockTimeout (site : Nat) (dir : Nat) : RoundTrip.Statement (.laneLockTimeout site dir) := fun _ _ h => nomatch h

theorem RoundTrip.timingExchange (base : Bool) (unit : Nat) (t1 : Int) (t2 : Int) (t3 : Int) (t4 : Int) : RoundTrip.Statement (.timingExchange base unit t1 t2 t3 t4) := fun _ _ h => nomatch h

theorem RoundTrip.tickSlew (base : Bool) (unit : Nat) : RoundTrip.Statement (.tickSlew base unit) := fun _ _ h => nomatch h

theorem RoundTrip.ptpMessage (port : Nat) (m : PtpMsg) : RoundTrip.Statement (.ptpMessage port m) := fun _ _ h => nomatch h

theorem RoundTrip.spanFrame (port : Nat) (at_ : Nat) (io : SpanIo) : RoundTrip.Statement (.spanFrame port at_ io) := fun _ _ h => nomatch h

theorem RoundTrip.envelopeMeasure (watts : Nat) : RoundTrip.Statement (.envelopeMeasure watts) := fun _ _ h => nomatch h

theorem RoundTrip.droopAlarm (r : Nat) : RoundTrip.Statement (.droopAlarm r) := fun _ _ h => nomatch h

theorem RoundTrip.slackDwellEnd (p : Nat) : RoundTrip.Statement (.slackDwellEnd p) := fun _ _ h => nomatch h

theorem RoundTrip.islandWindowEnd (d : Nat) (clu : Nat) (i : Nat) (n : Nat) : RoundTrip.Statement (.islandWindowEnd d clu i n) := fun _ _ h => nomatch h

theorem RoundTrip.islandIdle (c : Nat) (i : Nat) : RoundTrip.Statement (.islandIdle c i) := fun _ _ h => nomatch h

theorem RoundTrip.panelReset (signed : Bool) : RoundTrip.Statement (.panelReset signed) := fun _ _ h => nomatch h

theorem RoundTrip.lifeCycleChange (phase : Nat) : RoundTrip.Statement (.lifeCycleChange phase) := fun _ _ h => nomatch h

theorem RoundTrip.regionAssign (r : Nat) (part : Option Joining) (limit : Nat) (troot : Addr) (capbase : Addr) (listAt : Nat) (queues : Addr) (ports : List (Nat × Nat)) : RoundTrip.Statement (.regionAssign r part limit troot capbase listAt queues ports) := fun _ _ h => nomatch h

theorem RoundTrip.supervisorFailover : RoundTrip.Statement (.supervisorFailover) := fun _ _ h => nomatch h

theorem RoundTrip.attestationRequest (part : Nat) (nonce : BitVec 256) : RoundTrip.Statement (.attestationRequest part nonce) := fun _ _ h => nomatch h

theorem RoundTrip.laneLockLost (site : Nat) (dir : Nat) : RoundTrip.Statement (.laneLockLost site dir) := fun _ _ h => nomatch h

theorem RoundTrip.laneLockRegained (site : Nat) (dir : Nat) : RoundTrip.Statement (.laneLockRegained site dir) := fun _ _ h => nomatch h

end Sys2Proof.Laws
end

