-- ==== Sys2Proof/Laws/Registers.lean ====
section
/-!
SUPPORT. Registers, predicates, masks and the scoreboard: what each read gives after each write.
-/
namespace Sys2Proof.Machine
set_option Elab.async false

/-! ## Masks and lanes -/

theorem mem_lanesOf {m : Mask} {l : Nat} : l ∈ lanesOf m ↔ l < 16 ∧ m.getLsbD l = true := by
  simp [lanesOf, lanes, List.mem_filter, List.mem_range]
theorem lanesOf_nodup (m : Mask) : (lanesOf m).Nodup := (List.nodup_range).filter _

theorem maskOf_fold (f : Nat → Bool) (l : Nat) (hl : l < 16) : ∀ (L : List Nat) (m : Mask), (∀ x ∈ L, x < 16) →
    (L.foldl (fun m i => if f i then m ||| (1#16 <<< i) else m) m).getLsbD l = (m.getLsbD l || (L.contains l && f l))
  | [], m, _ => by simp
  | x :: L, m, h => by
    have hx := h x (by simp)
    rw [List.foldl_cons, maskOf_fold f l hl L _ (fun y hy => h y (by simp [hy]))]
    by_cases e : l = x
    · subst e
      by_cases hf : f l
      · simp [hf, hl]
      · simp [hf]
    · have e' : (l == x) = false := by simpa using e
      have e1 : (1#16 <<< x).getLsbD l = false := by
        rw [BitVec.getLsbD_shiftLeft]
        by_cases hlx : l < x
        · simp [hlx]
        · simp [hl, hlx]; omega
      by_cases hf : f x
      · simp [hf, e1, e]
      · simp [hf, e]

/-- A mask built from a test has the bits of the test. -/
theorem getLsbD_maskOf (f : Nat → Bool) {l : Nat} (hl : l < 16) : (maskOf f).getLsbD l = f l := by
  unfold maskOf lanes
  rw [maskOf_fold f l hl _ _ (fun x hx => List.mem_range.mp hx)]
  simp [List.mem_range.mpr hl]

theorem mask_eq_zero_iff (m : Mask) : m = 0 ↔ ∀ l < 16, m.getLsbD l = false := by
  constructor
  · rintro rfl l _; simp
  · intro h; apply BitVec.eq_of_getLsbD_eq; intro l hl; simp [h l hl]

/-! ## Lane registers -/

theorem setV_fold (r : Nat) (f : Nat → Word) (a : Nat) : ∀ (L : List Nat) (t : Tbl Word), L.Nodup →
    Tbl.get 0 (L.foldl (fun t i => t.set 0 (16 * r + i) (f i)) t) a =
      if ∃ i ∈ L, a = 16 * r + i then f (a - 16 * r) else Tbl.get 0 t a
  | [], t, _ => by simp
  | x :: L, t, h => by
    rw [List.foldl_cons, setV_fold r f a L _ (List.nodup_cons.mp h).2]
    by_cases e : ∃ i ∈ L, a = 16 * r + i
    · rw [if_pos e, if_pos]
      obtain ⟨i, hi, rfl⟩ := e
      exact ⟨i, by simp [hi], rfl⟩
    · rw [if_neg e, Tbl.get_set]
      by_cases ex : a = 16 * r + x
      · subst ex
        rw [if_pos rfl, if_pos ⟨x, by simp, rfl⟩]; congr 1; omega
      · rw [if_neg ex, if_neg]
        rintro ⟨i, hi, rfl⟩
        rcases List.mem_cons.mp hi with rfl | hi
        · exact ex rfl
        · exact e ⟨i, hi, rfl⟩

/-- A lane register after a write in the lanes of a mask. -/
theorem Warp.V_setV (w : Warp) (r : Nat) (m : Mask) (f : Nat → Word) (r' : Nat) {l : Nat} (hl : l < 16) :
    (w.setV r m f).V r' l = if r' = r ∧ m.getLsbD l = true then f l else w.V r' l := by
  unfold Warp.V Warp.setV
  rw [setV_fold r f _ _ _ (lanesOf_nodup m)]
  by_cases h : r' = r ∧ m.getLsbD l = true
  · obtain ⟨rfl, hm⟩ := h
    rw [if_pos ⟨l, mem_lanesOf.mpr ⟨hl, hm⟩, rfl⟩, if_pos ⟨rfl, hm⟩]; congr 1; omega
  · rw [if_neg h, if_neg]
    rintro ⟨i, hi, e⟩
    have hi := mem_lanesOf.mp hi
    apply h
    have : r' = r := by omega
    subst this
    have : l = i := by omega
    subst this
    exact ⟨rfl, hi.2⟩

/-- Everything that a write of lane registers leaves in the warp's record. -/
def Warp.withV (w : Warp) (t : Tbl Word) : Warp := { w with v := t }
theorem Warp.setV_eq (w : Warp) (r : Nat) (m : Mask) (f : Nat → Word) : w.setV r m f = w.withV (w.setV r m f).v := rfl
theorem Warp.setVP_eq (w : Warp) (r : Nat) (m : Mask) (f : Nat → DWord) : w.setVP r m f = w.withV (w.setVP r m f).v := rfl
theorem Warp.putV_eq (w : Warp) (t : Wd) (r : Reg) (m : Mask) (f : Nat → Nat) : w.putV t r m f = w.withV (w.putV t r m f).v := by
  cases t <;> rfl
theorem Warp.V_withV (w : Warp) (t : Tbl Word) (r l : Nat) : (w.withV t).V r l = Tbl.get 0 t (16 * r + l) := rfl

theorem pair_halves (x : DWord) : pair (loHalf x) (hiHalf x) = x := by
  unfold loHalf hiHalf pair
  apply BitVec.eq_of_getLsbD_eq
  intro i hi
  simp only [BitVec.getLsbD_append, BitVec.getLsbD_extractLsb']
  by_cases h : i < 32
  · simp [h]
  · simp only [h, decide_false]
    have : i - 32 < 32 := by omega
    simp [this]; congr 1; omega

/-- The destination of a lane word after the write, as a number. -/
theorem Warp.vNat_putV (w : Warp) (t : Wd) (r : Reg) (m : Mask) (f : Nat → Nat) {l : Nat} (hl : l < 16) (hm : m.getLsbD l = true) :
    (w.putV t r m f).vNat t r l = f l % 2 ^ wdBits t := by
  cases t
  · simp only [Warp.putV, Warp.vNat, Warp.V_setV _ _ _ _ _ hl, hm, and_self, if_true, BitVec.toNat_ofNat, wdBits]
  · simp only [Warp.putV, Warp.vNat, Warp.VP, Warp.setVP, Warp.V_setV _ _ _ _ _ hl, hm, and_true, if_true]
    rw [if_neg (by omega), pair_halves]
    simp only [BitVec.toNat_ofNat, wdBits]

/-- Every other register and lane after the write. -/
theorem Warp.V_putV_other (w : Warp) (t : Wd) (r : Reg) (m : Mask) (f : Nat → Nat) {r' l : Nat} (hl : l < 16)
    (h : ¬ Safety.hits m t r r' l) : (w.putV t r m f).V r' l = w.V r' l := by
  unfold Safety.hits at h
  cases t
  · simp only [Warp.putV, Warp.V_setV _ _ _ _ _ hl]
    rw [if_neg]; rintro ⟨rfl, hm⟩; exact h ⟨hm, .inl rfl⟩
  · simp only [Warp.putV, Warp.setVP, Warp.V_setV _ _ _ _ _ hl]
    rw [if_neg, if_neg]
    · rintro ⟨rfl, hm⟩; exact h ⟨hm, .inl rfl⟩
    · rintro ⟨rfl, hm⟩; exact h ⟨hm, .inr ⟨rfl, rfl⟩⟩

/-! ## Predicates -/

@[simp] theorem Warp.P_seven (w : Warp) : w.P 7 = BitVec.allOnes 16 := rfl
/-- A lane predicate after a write; p7 discards (R13). -/
theorem Warp.P_setP (w : Warp) (p : Nat) (m x : Mask) (n : Nat) :
    (w.setP p m x).P n = if n = p ∧ p ≠ 7 then (w.P p &&& ~~~m) ||| (x &&& m) else w.P n := by
  unfold Warp.setP
  by_cases h : p = 7
  · simp [h]
  · simp only [h, if_false, ne_eq, not_false_eq_true, and_true]
    unfold Warp.P
    by_cases hn : n = 7
    · have : ¬ (n = p) := fun e => h (e ▸ hn)
      simp only [hn, if_true]; rw [if_neg fun e => h e.symm]
    · simp only [hn, if_false, Tbl.get_set, h]

/-! ## Uniform registers -/

theorem Warp.S_setS (w : Warp) (r : Nat) (x : Word) (r' : Nat) : (w.setS r x).S r' = if r' = r then x else w.S r' := by
  unfold Warp.S Warp.setS; exact Tbl.get_set _ _ _ _ _
theorem Warp.sNat_putS (w : Warp) (t : Wd) (r : Reg) (x : Nat) : (w.putS t r x).sNat t r = x % 2 ^ wdBits t := by
  cases t
  · simp [Warp.putS, Warp.sNat, Warp.S_setS, wdBits]
  · simp only [Warp.putS, Warp.sNat, Warp.SP, Warp.setSP, Warp.S_setS, if_true]
    rw [if_neg (by omega), pair_halves]; simp [wdBits]
theorem Warp.S_putS_other (w : Warp) (t : Wd) (r : Reg) (x : Nat) {r' : Nat} (h : ¬ (r' = r.toNat ∨ (t = .w64 ∧ r' = r.toNat + 1))) :
    (w.putS t r x).S r' = w.S r' := by
  cases t
  · simp only [Warp.putS, Warp.S_setS]; rw [if_neg]; exact fun e => h (.inl e)
  · simp only [Warp.putS, Warp.setSP, Warp.S_setS]; rw [if_neg, if_neg]
    · exact fun e => h (.inl e)
    · exact fun e => h (.inr ⟨rfl, e⟩)

/-! ## The scoreboard -/

theorem Warp.blocked_addOp (w : Warp) (regs : List RegRef) (flag : Option Nat) (kind : PendKind) (a b c d : Bool) (m : Mask) (r : RegRef) :
    (w.addOp regs flag kind a b c d m).blocked [r] = (w.blocked [r] || (regs.contains r && r.kept)) := by
  unfold Warp.addOp Warp.blocked
  simp only [List.any_append, List.any_cons, List.any_nil, Bool.or_false]
  congr 1
  rw [Bool.eq_iff_iff]
  simp only [List.any_eq_true, List.mem_filter, List.contains_eq_mem, List.mem_singleton, decide_eq_true_eq, Bool.and_eq_true]
  constructor
  · rintro ⟨x, ⟨h1, h2⟩, rfl⟩; exact ⟨h1, h2⟩
  · rintro ⟨h1, h2⟩; exact ⟨r, ⟨h1, h2⟩, rfl⟩

end Sys2Proof.Machine
end

