-- ==== Sys2Proof/Laws/Words.lean ====
section
/-!
SUPPORT. The shapes of warp words: the gates open under the conditions that Safety names, and a lane word, a predicate word
or a uniform word leaves exactly what Safety's LaneWrote, PredWrote and UniWrote say.
-/
namespace Sys2Proof.Safety
set_option Elab.async false
open Sys2Proof.Machine

/-! ## The gates -/

theorem word_runs {s : State} {p : Path} {c : Clause} {regs : List RegRef} (h : Issues s p c regs) (body : Path → Clause → State) :
    s.word regs body = body p c := by
  simp [State.word, h.path, h.clause, h.free, h.calm]
theorem laneBound_runs {s : State} {p : Path} {c : Clause} {g : Guard} {regs : List RegRef} (h : LaneIssues s p c g regs) (i : Instr)
    (bad : Bool) (hb : bad = false ∨ s.w.admitted p g = 0) (body : Path → Mask → State) :
    s.laneBound i g regs false bad body = body p (s.w.admitted p g) := by
  unfold State.laneBound
  rw [word_runs h.issues]
  rcases hb with e | e <;> simp [e, h.whole]
theorem laneChecked_runs {s : State} {p : Path} {c : Clause} {g : Guard} {regs : List RegRef} (h : LaneIssues s p c g regs) (i : Instr)
    (bad : Bool) (hb : bad = false ∨ s.w.admitted p g = 0) (body : Path → Mask → State) :
    s.laneChecked i g regs bad body = body p (s.w.admitted p g) := laneBound_runs h i bad hb body
theorem laneWord_runs {s : State} {p : Path} {c : Clause} {g : Guard} {regs : List RegRef} (h : LaneIssues s p c g regs) (i : Instr)
    (body : Path → Mask → State) : s.laneWord i g regs body = body p (s.w.admitted p g) := laneChecked_runs h i false (.inl rfl) body
theorem plainWord_runs {s : State} {p : Path} {c : Clause} {regs : List RegRef} (h : Issues s p c regs) (body : Path → Mask → State) :
    s.plainWord regs body = body p (unguarded s p) := by unfold State.plainWord; rw [word_runs h]; rfl
theorem uniWord_runs {s : State} {p : Path} {c : Clause} {g : Guard} {regs : List RegRef} (h : UniIssues s p c g regs)
    (body : Path → State) : s.uniWord g regs body = body p := by
  unfold State.uniWord; rw [word_runs h.issues]; simp [h.passes]
theorem ctlWord_runs {s : State} {p : Path} {c : Clause} {g : Guard} {regs : List RegRef} (h : EndIssues s p c g regs) (i : Instr)
    (body : Path → State) : s.ctlWord i g regs body = body p := by
  unfold State.ctlWord; rw [word_runs h.uni.issues]; simp [h.uni.passes, h.last]

/-! ## Going on -/

/-- Two records agree in what the next word of a path depends on. -/
structure SamePath (w v : Warp) : Prop where
  a : v.a = w.a
  b : v.b = w.b
  cur : v.cur = w.cur
  loops : v.loops = w.loops
  depth : v.depth = w.depth

theorem endTest_same : ∀ (n : Nat) {w v : Warp} (_ : SamePath w v) (last : Addr), (v.endTest last n).1 = (w.endTest last n).1 ∧
    SamePath (w.endTest last n).2 (v.endTest last n).2
  | 0, _, _, h, _ => ⟨rfl, h⟩
  | n + 1, w, v, h, last => by
    unfold Warp.endTest
    simp only [h.depth, h.loops]
    split
    · exact ⟨rfl, h⟩
    · split
      · exact ⟨rfl, h⟩
      · split
        · refine ⟨rfl, ?_⟩
          constructor <;> first | rfl | exact h.a | exact h.b | exact h.cur
        · apply endTest_same n
          constructor <;> first | rfl | exact h.a | exact h.b | exact h.cur

/-- The fields that going on to the next word leaves alone. -/
structure Onward (w v : Warp) : Prop where
  regs : v.v = w.v
  preds : v.p = w.p
  uniform : v.s = w.s
  upreds : v.q = w.q
  flags : v.f = w.f
  pend : v.pend = w.pend
  cnt : v.cnt = w.cnt
  stalled : v.stalled = w.stalled
  bare : bare v = bare w

theorem Onward.refl (w : Warp) : Onward w w := ⟨rfl, rfl, rfl, rfl, rfl, rfl, rfl, rfl, rfl⟩
theorem Onward.trans {a b c : Warp} (h : Onward a b) (k : Onward b c) : Onward a c :=
  ⟨k.regs.trans h.regs, k.preds.trans h.preds, k.uniform.trans h.uniform, k.upreds.trans h.upreds, k.flags.trans h.flags,
   k.pend.trans h.pend, k.cnt.trans h.cnt, k.stalled.trans h.stalled, k.bare.trans h.bare⟩
theorem onward_setPath (w : Warp) (p : Option Path) : Onward w (w.setPath p) := by
  unfold Warp.setPath; split <;> exact ⟨rfl, rfl, rfl, rfl, rfl, rfl, rfl, rfl, rfl⟩
theorem onward_endTest : ∀ (n : Nat) (w : Warp) (last : Addr), Onward w (w.endTest last n).2
  | 0, w, _ => Onward.refl w
  | n + 1, w, last => by
    unfold Warp.endTest
    simp only []
    split
    · exact Onward.refl w
    · split
      · exact Onward.refl w
      · split
        · exact ⟨rfl, rfl, rfl, rfl, rfl, rfl, rfl, rfl, rfl⟩
        · refine Onward.trans ?_ (onward_endTest n _ last)
          exact ⟨rfl, rfl, rfl, rfl, rfl, rfl, rfl, rfl, rfl⟩
theorem onward_advance (w : Warp) : Onward w w.advance := by
  unfold Warp.advance
  split
  · exact Onward.refl w
  · split
    · exact Onward.refl w
    · split
      · exact (onward_endTest _ _ _).trans (onward_setPath _ _)
      · exact onward_setPath _ _

theorem samePath_setPath {w v : Warp} (h : SamePath w v) (p : Option Path) : SamePath (w.setPath p) (v.setPath p) := by
  unfold Warp.setPath; rw [h.cur]; split
  · exact ⟨h.a, rfl, rfl, h.loops, h.depth⟩
  · exact ⟨rfl, h.b, rfl, h.loops, h.depth⟩
theorem path_same {w v : Warp} (h : SamePath w v) : v.path = w.path := by unfold Warp.path; rw [h.cur, h.a, h.b]
theorem advance_same {w v : Warp} (h : SamePath w v) : SamePath w.advance v.advance := by
  unfold Warp.advance
  rw [path_same h]
  split
  · exact h
  · split
    · exact h
    · split
      · have e := endTest_same 4 h (by assumption : Path).pc
        simp only [e.1]
        exact samePath_setPath e.2 _
      · exact samePath_setPath h _

/-- What `done` leaves of a warp's record that a word has changed to `f s.w`. -/
structure Ended (w v : Warp) : Prop where
  regs : v.v = w.v
  preds : v.p = w.p
  uniform : v.s = w.s
  upreds : v.q = w.q
  flags : v.f = w.f
  pend : v.pend = w.pend
  bare : bare v = bare w

/-- A word that has changed the warp's record by `f` and goes on. -/
theorem done_spec (s : State) (f : Warp → Warp) (lane : Bool) (same : SamePath s.w (f s.w)) (hc : (f s.w).cnt = s.w.cnt)
    (hb : (f s.w).blk = s.w.blk) : Went s ((s.onW f).done lane) ∧ Ended (f s.w) ((s.onW f).done lane).w := by
  obtain ⟨h1, h2, h3⟩ := counted_spec (s.onW f) lane
  rw [State.onW_w] at h2 h3
  have o := onward_advance ((s.onW f).counted lane).w
  have sp : SamePath s.w ((s.onW f).counted lane).w :=
    ⟨h3.pathA.trans same.a, h3.pathB.trans same.b, h3.cur.trans same.cur, h3.loops.trans same.loops, h3.depth.trans same.depth⟩
  have a := advance_same sp
  have ed : ((s.onW f).done lane).w = ((s.onW f).counted lane).w.advance := by rw [State.done, State.onW_w]
  refine ⟨⟨(Quiet.ofOnW f h1).onW _, ?_, ?_, ?_, ?_, ?_, ?_, ?_⟩, ?_⟩
  · rw [hb] at h2
    show (State.blk (((s.onW f).counted lane).onW Warp.advance) s.w.blk).begun = true
    rw [State.onW_blk]; exact h2
  all_goals rw [ed]
  · exact a.a
  · exact a.b
  · exact a.loops
  · exact a.depth
  · exact o.cnt.trans (h3.count.trans (by rw [hc]))
  · exact o.stalled.trans h3.going
  · exact ⟨o.regs.trans h3.regs, o.preds.trans h3.preds, o.uniform.trans h3.uniform, o.upreds.trans h3.upreds,
      o.flags.trans h3.flags, o.pend.trans h3.pend, o.bare.trans h3.bare⟩

/-! ## Words that write one destination -/

theorem blocked_of_pend {w v : Warp} (h : v.pend = w.pend) (r : List RegRef) : v.blocked r = w.blocked r := by
  unfold Warp.blocked; rw [h]
theorem V_of_v {w v : Warp} (h : v.v = w.v) (r l : Nat) : v.V r l = w.V r l := by unfold Warp.V; rw [h]
theorem P_of_p {w v : Warp} (h : v.p = w.p) (n : Nat) : v.P n = w.P n := by unfold Warp.P; rw [h]
theorem S_of_s {w v : Warp} (h : v.s = w.s) (n : Nat) : v.S n = w.S n := by unfold Warp.S; rw [h]
theorem vNat_of_v {w v : Warp} (h : v.v = w.v) (t : Wd) (r : Reg) (l : Nat) : v.vNat t r l = w.vNat t r l := by
  cases t
  · simp only [Warp.vNat, V_of_v h]
  · simp only [Warp.vNat, Warp.VP, V_of_v h]
theorem sNat_of_s {w v : Warp} (h : v.s = w.s) (t : Wd) (r : Reg) : v.sNat t r = w.sNat t r := by
  cases t
  · simp only [Warp.sNat, S_of_s h]
  · simp only [Warp.sNat, Warp.SP, S_of_s h]

/-- A word with no active lane, or whose guard fails, only goes on. -/
theorem done_passed (s : State) (lane : Bool) : Went s (s.done lane) ∧ Ended s.w (s.done lane).w :=
  done_spec s id lane ⟨rfl, rfl, rfl, rfl, rfl⟩ rfl rfl

/-- The writing of `f` into `vd` by a lane word with active lanes `m`, its scoreboard mark, and going on. -/
theorem lane_done (s : State) (m : Mask) (t : Wd) (vd : Reg) (f : Nat → Nat) :
    LaneWrote s (if m = 0 then s.done true else (s.onW fun w => (w.putV t vd m f).addPend (vRef t vd) none .timed).done true) m t vd
      fun l => f l % 2 ^ wdBits t := by
  by_cases hm : m = 0
  · rw [if_pos hm]
    obtain ⟨h, e⟩ := done_passed s true
    have z : ∀ l, m.getLsbD l = false := fun l => by rw [hm]; simp
    refine ⟨h, fun l _ h => (by rw [z l] at h; cases h), fun r l _ _ => V_of_v e.regs r l, e.preds, e.uniform, e.upreds, e.flags, ?_, e.bare⟩
    intro r; rw [blocked_of_pend e.pend, hm]; simp
  · rw [if_neg hm]
    obtain ⟨h, e⟩ := done_spec s (fun w => (w.putV t vd m f).addPend (vRef t vd) none .timed) true
      (by rw [Warp.putV_eq]; exact ⟨rfl, rfl, rfl, rfl, rfl⟩) (by rw [Warp.putV_eq]; rfl)
      (by rw [Warp.putV_eq]; rfl)
    have ev : ((s.w.putV t vd m f).addPend (vRef t vd) none .timed).v = (s.w.putV t vd m f).v := rfl
    have em : (m != 0) = true := by simpa using hm
    refine ⟨h, fun l hl hml => ?_, fun r l hl hh => ?_, ?_, ?_, ?_, ?_, ?_, ?_⟩
    · rw [vNat_of_v (e.regs.trans ev)]; exact Warp.vNat_putV _ _ _ _ _ hl hml
    · rw [V_of_v (e.regs.trans ev)]; exact Warp.V_putV_other _ _ _ _ _ hl hh
    · exact e.preds.trans (by rw [Warp.putV_eq]; rfl)
    · exact e.uniform.trans (by rw [Warp.putV_eq]; rfl)
    · exact e.upreds.trans (by rw [Warp.putV_eq]; rfl)
    · exact e.flags.trans (by rw [Warp.putV_eq]; rfl)
    · intro r
      rw [blocked_of_pend e.pend, em, Bool.true_and]
      unfold Warp.addPend
      rw [Warp.blocked_addOp]
      congr 1
      rw [Warp.putV_eq]; rfl
    · exact e.bare.trans (by rw [Warp.putV_eq]; rfl)

/-- A guarded lane word that computes its destination from the warp's record. -/
theorem laneOp_writes {s : State} {p : Path} {c : Clause} {g : Guard} {src : List RegRef} {t : Wd} {vd : Reg}
    (h : LaneIssues s p c g (src ++ vRef t vd)) (i : Instr) (f : Warp → Mask → Nat → Nat) :
    LaneWrote s (s.laneOp i g src (vRef t vd) fun w m => w.putV t vd m (f w m)) (s.w.admitted p g) t vd
      fun l => f s.w (s.w.admitted p g) l % 2 ^ wdBits t := by
  unfold State.laneOp
  rw [laneWord_runs h]
  exact lane_done s _ t vd _
/-- An unguarded lane word that computes its destination from the warp's record. -/
theorem plainOp_writes {s : State} {p : Path} {c : Clause} {src : List RegRef} {t : Wd} {vd : Reg}
    (h : Issues s p c (src ++ vRef t vd)) (f : Warp → Mask → Nat → Nat) :
    LaneWrote s (s.plainOp src (vRef t vd) fun w m => w.putV t vd m (f w m)) (unguarded s p) t vd
      fun l => f s.w (unguarded s p) l % 2 ^ wdBits t := by
  unfold State.plainOp
  rw [plainWord_runs h]
  exact lane_done s _ t vd _

theorem setP_eq (w : Warp) (p : Nat) (m x : Mask) : w.setP p m x = { w with p := (w.setP p m x).p } := by
  unfold Warp.setP; split <;> rfl

/-- The writing of `f` into predicate `pd` by a lane word with active lanes `m`, and going on. -/
theorem pred_done (s : State) (m : Mask) (pd : BitVec 3) (x : Mask) :
    PredWrote s (if m = 0 then s.done true else (s.onW fun w => (w.setP pd.toNat m x).addPend [.p pd.toNat] none .timed).done true) m pd
      fun l => x.getLsbD l := by
  by_cases hm : m = 0
  · rw [if_pos hm]
    obtain ⟨h, e⟩ := done_passed s true
    have z : ∀ l, m.getLsbD l = false := fun l => by rw [hm]; simp
    refine ⟨h, fun _ l _ h => (by rw [z l] at h; cases h), fun l _ _ => (by rw [P_of_p e.preds]), rfl, fun n _ => P_of_p e.preds n, e.regs, e.uniform,
      e.upreds, e.flags, ?_, e.bare⟩
    intro r; rw [blocked_of_pend e.pend, hm]; simp
  · rw [if_neg hm]
    obtain ⟨h, e⟩ := done_spec s (fun w => (w.setP pd.toNat m x).addPend [.p pd.toNat] none .timed) true
      (by rw [setP_eq]; exact ⟨rfl, rfl, rfl, rfl, rfl⟩) (by rw [setP_eq]; rfl)
      (by rw [setP_eq]; rfl)
    have ev : ((s.w.setP pd.toNat m x).addPend [.p pd.toNat] none .timed).p = (s.w.setP pd.toNat m x).p := rfl
    have em : (m != 0) = true := by simpa using hm
    refine ⟨h, fun hp l hl hml => ?_, fun l hl hml => ?_, rfl, fun n hn => ?_, ?_, ?_, ?_, ?_, ?_, ?_⟩
    · rw [P_of_p (e.preds.trans ev), Warp.P_setP, if_pos ⟨rfl, fun q => hp (BitVec.eq_of_toNat_eq q)⟩]
      simp [hml]
    · rw [P_of_p (e.preds.trans ev), Warp.P_setP]
      split
      · have hml' : m[l] = false := by rw [← BitVec.getLsbD_eq_getElem]; exact hml
        simp [hml', hl]
      · rfl
    · rw [P_of_p (e.preds.trans ev), Warp.P_setP, if_neg fun q => hn q.1]
    · exact e.regs.trans (by rw [setP_eq]; rfl)
    · exact e.uniform.trans (by rw [setP_eq]; rfl)
    · exact e.upreds.trans (by rw [setP_eq]; rfl)
    · exact e.flags.trans (by rw [setP_eq]; rfl)
    · intro r
      rw [blocked_of_pend e.pend, em, Bool.true_and]
      unfold Warp.addPend
      rw [Warp.blocked_addOp]
      congr 1
      rw [setP_eq]; rfl
    · exact e.bare.trans (by rw [setP_eq]; rfl)

/-- A guarded lane word that computes a predicate from the warp's record. -/
theorem predOp_writes {s : State} {p : Path} {c : Clause} {g : Guard} {src : List RegRef} {pd : BitVec 3}
    (h : LaneIssues s p c g (src ++ [.p pd.toNat])) (i : Instr) (x : Warp → Mask → Mask) :
    PredWrote s (s.laneOp i g src [.p pd.toNat] fun w m => w.setP pd.toNat m (x w m)) (s.w.admitted p g) pd
      fun l => (x s.w (s.w.admitted p g)).getLsbD l := by
  unfold State.laneOp
  rw [laneWord_runs h]
  exact pred_done s _ pd _

theorem putS_eq (w : Warp) (t : Wd) (r : Reg) (x : Nat) : w.putS t r x = { w with s := (w.putS t r x).s } := by cases t <;> rfl

/-- A guarded uniform word that computes its destination from the warp's record. -/
theorem uniOp_writes {s : State} {p : Path} {c : Clause} {g : Guard} {src : List RegRef} {t : Wd} {sd : Reg}
    (h : UniIssues s p c g (src ++ sRef t sd)) (x : Warp → Nat) :
    UniWrote s (s.uniOp g src (sRef t sd) fun w => w.putS t sd (x w)) t sd (x s.w % 2 ^ wdBits t) := by
  unfold State.uniOp
  rw [uniWord_runs h]
  obtain ⟨h, e⟩ := done_spec s (fun w => (w.putS t sd (x w)).addPend (sRef t sd) none .timed) false
    (by rw [putS_eq]; exact ⟨rfl, rfl, rfl, rfl, rfl⟩) (by rw [putS_eq]; rfl)
    (by rw [putS_eq]; rfl)
  have ev : ((s.w.putS t sd (x s.w)).addPend (sRef t sd) none .timed).s = (s.w.putS t sd (x s.w)).s := rfl
  refine ⟨h, ?_, fun r hr => ?_, ?_, ?_, ?_, ?_, ?_, ?_⟩
  · rw [sNat_of_s (e.uniform.trans ev)]; exact Warp.sNat_putS _ _ _ _
  · rw [S_of_s (e.uniform.trans ev)]; exact Warp.S_putS_other _ _ _ _ hr
  · exact e.regs.trans (by rw [putS_eq]; rfl)
  · exact e.preds.trans (by rw [putS_eq]; rfl)
  · exact e.upreds.trans (by rw [putS_eq]; rfl)
  · exact e.flags.trans (by rw [putS_eq]; rfl)
  · intro r
    rw [blocked_of_pend e.pend]
    unfold Warp.addPend
    rw [Warp.blocked_addOp]
    have : (BitVec.allOnes 16 != (0 : Mask)) = true := by decide
    rw [this, Bool.true_and]
    congr 1
    rw [putS_eq]; rfl
  · exact e.bare.trans (by rw [putS_eq]; rfl)

/-! Only the lanes of the mask matter. -/

theorem LaneWrote.congr {s t : State} {m : Mask} {wd : Wd} {vd : Reg} {f f' : Nat → Nat} (h : LaneWrote s t m wd vd f)
    (e : ∀ l < 16, m.getLsbD l = true → f l = f' l) : LaneWrote s t m wd vd f' :=
  ⟨h.went, fun l hl hm => (h.value l hl hm).trans (e l hl hm), h.others, h.preds, h.uniform, h.upreds, h.flags, h.marks, h.bare⟩
theorem PredWrote.congr {s t : State} {m : Mask} {pd : BitVec 3} {f f' : Nat → Bool} (h : PredWrote s t m pd f)
    (e : ∀ l < 16, m.getLsbD l = true → f l = f' l) : PredWrote s t m pd f' :=
  ⟨h.went, fun hp l hl hm => (h.value hp l hl hm).trans (e l hl hm), h.lanes, h.hardwired, h.others, h.regs, h.uniform, h.upreds, h.flags,
   h.marks, h.bare⟩

theorem vNat_lt (w : Warp) (t : Wd) (r : Reg) (l : Nat) : w.vNat t r l < 2 ^ wdBits t := by
  cases t
  · exact (w.V r.toNat l).isLt
  · exact (w.VP r.toNat l).isLt
theorem sNat_lt (w : Warp) (t : Wd) (r : Reg) : w.sNat t r < 2 ^ wdBits t := by
  cases t
  · exact (w.S r.toNat).isLt
  · exact (w.SP r.toNat).isLt

theorem vNat_setP (w : Warp) (n : Nat) (m x : Mask) (t : Wd) (r : Reg) (l : Nat) : (w.setP n m x).vNat t r l = w.vNat t r l :=
  vNat_of_v (by rw [setP_eq]) t r l

theorem P_putV (w : Warp) (t : Wd) (r : Reg) (m : Mask) (f : Nat → Nat) (n : Nat) : (w.putV t r m f).P n = w.P n :=
  P_of_p (by rw [Warp.putV_eq]; rfl) n

/-- A carry word (R86, R89): the destination and the carry predicate in the lanes of the path. -/
theorem carryOp_writes {s : State} {p : Path} {c : Clause} {src : List RegRef} {t : Wd} {vd : Reg} {pc : BitVec 3}
    (h : Issues s p c (.p pc.toNat :: src ++ (.p pc.toNat :: vRef t vd))) (f : Warp → Nat → Nat → Int) (carry : Int → Bool) :
    let m := unguarded s p
    let x := fun l => f s.w l (if (s.w.P pc.toNat).getLsbD l then 1 else 0)
    CarryWrote s (s.laneCarry t vd src pc f carry) m t vd (fun l => pattern (wdBits t) (x l) % 2 ^ wdBits t) pc fun l => carry (x l) := by
  intro m x
  unfold State.laneCarry State.plainOp
  rw [plainWord_runs h]
  change CarryWrote s (if m = 0 then _ else (s.onW fun w => Warp.addPend _ _ _ _).done true) _ _ _ _ _ _
  by_cases hm : m = 0
  · rw [if_pos hm]
    obtain ⟨h, e⟩ := done_passed s true
    have z : ∀ l, m.getLsbD l = false := fun l => by rw [hm]; simp
    refine ⟨h, fun l _ h => (by rw [z l] at h; cases h), fun r l _ _ => V_of_v e.regs r l, fun _ l _ h => (by rw [z l] at h; cases h),
      fun l _ _ => (by rw [P_of_p e.preds]), rfl, fun n _ => P_of_p e.preds n, e.uniform, e.upreds, e.flags, ?_, e.bare⟩
    intro r; rw [blocked_of_pend e.pend, hm]; simp
  · rw [if_neg hm]
    let X := maskOf fun l => carry (x l)
    let W := (s.w.putV t vd m fun l => pattern (wdBits t) (x l)).setP pc.toNat m X
    have hW : W = { s.w with v := (s.w.putV t vd m fun l => pattern (wdBits t) (x l)).v, p := W.p } := by
      show Warp.setP _ _ _ _ = _
      rw [setP_eq]; cases t <;> rfl
    obtain ⟨h, e⟩ := done_spec s (fun w => ((w.putV t vd m fun l => pattern (wdBits t) (f w l (if (w.P pc.toNat).getLsbD l then 1 else 0))).setP pc.toNat m
        (maskOf fun l => carry (f w l (if (w.P pc.toNat).getLsbD l then 1 else 0)))).addPend (.p pc.toNat :: vRef t vd) none .timed) true
      (by show SamePath s.w (Warp.addPend W _ _ _); rw [hW]; exact ⟨rfl, rfl, rfl, rfl, rfl⟩)
      (by show (Warp.addPend W _ _ _).cnt = _; rw [hW]; rfl) (by show (Warp.addPend W _ _ _).blk = _; rw [hW]; rfl)
    have em : (m != 0) = true := by simpa using hm
    have ev : ∀ y : Warp, y.v = (W.addPend (.p pc.toNat :: vRef t vd) none .timed).v → y.v = (s.w.putV t vd m fun l => pattern (wdBits t) (x l)).v := by
      intro y hy; rw [hy, hW]; rfl
    refine ⟨h, fun l hl hml => ?_, fun r l hl hh => ?_, fun hp l hl hml => ?_, fun l hl hml => ?_, rfl, fun n hn => ?_, ?_, ?_, ?_, ?_, ?_⟩
    · rw [vNat_of_v (ev _ e.regs)]; exact Warp.vNat_putV _ _ _ _ _ hl hml
    · rw [V_of_v (ev _ e.regs)]; exact Warp.V_putV_other _ _ _ _ _ hl hh
    · rw [P_of_p e.preds]
      show (W.P pc.toNat).getLsbD l = _
      rw [show W.P pc.toNat = _ from Warp.P_setP _ _ _ _ _, if_pos ⟨rfl, fun q => hp (BitVec.eq_of_toNat_eq q)⟩]
      simp only [BitVec.getLsbD_or, BitVec.getLsbD_and, hml, BitVec.getLsbD_not, hl, decide_true, Bool.not_true, Bool.and_false, Bool.and_true, Bool.false_or]
      exact getLsbD_maskOf _ hl
    · rw [P_of_p e.preds]
      show (W.P pc.toNat).getLsbD l = _
      rw [show W.P pc.toNat = _ from Warp.P_setP _ _ _ _ _]
      split
      · simp only [BitVec.getLsbD_or, BitVec.getLsbD_and, hml, BitVec.getLsbD_not, hl, decide_true, Bool.not_false, Bool.and_false, Bool.and_true, Bool.or_false]
        rw [P_putV]
      · rw [P_putV]
    · rw [P_of_p e.preds]
      show W.P n = _
      rw [show W.P n = _ from Warp.P_setP _ _ _ _ _, if_neg fun q => hn q.1]
      rw [P_putV]
    · refine e.uniform.trans ?_; show (Warp.addPend W _ _ _).s = _; rw [hW]; rfl
    · refine e.upreds.trans ?_; show (Warp.addPend W _ _ _).q = _; rw [hW]; rfl
    · refine e.flags.trans ?_; show (Warp.addPend W _ _ _).f = _; rw [hW]; rfl
    · intro r
      rw [blocked_of_pend e.pend, em, Bool.true_and]
      show (Warp.addOp W _ _ _ _ _ _ _ _).blocked [r] = _
      rw [Warp.blocked_addOp]
      congr 1
      rw [hW]; rfl
    · refine e.bare.trans ?_; show bare (Warp.addPend W _ _ _) = _; rw [hW]; rfl

end Sys2Proof.Safety
end

