-- ==== Sys2Proof/Tests/Slice0.lean ====
section
/-!
SUPPORT. Tests. Words written out from the encoding tables of the manual decode to their instructions; ill-formed operands are
refused; words and steps on small states give what the manual says; and, named hyp_<statement>…, for every statement of
Certificates/Slice0/Obligations.lean states and operands that meet the hypotheses of its clauses, at the edges of their ranges.
Expected values come from the manual's tables and worked examples, or by hand from its rules.
-/
namespace Sys2Proof.Tests
set_option maxRecDepth 20000
set_option Elab.async false
open Sys2Proof Sys2Proof.Machine Sys2Proof.Safety

/-! ## Decoding -/

theorem test_decode_carry_and_shift : [0x04828218, 0x46A209FF, 0x4FC10203].map decodeWord =
    [.ok (.addc .w32 5 1 3 2), .ok (.addImm ⟨2, true⟩ 4 4 (-1)), .ok (.shlImm Guard.always 2 1 3)] := rfl
/-- R22: LT is 2 and the destination predicate 3 for FCMP, 1 for CMP. -/
theorem test_decode_comparisons : [0x19C98425, 0x19C88218, 0x8CE68A30].map decodeWord =
    [.ok (.fcmp Guard.always .lt .f64 3 2 4), .ok (.cmp Guard.always .lt .i32 1 1 3), .ok (.ucmp Guard.always .le .i32 2 10 12)] := rfl
theorem test_decode_floating_point : [0x27C50426, 0x29C484CA, 0x2BCA1009, 0x54206108].map decodeWord =
    [.ok (.ddiv Guard.always 10 2 4), .ok (.cvt Guard.always .rtz .i32 .f64 9 2),
     .ok (.narrow Guard.always true .dm8 false 1 20 8), .ok (.fmaF64 false 8 6 4 8)] := rfl
theorem test_decode_crossing_lanes : [0x2FC38C0A, 0x1BC00002].map decodeWord =
    [.ok (.shflSwap Guard.always .w32 7 6 1), .ok (.movLane Guard.always 0)] := rfl
theorem test_decode_seams : [0x9DE00005, 0x3FCA0C41, 0x41CA0421, 0x43C12800, 0x39CA2809].map decodeWord =
    [.ok (.stitch Guard.always true 1), .ok (.smac Guard.always true 20 6 8), .ok (.fxacc Guard.always .mad 20 2 4),
     .ok (.fxsign Guard.always 2 20), .ok (.sshl Guard.always true 20 20 1)] := rfl
/-- R12, R21, R23: opcode 0x3A, p7, v6, v3, ab 1 and 100101 for CAS.acq make 0x75C30665. -/
theorem test_decode_memory : [0x64420480, 0x6E4404C0, 0x75C30665, 0x97E10000].map decodeWord =
    [.ok (.ldB64 ⟨1, false⟩ 4 2 2 0), .ok (.stB64 ⟨1, false⟩ 8 2 3 0), .ok (.atomB32Die Guard.always .cas .acq 6 3 1),
     .ok (.uldB64 Guard.always 4 0 0)] := rfl
theorem test_decode_uniform_and_control : [0x94E2C000, 0x92300000, 0x80000F1A, 0xAAE00A0D, 0xAB200000, 0xAC400000].map decodeWord =
    [.ok (.usr Guard.always 11 0), .ok (.umovi 12 0), .ok (.clause 0 15 1 10), .ok (.loop Guard.always 10 13),
     .ok (.lbrk ⟨1, false⟩), .ok (.exit ⟨2, false⟩)] := rfl
theorem test_decode_cluster : [0xB2E00003, 0xB2400000, 0xB3E01411].map decodeWord =
    [.ok (.barw Guard.always 3 false 0), .ok (.barw ⟨2, false⟩ 0 false 0), .ok (.bara Guard.always 1 true 20)] := rfl
theorem test_decode_work_and_panel : [0xC5E80008, 0xC6EA20B0, 0xCAE50414, 0xCBE50400, 0xD8E51605].map decodeWord =
    [.ok (.pktrx Guard.always 32 2), .ok (.fwd Guard.always 40 32 44), .ok (.blt Guard.always 20 4 5),
     .ok (.cntr Guard.always 20 4), .ok (.syscall Guard.always 20 22 5)] := rfl
theorem test_decode_tack : [0xD0E51804, 0xD1E54004, 0xD2E00004, 0xD3E60024, 0xD4E78014, 0xD5E02800].map decodeWord =
    [.ok (.tkload Guard.always 20 24 1), .ok (.tkarm Guard.always 21 1), .ok (.tkdisarm Guard.always 1),
     .ok (.tkstat Guard.always 24 1 2), .ok (.tkpollC Guard.always 30 1), .ok (.tkemit Guard.always 40)] := rfl
/-- The table of examples of R244. -/
theorem test_decode_streams : [0xE0000002, 0xE1100000, 0xE20803C5, 0xE32803CF, 0xE5201000, 0xE9101C00].map decodeWord =
    [.ok (.mcfg .f22), .ok (.mwload 2 0), .ok (.mmul 1 0 15 0 .dm8 true), .ok (.mstore 5 0 15 15), .ok (.mbara 2 2),
     .ok (.cbarW 1 3)] := rfl
/-- R28: unlisted opcodes, reserved mod values and reserved fields are no instructions. -/
theorem test_decode_reserved : ([0xFFFFFFFF, 0xDEE00000, 0xE0000013, 0xE220000C] : List Word).map (fun w => (decodeWord w).toOption.isNone) =
    [true, true, true, true] := rfl
/-- The table's words at 0 bits above their opcode, as the host numbers them. -/
theorem test_decodeTableWord : decodeTableWord 32 0x1BC00002 = some (.movLane Guard.always 0) := rfl

/-! ## Ill-formed operands -/

/-- The row is refused by WellFormed, and its other operands alone would pass. -/
def refuses (l : List (Instr × Instr)) : Bool := l.all fun x => !WellFormed x.1 && WellFormed x.2

/-- R15: flag codes 12 to 14. -/
theorem test_wf_clause : refuses [(.clause 0 12 15 0, .clause 0 11 15 0), (.clause 0 15 14 0, .clause 0 15 15 0)] = true := rfl
/-- R13: pairs start at even registers. -/
theorem test_wf_integer : refuses [
    (.add Guard.always .i64 1 2 4, .add Guard.always .i32 1 2 4), (.sub Guard.always .b64 2 3 4, .sub Guard.always .b64 2 4 4),
    (.addc .w64 2 4 5 7, .addc .w32 2 4 5 7), (.subb .w64 3 4 6 7, .subb .w64 4 4 6 7), (.mul Guard.always .w64 1 2 4, .mul Guard.always .w64 0 2 4),
    (.mulh Guard.always .n64 2 2 5, .mulh Guard.always .n32 2 2 5), (.madc 1 1 1 7, .madc 2 1 1 7),
    (.madwI32 false 1 1 1 2, .madwI32 false 2 1 1 2), (.madwN32 true 2 1 1 3, .madwN32 true 2 1 1 4)] = true := rfl
theorem test_wf_logic : refuses [
    (.andL Guard.always .w64 1 2 4, .andL Guard.always .w32 1 2 4), (.orL Guard.always .w64 2 1 4, .orL Guard.always .w64 2 0 4),
    (.xorL Guard.always .w64 2 2 1, .xorL Guard.always .w64 2 2 0), (.shl Guard.always .w64 1 2 5, .shl Guard.always .w64 2 2 5),
    (.shr Guard.always .i64 2 1 5, .shr Guard.always .i64 2 2 5), (.popc Guard.always .w64 5 1, .popc Guard.always .w64 5 2),
    (.clz Guard.always .w64 5 3, .clz Guard.always .w64 5 4), (.sel Guard.always .w64 1 2 4, .sel Guard.always .w64 2 2 4)] = true := rfl
/-- R22: the conditions UN and OR are FCMP's alone. -/
theorem test_wf_order : refuses [
    (.minL Guard.always .n64 1 2 4, .minL Guard.always .n64 2 2 4), (.maxL Guard.always .i64 2 2 1, .maxL Guard.always .i64 2 2 0),
    (.abs Guard.always .w64 2 1, .abs Guard.always .w64 2 0), (.cmp Guard.always .un .i32 1 1 3, .cmp Guard.always .ge .i32 1 1 3),
    (.cmp Guard.always .eq .i64 1 1 2, .cmp Guard.always .eq .i64 1 0 2), (.fcmp Guard.always .un .f64 1 1 2, .fcmp Guard.always .un .f64 1 0 2),
    (.scmp Guard.always .or 1 2 4, .scmp Guard.always .lt 1 2 4), (.ucmp Guard.always .or .n32 1 1 3, .ucmp Guard.always .ge .n32 1 1 3),
    (.movUniform Guard.always .w64 2 1, .movUniform Guard.always .w64 2 0)] = true := rfl
/-- R13, R107. -/
theorem test_wf_floating_point : refuses [
    (.fadd Guard.always .f64 1 2 4, .fadd Guard.always .f32 1 2 4), (.fsub Guard.always .f64 2 1 4, .fsub Guard.always .f64 2 0 4),
    (.fmul Guard.always .f64 2 2 1, .fmul Guard.always .f64 2 2 0), (.fmin Guard.always .f64 3 2 4, .fmin Guard.always .f64 4 2 4),
    (.fmax Guard.always .f64 2 3 4, .fmax Guard.always .f64 2 4 4), (.fclass Guard.always .f64 1 3, .fclass Guard.always .f64 1 2),
    (.ddiv Guard.always 2 4 5, .ddiv Guard.always 2 4 6), (.dsqrt Guard.always 1 2, .dsqrt Guard.always 2 2),
    (.cvt Guard.always .rtz .i64 .f32 1 1, .cvt Guard.always .rtz .i32 .f32 1 1), (.cvt Guard.always .rtz .i32 .f64 1 1, .cvt Guard.always .rtz .i32 .f64 1 2),
    (.fmaF64 false 2 4 6 7, .fmaF64 false 2 4 6 8), (.narrow Guard.always true .mx8 false 0 1 4, .narrow Guard.always true .dm8 false 0 1 4),
    (.narrow Guard.always true .dm8 false 0 1 2, .narrow Guard.always true .dm8 true 0 1 2), (.narrow Guard.always true .dm8 true 0 1 3, .narrow Guard.always true .dm8 true 0 1 4),
    (.widen Guard.always .dm8 0 2 1, .widen Guard.always .dm8 0 4 1), (.widen Guard.always .mx8 0 4 1, .widen Guard.always .mx8 0 4 2)] = true := rfl
/-- R112 to R115, R151, R152. -/
theorem test_wf_crossing_and_seams : refuses [
    (.shflFwd Guard.always .w32 1 1 8, .shflFwd Guard.always .w32 1 1 7), (.shflBack Guard.always .w32 1 1 0, .shflBack Guard.always .w32 1 1 1),
    (.shflSwap Guard.always .w64 1 2 1, .shflSwap Guard.always .w64 2 2 1), (.shflFrom Guard.always .w64 2 1 1, .shflFrom Guard.always .w64 2 0 1),
    (.bcast Guard.always .w32 1 1 16, .bcast Guard.always .w32 1 1 15), (.bcastLow Guard.always .w64 1 2, .bcastLow Guard.always .w64 2 2),
    (.lred Guard.always .addF64 1 2, .lred Guard.always .addF32 1 2), (.smac Guard.always true 1 1 1, .smac Guard.always true 1 1 2),
    (.fxacc Guard.always .mad 1 1 2, .fxacc Guard.always .mad 1 2 2), (.fxacc Guard.always .add 1 2 2, .fxacc Guard.always .add 1 2 0),
    (.fxsign Guard.always 1 1, .fxsign Guard.always 0 1), (.fxsign Guard.always 6 1, .fxsign Guard.always 4 1),
    (.fxcvt Guard.always .rne 1 1, .fxcvt Guard.always .rne 2 1)] = true := rfl
/-- R23, R156, R157, R161. -/
theorem test_wf_memory : refuses [
    (.ldB64 Guard.always 1 1 0 0, .ldB64 Guard.always 2 1 0 0), (.stB64 Guard.always 3 1 0 0, .stB64 Guard.always 4 1 0 0),
    (.ldB128 Guard.always 2 1 0 0, .ldB128 Guard.always 4 1 0 0), (.stB128 Guard.always 2 1 0 0, .stB128 Guard.always 0 1 0 0),
    (.atomB32Die Guard.always .cas .rlx 1 1 0, .atomB32Die Guard.always .add .rlx 1 1 0), (.atomB32Dev Guard.always .cas .rlx 3 1 0, .atomB32Dev Guard.always .cas .rlx 2 1 0),
    (.atomB32Sys Guard.always .cas .rlx 5 1 0, .atomB32Sys Guard.always .cas .rlx 4 1 0), (.atomB64Die Guard.always .cas .rlx 2 1 0, .atomB64Die Guard.always .add .rlx 2 1 0),
    (.atomB64Dev Guard.always .add .rlx 1 1 0, .atomB64Dev Guard.always .add .rlx 2 1 0), (.atomB64Sys Guard.always .cas .rlx 6 1 0, .atomB64Sys Guard.always .cas .rlx 4 1 0),
    (.uldB32 Guard.always 1 1 0, .uldB32 Guard.always 1 2 0), (.ustB32 Guard.always 1 3 0, .ustB32 Guard.always 1 4 0),
    (.uldB64 Guard.always 1 2 0, .uldB64 Guard.always 2 2 0), (.ustB64 Guard.always 1 2 0, .ustB64 Guard.always 2 2 0),
    (.uatomB32 Guard.always .cas .die .rlx 1 2, .uatomB32 Guard.always .cas .die .rlx 2 2), (.uatomB32 Guard.always .add .die .rlx 2 1, .uatomB32 Guard.always .add .die .rlx 2 2),
    (.uatomB64 Guard.always .cas .die .rlx 2 2, .uatomB64 Guard.always .cas .die .rlx 4 2)] = true := rfl
/-- R13, R25, R119. -/
theorem test_wf_uniform : refuses [
    (.uadd Guard.always .w64 1 2 4, .uadd Guard.always .w32 1 2 4), (.usub Guard.always .w64 2 1 4, .usub Guard.always .w64 2 0 4),
    (.umul Guard.always .w64 2 2 1, .umul Guard.always .w64 2 2 0), (.uand Guard.always .w64 1 2 4, .uand Guard.always .w64 2 2 4),
    (.uor Guard.always .w64 2 1 4, .uor Guard.always .w64 2 2 4), (.uxor Guard.always .w64 2 2 1, .uxor Guard.always .w64 2 2 2),
    (.ushl Guard.always .w64 2 2 1, .ushl Guard.always .w64 2 2 2), (.ushr Guard.always .i64 2 1 2, .ushr Guard.always .i64 2 2 2),
    (.umin Guard.always .i64 1 2 4, .umin Guard.always .i64 2 2 4), (.umax Guard.always .n64 2 2 5, .umax Guard.always .n64 2 2 4),
    (.usel Guard.always .w64 1 2 4, .usel Guard.always .w64 2 2 4), (.usr Guard.always 2 0x1A, .usr Guard.always 2 0x19), (.usr Guard.always 1 0x08, .usr Guard.always 1 0x09),
    (.usw Guard.always 0x00 2, .usw Guard.always 0x0A 2), (.usw Guard.always 0x10 1, .usw Guard.always 0x12 1)] = true := rfl
/-- R121, R124, R125, R208. -/
theorem test_wf_control : refuses [
    (.brl Guard.always 1 0, .brl Guard.always 1 1), (.jmpi Guard.always 1, .jmpi Guard.always 2), (.ret Guard.always 63, .ret Guard.always 62), (.twait Guard.always 1, .twait Guard.always 0),
    (.jmpl Guard.always 1 1, .jmpl Guard.always 2 1), (.jmpl Guard.always 2 0, .jmpl Guard.always 2 255), (.loop Guard.always 1 1, .loop Guard.always 1 2),
    (.barw Guard.always 1 false 1, .barw Guard.always 1 true 1), (.bara Guard.always 1 false 63, .bara Guard.always 1 false 0)] = true := rfl
/-- R228, R278, R299, R337, R369 to R373, R399, R417. -/
theorem test_wf_cluster_and_panel : refuses [
    (.seed Guard.always .b1 0 1, .seed Guard.always .b1 0 2), (.thbind Guard.always 1 1 4, .thbind Guard.always 1 2 4), (.thbindT Guard.always 1 2 2, .thbindT Guard.always 1 2 4),
    (.rkinit Guard.always 1 1 1, .rkinit Guard.always 1 2 1), (.cpySeal Guard.always 1 1 1, .cpySeal Guard.always 1 1 2), (.acrd Guard.always 1 1 1, .acrd Guard.always 1 2 1),
    (.acwr Guard.always 1 1, .acwr Guard.always 2 1), (.halloc Guard.always 1 4 1, .halloc Guard.always 2 4 1), (.hallocF Guard.always 2 2 1, .hallocF Guard.always 2 4 1),
    (.hfree Guard.always 1, .hfree Guard.always 2), (.spawn Guard.always 1 1, .spawn Guard.always 1 2), (.pktrx Guard.always 8 1, .pktrx Guard.always 16 1), (.fwd Guard.always 1 8 1, .fwd Guard.always 1 16 1),
    (.blt Guard.always 2 1 1, .blt Guard.always 4 1 1), (.cntr Guard.always 1 1, .cntr Guard.always 2 1), (.snap Guard.always 1 1, .snap Guard.always 1 2), (.skincPc Guard.always 1 1, .skincPc Guard.always 2 1),
    (.skincKn Guard.always 1 1, .skincKn Guard.always 2 1), (.tkload Guard.always 1 1 1, .tkload Guard.always 1 2 1), (.tkstat Guard.always 2 1 1, .tkstat Guard.always 4 1 1),
    (.tkemit Guard.always 1, .tkemit Guard.always 2), (.syscall Guard.always 1 1 1, .syscall Guard.always 1 2 1)] = true := rfl

/-! ## Small states -/

/-- The state after an outcome that is a next state. -/
def after (o : Host.Outcome State Fault Refusal) : State := match o with
  | .next t => t
  | .fault _ | .refused _ => State.reset
/-- An instruction run on a state. -/
def run (i : Instr) (s : State) : State := after (exec i s)
/-- One warp with 16 lanes inside a clause of one word. -/
def lab : State := State.reset.placeWord 0x1BC00002
def c0 : Clause := ⟨0, 0, 15, 15, [0x1BC00002]⟩
def p0 : Path := { pc := 0x10000, mask := BitVec.allOnes 16, join := none, clause := some c0, src := 0x10000, waits := [], held := false }
/-- The same warp on another path. -/
def onPath (p : Path) : State := lab.onW fun w => { w with a := some p }
/-- The clause with flags f0 and f1. -/
def c1 : Clause := ⟨0, 0, 0, 1, []⟩
def p1 : Path := { p0 with clause := some c1 }
def flagged : State := onPath p1
/-- A path of lane 5 alone. -/
def five : State := onPath { p0 with mask := 0x0020 }
/-- v1 and v2, and the pairs v4 and v6, in lane 5. -/
def two (a b : Word) : State := five.onW fun w => (w.setV 1 0x0020 fun _ => a).setV 2 0x0020 fun _ => b
def twoD (a b : DWord) : State := five.onW fun w => (w.setVP 4 0x0020 fun _ => a).setVP 6 0x0020 fun _ => b
/-- s1 and s2, and the pairs s4 and s6. -/
def uni (a b : Word) : State := lab.onW fun w => (w.setS 1 a).setS 2 b
def uniD (a b : DWord) : State := lab.onW fun w => (w.setSP 4 a).setSP 6 b
/-- v3, or the pair v8, in lane 5 after the instruction; s3 and the pair s8. -/
def out (i : Instr) (s : State) : Word := (run i s).w.V 3 5
def outD (i : Instr) (s : State) : DWord := (run i s).w.VP 8 5
def outS (i : Instr) (s : State) : Word := (run i s).w.S 3
def outSD (i : Instr) (s : State) : DWord := (run i s).w.SP 8
/-- The warp has a handler. -/
def guarded_ (s : State) : State := s.onW fun w => { w with tvec := 0x4000 }
abbrev G : Guard := Guard.always
abbrev all : Mask := BitVec.allOnes 16
/-- A control page written by the supervisor. -/
abbrev own : Page := ⟨0, .supervisor⟩

/-- The conditions of issuing, checked on a concrete state. -/
theorem issues_of {s : State} {p : Path} {c : Clause} {l : List RegRef}
    (h : s.w.path = some p ∧ p.clause = some c ∧ s.w.blocked l = false ∧ s.w.overflowing = false) : Issues s p c l := ⟨h.1, h.2.1, h.2.2.1, h.2.2.2⟩
theorem lane_of {s : State} {p : Path} {c : Clause} {g : Guard} {l : List RegRef}
    (h : (s.w.path = some p ∧ p.clause = some c ∧ s.w.blocked (.p g.p.toNat :: l) = false ∧ s.w.overflowing = false) ∧ s.w.divergent p g = 0) :
    LaneIssues s p c g l := ⟨issues_of h.1, h.2⟩
theorem uni_of {s : State} {p : Path} {c : Clause} {g : Guard} {l : List RegRef}
    (h : (s.w.path = some p ∧ p.clause = some c ∧ s.w.blocked (.q g.p.toNat :: l) = false ∧ s.w.overflowing = false) ∧ s.w.passes g = true) :
    UniIssues s p c g l := ⟨issues_of h.1, h.2⟩
theorem end_of {s : State} {p : Path} {c : Clause} {g : Guard} {l : List RegRef}
    (h : ((s.w.path = some p ∧ p.clause = some c ∧ s.w.blocked (.q g.p.toNat :: l) = false ∧ s.w.overflowing = false) ∧ s.w.passes g = true) ∧ c.idx = c.len) :
    EndIssues s p c g l := ⟨uni_of h.1, h.2⟩
theorem handles_of {w : Warp} (h : w.tvec ≠ 0 ∧ w.tcause.getLsbD 8 = false) : Handles w := h

theorem lab_issues (l : List RegRef) : Issues lab p0 c0 l := ⟨rfl, rfl, rfl, rfl⟩
theorem lab_lane (l : List RegRef) : LaneIssues lab p0 c0 G l := ⟨lab_issues _, rfl⟩
theorem lab_uni (l : List RegRef) : UniIssues lab p0 c0 G l := ⟨lab_issues _, rfl⟩
theorem lab_end (l : List RegRef) : EndIssues lab p0 c0 G l := ⟨lab_uni l, rfl⟩
theorem flagged_lane (l : List RegRef) : LaneIssues flagged p1 c1 G l := ⟨⟨rfl, rfl, rfl, rfl⟩, rfl⟩
theorem flagged_uni (l : List RegRef) : UniIssues flagged p1 c1 G l := ⟨⟨rfl, rfl, rfl, rfl⟩, rfl⟩

/-! ## Encodings -/

theorem hyp_DecodeEncodeRoundTrip : WellFormed (.addImm ⟨0, true⟩ 0 63 (-256)) = true ∧
    encode (.addImm ⟨0, true⟩ 0 63 (-256)) = some 0x46207F00 ∧ WellFormed .mend = true ∧ encode .mend = some 0xE6000000 := by
  refine ⟨rfl, rfl, rfl, rfl⟩
theorem hyp_EncodeInvertsDecode : decodeWord 0x46A209FF = .ok (.addImm ⟨2, true⟩ 4 4 (-1)) ∧ decodeWord 0xE6000000 = .ok .mend := ⟨rfl, rfl⟩

/-! ## Integer lane words -/

theorem hyp_LaneAddSub : LaneIssues lab p0 c0 G (vRef .w32 1 ++ vRef .w32 2 ++ vRef .w32 3) ∧ AddT.wide .i64 = true ∧
    WellFormed (.add G .i64 62 0 4) = true ∧ encode (.add G .i64 62 0 4) = some 0x01DF0024 := ⟨lab_lane _, rfl, rfl, rfl⟩
/-- R85: sums saturate in a type and wrap in .b. -/
theorem test_add : out (.add G .i32 3 1 2) (two 0x7FFFFFFF 1) = 0x7FFFFFFF ∧ out (.add G .n32 3 1 2) (two 0xFFFFFFFF 2) = 0xFFFFFFFF ∧
    out (.add G .b32 3 1 2) (two 0xFFFFFFFF 2) = 1 ∧ outD (.add G .i64 8 4 6) (twoD 0x8000000000000000 (-1)) = 0x8000000000000000 := by decide +kernel
theorem test_sub : out (.sub G .n32 3 1 2) (two 1 2) = 0 ∧ out (.sub G .i32 3 1 2) (two 0x80000000 1) = 0x80000000 ∧
    outD (.sub G .b64 8 4 6) (twoD 0 1) = 0xFFFFFFFFFFFFFFFF := by decide +kernel
theorem hyp_LaneCarryChain : Issues lab p0 c0 (.p 7 :: (vRef .w64 4 ++ vRef .w64 6) ++ (.p 7 :: vRef .w64 8)) ∧
    Issues lab p0 c0 (.p 2 :: ([.v 1, .v 2] ++ vPair 8) ++ (.p 2 :: vPair 8)) := ⟨lab_issues _, lab_issues _⟩
/-- R86: p7 carries 1 in; p1 takes the carry out. -/
theorem test_addc : out (.addc .w32 3 1 2 7) (two 5 6) = 12 ∧ out (.addc .w32 3 1 2 1) (two 0xFFFFFFFF 1) = 0 ∧
    (run (.addc .w32 3 1 2 1) (two 0xFFFFFFFF 1)).w.P 1 = 0x0020 := by decide +kernel
theorem test_subb : out (.subb .w32 3 1 2 1) (two 5 6) = 0xFFFFFFFF ∧ (run (.subb .w32 3 1 2 1) (two 5 6)).w.P 1 = 0x0020 ∧
    out (.subb .w32 3 1 2 7) (two 6 5) = 0 := by decide +kernel
theorem test_madc : outD (.madc 8 1 2 7) (two 0xFFFFFFFF 0xFFFFFFFF) = 0xFFFFFFFE00000002 := by decide +kernel
theorem hyp_LaneProducts : LaneIssues lab p0 c0 G (vRef (wdOf (IntT.wide .i64)) 4 ++ vRef (wdOf (IntT.wide .i64)) 6 ++ vRef (wdOf (IntT.wide .i64)) 8) ∧
    Issues lab p0 c0 ([.v 1, .v 2] ++ vPair 4 ++ vPair 8) := ⟨lab_lane _, lab_issues _⟩
theorem test_mul : out (.mul G .w32 3 1 2) (two 0x10001 0x10001) = 0x00020001 := by decide +kernel
theorem test_mulh : out (.mulh G .i32 3 1 2) (two 0xFFFFFFFF 2) = 0xFFFFFFFF ∧ out (.mulh G .n32 3 1 2) (two 0xFFFFFFFF 2) = 1 := by decide +kernel
theorem test_madw : outD (.madwI32 false 8 1 2 8) (two 0xFFFFFFFF 3) = 0xFFFFFFFFFFFFFFFD ∧
    outD (.madwN32 true 8 1 2 8) (two 2 3) = 0xFFFFFFFFFFFFFFFA := by decide +kernel
theorem hyp_LaneBitwise : LaneIssues lab p0 c0 G (vRef .w64 4 ++ vRef .w64 6 ++ vRef .w64 8) ∧ WellFormed (.xorL G .w64 62 0 4) = true :=
  ⟨lab_lane _, rfl⟩
theorem test_bitwise : out (.andL G .w32 3 1 2) (two 0xF0F0 0xFF00) = 0xF000 ∧ out (.orL G .w32 3 1 2) (two 0xF0F0 0xFF00) = 0xFFF0 ∧
    out (.xorL G .w32 3 1 2) (two 0xF0F0 0xFF00) = 0x0FF0 := by decide +kernel
theorem hyp_LaneSelect : Issues lab p0 c0 (.p 0 :: (vRef .w64 4 ++ vRef .w64 6) ++ vRef .w64 8) ∧ WellFormed (.sel ⟨0, true⟩ .w64 8 4 6) = true ∧
    encode (.sel ⟨0, true⟩ .w64 8 4 6) = some 0x16240831 := ⟨lab_issues _, rfl, rfl⟩
theorem test_sel : out (.sel ⟨0, false⟩ .w32 3 1 2) (two 7 9) = 9 ∧ out (.sel ⟨0, true⟩ .w32 3 1 2) (two 7 9) = 7 := by decide +kernel
theorem hyp_LaneShifts : LaneIssues lab p0 c0 G (vRef .w64 4 ++ [.v 1] ++ vRef .w64 8) ∧ LaneIssues lab p0 c0 G ([.v 1] ++ [.v 3]) :=
  ⟨lab_lane _, lab_lane _⟩
/-- R91: counts of 31, 32 and more. -/
theorem test_shifts : out (.shl G .w32 3 1 2) (two 1 31) = 0x80000000 ∧ out (.shl G .w32 3 1 2) (two 1 32) = 0 ∧
    out (.shr G .i32 3 1 2) (two 0x80000000 0xFFFFFFFF) = 0xFFFFFFFF ∧ out (.shr G .n32 3 1 2) (two 0x80000000 31) = 1 := by decide +kernel
theorem test_shift_immediates : out (.shlImm G 3 1 31) (two 3 0) = 0x80000000 ∧ out (.shrImm G true 3 1 4) (two 0xFFFFFF00 0) = 0xFFFFFFF0 ∧
    out (.shrImm G false 3 1 4) (two 0xFFFFFF00 0) = 0x0FFFFFF0 := by decide +kernel
theorem hyp_LaneBitFields : LaneIssues lab p0 c0 G ([.v 1, .v 2] ++ [.v 3]) ∧ LaneIssues lab p0 c0 G ([.v 3, .v 1, .v 2] ++ [.v 3]) ∧
    LaneIssues lab p0 c0 G (vRef .w64 4 ++ [.v 3]) ∧ WellFormed (.popc G .w64 3 4) = true := ⟨lab_lane _, lab_lane _, lab_lane _, rfl⟩
/-- R92: position in bits 7..0, length in bits 15..8 of b. -/
theorem test_bfe : out (.bfe G true 3 1 2) (two 0x00000F00 0x0408) = 0xFFFFFFFF ∧ out (.bfe G false 3 1 2) (two 0x00000F00 0x0408) = 0xF ∧
    out (.bfe G true 3 1 2) (two 0xFFFFFFFF 0x0000) = 0 := by decide +kernel
theorem test_bfi : out (.bfi G 3 1 2) ((two 0xF 0x0408).onW fun w => w.setV 3 0x0020 fun _ => 0xAAAAAAAA) = 0xAAAAAFAA := by decide +kernel
theorem test_counts : out (.popc G .w64 3 4) (twoD 0xF000000000000001 0) = 5 ∧ out (.clz G .w64 3 4) (twoD 1 0) = 63 ∧
    out (.clz G .w32 3 1) (two 0 0) = 32 := by decide +kernel
theorem hyp_LaneOrder : LaneIssues lab p0 c0 G (vRef (wdOf (IntT.wide .i32)) 1 ++ vRef (wdOf (IntT.wide .i32)) 2 ++ vRef (wdOf (IntT.wide .i32)) 3) ∧
    LaneIssues lab p0 c0 G (vRef (wdOf (IntT.wide .n64)) 4 ++ vRef (wdOf (IntT.wide .n64)) 6 ++ [.p 7]) ∧
    LaneIssues lab p0 c0 G (vRef .w32 1 ++ vRef .w32 3) := ⟨lab_lane _, lab_lane _, lab_lane _⟩
theorem test_min_max : out (.minL G .i32 3 1 2) (two 0xFFFFFFFF 1) = 0xFFFFFFFF ∧ out (.minL G .n32 3 1 2) (two 0xFFFFFFFF 1) = 1 ∧
    out (.maxL G .i32 3 1 2) (two 0xFFFFFFFF 1) = 1 := by decide +kernel
theorem test_abs_cmp : out (.abs G .w32 3 1) (two 0x80000000 0) = 0x80000000 ∧ out (.abs G .w32 3 1) (two 0xFFFFFFFE 0) = 2 ∧
    (run (.cmp G .lt .i32 1 1 2) (two 0xFFFFFFFF 1)).w.P 1 = 0x0020 ∧ (run (.cmp G .lt .n32 1 1 2) (two 0xFFFFFFFF 1)).w.P 1 = 0 := by decide +kernel
theorem hyp_LaneImmediates : LaneIssues lab p0 c0 G ([.v 1] ++ [.v 3]) ∧ LaneIssues lab p0 c0 G ([] ++ [.v 3]) ∧
    LaneIssues lab p0 c0 G (sRef .w64 4 ++ vRef .w64 8) := ⟨lab_lane _, lab_lane _, lab_lane _⟩
theorem test_immediates : out (.addImm G 3 1 (-1)) (two 0 0) = 0xFFFFFFFF ∧ out (.andImm G 3 1 (-256)) (two 0x12345678 0) = 0x12345600 ∧
    out (.orImm G 3 1 255) (two 0x100 0) = 0x1FF ∧ out (.xorImm G 3 1 (-1)) (two 0xF 0) = 0xFFFFFFF0 := by decide +kernel
theorem test_moves : out (.movImm G 3 (-256)) five = 0xFFFFFF00 ∧ out (.movLane G 3) five = 5 ∧ outD (.movUniform G .w64 8 4) (five.onW fun w => w.setSP 4 0x123456789) = 0x123456789 := by decide +kernel
/-- R14: lanes whose guard fails keep their register. -/
theorem test_guard : (run (.movImm ⟨0, true⟩ 3 9) (lab.onW fun w => { w with p := [(0, 0x0020)] })).w.V 3 5 = 0 ∧
    (run (.movImm ⟨0, true⟩ 3 9) (lab.onW fun w => { w with p := [(0, 0x0020)] })).w.V 3 6 = 9 := by decide +kernel

/-! ## Floating point -/

theorem hyp_FpArithmetic : LaneIssues lab p0 c0 G (vRef (wdOf (Fmt.wide .f64)) 4 ++ vRef (wdOf (Fmt.wide .f64)) 6 ++ vRef (wdOf (Fmt.wide .f64)) 8) ∧
    Issues lab p0 c0 (vRef .w64 4 ++ vRef .w64 6 ++ vRef .w64 8 ++ vRef .w64 8) ∧
    LaneIssues lab p0 c0 G (vRef (wdOf (CvtT.wide .f64)) 4 ++ vRef (wdOf (CvtT.wide .i32)) 3) := ⟨lab_lane _, lab_issues _, lab_lane _⟩
/-- 1.0 + 1.0, 1.0 − 3.0, and 2^24 + 1, a tie to even with NX (16). -/
theorem test_fadd : out (.fadd G .f32 3 1 2) (two 0x3F800000 0x3F800000) = 0x40000000 ∧
    out (.fsub G .f32 3 1 2) (two 0x3F800000 0x40400000) = 0xC0000000 ∧ out (.fadd G .f32 3 1 2) (two 0x4B800000 0x3F800000) = 0x4B800000 ∧
    (run (.fadd G .f32 3 1 2) (two 0x4B800000 0x3F800000)).w.fpstat = 16 := by decide +kernel
/-- 1.5 · 1.5 = 2.25; the largest number doubled overflows with OF and NX (4 + 16). -/
theorem test_fmul : out (.fmul G .f32 3 1 2) (two 0x3FC00000 0x3FC00000) = 0x40100000 ∧ out (.fmul G .f32 3 1 2) (two 0x7F7FFFFF 0x40000000) = 0x7F800000 ∧
    (run (.fmul G .f32 3 1 2) (two 0x7F7FFFFF 0x40000000)).w.fpstat = 20 := by decide +kernel
/-- 2 − 3·1 in .f32 and 3·1 + 2 in .f64. -/
theorem test_fma : out (.fmaF32 true 3 1 2 1) ((two 0x40400000 0x3F800000).onW fun w => w.setV 1 0x0020 fun _ => 0x40400000) = 0 ∧
    outD (.fmaF64 false 8 4 6 6) (twoD 0x4008000000000000 0x3FF0000000000000) = 0x4010000000000000 := by decide +kernel
/-- −0 is below +0; a NaN operand gives way to a number. -/
theorem test_fmin_fmax : out (.fmin G .f32 3 1 2) (two 0 0x80000000) = 0x80000000 ∧ out (.fmax G .f32 3 1 2) (two 0x80000000 0) = 0 ∧
    out (.fmax G .f32 3 1 2) (two 0x7FC00000 0x3F800000) = 0x3F800000 := by decide +kernel
/-- 2.5 to an integer: to even, and toward zero of −2.5. -/
theorem test_cvt : out (.cvt G .rne .i32 .f32 3 1) (two 0x40200000 0) = 2 ∧ out (.cvt G .rtz .i32 .f32 3 1) (two 0xC0200000 0) = 0xFFFFFFFE ∧
    outD (.cvt G .rne .f64 .n32 8 1) (two 3 0) = 0x4008000000000000 := by decide +kernel
theorem hyp_FpCompareAndClass : LaneIssues lab p0 c0 G (vRef (wdOf (Fmt.wide .f32)) 1 ++ vRef (wdOf (Fmt.wide .f32)) 2 ++ [.p 7]) ∧
    Untrapped lab (lab.w.admitted p0 G) (fun l => (fp32.compare lab.w.ftz .lt (lab.w.vNat .w32 1 l) (lab.w.vNat .w32 2 l)).2) ∧
    LaneIssues lab p0 c0 G (vRef (wdOf (Fmt.wide .f64)) 4 ++ [.v 3]) := ⟨lab_lane _, fun h => absurd h (by decide +kernel), lab_lane _⟩
/-- A quiet NaN is unordered: < is false and != true. -/
theorem test_fcmp : (run (.fcmp G .lt .f32 1 1 2) (two 0xBF800000 0x3F800000)).w.P 1 = 0x0020 ∧ (run (.fcmp G .lt .f32 1 1 2) (two 0x7FC00000 0)).w.P 1 = 0 ∧
    (run (.fcmp G .ne .f32 1 1 2) (two 0x7FC00000 0)).w.P 1 = 0x0020 := by decide +kernel
/-- R103: bit 0 is −infinity and bit 9 a quiet NaN. -/
theorem test_fclass : out (.fclass G .f32 3 1) (two 0xFF800000 0) = 1 ∧ out (.fclass G .f32 3 1) (two 0x7FC00000 0) = 512 := by decide +kernel
/-- A flag just below and at its limit of 63. -/
def held63 (n : Nat) : State := flagged.onW fun w => { w with f := [(0, n)] }
theorem hyp_FpLongLatency : (held63 62).w.atLimit (flagOf c1.fa) = false ∧ LaneIssues (held63 62) p1 c1 G ([.v 1] ++ vRef .w32 3) ∧
    LaneIssues (held63 62) p1 c1 G ((vPair 4 ++ vPair 6) ++ vRef .w64 8) ∧ LaneIssues (held63 62) p1 c1 G (vPair 4 ++ vRef .w64 8) ∧
    LaneIssues (held63 63) p1 c1 G ([.v 1] ++ vRef .w32 3) ∧ (held63 63).w.admitted p1 G ≠ 0 ∧ (held63 63).w.atLimit (flagOf c1.fa) = true := by
  and_intros
  all_goals first | decide +kernel | exact lane_of (by decide +kernel)
/-- The exact cases: 1/0 with DZ (2), 2^3, sin 0. -/
theorem test_rcp : out (.rcp G 3 1) (two 0 0) = 0x7F800000 ∧ (run (.rcp G 3 1) (two 0 0)).w.fpstat = 2 := by decide +kernel
theorem test_ddiv : outD (.ddiv G 8 4 6) (twoD 0x4018000000000000 0x4000000000000000) = 0x4008000000000000 ∧
    outD (.dsqrt G 8 4) (twoD 0x4010000000000000 0) = 0x4000000000000000 := by decide +kernel
/-- %fpmode.FPINV, a handler, and a signalling NaN in lane 5. -/
def sig : State := (guarded_ (two 0x7F800001 0)).onW fun w => { w with fpmode := 8 }
theorem hyp_FpInvalidTraps : LaneIssues sig { p0 with mask := 0x0020 } c0 G (vRef (wdOf (Fmt.wide .f32)) 1 ++ vRef (wdOf (Fmt.wide .f32)) 2 ++ vRef (wdOf (Fmt.wide .f32)) 3) ∧
    sig.w.fpinv = true ∧ Handles sig.w ∧ (0x0020 : Mask) ≠ 0 ∧
    (∀ l < 16, (0x0020 : Mask).getLsbD l = ((sig.w.admitted { p0 with mask := 0x0020 } G).getLsbD l &&
      (fp32.add sig.w.rm sig.w.ftz false (sig.w.vNat .w32 1 l) (sig.w.vNat .w32 2 l)).2.nv)) := by
  and_intros
  all_goals first | decide +kernel | exact uni_of (by decide +kernel) | exact lane_of (by decide +kernel) | exact end_of (by decide +kernel) |
    exact issues_of (by decide +kernel) | exact handles_of (by decide +kernel)
/-- The same lane, with a negative number in v4:v5. -/
def sigD : State := sig.onW fun w => w.setVP 4 0x0020 fun _ => 0xBFF0000000000000
theorem hyp_FpInvalidTraps_words : sigD.w.fpinv = true ∧ Handles sigD.w ∧ sigD.w.atLimit (flagOf c0.fa) = false ∧
    LaneIssues sigD { p0 with mask := 0x0020 } c0 G (vRef (wdOf (Fmt.wide .f32)) 1 ++ vRef (wdOf (Fmt.wide .f32)) 2 ++ [.p (1 : BitVec 3).toNat]) ∧
    Issues sigD { p0 with mask := 0x0020 } c0 (vRef .w32 1 ++ vRef .w32 2 ++ vRef .w32 2 ++ vRef .w32 3) ∧
    Issues sigD { p0 with mask := 0x0020 } c0 (vRef .w64 4 ++ vRef .w64 6 ++ vRef .w64 6 ++ vRef .w64 8) ∧
    LaneIssues sigD { p0 with mask := 0x0020 } c0 G (vRef (wdOf (CvtT.wide .f32)) 1 ++ vRef (wdOf (CvtT.wide .f64)) 8) ∧
    LaneIssues sigD { p0 with mask := 0x0020 } c0 G ([.v (1 : Reg).toNat] ++ vRef .w32 3) ∧ LaneIssues sigD { p0 with mask := 0x0020 } c0 G ((vPair 4 ++ vPair 6) ++ vRef .w64 8) ∧
    LaneIssues sigD { p0 with mask := 0x0020 } c0 G (vPair 4 ++ vRef .w64 8) ∧ LaneIssues sigD { p0 with mask := 0x0020 } c0 G (vRef (wdOf (RedOp.wide .addF32)) 1 ++ vRef (wdOf (RedOp.wide .addF32)) 3) ∧
    (∀ l < 16, (0x0020 : Mask).getLsbD l = (sigD.w.admitted { p0 with mask := 0x0020 } G).getLsbD l) ∧ sigD.w.admitted { p0 with mask := 0x0020 } G ≠ 0 ∧ unguarded sigD { p0 with mask := 0x0020 } = 0x0020 ∧
    (let w := sigD.w
     let a := w.vNat .w32 1 5
     (fp32.add w.rm w.ftz true a 0).2.nv = true ∧ (fp32.mul w.rm w.ftz a 0).2.nv = true ∧ (fp32.minMax w.ftz false a 0).2.nv = true ∧ (fp32.compare w.ftz .eq a 0).2.nv = true ∧
     (fp32.fma w.rm w.ftz false a 0 0).2.nv = true ∧ (cvtValue .f64 .f32 w.rm w.ftz a).2.nv = true ∧
     ([SfuOp.rcp, .rsq, .exp2, .log2, .sin, .cos].all fun o => (sfu o w.ftz (w.V 1 5)).2.nv) = true ∧ (fp64.div w.rm w.ftz (w.vNat .w64 6 5) (w.vNat .w64 6 5)).2.nv = true ∧
     (fp64.sqrt w.rm w.ftz (w.vNat .w64 4 5)).2.nv = true ∧
     (redTree (redStep w.rm w.ftz .addF32) ((List.range 16).map fun l => if (0x0020 : Mask).getLsbD l then w.vNat .w32 1 l else redIdentity .addF32)).2.2 ≠ 0) := by
  and_intros
  all_goals first | decide +kernel | exact lane_of (by decide +kernel) | exact issues_of (by decide +kernel) | exact handles_of (by decide +kernel)
/-- R67: the canonical NaN and NV are written, then cause 8. -/
theorem test_fpinv : out (.fadd G .f32 3 1 2) sig = 0x7FC00000 ∧ (run (.fadd G .f32 3 1 2) sig).w.fpstat = 1 ∧
    (run (.fadd G .f32 3 1 2) sig).w.tlanes = 0x0020 ∧ (run (.fadd G .f32 3 1 2) sig).w.trpc = 0x10000 := by decide +kernel
theorem hyp_FpSpecialOperands :
    (fp32.decode (fp32.flush false 0x7FC00000)).isNan = true ∧ (fp32.decode (fp32.flush false 0x7F800001)).isSig = true ∧
    fp32.decode (fp32.flush false 0x7F800000) = .inf false ∧ fp32.decode (fp32.flush false 0xFF800000) = .inf true ∧ (false ≠ (true != false)) ∧
    (fp32.decode (fp32.flush false 0x80000000)).isZero = true ∧ (fp32.decode (fp32.flush false 0xFF800000)).isInf = true ∧
    fp32.decode (fp32.flush false 0x00000001) = .fin false 1 (-149) ∧ fp32.decode (fp32.flush false 0x80000001) = .fin true 1 (-149) := by
  decide +kernel
theorem hyp_RoundingKeepsRepresentable : fp32.decode 1 = .fin false 1 (-149) ∧ fp32.decode 0x7F7FFFFF = .fin false 0xFFFFFF 104 ∧
    0x7F7FFFFF < 2 ^ wdBits (wdOf (Fmt.wide .f32)) := by decide +kernel
/-- A block with eight seed registers. -/
def seeded : State := lab.onBlk lab.w.blk fun k => { k with seeds := 8 }
theorem hyp_NarrowWiden_values : (roundDM8 (some (-1, 60))).2 = true ∧ (roundDM8 (some (1, -30))).2 = false ∧ (0xFF : Nat) < 256 ∧ 0xFF ≠ 0x80 ∧
    fp32.decode (decodeDM8 0xFF) = .fin true 10190848 (-20) ∧ fp32.decode (decodeMX 0x7F 254) = .fin false (127 * 2 ^ 17) 104 ∧ ¬ ((0x7F : Nat) = 0x80 ∧ 254 = 254) ∧ (none : ExactR) ∈ [none, some (1, 0)] ∧
    (quantMX ([((3 : Int), (0 : Int)), (-1, 0)].map some)).1 = 128 ∧ (quantMX ([((3 : Int), (0 : Int)), (-1, 0)].map some)).2[1]? = some (0xE0, false) ∧
    (List.replicate 16 (1 : Int)).length = 16 ∧ fp32.decode 0x40400000 = .fin false 0xC00000 (-22) ∧ (fp32.decode 0x7FC00000).isNan = true ∧ (fp32.decode 0xFF800000).isInf = true := by decide +kernel
/-- R73: a block of one element with s0 of 0 keeps its value, 3. -/
theorem test_rotation : (rotNarrow [0x40400000] 0 1 0).map (fun x => x.map fun y => y.1 * 2 ^ 40 == 3 * 2 ^ (40 - y.2).toNat) = [some true] := by decide +kernel
theorem hyp_NarrowWiden : (7 : BitVec 3).toNat < seeded.myBlk.seeds ∧
    LaneIssues seeded p0 c0 G (vQuad 4 ++ [.s 58, .s 59] ++ (vPair 8 ++ [.s 56, .s 57])) ∧
    LaneIssues seeded p0 c0 G (vPair 4 ++ [.s 58, .s 59] ++ vQuad 8) ∧ seeded.w.admitted p0 G ≠ 0 := by
  and_intros
  all_goals first | decide +kernel | exact uni_of (by decide +kernel) | exact lane_of (by decide +kernel) | exact end_of (by decide +kernel) |
    exact issues_of (by decide +kernel) | exact handles_of (by decide +kernel)

/-! ## Crossing lanes -/

theorem hyp_LaneMoves : LaneIssues lab p0 c0 G ((vRef .w64 4 ++ []) ++ vRef .w64 8) ∧ LaneIssues lab p0 c0 G ((vRef .w32 1 ++ [.v 2]) ++ vRef .w32 3) ∧
    LaneIssues lab p0 c0 G (vRef .w32 1 ++ vRef .w32 3) ∧ (lab.w.admitted p0 G).getLsbD 0 = true := ⟨lab_lane _, lab_lane _, lab_lane _, rfl⟩
/-- Every lane holds its own number, tenfold. -/
def tens : State := lab.onW fun w => w.setV 1 all fun l => BitVec.ofNat 32 (10 * l)
/-- Distances 8 and 1: forward from lane l + d, back from lane l − d, swapped with lane l xor d. -/
theorem test_shuffles : (run (.shflFwd G .w32 3 1 4) tens).w.V 3 15 = 0 ∧ (run (.shflBack G .w32 3 1 4) tens).w.V 3 0 = 150 ∧
    (run (.shflSwap G .w32 3 1 1) tens).w.V 3 2 = 100 ∧ (run (.bcast G .w32 3 1 7) tens).w.V 3 0 = 70 := by decide +kernel
/-- A lane that is not active still gives its value; the lowest active lane gives BCAST's. -/
theorem test_shuffle_from : (run (.shflFrom G .w32 3 1 2) ((onPath { p0 with mask := 0x0020 }).onW fun w => ((w.setV 1 all fun l => BitVec.ofNat 32 (10 * l)).setV 2 all fun _ => 23))).w.V 3 5 = 70 ∧
    (run (.bcastLow G .w32 3 1) ((onPath { p0 with mask := 0xFFF0 }).onW fun w => w.setV 1 all fun l => BitVec.ofNat 32 (10 * l))).w.V 3 9 = 40 := by decide +kernel
theorem hyp_VotesAndReductions : LaneIssues lab p0 c0 G ([.p 0] ++ [.v 3]) ∧ LaneIssues lab p0 c0 G ((.p 0 :: [.s 1]) ++ [.p 7]) ∧
    LaneIssues lab p0 c0 G ((.p 0 :: []) ++ [.p 6]) ∧ LaneIssues lab p0 c0 G (vRef (wdOf (RedOp.wide .addB64)) 4 ++ vRef (wdOf (RedOp.wide .addB64)) 8) ∧
    (lab.w.fpinv = true → (redTree (redStep lab.w.rm lab.w.ftz .addB64) ((List.range 16).map fun l =>
      if (lab.w.admitted p0 G).getLsbD l then lab.w.vNat .w64 4 l else redIdentity .addB64)).2.2 = 0) :=
  ⟨lab_lane _, lab_lane _, lab_lane _, lab_lane _, fun h => absurd h (by decide +kernel)⟩
/-- p0 is true in lanes 5 and 6 of the active lanes 4 to 7. -/
def voters : State := (onPath { p0 with mask := 0x00F0 }).onW fun w => (w.setP 0 all 0xFF60).setV 1 all fun l => BitVec.ofNat 32 l
theorem test_votes : (run (.voteCount G 3 0 false) voters).w.V 3 4 = 2 ∧ (run (.voteRank G 3 0 false) voters).w.V 3 6 = 1 ∧
    (run (.voteMask G 3 0 true) voters).w.V 3 4 = 0x90 ∧ (run (.voteEvery G 1 0 false) voters).w.P 1 = 0 ∧ (run (.voteAgree G 1 7 false) voters).w.P 1 = 0x00F0 ∧
    (run (.voteAtleast G 1 0 false 59) voters).w.P 1 = 0x00F0 := by decide +kernel
theorem test_lred : (run (.lred G .addB32 3 1) voters).w.V 3 4 = 22 ∧ (run (.lred G .maxI32 3 1) voters).w.V 3 7 = 7 := by decide +kernel

/-! ## Seams -/

/-- Groups of two lanes with limbs of 32 and of 64 bits, and overflow trapping. -/
def seamed (x : Word) : State := lab.onW fun w => { w with seam := x }
theorem seamed_issues (x : Word) (l : List RegRef) (h : (seamed x).w.overflowing = false) : Issues (seamed x) p0 c0 l := ⟨rfl, rfl, rfl, h⟩
theorem seamed_lane (l : List RegRef) : LaneIssues (seamed 1) p0 c0 G l ∧ LaneIssues (seamed 0x11) p0 c0 G l ∧ LaneIssues (seamed 0x201) p0 c0 G l ∧
    LaneIssues (seamed 0x41D) p0 c0 G l := by
  refine ⟨⟨seamed_issues _ _ rfl, ?_⟩, ⟨seamed_issues _ _ rfl, ?_⟩, ⟨seamed_issues _ _ rfl, ?_⟩, seamed_issues _ _ rfl, ?_⟩ <;> decide +kernel
theorem hyp_SeamIntegers : (seamed 0x201).w.bound = true ∧ (seamed 0x201).w.limbW = 32 ∧ (seamed 0x11).w.limbW = 64 ∧ (seamed 0x201).w.ovfen = true ∧
    (seamed 0x201).w.admitted p0 G ≠ 0 ∧ (∀ k ∈ (seamed 0x201).w.seamGroups all, (seamed 0x201).w.outOfRange ((seamed 0x201).w.X 1 k + (seamed 0x201).w.X 2 k) = false) ∧
    LaneIssues (seamed 0x201) p0 c0 G (((seamed 0x201).w.limbRef 3 ++ (seamed 0x201).w.limbRef 1) ++ (seamed 0x201).w.limbRef 2) ∧
    LaneIssues (seamed 0x201) p0 c0 G (((seamed 0x201).w.limbRef 3 ++ (seamed 0x201).w.limbRef 1) ++ sPair 4) := by
  and_intros
  all_goals first | decide +kernel | exact uni_of (by decide +kernel) | exact lane_of (by decide +kernel) | exact end_of (by decide +kernel) |
    exact issues_of (by decide +kernel) | exact handles_of (by decide +kernel)
/-- Lane 2k holds the low limb: 2^32 − 1 + 1 carries into lane 2k + 1. -/
theorem test_sadd : (run (.sadd G 3 1 2) ((seamed 1).onW fun w => (w.setV 1 0x0003 fun l => if l = 0 then 0xFFFFFFFF else 0).setV 2 0x0001 fun _ => 1)).w.V 3 0 = 0 ∧
    (run (.sadd G 3 1 2) ((seamed 1).onW fun w => (w.setV 1 0x0003 fun l => if l = 0 then 0xFFFFFFFF else 0).setV 2 0x0001 fun _ => 1)).w.V 3 1 = 1 := by decide +kernel
theorem test_sshr : (run (.sshrI G false 3 1 1) ((seamed 1).onW fun w => w.setV 1 0x0003 fun l => if l = 0 then 1 else 0x80000000)).w.V 3 1 = 0xC0000000 ∧
    (run (.sshrI G false 3 1 1) ((seamed 1).onW fun w => w.setV 1 0x0003 fun l => if l = 0 then 1 else 0x80000000)).w.seam = 0x801 := by decide +kernel
theorem hyp_SeamResults : (seamed 0x11).w.bound = true ∧ (seamed 0x11).w.admitted p0 G ≠ 0 ∧ (5 : BitVec 3).toNat < 6 ∧
    LaneIssues (seamed 0x11) p0 c0 G (((seamed 0x11).w.limbRef 4 ++ (seamed 0x11).w.limbRef 6) ++ [.p 7]) ∧
    LaneIssues (seamed 0x11) p0 c0 G ((seamed 0x11).w.limbRef 4 ++ [.p 5, .p 6]) ∧ LaneIssues (seamed 0x11) p0 c0 G ((seamed 0x11).w.limbRef 4 ++ vPair 8) :=
  ⟨rfl, by decide +kernel, by decide, (seamed_lane _).2.1, (seamed_lane _).2.1, (seamed_lane _).2.1⟩
/-- Group 0 holds −1 and 0 in v1 and v2. -/
theorem test_scmp : ((run (.scmp G .lt 1 1 2) ((seamed 1).onW fun w => w.setV 1 0x0003 fun _ => 0xFFFFFFFF)).w.P 1).getLsbD 1 = true ∧
    ((run (.scmp G .lt 1 1 2) ((seamed 1).onW fun w => w.setV 1 0x0003 fun _ => 0xFFFFFFFF)).w.P 1).getLsbD 2 = false := by decide +kernel
theorem hyp_ExactAccumulation : (seamed 0x41D).w.bound = true ∧ (seamed 0x41D).w.admitted p0 G ≠ 0 ∧ (4 : Reg).toNat % 2 = 0 ∧
    LaneIssues (seamed 0x41D) p0 c0 G ((seamed 0x41D).w.limbRef 4 ++ (vPair 6 ++ vPair 8)) ∧
    (∀ k ∈ (seamed 0x41D).w.seamGroups all, (seamed 0x41D).w.fxSum .mad 6 8 k = some 0) ∧ (seamed 0x41D).w.wmode = true ∧
    (∀ k ∈ (seamed 0x41D).w.seamGroups all, (seamed 0x41D).w.outOfRange (fxFloor 0 (sv 32 (seamed 0x41D).w.fxbase.toNat)).1 = false) := by
  refine ⟨rfl, by decide +kernel, rfl, (seamed_lane _).2.2.2, by decide +kernel, rfl, by decide +kernel⟩
/-- 1.0 in lane 0 adds one unit of 2^0. -/
theorem test_fxacc : (run (.fxacc G .add 3 4 4) ((seamed 1).onW fun w => w.setVP 4 0x0001 fun _ => 0x3FF0000000000000)).w.V 3 0 = 1 := by decide +kernel
/-- A seam word, a load and a floating-point word in flight. -/
def busy : State := lab.onW fun w => { w with pend := [⟨[], 0, none, 0, .timed, true, false, true, true, 0, all, []⟩] }
theorem hyp_SeamBinding : UniIssues lab p0 c0 G [] ∧ lab.w.pend.any (·.seam) = false ∧
    (∀ k < 16 / 2 ^ (1 + (3 : BitVec 2).toNat), (lab.laneSets.filter fun x => x &&& groupMask (2 ^ (1 + (3 : BitVec 2).toNat)) k != 0).length ≤ 1) ∧
    UniIssues busy p0 c0 G [] ∧ busy.w.pend.any (·.seam) = true := by
  and_intros
  all_goals first | decide +kernel | exact uni_of (by decide +kernel) | exact lane_of (by decide +kernel) | exact end_of (by decide +kernel) |
    exact issues_of (by decide +kernel) | exact handles_of (by decide +kernel)
theorem test_stitch : (run (.stitch G true 3) lab).w.seam = 0x1D ∧ (run (.unstitch G) (seamed 0xE1D)).w.seam = 0xE00 := by decide +kernel

/-! ## Memory -/

/-- Lane 5 at the edge of a clause with flags; v1 is its offset, s0:s1 the base 0x20000, where eight bytes stand. -/
def q5 : Path := { p1 with mask := 0x0020 }
def world : State := ((onPath q5).onW fun w => w.setSP 0 0x20000).pokeN 0x20000 8 0x1122334455667788
theorem world_lane (l : List RegRef) (h : world.w.blocked (.p 7 :: l) = false) : LaneIssues world q5 c1 G l := ⟨⟨rfl, rfl, h, rfl⟩, rfl⟩
def spot (n : Nat) (uc : Bool) : List Loc := (List.range n).map fun i => .glob (0x20000 + i) uc
theorem direct_spot : AllDirect world (spot 4 false) [0x20000, 0x20001, 0x20002, 0x20003] := by
  refine ⟨⟨rfl, ?_⟩, ⟨rfl, ?_⟩, ⟨rfl, ?_⟩, ⟨rfl, ?_⟩, trivial⟩ <;> decide +kernel
theorem hyp_Loads : LaneIssues world q5 c1 G ([.v 1, .s (2 * (0 : BitVec 3).toNat), .s (2 * (0 : BitVec 3).toNat + 1)] ++ (List.range 1).map fun j => .v (3 + j)) ∧
    world.w.admitted q5 G ≠ 0 ∧ world.w.gone ≠ all ∧ world.w.atLimit (flagOf c1.fa) = false ∧
    world.capped 0x0020 (fun l => world.w.SP 0 + (world.w.V 1 l).signExtend 64 + BitVec.ofNat 64 (4 * 0)) = false ∧
    Resolves world 0x0020 4 .load true (fun l => world.w.SP 0 + (world.w.V 1 l).signExtend 64 + BitVec.ofNat 64 (4 * 0)) (fun _ => spot 4 false) ∧
    world.poisonedLanes [⟨5, 0x20000, .ok (spot 4 false)⟩] true = none ∧ AllDirect world (spot 4 false) [0x20000, 0x20001, 0x20002, 0x20003] := by
  refine ⟨world_lane _ rfl, by decide +kernel, by decide +kernel, by decide +kernel, by decide +kernel, ?_, by decide +kernel, direct_spot⟩
  intro l hl h
  have : l = 5 := by
    revert h; revert hl; revert l; decide
  subst this; decide +kernel
theorem test_loads : out (.ldB32 G 3 1 0 0) world = 0x55667788 ∧ out (.ldI8 G 3 1 0 1) world = 0x77 ∧ out (.ldI16 G 3 1 0 0) world = 0x7788 ∧
    outD (.ldB64 G 8 1 0 0) world = 0x1122334455667788 := by decide +kernel
/-- The displacement counts in units of the size; .i8 extends the sign. -/
theorem test_load_signs : out (.ldI8 G 3 1 0 0) world = 0xFFFFFF88 ∧ out (.ldN8 G 3 1 0 0) world = 0x88 ∧ out (.ldN16 G 3 1 0 1) world = 0x5566 := by decide +kernel
theorem hyp_Stores : LaneIssues world q5 c1 G ([.v 1, .s (2 * (0 : BitVec 3).toNat), .s (2 * (0 : BitVec 3).toNat + 1)] ++ (List.range 1).map fun j => .v (3 + j)) ∧
    Resolves world 0x0020 4 .store false (fun l => world.w.SP 0 + (world.w.V 1 l).signExtend 64 + BitVec.ofNat 64 (4 * 0)) (fun _ => spot 4 false) ∧
    AllDirect world (spot 4 false) [0x20000, 0x20001, 0x20002, 0x20003] ∧ Apart world 0x20004 0x20003 := by
  refine ⟨world_lane _ rfl, ?_, direct_spot, by decide, Or.inl (by decide)⟩
  intro l hl h
  have : l = 5 := by
    revert h; revert hl; revert l; decide
  subst this; decide +kernel
theorem test_stores : (run (.stN16 G 3 1 0 1) (world.onW fun w => w.setV 3 0x0020 fun _ => 0xABCDEF01)).peekN 0x20000 8 = 0x11223344EF017788 ∧
    (run (.stB64 G 4 1 0 0) (world.onW fun w => w.setVP 4 0x0020 fun _ => 0x0102030405060708)).peekN 0x20000 8 = 0x0102030405060708 := by decide +kernel
/-- A block with local memory whose row 0 is written; s0:s1 is the local window. -/
def indoor : State :=
  let s := ((onPath q5).onW fun w => (w.setSP 0 0xFFFF00000000).setV 3 0x0020 fun _ => 5).onBlk lab.w.blk fun k => { k with localSize := 64 }
  ({ s with rowValid := [(0, true)] }).pokeN (localKey 0 0) 4 7
theorem indoor_lane (l : List RegRef) (h : indoor.w.blocked (.p 7 :: l) = false) : LaneIssues indoor q5 c1 G l := ⟨⟨rfl, rfl, h, rfl⟩, rfl⟩
def rowSpot (n : Nat) : List Loc := (List.range n).map fun i => .loc 0 i
theorem hyp_LaneAtomics : LaneIssues indoor q5 c1 G ([.v 1, .s (2 * (0 : BitVec 3).toNat), .s (2 * (0 : BitVec 3).toNat + 1)]
      ++ (List.range (if AtomOp.add = .cas then 2 * 1 else 1)).map fun j => .v (3 + j)) ∧ indoor.w.gone ≠ all ∧ indoor.w.atLimit (flagOf c1.fa) = false ∧
    indoor.w.admitted q5 G = 1#16 <<< 5 ∧ indoor.capped 0x0020 (fun l => indoor.w.SP 0 + (indoor.w.V 1 l).signExtend 64) = false ∧
    Resolves indoor 0x0020 4 .atomic true (fun l => indoor.w.SP 0 + (indoor.w.V 1 l).signExtend 64) (fun _ => rowSpot 4) ∧
    indoor.poisonedLanes [⟨5, 0xFFFF00000000, .ok (rowSpot 4)⟩] false = none ∧ rowSpot 4 = [(0, 0), (0, 1), (0, 2), (0, 3)].map (fun x => .loc x.1 x.2) ∧
    ([(0, 0), (0, 1), (0, 2), (0, 3)].map fun x : Nat × Nat => localKey x.1 x.2).Nodup := by
  refine ⟨indoor_lane _ rfl, by decide +kernel, by decide +kernel, by decide +kernel, by decide +kernel, ?_, by decide +kernel, rfl, by decide +kernel⟩
  intro l hl h
  have : l = 5 := by
    revert h; revert hl; revert l; decide
  subst this; decide +kernel
/-- R160: the order of lanes is free, so the values are tested on the operation itself and on one uniform atomic. -/
theorem test_atomics : atomNew .add 32 7 0xFFFFFFFE 0 = 5 ∧ atomNew .smax 32 0xFFFFFFFF 5 0 = 5 ∧ atomNew .umax 32 0xFFFFFFFF 5 0 = 0xFFFFFFFF ∧
    atomNew .exch 64 7 9 0 = 9 ∧ atomNew .cas 32 7 9 7 = 9 ∧ atomNew .cas 32 7 9 8 = 7 := by decide +kernel
theorem test_cas : (run (.uatomB32 G .cas .dev .rlx 3 0) (indoor.onW fun w => (w.setS 3 7).setS 4 9)).peekN (localKey 0 0) 4 = 9 ∧
    (run (.uatomB32 G .cas .dev .rlx 3 0) (indoor.onW fun w => (w.setS 3 8).setS 4 9)).peekN (localKey 0 0) 4 = 7 := by decide +kernel
theorem hyp_UniformAccesses : UniIssues world q5 c1 G (sPair 0 ++ sRef .w32 3) ∧ world.w.atLimit (flagOf c1.fb) = false ∧
    world.reach world.myCore world.myBlk 0x20000 4 .load true = .ok (spot 4 false) ∧ world.poisonedLanes [⟨0, 0x20000, .ok (spot 4 false)⟩] true = none ∧
    world.reach world.myCore world.myBlk 0x20000 4 .store false = .ok (spot 4 false) ∧ [0x20000, 0x20001, 0x20002, 0x20003].Nodup ∧
    UniIssues indoor q5 c1 G (sPair 0 ++ (List.range (if AtomOp.add = .cas then 2 * (32 / 32) else 32 / 32)).map fun j => .s (3 + j)) ∧
    indoor.reach indoor.myCore indoor.myBlk 0xFFFF00000000 4 .atomic true = .ok (rowSpot 4) ∧
    world.w.pend.any (·.mem) = false ∧ UniIssues busy p0 c0 G [] ∧ busy.w.pend.any (·.mem) = true := by
  and_intros
  all_goals first | decide +kernel | exact uni_of (by decide +kernel) | exact lane_of (by decide +kernel) | exact end_of (by decide +kernel) |
    exact issues_of (by decide +kernel) | exact handles_of (by decide +kernel)
theorem test_uniform_accesses : outS (.uldB32 G 3 0 1) world = 0x11223344 ∧ outSD (.uldB64 G 8 0 0) world = 0x1122334455667788 ∧
    (run (.ustB32 G 3 0 1) (world.onW fun w => w.setS 3 0xA)).peekN 0x20000 8 = 0xA55667788 ∧ outS (.uatomB32 G .add .dev .rlx 3 0) indoor = 7 := by decide +kernel

/-! ## Uniform words -/

theorem hyp_UniformArithmetic : UniIssues lab p0 c0 G (sRef .w64 4 ++ sRef .w64 6 ++ sRef .w64 8) ∧ UniIssues lab p0 c0 G (sRef .w32 1 ++ sRef .w32 2 ++ [.q 7]) ∧
    Issues lab p0 c0 (.q (0 : BitVec 3).toNat :: (sRef .w32 1 ++ sRef .w32 2 ++ sRef .w32 3)) ∧ lab.w.passes ⟨0, false⟩ = false := ⟨lab_uni _, lab_uni _, lab_issues _, rfl⟩
theorem test_uadd : outS (.uadd G .w32 3 1 2) (uni 0xFFFFFFFF 2) = 1 ∧ outSD (.usub G .w64 8 4 6) (uniD 0 1) = 0xFFFFFFFFFFFFFFFF ∧
    outS (.umul G .w32 3 1 2) (uni 0x10001 0x10001) = 0x20001 := by decide +kernel
theorem test_umulh : outS (.umulh G true 3 1 2) (uni 0xFFFFFFFF 2) = 0xFFFFFFFF ∧ outS (.umulh G false 3 1 2) (uni 0xFFFFFFFF 2) = 1 ∧
    outS (.umin G .i32 3 1 2) (uni 0xFFFFFFFF 1) = 0xFFFFFFFF ∧ outS (.umax G .n32 3 1 2) (uni 0xFFFFFFFF 1) = 0xFFFFFFFF := by decide +kernel
theorem test_ucmp : (run (.ucmp G .lt .i32 1 1 2) (uni 0xFFFFFFFF 1)).w.Q 1 = true ∧ (run (.ucmp G .lt .n32 1 1 2) (uni 0xFFFFFFFF 1)).w.Q 1 = false ∧
    (run (.ucmp G .ne .i32 7 1 2) (uni 1 1)).w.Q 7 = true := by decide +kernel
theorem hyp_UniformLogicAndConstants : UniIssues lab p0 c0 G (sRef .w64 4 ++ sRef .w64 6 ++ sRef .w64 8) ∧ UniIssues lab p0 c0 G (sRef .w64 4 ++ [.s 2] ++ sRef .w64 8) ∧
    UniIssues lab p0 c0 Guard.always ((.q 0 :: sRef .w32 1 ++ sRef .w32 2) ++ sRef .w32 3) ∧ UniIssues lab p0 c0 G ([.s 1] ++ [.s 3]) ∧
    UniIssues lab p0 c0 Guard.always ([] ++ [.s 3]) ∧ UniIssues lab p0 c0 Guard.always ([.s 3] ++ [.s 3]) :=
  ⟨lab_uni _, lab_uni _, lab_uni _, lab_uni _, lab_uni _, lab_uni _⟩
theorem test_ulogic : outS (.uand G .w32 3 1 2) (uni 0xF0F0 0xFF00) = 0xF000 ∧ outS (.uor G .w32 3 1 2) (uni 0xF0F0 0xFF00) = 0xFFF0 ∧
    outS (.uxor G .w32 3 1 2) (uni 0xF0F0 0xFF00) = 0x0FF0 ∧ outS (.usel ⟨0, true⟩ .w32 3 1 2) (uni 7 9) = 7 := by decide +kernel
theorem test_ushifts : outS (.ushl G .w32 3 1 2) (uni 1 32) = 0 ∧ outS (.ushr G .i32 3 1 2) (uni 0x80000000 40) = 0xFFFFFFFF ∧
    outS (.ushlImm G 3 1 31) (uni 3 0) = 0x80000000 ∧ outS (.ushrImm G false 3 1 4) (uni 0xFFFFFF00 0) = 0x0FFFFFF0 := by decide +kernel
/-- UADD's immediate is signed; UOR's is not. -/
theorem test_uimmediates : outS (.uaddImm G 3 1 0xFF) (uni 5 0) = 4 ∧ outS (.uorImm G 3 1 0xFF) (uni 0x100 0) = 0x1FF ∧
    outS (.uandImm G 3 1 0x80) (uni 0xFFFFFFFF 0) = 0x80 ∧ outS (.uxorImm G 3 1 0xFF) (uni 0xF 0) = 0xF0 := by decide +kernel
theorem test_uconstants : outS (.umovi 3 0x3FFFF) lab = 0xFFFFFFFF ∧ outS (.ului 3 0x20001) (lab.onW fun w => w.setS 3 0xFFFFFFFF) = 0x80007FFF := by decide +kernel
theorem hyp_SpecialRegisters : (0x02, Wd.w32, 0) ∈ specialValues lab ∧ UniIssues lab p0 c0 G ([] ++ sRef .w32 4) ∧ UniIssues lab p0 c0 G ([] ++ sRef .w64 4) ∧
    UniIssues lab p0 c0 G (sRef .w32 4) ∧ UniIssues lab p0 c0 G (sRef .w64 4) ∧ (255 : Word).toNat ≤ 255 ∧ (0xF1D : Word) &&& 0xFFFFF0E0 = 0 ∧ (15 : Word).toNat < 16 ∧
    (31 : Word).toNat < 32 ∧ (0xFFFF818B : Word) &&& 0x7E60 = 0 ∧ ((0xFFFF818B : Word) &&& 0x1F).toNat < 12 ∧ Handles (guarded_ lab).w ∧ 255 < (256 : Word).toNat ∧
    encode (.usw G 0x0A 4) = some 0x95E0040A := by
  refine ⟨by decide +kernel, lab_uni _, lab_uni _, lab_uni _, lab_uni _, ?_⟩
  refine ⟨by decide, by decide, by decide, by decide, by decide, by decide, ⟨by decide +kernel, by decide +kernel⟩, by decide, rfl⟩
theorem test_usr : outS (.usr G 3 0x0A) lab = 8 ∧ (run (.usw G 0x0A 1) (uni 255 0)).w.quantum = 255 ∧ (run (.usw G 0x0A 1) (guarded_ (uni 256 0))).w.pmask = all ∧
    (run (.usw G 0x0A 1) (guarded_ (uni 256 0))).w.trpc = 0x10000 := by decide +kernel

/-! ## Control words -/

/-- CLAUSE words stand at 0x10010 and 0x10020. -/
def paved : State := (lab.pokeN 0x10010 4 0x80000FF0).pokeN 0x10020 4 0x80000FF0
theorem paved_end (l : List RegRef) : EndIssues paved p0 c0 G l := ⟨⟨⟨rfl, rfl, rfl, rfl⟩, rfl⟩, rfl⟩
theorem hyp_Transfers : EndIssues paved p0 c0 G [.s 62, .s 63] ∧ paved.landing (p0.pc + ((4 : BitVec 21).signExtend 64 <<< 2)) = .good ∧
    EndIssues (guarded_ lab) p0 c0 G (sPair 4) ∧ (guarded_ lab).landing 2 = .bad ∧ Handles (guarded_ lab).w ∧
    Issues lab p0 c0 [.q (0 : BitVec 3).toNat] ∧ c0.idx = c0.len ∧ lab.w.passes ⟨0, false⟩ = false ∧
    Issues (onPath { p0 with clause := some ⟨0, 1, 15, 15, []⟩ }) { p0 with clause := some ⟨0, 1, 15, 15, []⟩ } ⟨0, 1, 15, 15, []⟩ [.q 7] ∧ encode (.br G 4) = some 0xA0E00004 := by
  and_intros
  all_goals first | decide +kernel | exact uni_of (by decide +kernel) | exact lane_of (by decide +kernel) | exact end_of (by decide +kernel) |
    exact issues_of (by decide +kernel) | exact handles_of (by decide +kernel)
theorem test_transfers : (run (.br G 4) paved).w.pmask = all ∧ (run (.br G 4) paved).w.path.map (·.pc) = some 0x10010 ∧
    (run (.call G 8) paved).w.path.map (·.pc) = some 0x10020 ∧ (run (.call G 8) paved).w.SP 62 = 0x10004 ∧
    (run (.jmpi G 4) (guarded_ (paved.onW fun w => w.setSP 4 0x10014))).w.trpc = 0x10014 := by decide +kernel
/-- The lanes of p0 take the target 0x10010; the join is 0x10020. -/
def fork_ (m : Mask) : State := paved.onW fun w => { w with p := [(0, m)], stackLimit := 8 }
theorem hyp_Splits : c0.idx = c0.len ∧ lab.w.bound = false ∧ p0.mask ≠ 0 ∧ Issues (fork_ 0x8001) p0 c0 [.p (0 : BitVec 3).toNat] ∧ (fork_ 0x8001).w.depth = 0 ∧
    p0.mask &&& (fork_ all).w.guardMask ⟨0, false⟩ = p0.mask ∧ p0.mask &&& (fork_ 0).w.guardMask ⟨0, false⟩ = 0 ∧
    p0.mask &&& (fork_ 0x8001).w.guardMask ⟨0, false⟩ = 0x8001 ∧ (fork_ 0x8001).landing 0x10010 = .good ∧ (fork_ 0x8001).landing 0x10020 = .good ∧
    (fork_ 0x8001).w.other = none ∧ (fork_ 0x8001).w.stk.length ≤ 3 ∧ (fork_ 0x8001).w.stk.length + (fork_ 0x8001).w.below < (fork_ 0x8001).w.stackLimit ∧
    EndIssues paved p0 c0 G (vPair 4) ∧
    (∀ l < 16, p0.mask.getLsbD l = true → (paved.onW fun w => w.setVP 4 all fun l => if l < 8 then 0x10010 else 0x10020).w.VP (4 : Reg).toNat l =
      if (0x00FF : Mask).getLsbD l = true then 0x10010 else 0x10020) := by
  and_intros
  all_goals first | decide +kernel | exact uni_of (by decide +kernel) | exact lane_of (by decide +kernel) | exact end_of (by decide +kernel) |
    exact issues_of (by decide +kernel) | exact handles_of (by decide +kernel)
theorem test_brl : (run (.brl ⟨0, false⟩ 4 8) (fork_ 0x8001)).w.a.map (fun p => (p.pc, p.mask)) = some (0x10010, 0x8001) ∧
    (run (.brl ⟨0, false⟩ 4 8) (fork_ 0x8001)).w.b.map (fun p => (p.pc, p.mask, p.join)) = some (0x10004, 0x7FFE, some 0x10020) ∧
    (run (.brl ⟨0, false⟩ 4 8) (fork_ 0x8001)).w.stk = [.frame 0x10020 all 0 none] := by decide +kernel
theorem test_jmpl : (run (.jmpl G 4 8) ((fork_ 0).onW fun w => w.setVP 4 all fun l => if l < 8 then 0x10010 else 0x10020)).w.a.map (fun p => (p.pc, p.mask)) = some (0x10010, 0x00FF) := by decide +kernel
/-- Four loops are open, the innermost ending at 0x1000C. -/
def looped (n : Nat) : State := paved.onW fun w => { w with depth := n, loops := [(3, ⟨0x10004, 0x1000C, 2⟩)] }
theorem hyp_Loops : Issues lab p0 c0 [.q (7 : BitVec 3).toNat, .s 1] ∧ lab.w.passes G = true ∧ (uni 1 0).w.S 1 ≠ 0 ∧ (looped 3).w.depth < 4 ∧ lab.w.passes ⟨0, false⟩ = false ∧
    lab.w.S 1 = 0 ∧ paved.landing (p0.pc + ((3 : BitVec 8).setWidth 64 <<< 2) + 4) = .good ∧ (guarded_ lab).landing (p0.pc + ((255 : BitVec 8).setWidth 64 <<< 2) + 4) = .bad ∧
    4 ≤ (looped 4).w.depth ∧ Handles (guarded_ (looped 4)).w ∧ EndIssues (looped 4) p0 c0 G [] ∧ 0 < (looped 4).w.depth ∧
    (looped 4).w.loops.get ⟨0, 0, 0⟩ ((looped 4).w.depth - 1) = ⟨0x10004, 0x1000C, 2⟩ ∧ (looped 4).landing (0x1000C + 4) = .good ∧ lab.w.depth = 0 := by
  and_intros
  all_goals first | decide +kernel | exact uni_of (by decide +kernel) | exact lane_of (by decide +kernel) | exact end_of (by decide +kernel) |
    exact issues_of (by decide +kernel) | exact handles_of (by decide +kernel)
theorem test_loop : (run (.loop G 1 3) (paved.onW fun w => w.setS 1 7)).w.loops.get ⟨0, 0, 0⟩ 0 = ⟨0x10004, 0x1000C, 7⟩ ∧ (run (.loop G 1 3) (paved.onW fun w => w.setS 1 7)).w.depth = 1 ∧
    (run (.loop G 1 3) paved).w.path.map (·.pc) = some 0x10010 ∧ (run (.lbrk G) (looped 4)).w.path.map (·.pc) = some 0x10010 ∧ (run (.lbrk G) (looped 4)).w.depth = 3 := by decide +kernel
theorem hyp_TrapsAndReservedWords : EndIssues lab p0 c0 G [] ∧ Handles (guarded_ lab).w ∧ ¬ Handles lab.w ∧ (lab.blk lab.w.blk).fault = none ∧
    (guarded_ lab).w.path = some p0 ∧ p0.clause.isSome = true ∧ (guarded_ (onPath { p0 with clause := none })).w.path = some { p0 with clause := none } ∧
    (0x80000FF1 : Word).toNat / 2 ^ 24 = 0x80 ∧ (0x81000000 : Word).toNat / 2 ^ 24 ≠ 0x80 := by
  refine ⟨lab_end _, ⟨by decide +kernel, by decide +kernel⟩, fun h => h.1 rfl, rfl, rfl, rfl, rfl, by decide, by decide⟩
/-- R56: the boundary bit 15, handler-active 8, cause 11 and 1. -/
theorem test_trap : (run (.trap G 9) (guarded_ lab)).w.tcause = 0xFF00010B ∧ (run (.trap G 9) (guarded_ lab)).w.tinfo = 9 ∧ (run (.trap G 9) lab).w.ended = true ∧
    (run (.illegalEncoding 0x80000FF1) (guarded_ (onPath { p0 with clause := none }))).w.tcause = 0xFF008101 := by decide +kernel
/-- In a handler: the trap of the first of two words of a clause at 0x10014, or of a boundary at 0x10010. -/
def handling (tc : Word) (pc : DWord) : State := paved.onW fun w => { w with tcause := tc, trpc := pc, delivery := all }
theorem hyp_Resuming : EndIssues (handling 0x01000100 0x10014) p0 c0 G [] ∧ (handling 0x01000100 0x10014).w.handling = true ∧ p0.mask = (handling 0x01000100 0x10014).w.delivery ∧
    (handling 0xFF008100 0x10010).w.tcause.getLsbD 15 = true ∧ (handling 0xFF008100 0x10010).landing 0x10010 = .good ∧
    bits (0x01000100 : Word).toNat 20 4 ≤ bits (0x01000100 : Word).toNat 16 4 ∧ bits (0x01010100 : Word).toNat 20 4 < bits (0x01010100 : Word).toNat 16 4 ∧
    (handling 0x01010100 0x10014).fetchRun 0 0x10014 2 = .inl [0, 0] ∧ (handling 0x01000100 0x10014).w.depth = 0 ∧ lab.w.tcause.getLsbD 8 = false ∧ (guarded_ lab).w.tvec ≠ 0 := by
  and_intros
  all_goals first | decide +kernel | exact uni_of (by decide +kernel) | exact lane_of (by decide +kernel) | exact end_of (by decide +kernel) |
    exact issues_of (by decide +kernel) | exact handles_of (by decide +kernel)
theorem test_resume : (run (.resume G) (handling 0x01010100 0x10014)).w.path.map (·.pc) = some 0x10014 ∧
    (run (.resumeSkip G) (handling 0x01010100 0x10014)).w.path.map (fun p => (p.pc, p.clause.map (·.idx))) = some (0x10018, some 1) ∧
    (run (.resume G) (handling 0xFF008100 0x10010)).w.path.map (fun p => (p.pc, p.clause)) = some (0x10010, none) ∧
    (run (.resume G) (handling 0xFF008100 0x10010)).w.tcause.getLsbD 8 = false := by decide +kernel
theorem hyp_EndingAndWaiting : EndIssues lab p0 c0 G [] ∧ lab.w.gone ||| (0x0020 : Mask) ≠ all ∧ lab.w.handling = false ∧ lab.w.gone ||| p0.mask = all ∧
    EndIssues lab p0 c0 G (sPair 4) ∧ (onPath { p0 with clause := none }).w.path = some { p0 with clause := none } ∧
    (∀ k < 12, (0xFFF : BitVec 12).getLsbD k = true → (onPath { p0 with clause := none }).w.f.get 0 k = 0) ∧
    (onPath { p0 with clause := none }).fetchRun 0 0x10004 1 = .inl [0] := by
  and_intros
  all_goals first | decide +kernel | exact uni_of (by decide +kernel) | exact lane_of (by decide +kernel) | exact end_of (by decide +kernel) |
    exact issues_of (by decide +kernel) | exact handles_of (by decide +kernel)
theorem test_exit : (run (.exit G) five).w.gone = 0x0020 ∧ (run (.exit G) five).w.ended = false ∧ (run (.exit G) lab).w.ended = true := by decide +kernel
theorem test_twait : (run (.twait G 4) (uniD 1000 0)).w.waits = [.twait 1000 0x10000] ∧ (run (.twait G 4) lab).w.waits = [] ∧
    (run (.twaitWake 0) ({ run (.twait G 4) (uniD 1000 0) with cycle := 2500 })).w.waits = [] ∧ (run (.twaitWake 0) (run (.twait G 4) (uniD 1000 0))).w.waits = [.twait 1000 0x10000] := by decide +kernel
theorem test_clause : (run (.clause 0 0 1 0) (onPath { p0 with clause := none })).w.path.map (fun p => (p.pc, p.clause)) = some (0x10004, some ⟨0, 0, 0, 1, [0]⟩) ∧
    (run (.yieldQ G) lab).w.yielded = true := by decide +kernel

/-! ## The cluster from its warps -/

/-- The block's barrier nb2 has one arrival of two. -/
def half : State := flagged.onBlk 0 fun k => { k with bars := [(2, { Bar.fresh with arrivals := 1, expect := 2 })] }
theorem half_uni (l : List RegRef) : UniIssues half p1 c1 G l := ⟨⟨rfl, rfl, rfl, rfl⟩, rfl⟩
theorem hyp_Barriers : (flagged.blk 0).errMode = false ∧ UniIssues flagged p1 c1 G ([] ++ [.s 55]) ∧ UniIssues flagged p1 c1 G ([.s 1] ++ [.s 55]) ∧
    (flagged.liveWarps flagged.w.blk).length = 1 ∧ flagged.w.uid ∈ (flagged.blk 0).warps ∧ 0 < (258 : Word).toNat ∧ (258 : Word).toNat ≤ 258 ∧ 0 + 1 < (258 : Word).toNat ∧
    UniIssues half p1 c1 G ([.s 1] ++ []) ∧ ((half.blk half.w.blk).bars.get Bar.fresh 2).arrivals ≠ 0 ∧ 3 ≠ ((half.blk half.w.blk).bars.get Bar.fresh 2).expect ∧
    (half.blk half.w.blk).fault = none := by
  and_intros
  all_goals first | decide +kernel | exact uni_of (by decide +kernel) | exact lane_of (by decide +kernel) | exact end_of (by decide +kernel) |
    exact issues_of (by decide +kernel) | exact handles_of (by decide +kernel)
theorem test_barriers : ((run (.bara G 2 true 1) (half.onW fun w => w.setS 1 2)).blk 0).bars.get Bar.fresh 2 = { Bar.fresh with phase := 1 } ∧
    ((run (.bara G 2 true 1) (half.onW fun w => w.setS 1 3)).blk 0).fault.map (fun x => (x.code, x.info)) = some (4, 0x20020003) ∧
    (run (.barw G 3 true 1) (flagged.onW fun w => w.setS 1 2)).w.waits = [.barw 3 0 0] := by decide +kernel
/-- A block with both streams and eight seed registers. -/
def staffed : State := flagged.onBlk 0 fun k => { k with mentry := 0x11000, centry := 0x12000, seeds := 8 }
theorem staffed_uni (l : List RegRef) : UniIssues staffed p1 c1 G l := ⟨⟨rfl, rfl, rfl, rfl⟩, rfl⟩
/-- The same with a second warp, which has not met. -/
def paired : State := (staffed.onBlk 0 fun k => { k with warps := [0, 1] }).onWarp 1 fun w => { w with placed := true, index := 1 }
theorem hyp_BlockCommands : UniIssues staffed p1 c1 G [] ∧ (staffed.blk 0).mentry ≠ 0 ∧ (staffed.blk 0).centry ≠ 0 ∧ staffed.w.atLimit (flagOf c1.fb) = false ∧
    (flagged.blk 0).centry = 0 ∧ UniIssues (guarded_ flagged) p1 c1 G [] ∧ Handles (guarded_ flagged).w ∧
    UniIssues paired p1 c1 G [] ∧ (paired.liveWarps 0).all (fun u => [0].contains (paired.warp u).index) = false ∧
    ((staffed.liveWarps 0).all (fun u => [0].contains (staffed.warp u).index) && (staffed.blk 0).m.st != .running && (staffed.blk 0).c.st != .running) = true ∧
    staffed.w.uid ∈ (staffed.blk 0).warps ∧ staffed.w.ended = false ∧ UniIssues staffed p1 c1 G (sPair 4) ∧ (7 : BitVec 3).toNat < (staffed.blk 0).seeds ∧
    UniIssues world q5 c1 G (sPair 0 ++ (List.range 4).map fun k => .s (8 + k)) ∧ (world.w.SP 0).toNat % 64 = 0 ∧
    world.reach world.myCore (world.blk world.w.blk) 0x20000 64 .load true = .ok (spot 64 false) ∧ world.poisonedLanes [⟨0, 0x20000, .ok (spot 64 false)⟩] true = none := by
  and_intros
  all_goals first | decide +kernel | exact uni_of (by decide +kernel) | exact lane_of (by decide +kernel) | exact end_of (by decide +kernel) |
    exact issues_of (by decide +kernel) | exact handles_of (by decide +kernel)
theorem test_fork : ((run (.fork G .m) staffed).blk 0).m.pc = 0x11000 ∧ ((run (.fork G .m) staffed).blk 0).m.st = .running ∧ ((run (.fork G .m) staffed).blk 0).c.st = .idle ∧
    (run (.fork G .c) (guarded_ flagged)).w.tcause.getLsbD 8 = true := by decide +kernel
theorem test_rendez : (run (.rendez G) staffed).w.waits = [] ∧ (run (.rendez G) paired).w.waits = [.rendez 0x10000] ∧ ((run (.rendez G) paired).blk 0).met = [0] := by decide +kernel
theorem test_seed_thbind : ((run (.seed G .b16 7 4) (staffed.onW fun w => w.setSP 4 0x123456789)).blk 0).hs.get SeedReg.fresh 7 = ⟨0x123456789, .b16⟩ ∧
    ((run (.thbind G 31 0 8) world).blk 0).handles.get none 31 = some { tlr := ⟨0x1122334455667788, 0x20000⟩, c0 := 0, c1 := 0, c2 := 0, c3 := 0, transposed := false } := by decide +kernel
/-- Rack 31 of the block has two slots; slot 0 is filled and failed. -/
def racked : State := (staffed.onBlk 0 fun k => { k with handles := [(3, some Handle.none)] }).onRack 0 31 fun _ =>
  { Rack.free with owner := some 0, slots := 2, size := 1, ic := 1, fc := 1, copies := [⟨0, true, true⟩], failed := [0] }
theorem racked_uni (l : List RegRef) : UniIssues racked p1 c1 G l := ⟨⟨rfl, rfl, rfl, rfl⟩, rfl⟩
theorem hyp_Racks : racked.w.atLimit (flagOf c1.fb) = false ∧ UniIssues racked p1 c1 G (sPair 4 ++ [.s 1]) ∧ (0x20080 : Nat) % 128 = 0 ∧ racked.engineAddr 0x20080 = some 0x20080 ∧
    (0x00010040 : Word).toNat % 128 ≤ 64 ∧ (0x00010040 : Word).toNat / 128 % 512 = 0 ∧ (racked.rackOf 0 31).owner = some racked.w.blk ∧ (racked.rackOf 0 31).slots ≠ 0 ∧
    (racked.rackOf 0 31).ic = (racked.rackOf 0 31).fc ∧ ((racked.blk racked.w.blk).handles.get none 3).isSome = true ∧ UniIssues racked p1 c1 G [.s 1] ∧
    UniIssues racked p1 c1 G (sPair 4) ∧ UniIssues racked p1 c1 G [.s 1, .s 55] ∧ racked.w.waits = [] ∧ 1 ≤ ((racked.rackOf 0 31).fc - 0).toNat ∧
    ¬ (1 ≤ ((racked.rackOf 0 31).fc - 1).toNat) ∧ (racked.rackOf 0 31).lc ≠ (racked.rackOf 0 31).fc ∧ (racked.rackOf 0 30).owner ≠ some racked.w.blk ∧ (racked.blk 0).fault = none := by
  and_intros
  all_goals first | decide +kernel | exact uni_of (by decide +kernel) | exact lane_of (by decide +kernel) | exact end_of (by decide +kernel) |
    exact issues_of (by decide +kernel) | exact handles_of (by decide +kernel)
theorem test_racks : (run (.rkinit G 5 4 1) (staffed.onW fun w => (w.setSP 4 0x20080).setS 1 0x00010040)).rackOf 0 5 =
      { Rack.free with owner := some 0, slots := 64, size := 1, base := 0x20080 } ∧
    (run (.awaitf G 31 1) racked).w.S 55 = 1 ∧ (run (.awaitf G 31 1) (racked.onW fun w => w.setS 1 1)).w.waits = [.awaitf 31 1 1] ∧
    ((run (.relslot G 31) racked).rackOf 0 31).lc = 1 ∧ ((run (.relslot G 30) racked).blk 0).fault.map (·.code) = some 5 := by decide +kernel
theorem test_cpy : ((run (.cpy G 31 3 1) racked).clu 0).cpyWait.map (fun r => (r.rk, r.h, r.sealing)) = [(31, 3, false)] ∧ (run (.cpy G 31 3 1) racked).w.f.get 0 1 = 1 := by decide +kernel
/-- Granule index 0 is granule 9; the rest of the cluster's 32 granules are free. -/
def granted : State := (staffed.onBlk 0 fun k => { k with gmap := [(0, some 9)] }).onClu 0 fun x => { x with owner := [(9, some 0)] }
theorem granted_uni (l : List RegRef) : UniIssues granted p1 c1 G l := ⟨⟨rfl, rfl, rfl, rfl⟩, rfl⟩
theorem hyp_Accumulators : granted.w.atLimit (flagOf c1.fb) = false ∧ UniIssues granted p1 c1 G [.s 1, .s 3, .q 7] ∧ (granted.blk 0).freeRun 31 = some 1 ∧
    (granted.blk 0).freeRun 32 = none ∧ (granted.clu 0).acq = [] ∧ 31 ≤ (granted.clu 0).freeGranules.length ∧ (granted.clu 0).freeGranules[9]? = some 10 ∧
    ((granted.onClu 0 fun x => { x with owner := (List.range 32).map fun g => (g, some 1) }).clu 0).freeGranules.length < 1 ∧
    UniIssues granted p1 c1 G [.s 1, .s 2] ∧ 0 + 1 ≤ 32 ∧ ((granted.blk 0).gmap.get none 0).isSome = true ∧
    (0x0003F000 : Nat) / 2 ^ 18 = 0 ∧ (0x0003F000 : Nat) / 64 % 64 + 0x0003F000 / 4096 % 64 ≤ 63 ∧ (granted.blk 0).gmap.get none (0x0003F000 % 32) = some 9 ∧
    granted.engineAddr 0x20004 = some 0x20004 ∧ UniIssues granted p1 c1 G (sPair 4 ++ [.s 1] ++ [.s 3]) ∧ UniIssues granted p1 c1 G [.s 1] ∧
    (List.range (0 / 32 + 1)).mapM (fun j => (granted.blk 0).gmap.get none (0 % 32 + j)) = some [9] := by
  and_intros
  all_goals first | decide +kernel | exact uni_of (by decide +kernel) | exact lane_of (by decide +kernel) | exact end_of (by decide +kernel) |
    exact issues_of (by decide +kernel) | exact handles_of (by decide +kernel)
theorem test_acalloc : (run (.acalloc G 3 1 0) (granted.onW fun w => w.setS 1 2)).w.S 3 = 1 ∧ (run (.acalloc G 3 1 0) (granted.onW fun w => w.setS 1 2)).w.Q 0 = true ∧
    ((run (.acalloc G 3 1 0) (granted.onW fun w => w.setS 1 2)).blk 0).gmap.get none 2 = some 1 ∧ (run (.acalloc G 3 1 0) (granted.onW fun w => w.setS 1 32)).w.S 3 = 0xFFFFFFFF := by decide +kernel
theorem test_acfree : ((run (.acfree G 1 2) (granted.onW fun w => w.setS 2 1)).blk 0).gmap.get none 0 = none ∧
    ((run (.aczero G 1) granted).clu 0).port.map (fun o => (o.kind, o.phys)) = [(.aczero, [9])] ∧
    ((run (.acrd G 3 4 1) (granted.onW fun w => (w.setSP 4 0x20004).setS 1 0x00003040)).clu 0).port.map (fun o => (o.r0, o.nr)) = [(1, 4)] := by decide +kernel

/-! ## Work and heaps -/

/-- The block belongs to launch 0, whose parameter block at 0x40000 has ticket 3, count 5, max 9, tbm 0x80; dies 0 and 1 are of partition 0. -/
def hired : State :=
  let s := (((flagged.pokeN 0x40010 4 3).pokeN 0x40014 4 5).pokeN 0x40018 4 9).pokeN 0x40044 1 0x80
  (({ s with launches := [(0, { Launch.none with lpb := 0x40000, state := 2, seq := 1 })] }).onRegion 0 fun r => { r with part := some 0 }).onPart 0 fun x =>
    { x with formed := true }
theorem hired_uni (l : List RegRef) : UniIssues hired p1 c1 G l := ⟨⟨rfl, rfl, rfl, rfl⟩, rfl⟩
/-- A warp of a porter; a packet waits in the mailbox. -/
def pkt : Packet := { words := List.replicate 16 7, src := 1, warp := 0, slot := false, sd := 0, tag := 0 }
def carrier (n : Nat) : State := (hired.onW fun w => { w with porter := true }).onDie 0 fun x => { x with mailbox := [pkt], spawns := List.replicate n 1 }
theorem carrier_uni (l : List RegRef) : UniIssues (carrier 0) p1 c1 G l := ⟨⟨rfl, rfl, rfl, rfl⟩, rfl⟩
theorem carrier_full (l : List RegRef) : UniIssues (carrier 16) p1 c1 G l := ⟨⟨rfl, rfl, rfl, rfl⟩, rfl⟩
/-- Die 0's heap has 2^20 bytes at 0x100000. -/
def heaped : State := (hired.pokeN 0x50000 8 (0x100000 + 20)).pokeN 0x50008 8 0x100000 |>.onDie 0 fun x => { x with heaps := 0x50000 }
theorem heaped_uni (l : List RegRef) : UniIssues heaped p1 c1 G l := ⟨⟨rfl, rfl, rfl, rfl⟩, rfl⟩
theorem hyp_WorkAndHeaps : hired.w.atLimit (flagOf c1.fb) = false ∧ UniIssues hired p1 c1 G [.s 1, .s 3, .q 7] ∧
    (hired.release hired.myCore 3).lpbOf (dcp 0) 0 24 4 = 9 ∧ (hired.release hired.myCore 3).lpbOf (dcp 0) 0 20 4 = 5 ∧
    UniIssues (carrier 16) p1 c1 G (sPair 4 ++ [.s 3]) ∧ (carrier 16).w.porter = true ∧ 16 ≤ (((carrier 16).release 0 3).die 0).spawns.length ∧
    (((carrier 15).release 0 3).die 0).spawns.length < 16 ∧ (((carrier 15).release 0 3).takeLaunch 0 0 0x60000 none none (some 0) (some 0) (some 0)).2.1 ≠ 0 ∧
    hired.w.porter = false ∧ Handles (guarded_ hired).w ∧ UniIssues (guarded_ hired) p1 c1 G (sPair 4 ++ [.s 3]) ∧
    UniIssues (carrier 0) p1 c1 G (((List.range 16).map fun k => RegRef.s (16 + k)) ++ [.q 7]) ∧ ((carrier 0).die 0).mailbox = pkt :: [] ∧ (hired.die 0).mailbox = [] ∧
    UniIssues hired p1 c1 G (((List.range 16).map fun k => .s (16 + k)) ++ [.s 1, .s 3]) ∧ hired.fwdOut hired.w.uid hired.w.cur = false ∧
    hired.samePart 0 199 = false ∧ hired.samePart 0 0 = true ∧ hired.samePart 0 1 = true ∧
    UniIssues heaped p1 c1 G (sPair 4 ++ [.s 6] ++ sPair 8 ++ [.q 7]) ∧ heaped.heapOf 0 0xFFFFFFFF = some (0, 0) ∧ (heaped.heapEntry 0 0).1 ≠ 0 ∧
    heaped.heapOf 0 199 = none ∧ (heaped.blk 0).fault = none ∧ UniIssues hired p1 c1 G (sPair 4) := by
  and_intros
  all_goals first | decide +kernel | exact uni_of (by decide +kernel) | exact lane_of (by decide +kernel) | exact end_of (by decide +kernel) |
    exact issues_of (by decide +kernel) | exact handles_of (by decide +kernel)
theorem hyp_WorkAndHeaps_spawn : let s := ((((carrier 0).pokeN 0x60000 8 0x61000).pokeN 0x60018 4 1).pokeN 0x60054 1 0)
    ((s.release 0 3).die 0).spawns.length < 16 := by decide +kernel
theorem test_grow : (run (.grow G 3 1 0) (hired.onW fun w => w.setS 1 4)).w.S 3 = 5 ∧ (run (.grow G 3 1 0) (hired.onW fun w => w.setS 1 4)).w.Q 0 = true ∧
    (run (.grow G 3 1 0) (hired.onW fun w => w.setS 1 4)).lpbOf 0 0 20 4 = 9 ∧ (run (.grow G 3 1 0) (hired.onW fun w => w.setS 1 5)).w.S 3 = 0xFFFFFFFF := by decide +kernel
theorem test_porter_words : (run (.pktrx G 16 0) (carrier 0)).w.S 31 = 7 ∧ ((run (.pktrx G 16 0) (carrier 0)).die 0).mailbox = [] ∧ (run (.spawn G 3 4) (carrier 16)).w.S 3 = 2 ∧
    (run (.fwd G 3 16 1) (hired.onW fun w => w.setS 1 200)).w.S 3 = 2 ∧ ((run (.fwd G 3 16 1) hired).die 0).fwdq.length = 1 := by decide +kernel
theorem test_heap_words : ((run (.halloc G 8 4 0) (heaped.onW fun w => (w.setSP 4 100).setS 6 0xFFFFFFFF)).die 0).heapq.map (fun r => (r.size, r.heap, r.free)) = [(100, 0, false)] ∧
    ((run (.halloc G 8 4 0) (heaped.onW fun w => w.setS 6 199)).blk 0).fault.map (·.code) = some 7 ∧
    ((run (.hfree G 4) (heaped.onW fun w => w.setSP 4 0x100040)).die 0).heapq.map (fun r => (r.p, r.free)) = [(0x100040, true)] := by decide +kernel

/-! ## Tree barriers, latencies, counters -/

/-- The warp has arrived at phase 0 of tb7, which the launch holds. -/
def arrived_ : State := (hired.onTree 0 7 fun _ => { TreeBar.fresh with gang := some 0 }).onW fun w => { w with tbArr := [(7, 1)] }
theorem hyp_TreeBarriersAndLatencies : UniIssues hired p1 c1 G [] ∧ (hired.tbmOf hired.myDie 0).contains 7 = true ∧ ¬ (hired.tree 0 7).phase < hired.w.tbArr.get 0 7 ∧
    (hired.tbmOf hired.myDie 0).contains 6 = false ∧ Handles (guarded_ hired).w ∧ UniIssues (guarded_ hired) p1 c1 G [] ∧ UniIssues arrived_ p1 c1 G [.s 3] ∧
    (arrived_.tree 0 7).phase < arrived_.w.tbArr.get 0 7 ∧ UniIssues hired p1 c1 G ([.s 1, .s 2] ++ (List.range 4).map fun k => .s (8 + k)) ∧
    hired.samePart 0 200 = false ∧ hired.samePart 0 1 = true ∧ hired.routed 0 1 = 2 ∧ manhattan 0 1 = 2 := by
  and_intros
  all_goals first | decide +kernel | exact uni_of (by decide +kernel) | exact lane_of (by decide +kernel) | exact end_of (by decide +kernel) |
    exact issues_of (by decide +kernel) | exact handles_of (by decide +kernel)
theorem test_tree_words : (run (.tbarrive G 7) hired).w.tbArr.get 0 7 = 1 ∧ outS (.tbarst G 3 7) arrived_ = 2 ∧ (run (.tbarwait G 3 7) arrived_).w.waits = [.tbar 7 1 3 0] ∧
    (run (.tbarrive G 7) arrived_).w.stalled = true := by decide +kernel
/-- R336, R337: the same die, the next die, and a die of no partition. -/
theorem test_blt : (List.range 4).map (fun k => (run (.blt G 8 1 2) hired).w.S (8 + k)) = [0, 18, 60, 1] ∧
    (List.range 4).map (fun k => (run (.blt G 8 1 2) (hired.onW fun w => w.setS 1 1)).w.S (8 + k)) = [0x00020001, 64, 120, 3] ∧
    (List.range 4).map (fun k => (run (.blt G 8 1 2) (hired.onW fun w => w.setS 1 200)).w.S (8 + k)) = [0xFFFFFFFF, 0, 0, 0] := by decide +kernel
/-- Counter 13 of die 0 holds 2^47 with its wrap bit; sketch 1 is frozen. -/
def counting : State := { hired.onDie 0 fun x => { x with skFreeze := [(1, true)] } with
  counters := [(2 * 2 ^ 40 + 13, { Counter.off with value := 0x800000000000, wrap := true, en := true, sel := 13 }), (2 * 2 ^ 40 + 12, { Counter.off with en := true, sel := 12 })] }
theorem counting_uni (l : List RegRef) : UniIssues counting p1 c1 G l := ⟨⟨rfl, rfl, rfl, rfl⟩, rfl⟩
theorem hyp_CountersAndSketches : UniIssues counting p1 c1 G (.s 1 :: sPair 8) ∧ ((0x8000000D : Word).extractLsb' 30 2).toNat = 2 ∧
    (0x8000000D : Word) &&& 0x3F7FFFF0 = 0 ∧ (counting.counters.get Counter.off (2 * 2 ^ 40 + 16 * 0 + 12)).sel = 12 ∧ (counting.counters.get Counter.off (2 * 2 ^ 40 + 16 * 0 + 13)).sel ≠ 12 ∧
    UniIssues counting p1 c1 G (sPair 4 ++ [.s 3]) ∧ counting.w.atLimit (flagOf c1.fb) = false ∧ counting.tick 0 + 4000 ≤ 4000 ∧ 3999 < counting.tick 0 + 4000 ∧
    (counting.part 0).snap = none ∧ UniIssues counting p1 c1 G (sPair 4 ++ [.s 1]) ∧ (counting.die 0).skFreeze.get false 0 = false ∧ (counting.die 0).skFreeze.get false 1 = true := by
  and_intros
  all_goals first | decide +kernel | exact uni_of (by decide +kernel) | exact lane_of (by decide +kernel) | exact end_of (by decide +kernel) |
    exact issues_of (by decide +kernel) | exact handles_of (by decide +kernel)
theorem test_cntr : outSD (.cntr G 8 1) (counting.onW fun w => w.setS 1 0x8000000D) = 0x1800000000000 ∧ outSD (.cntr G 8 1) (counting.onW fun w => w.setS 1 0xC0000000) = 0xFFFFFFFFFFFFFFFF ∧
    outS (.snap G 3 4) (counting.onW fun w => w.setSP 4 3999) = 1 := by decide +kernel
theorem test_skinc : ((run (.skincPc G 4 1) (counting.onW fun w => w.setS 1 3)).die 0).skN.get 0 0 = 3 ∧ ((run (.skincKn G 4 1) (counting.onW fun w => w.setS 1 3)).die 0).skDropped.get 0 1 = 1 := by decide +kernel

/-! ## Tack words -/

/-- Automaton 3 of die 0 in a run state, with flag 1 set and eight events queued. -/
def watched (r : Run) : State := hired.onTack 3 fun t => { t with run := r, flags := 2, state := 5, lastStep := 77, c := [(2, 9)], tm := [(1, some 100)], queue := (List.range 8).map fun k => ⟨⟨0xB0, 0, 0, 0, 0, k, 0, 0⟩, 1, none⟩ }
theorem watched_uni (r : Run) (l : List RegRef) : UniIssues (watched r) p1 c1 G l := by cases r <;> exact ⟨⟨rfl, rfl, rfl, rfl⟩, rfl⟩
theorem hyp_TackWords : UniIssues (watched .idle) p1 c1 G (sPair 4 ++ [.s 3]) ∧ (watched .idle).w.atLimit (flagOf c1.fb) = false ∧
    ¬ ((watched .armed |>.tack 3).run = .unloaded ∨ (watched .armed |>.tack 3).run = .idle) ∧ ((watched .idle).tack 3).run = .idle ∧ (0x20020 : Nat) % 64 ≠ 0 ∧
    UniIssues (world.onW fun w => w.setSP 4 0x20000) q5 c1 G (sPair 4 ++ [.s 3]) ∧
    ((world.acquire world.myCore 3).reach 0 ((world.acquire world.myCore 3).blk 0) 0x20000 1600 .load true) = .ok (spot 1600 false) ∧
    (world.acquire world.myCore 3).poisonedLanes [⟨0, 0x20000, .ok (spot 1600 false)⟩] true = none ∧
    UniIssues (watched .lost) p1 c1 G [.s 3] ∧ ((watched .unloaded).tack 3).run = .unloaded ∧ ((watched .primed).tack 3).run = .primed ∧
    UniIssues (watched .lost) p1 c1 G [] ∧ UniIssues (watched .armed) p1 c1 G ((List.range 4).map fun k => .s (8 + k)) ∧ UniIssues (watched .armed) p1 c1 G (sPair 4) := by
  and_intros
  all_goals first | decide +kernel | exact uni_of (by decide +kernel) | exact lane_of (by decide +kernel) | exact end_of (by decide +kernel) |
    exact issues_of (by decide +kernel) | exact handles_of (by decide +kernel)
/-- The status word of R403: run code, state 5, flags 2, timer 1 running, eight events queued. -/
theorem test_tkstat : (run (.tkstat G 8 3 2) (watched .armed)).w.S 8 = BitVec.ofNat 32 (Run.armed.code * 2 ^ 29 + 5 * 2 ^ 20 + 2 * 2 ^ 12 + 2 ^ 11 + 8) ∧
    (run (.tkstat G 8 3 2) (watched .armed)).w.S 9 = 9 ∧ (run (.tkstat G 8 3 2) (watched .armed)).w.SP 10 = 77 := by decide +kernel
theorem test_tkarm : (run (.tkarm G 3 3) (watched .unloaded)).w.S 3 = 1 ∧ (run (.tkarm G 3 3) (watched .armed)).w.S 3 = 2 ∧ (run (.tkload G 3 4 3) (watched .armed)).w.S 3 = 3 ∧
    (run (.tkload G 3 4 3) ((watched .idle).onW fun w => w.setSP 4 0x20020)).w.S 3 = 1 := by decide +kernel
theorem test_tkpoll : outS (.tkpoll G 3 3) (watched .armed) = 2 ∧ ((run (.tkpollC G 3 3) (watched .armed)).tack 3).flags = 0 ∧ ((run (.tkdisarm G 3) (watched .armed)).tack 3).run = .idle ∧
    ((run (.tkdisarm G 3) (watched .armed)).tack 3).queue = [] := by decide +kernel
/-- A filter of automaton 3 on every event of type 0xB0. -/
def listening : State := (watched .armed).onDie 0 fun x => { x with ef := [(0, some ⟨3, 1, 0x00B0FF0041040000⟩)] }
theorem hyp_TackWords_matches : ((listening.onBlk 0 fun k => { k with begun := true }).blk 0).begun = true ∧
    (listening.matching 0 { type := 0xB0, die := 0, clu := 0, core := 0, warp := 0, seq := 0, tick := 0, payload := 5 }) = [⟨3, 1, 0x00B0FF0041040000⟩] := by decide +kernel
theorem test_tkemit : (run (.tkemit G 4) ((listening.onBlk 0 fun k => { k with begun := true }).onW fun w => w.setSP 4 5)).evq.map (fun e => (e.1, e.2.ev.payload, e.2.mask)) = [(3, 5, 2)] := by decide +kernel

/-! ## Streams -/

/-- A tensor of 64 by 64 elements at 0x30000 (R220), its rows 256 bytes apart, unrotated unless `b`. -/
def tensor (fmt b : Nat) : Tlr :=
  ⟨BitVec.ofNat 512 (0x30000 + fmt * 2 ^ 48 + 64 * 2 ^ 64 + 64 * 2 ^ 96 + 2 ^ 128 + 2 ^ 160 + 16 * 2 ^ 192 + b * 2 ^ 416 + 0x38000 * 2 ^ 448), 0x2F000⟩
/-- An engine operation that has just begun. -/
def eng (n : Nat) (op : EngOp) : Eng := ⟨n, op, none, 0, ⟨[], [], [], []⟩, 0, 0, [], none⟩
def tile (fmt b : Nat) : Handle := ⟨tensor fmt b, 0, 0, 0, 0, false⟩
/-- Handles 0 to 2 are FP32, BF16 and DM8, handle 31 MX8, 3 a rotated DM8; sub-array 0 holds BF16 weights, 1 DM8 ones. -/
def streaming (f : Focus) : State :=
  let k := staffed.onBlk 0 fun k => { k with
    m := ⟨.running, 0, 0x11000, none, none, false, none, Known.none⟩, c := ⟨.running, 0, 0x12000, none, none, false, none, Known.none⟩,
    handles := [(0, some (tile 0 0)), (1, some (tile 1 0)), (2, some (tile 2 0)), (3, some (tile 2 2)), (31, some (tile 3 0))],
    gmap := [(0, some 9), (31, some 10), (1, some 11), (2, some 12), (3, some 13)] }
  { k.onClu 0 fun x => { x with owner := [(9, some 0), (10, some 0), (11, some 0), (12, some 0), (13, some 0)], weights := [(0, some ⟨1, (tile 1 0).kTag 1, [0x3F800000], 16⟩), (1, some ⟨2, (tile 2 0).kTag 1, [], 16⟩)] } with focus := f }
def mat : State := streaming (.matrix 0)
def cop : State := streaming (.copy 0)
/-- The block's barrier 15 has one arrival of two. -/
def waiting (f : Focus) : State := (streaming f).onBlk 0 fun k => { k with bars := [(15, { Bar.fresh with arrivals := 1, expect := 2 })] }
theorem hyp_StreamWords : (mat.focus = .matrix 0 ∧ mat.streamGoes 0 true = true) ∧ (cop.focus = .copy 0 ∧ cop.streamGoes 0 false = true) ∧ mat.matrixOps 0 = [] ∧
    cop.copyOps 0 = [] ∧ (cop.blk 0).handles.get none 1 = some (tile 1 0) ∧ (cop.blk 0).handles.get none 31 = some (tile 3 0) ∧
    ([0, 1, 2, 3].map fun f => (recordError (some (tile f 0)), (tile f 0).tlr.fmt, (tile f 0).tlr.bcode)) = [(none, 0, 0), (none, 1, 0), (none, 2, 0), (none, 3, 0)] ∧
    encode (.mwload 31 3) = some 0xE1F80030 ∧ (mat.clu 0).shape = .q4 ∧ mmulBusy .q4 0 (mat.matrixOps 0) = false ∧
    (mat.clu 0).weights.get none 0 = some ⟨1, (tile 1 0).kTag 1, [0x3F800000], 16⟩ ∧ (mat.blk 0).granuleRun 0 4 = .inl [9, 11, 12, 13] ∧ (255 + 64) / 64 = 4 ∧
    (mat.blk 0).granuleRun 31 1 = .inl [10] ∧ ((tile 1 0).kTag (tile 1 0).colDim).equal ((tile 1 0).kTag 1) = true ∧ (encode (.mstore 0 0 63 63)).isSome = true := by
  and_intros
  all_goals first | decide +kernel | exact uni_of (by decide +kernel) | exact lane_of (by decide +kernel) | exact end_of (by decide +kernel) |
    exact issues_of (by decide +kernel) | exact handles_of (by decide +kernel)
theorem hyp_StreamWords_barriers : mat.streamOps 0 true = [] ∧ cop.streamOps 0 false = [] ∧ (mat.blk 0).errMode = false ∧ (mat.blk 0).fault = none ∧
    ((mat.blk 0).bars.get Bar.fresh 15).arrivals = 0 ∧ 0 + 1 < (258 : BitVec 9).toNat ∧ (258 : BitVec 9).toNat ≤ 258 ∧ ¬ ((259 : BitVec 9).toNat ≤ 258) ∧
    (waiting (.matrix 0)).streamGoes 0 true = true ∧ ((waiting (.matrix 0)).blk 0).bars.get Bar.fresh 15 = { Bar.fresh with arrivals := 1, expect := 2 } ∧
    (2 : BitVec 9).toNat ≤ 1 + 1 ∧ (3 : BitVec 9).toNat ≠ 2 ∧ (mat.blk 0).met = [] := by decide +kernel
theorem hyp_StreamWords_copies : (7 : BitVec 3).toNat < (cop.blk 0).seeds ∧ (tile 1 0).tlr.fmt ≤ 1 ∧ (tile 2 2).tlr.fmt ∈ [2, 3] ∧ (tile 2 2).cvtMisaligned (63 + 1) = false ∧
    (tile 2 2).tlr.bcode ≠ 0 ∧ ((cop.onBlk 0 fun k => { k with hs := [(7, ⟨0, .b16⟩)] }).blk 0).hs.get SeedReg.fresh 7 = ⟨0, .b16⟩ ∧
    bOfCode (tile 2 2).tlr.bcode = rotSize .b16 ∧ (tile 2 2).tlr.s0 = 0 ∧ (encode (.ccpyCvt 1 3 63 7)).isSome = true ∧ (encode (.ccpyPlain 1 1 255)).isSome = true := by
  and_intros
  all_goals first | decide +kernel | exact uni_of (by decide +kernel) | exact lane_of (by decide +kernel) | exact end_of (by decide +kernel) |
    exact issues_of (by decide +kernel) | exact handles_of (by decide +kernel)
/-- A warp outside its handler meets the same words. -/
theorem hyp_StreamWords_trap : encode (.mcfg .f41) = some 0xE0000003 ∧ 0xE0 ≤ (0xE0000003 : Word).toNat / 2 ^ 24 ∧ encode .cend = some 0xEA000000 ∧
    (0xEA000000 : Word).toNat / 2 ^ 24 ≤ 0xEA ∧ (guarded_ flagged).focus = .warp ∧ (guarded_ flagged).w.path = some p1 ∧ Handles (guarded_ flagged).w := by
  and_intros
  all_goals first | decide +kernel | exact uni_of (by decide +kernel) | exact lane_of (by decide +kernel) | exact end_of (by decide +kernel) |
    exact issues_of (by decide +kernel) | exact handles_of (by decide +kernel)
theorem test_stream_barriers : ((run (.mbarw 15 2) mat).blk 0).m = ⟨.running, 0, 0x11004, some (15, 0), none, false, none, Known.none⟩ ∧ ((run (.cbar 15 2) (waiting (.copy 0))).blk 0).bars.get Bar.fresh 15 =
      { Bar.fresh with phase := 1 } ∧ ((run (.mbara 15 3) (waiting (.matrix 0))).blk 0).fault.map (·.code) = some 4 := by decide +kernel
theorem test_stream_ends : ((run .mend mat).blk 0).m.st = .ended ∧ ((run .cend cop).blk 0).c.st = .ended ∧ ((run .mend mat).blk 0).c.st = .running := by decide +kernel
theorem test_mcfg_mwload : ((run (.mcfg .f41) mat).clu 0).engs = [eng 0 (.mcfg 0 .f41)] ∧
    ((run (.mwload 1 3) mat).clu 0).engs.map (fun e => match e.op with
      | .mwload b pc _ h _ sub => (b, pc, h, sub)
      | .mcfg _ _ | .mmul _ | .mstore _ _ _ _ _ _ _ _ _ _ | .copy _ => (9, 9, 9, 9)) = [(0, 0x11000, 1, 3)] := by decide +kernel
theorem test_mmul_mstore : ((run (.mmul 1 0 255 0 .bf16 true) mat).clu 0).engs.map (fun e => match e.op with
      | .mmul m => (m.rows, m.phys, m.ov)
      | .mcfg _ _ | .mwload _ _ _ _ _ _ | .mstore _ _ _ _ _ _ _ _ _ _ | .copy _ => (0, [], false)) = [(256, [9, 11, 12, 13], true)] ∧
    ((run (.mmul 1 0 255 1 .bf16 true) mat).blk 0).m.st = .halted ∧ ((run (.mstore 0 31 63 63) mat).clu 0).engs.length = 1 := by decide +kernel
theorem test_ccpy : ((run (.ccpyPlain 1 1 255) cop).clu 0).engs.length = 1 ∧ ((run (.ccpyPlain 1 2 0) cop).blk 0).c.st = .halted ∧
    ((run (.ccpyCvt 1 3 63 7) (cop.onBlk 0 fun k => { k with hs := [(7, ⟨0, .b16⟩)] })).clu 0).engs.length = 1 := by decide +kernel
/-- R241: an ill-formed word halts its stream, with an error record. -/
theorem test_illFormedStreamWord : ((run (.illFormedStreamWord 0xE0000013) mat).blk 0).m.st = .halted ∧ ((run (.illFormedStreamWord 0xE0000013) mat).blk 0).errors = 1 ∧
    (run (.mcfg .f41) (guarded_ flagged)).w.tcause.getLsbD 8 = true := by decide +kernel

/-! ## Events of warps and cores -/

/-- A counted and a timed operation in flight, the second with a seam overflow. -/
def busyW (seam : Word) : State := flagged.onW fun w => { w with tvec := 0x4000, seam := seam, nextTag := 2, f := [(1, 1)], pend := [⟨[.v 3], 0x10000, some 1, 0, .counted, false, false, false, false, 0, all, []⟩, ⟨[.v 4], 0x10000, none, 1, .timed, true, false, false, false, 0x8001, all, []⟩] }
theorem test_completions : (run (.flagOperationComplete 0 0) (busyW 0)).w.f.get 0 1 = 0 ∧ (run (.resultWritten 0 1) (busyW 0)).w.seam = 0x100 ∧
    (run (.resultWritten 0 1) (busyW 0x200)).w.tlanes = 0x8001 := by decide +kernel
/-- Three entries of the divergence stack, and a record of one more at the spill address. -/
def spilt : State := (flagged.onW fun w => { w with spill := 0x50000, below := 1, stk := List.replicate 3 (.pending 0x7000 0x10 none) }).pokeN 0x50000 8 (2 ^ 63 + 0x7000)
  |>.pokeN 0x50010 2 0x00F0
/-- Two active warps, of which the first stands at a boundary, and a ready pending one, on core 0. -/
def crowd : State := ((flagged.onW fun w => { w with placed := true, active := true, a := some { p1 with clause := none }, waitCount := 33, readyCount := 1024 }).onWarp 1 fun w =>
    { w with placed := true, index := 1, active := true, waitCount := 32, readyCount := 1023 }).onWarp 2 fun w =>
  { w with placed := true, index := 2, a := some { p1 with clause := none }, active := false }
theorem hyp_WarpEvents : ((busyW 0).warp 0).pend.find? (·.tag == 0) = some ⟨[.v 3], 0x10000, some 1, 0, .counted, false, false, false, false, 0, all, []⟩ ∧
    (busyW 0).w.pend.find? (·.tag == 1) = some ⟨[.v 4], 0x10000, none, 1, .timed, true, false, false, false, 0x8001, all, []⟩ ∧ (busyW 0).w.seam.getLsbD 9 = false ∧
    (busyW 0x200).w.seam.getLsbD 9 = true ∧ (busyW 0x200).w.ended = false ∧ Handles (busyW 0x200).w ∧ (busyW 0x200).w.path = some p1 ∧
    spilt.w.stk.length < 4 ∧ 0 < spilt.w.below ∧ spilt.w.recHold = false ∧ spilt.spillReach (spilt.w.below - 1) .load = .ok ((List.range 64).map fun i => .glob (0x50000 + i) false) ∧
    (Entry.ofRecord (spilt.readLocs spilt.myCore false ((List.range 64).map fun i => .glob (0x50000 + i) false)).1 = some (.pending 0x7000 0x00F0 none)) ∧ spilt.w.updates = [] ∧
    coreOf 0 = 0 ∧ (crowd.warp 0).placed = true ∧ (crowd.warp 0).ended = false ∧ (crowd.warp 0).active = true ∧ (crowd.warp 0).swappable = true ∧ 32 < (crowd.warp 0).waitCount ∧ (crowd.core 0).swapFree ≤ crowd.cycle ∧
    (∀ x ∈ crowd.resident 0, x ≠ 0 → (crowd.warp x).active = true → (crowd.warp x).swappable = true → (crowd.warp x).waitCount ≠ (crowd.warp 0).waitCount) ∧ crowd.nextIn 0 = some 2 ∧ (crowd.settled 0).nextIn 0 = some 2 ∧ ({ crowd with cycle := 1023 } : State).cycle % 1024 = 1023 ∧ crowd.cycle % 1024 ≠ 1023 ∧
    1024 ≤ (crowd.warp 0).readyCount ∧ (∀ v ∈ crowd.resident (coreOf 0), (crowd.warp v).active = true → (crowd.warp v).readyCount ≤ (crowd.warp 0).readyCount) := by
  and_intros
  all_goals first | decide +kernel | exact uni_of (by decide +kernel) | exact lane_of (by decide +kernel) | exact end_of (by decide +kernel) |
    exact issues_of (by decide +kernel) | exact handles_of (by decide +kernel)
theorem test_refill_swap : (run (.spillRefill 0) spilt).w.stk.length = 4 ∧ (run (.spillRefill 0) spilt).w.below = 0 ∧ ((run (.warpSwap 0 0) crowd).warp 2).active = true ∧
    (run (.warpSwap 0 1) crowd).w.active = true ∧ (run (.starvationGuard 0) crowd).sched = .issue 0 :: crowd.sched ∧ (run (.starvationGuard 1) crowd).sched = crowd.sched := by decide +kernel
/-- R187: seventeen hits lower the cap, four keep it, three raise it. -/
theorem test_loadCapWindow : ([17, 16, 4, 3].map fun n => ((run (.loadCapWindow 0) { (lab.onClu 0 fun x => { x with carve := 1 }).onCore 0 fun x => { x with loadCap := 4, hits := n } with cycle := 1023 }).core 0).loadCap) =
    [3, 4, 4, 5] := by decide +kernel

/-! ## Events of a cluster -/

/-- Rack 5 has two free slots and rack 6 a slot that a copy has; one BF16 element stands at 0x30000. -/
def stocked : State := ((mat.onRack 0 5 fun _ => { Rack.free with owner := some 0, slots := 2, size := 1, base := 0x20000 }).onRack 0 6 fun _ =>
    { Rack.free with owner := some 0, slots := 1, size := 1, base := 0x20100, ic := 1, copies := [⟨0, false, false⟩] }).pokeN 0x30000 2 0x3F80
/-- A CPY for rack 5 waits. -/
def asking2 : State := stocked.onClu 0 fun x => { x with cpyWait := [⟨0, 0, 9, 0, 0x10000, 0, 5, 1, false, 0, 0⟩] }
/-- A tensor of one element at 0x30000, with a trailer where `tp`. -/
def dot (fmt tp : Nat) : Handle :=
  ⟨⟨BitVec.ofNat 512 (0x30000 + fmt * 2 ^ 48 + tp * 2 ^ 56 + 2 ^ 64 + 2 ^ 96 + 2 ^ 128 + 2 ^ 160 + 16 * 2 ^ 192 + 0x38000 * 2 ^ 448), 0x2F000⟩, 0, 0, 0, 0, false⟩
def copyOf (h : Handle) (k : CopyKind) (r : Option (Nat × Word)) : Eng := eng 0 (.copy ⟨0, 0x10000, 0, 1, h, k, r, 0⟩)
/-- A copy to rack 6 is in flight. -/
def copying : State := stocked.onClu 0 fun x => { x with nextTag := 1, engs := [copyOf (tile 1 0) (.plain 1 1) (some (6, 0))] }
theorem hyp_ClusterEvents_accept : asking2.copyFree 0 = true ∧ (asking2.copyOrder 0).find? (asking2.copyWants 0) = some 1 ∧
    (asking2.clu 0).nextCpy 0 (asking2.clu 0).cpyWait [] = some ⟨0, 0, 9, 0, 0x10000, 0, 5, 1, false, 0, 0⟩ ∧ copying.copyFree 0 = false ∧
    (copying.clu 0).engs.find? (·.tag == 0) = some (copyOf (tile 1 0) (.plain 1 1) (some (6, 0))) ∧ (copyOf (tile 1 0) (.plain 1 1) none).held = none := by decide +kernel
/-- A fetch that ends, and whose writes reach their places: the hypotheses of a copy's completion. -/
def goesThrough (s : State) (e : Eng) (h : Handle) (cols : Nat) (left : List Nat) (r : Acc Unit × Fetched × State) (runs : List (Nat × List Byte)) : Bool :=
  let pins := (e.pins ++ pinsOf 0 r.2.1.keys).eraseDups
  let u := r.2.2.onEng 0 e.tag fun x => { x with pins := r.2.2.stillPinned 0 (s.blk 0) h cols left pins, pinWait := none }
  decide (r.1 = .ok ()) && (s.pinFull 0 e.tag s.cycle ((e.pins ++ pinsOf 0 r.2.1.keys).eraseDups)).isNone && decide ((u.engStores 0 (u.blk 0) 0 runs).1 = .ok ())
theorem hyp_ClusterEvents_copies : recordError (some (tile 1 0)) = none ∧ 1 * 1 * elemSize (tile 1 0).tlr.fmt ≤ 128 * (copying.rackOf 0 6).size ∧
    (let r := copying.fetchTile 0 (copying.blk 0) (tile 1 0) true 0 1 1 Fetched.none
     goesThrough copying (copyOf (tile 1 0) (.plain 1 1) (some (6, 0))) (tile 1 0) 1 ((List.range (1 * 1)).drop r.2.1.vals.length) r [((copying.rackOf 0 6).slotAddr 0, r.2.1.values.flatMap fun v => bytesOf 2 v)] = true) ∧
    0 = (copying.rackOf 0 6).fc ∧ 0 ≠ (copying.rackOf 0 6).ic ∧ ∃ y ∈ (copying.rackOf 0 6).copies, y.num = 0 := by decide +kernel
theorem hyp_ClusterEvents_seal : recordError (some (dot 2 1)) = none ∧ (dot 2 1).tlr.tp = true ∧ (dot 2 1).atTrailer = true ∧ (dot 2 1).inside 0 0 = some [0, 0, 0, 0] ∧
    (let r := copying.tileCodes 0 (copying.blk 0) (dot 2 1).tlr [0, 0, 0, 0] []
     let y := trailerBytes 7 1 (crc32c (codeBytes r.2.1)) 2
     goesThrough copying (copyOf (dot 2 1) (.sealing 7 1) (some (6, 0))) (dot 2 1) 64 [] (r.1, { Fetched.none with vals := r.2.1 }, r.2.2)
       [((dot 2 1).tlr.trailerAddr [0, 0, 0, 0], y), ((copying.rackOf 0 6).slotAddr 0, y)] = true) := by decide +kernel
theorem hyp_ClusterEvents_ccpy : (let r := copying.fetchTile 0 (copying.blk 0) (dot 1 0) true 0 1 64 Fetched.none
    goesThrough copying (copyOf (dot 1 0) (.ccpy (tile 1 0) 1) none) (dot 1 0) 64 ((List.range (1 * 64)).drop r.2.1.vals.length) r (tileRuns (tile 1 0) 1 fun p =>
      Tbl.get 0 ((r.2.1.values.zip (List.range r.2.1.values.length)).map fun q => (q.2, q.1)) p) = true) := by decide +kernel
theorem hyp_ClusterEvents_cvt : (let r := copying.fetchTile 0 (copying.blk 0) (dot 1 0) false 0 1 64 Fetched.none
    let ys := cvtReals (tile 2 2) 1 ⟨0, .b16⟩ r.2.1.values
    let codes := cvtCodes (tile 2 2) 1 ys
    goesThrough copying (copyOf (dot 1 0) (.cvt (tile 2 2) 1 ⟨0, .b16⟩) none) (dot 1 0) 64 ((List.range (1 * 64)).drop r.2.1.vals.length) r
      (tileRuns (tile 2 2) 1 (fun p => (codes.1.get (0, false) p).1) ++ codes.2 ++ cvtTrailers (tile 2 2) 1 ys codes.1) = true) := by decide +kernel
theorem test_copy_events : ((run (.cpyAccept 0) asking2).rackOf 0 5).ic = 1 ∧ ((run (.cpyAccept 0) asking2).clu 0).engs.length = 1 ∧
    (run (.copyPerformed 0 0) copying).peekN 0x20100 2 = 0x3F80 ∧ ((run (.copyPerformed 0 0) copying).rackOf 0 6).fc = 1 := by decide +kernel
/-- A request for 31 granules waits, from cycle 0; granule 20 is owned and in no map. -/
def asking1 : State := { (mat.onBlk 0 fun k => { k with gmap := [] }).onClu 0 fun x => { x with owner := [(20, some 0)], acq := [⟨0, 0, 31, 3, 0, 9⟩], acSince := some 0 } with cycle := 64 }
theorem hyp_ClusterEvents_granules : (asking1.clu 0).acq = [⟨0, 0, 31, 3, 0, 9⟩] ∧ (asking1.blk 0).freeRun 31 = some 0 ∧ 31 ≤ (asking1.clu 0).freeGranules.length ∧
    (((asking1.onClu 0 fun x => { x with owner := [(20, some 0), (21, some 0)] }).clu 0).freeGranules.length < 31) ∧ (asking1.clu 0).acSince = some 0 ∧ 0 + 64 ≤ asking1.cycle ∧
    (asking1.clu 0).owner.get none 20 = some 0 ∧ (∀ e ∈ (asking1.blk 0).gmap, e.2 ≠ some 20) ∧ (∀ e ∈ (asking1.clu 0).engs, 20 ∉ e.op.granules) ∧
    (∀ o ∈ (asking1.clu 0).port, 20 ∉ o.phys) := by decide +kernel
theorem test_granule_events : (run (.acallocGrant 0) asking1).w.S 3 = 0 ∧ ((run (.acallocGrant 0) asking1).blk 0).gmap.get none 30 = some 31 ∧
    (run (.acallocDeadlockFail 0) asking1).w.S 3 = 0xFFFFFFFF ∧ (run (.acallocDeadlockFail 0) { asking1 with cycle := 63 }).w.S 3 = 0 ∧
    ((run (.granuleReturn 0 20) asking1).clu 0).owner = [] := by decide +kernel
/-- A port operation on granule 9. -/
def portOp (k : PortKind) (nr : Nat) : State := { (mat.onClu 0 fun x => { x with port := [⟨k, 0, 0, 0x10000, 0, 0x20000, 0, 63, nr, [9], 3, 9, 0, 1, none, 0, 0⟩] }) with acc := [(accKey 0 9 63 63, 0x12345678)] }.pokeN 0x20000 4 0x9ABCDEF0
theorem hyp_ClusterEvents_port : ((portOp .acwr 1).clu 0).port = [⟨.acwr, 0, 0, 0x10000, 0, 0x20000, 0, 63, 1, [9], 3, 9, 0, 1, none, 0, 0⟩] ∧
    (portOp .aczero 1).portUnordered 0 ⟨.aczero, 0, 0, 0x10000, 0, 0x20000, 0, 63, 1, [9], 3, 9, 0, 1, none, 0, 0⟩ = [] ∧ ((portOp .acrd 1).warp 0).due = [] ∧
    ((portOp .acrd 1).engStores 0 ((portOp .acrd 1).blk 0) 0 ((List.range 1).map fun i => (0x20000 + 256 * i,
      (List.range 64).flatMap fun n => bytesOf 4 ((portOp .acrd 1).accAt 0 9 (63 + i) n).toNat))).1 = .ok () ∧
    ((portOp .acwr 1).portRows 0 ((portOp .acwr 1).blk 0) ⟨.acwr, 0, 0, 0x10000, 0, 0x20000, 0, 63, 1, [9], 3, 9, 0, 1, none, 0, 0⟩ 0 1).1 = .ok () ∧
    (match ((portOp .acwr 1).engLoad 0 ((portOp .acwr 1).blk 0) 0x20000 256).1 with
      | .ok _ => true
      | .err _ _ | .absent _ _ | .poison _ => false) = true ∧ ((portOp .acrd 1).blk 0).met = [] := by decide +kernel
theorem test_port_events : (run (.accumulatorPortDone 0) (portOp .acrd 1)).peekN 0x200FC 4 = 0x12345678 ∧ (run (.accumulatorPortDone 0) (portOp .acwr 1)).accAt 0 9 63 0 = 0x9ABCDEF0 ∧
    (run (.accumulatorPortDone 0) (portOp .aczero 1)).accAt 0 9 63 63 = 0 := by decide +kernel
/-- One MMUL of one row on granule 9, its row fetched. -/
def mulOp (e : Nat) : Mmul :=
  { blk := 0, pc := 0x11000, word := 0, h := tile 1 0, g := 0, phys := [9], rows := 1, total := 1, sub := 0, ov := true, shape := .q4, wts := ⟨1, (tile 1 0).kTag 1, [0x40000000], 1⟩,
    stamp := 1, row := if e = 0 then some [0x40400000] else none, entered := e, written := 0, sums := if e = 0 then [] else [[0x40C00000]], undef := [] }
def multiplying (e : Nat) : State := mat.onClu 0 fun x => { x with nextTag := 1, engs := [eng 0 (.mmul (mulOp e))] }
def engaged (op : EngOp) : State := mat.onClu 0 fun x => { x with nextTag := 1, engs := [eng 0 op] }
def stored : State := { engaged (.mstore 0 0x11000 0 0 (tile 0 0) 0 [9] 1 1 1) with acc := [(accKey 0 9 0 0, 0x3F800001)] }
/-- A weight tile whose element is all outside the tensor but the first: 16 rows by 16 columns of BF16. -/
def loading : State := (engaged (.mwload 0 0x11000 0 1 ⟨tensor 1 0, 63, 63, 0, 0, false⟩ 2)).pokeN (0x30000 + 2 * 63 + 256 * 63) 2 0x4000
theorem hyp_ClusterEvents_engines : ((multiplying 0).clu 0).engs = [eng 0 (.mmul (mulOp 0))] ∧ (mulOp 0).entered < (mulOp 0).rows ∧ (mulOp 0).row = some [0x40400000] ∧
    (mulOp 1).written < (mulOp 1).entered ∧ 9 ∉ (mulOp 1).undef ∧ (mulOp 1).phys[(mulOp 1).written / 64]? = some 9 ∧ (mulOp 1).sums = [[0x40C00000]] ∧
    (stored.engStores 0 (stored.blk 0) 0 (stored.mstoreRuns 0 (tile 0 0) [9] 1 1)).1 = .ok () ∧
    (let r := loading.fetchTile 0 (loading.blk 0) ⟨tensor 1 0, 63, 63, 0, 0, false⟩ false 0 (kOf .q4 1) (colsOf .q4) Fetched.none
     r.1 = .ok () ∧ r.2.1.values.take 2 = [0x40000000, 0] ∧ loading.pinFull 0 0 loading.cycle (pinsOf 0 r.2.1.keys).eraseDups = none) := by
  and_intros
  all_goals first | decide +kernel | exact uni_of (by decide +kernel) | exact lane_of (by decide +kernel) | exact end_of (by decide +kernel) |
    exact issues_of (by decide +kernel) | exact handles_of (by decide +kernel)
theorem test_engine_events : ((run (.mcfgApply 0) (engaged (.mcfg 0 .f41))).clu 0).shape = .f41 ∧ (run (.tileFetch 0 0) stored).peekN 0x30000 4 = 0x3F800001 ∧
    (((run (.tileFetch 0 0) loading).clu 0).weights.get none 2).isSome = true ∧ ((run (.mmulRowEnter 0 0) (multiplying 0)).mmulAt 0 0).map (fun x => x.1.sums) = some [[0x40C00000]] ∧
    (run (.mmulRowWrite 0 0) (multiplying 1)).accAt 0 9 0 0 = 0x40C00000 := by decide +kernel
def gateAt (g : Gate) (w : List Wake) (cyc : Nat) : State := { (lab.onBlk 0 fun k => { k with placed := false }).onClu 0 fun x => { x with gate := g, gateSince := 0, wake := w } with
  cycle := cyc, acc := [(accKey 0 31 63 63, 5)], rowValid := [(4095, true)] }
theorem hyp_ClusterEvents_gate : ((gateAt .idling [] 4096).clu 0).gate = .idling ∧ ((gateAt .idling [] 4096).clu 0).gateSince + 4096 ≤ (gateAt .idling [] 4096).cycle ∧
    ((gateAt .gating [] 64).clu 0).gateSince + 64 ≤ (gateAt .gating [] 64).cycle ∧ ((gateAt .waking [] 512).clu 0).wake = [] ∧
    ((gateAt .waking [.block 0 5 false] 512).clu 0).wake = [.block 0 5 false] ∧ 0 + 512 ≤ (gateAt .waking [] 512).cycle := by decide +kernel
theorem test_gate_events : ((run (.gatingBegin 0) (gateAt .idling [] 4096)).clu 0).gate = .gating ∧ ((run (.gatingBegin 0) (gateAt .idling [] 4095)).clu 0).gate = .idling ∧
    (run (.gatingEnd 0) (gateAt .gating [] 64)).acc = [] ∧ (run (.gatingEnd 0) (gateAt .gating [] 64)).rowValid = [] ∧
    ((run (.wakeEnd 0) (gateAt .waking [] 512)).clu 0).gate = .idling ∧ ((run (.wakeEnd 0) (gateAt .waking [.block 0 5 false] 512)).placedOn 0).length = 1 := by decide +kernel

/-! ## Launches and blocks -/

/-- Launch 0 of partition 0: its parameter block at 0x40000, count 2, `f` its flags; its kernel at 0x44000 has one warp. Clusters 2 to 323 of die 0
are reserved for another launch, and nothing is placed. -/
def grid (state f : Nat) : State :=
  let s := ((((((lab.onBlk 0 fun k => { k with placed := false, warps := [] }).onW fun w => { w with placed := false }).pokeN 0x40000 8 0x44000).pokeN 0x40014 4 2).pokeN 0x40018 4 2).pokeN 0x4001C 4 f).pokeN 0x40040 4 4
  let s := (s.pokeN 0x44000 8 0x10000).pokeN 0x44020 4 1
  ({ s with launches := [(0, { Launch.none with lpb := 0x40000, state := state, seq := 1, recheck := true })],
            clusters := s.clusters ++ (List.range 322).map fun c => (c + 2, { Cluster.empty with reserved := some 99 }) }.onRegion 0 fun r => { r with part := some 0 }).onPart 0 fun x =>
    { x with formed := true, queues := 0x70000, seq := 1 }
/-- Queue 63 has one entry, the parameter block at 0x40000. -/
def queued : State := ((((grid 3 0).pokeN (0x70000 + 64 * 63) 8 0x71000).pokeN (0x70000 + 64 * 63 + 16) 8 1).pokeN 0x71000 8 0x40000)
/-- A launch that waits for 5 at 0x60000. -/
def dependent : State := ((grid 1 0).pokeN 0x40058 8 0x60000).pokeN 0x40060 8 5
theorem hyp_LaunchEvents_accept : (queued.part 0).formed = true ∧ (queued.part 0).draining = false ∧ queued.peekN (0x70000 + 64 * 63 + 8) 8 ≠ queued.peekN (0x70000 + 64 * 63 + 16) 8 ∧
    queued.refusal 0 0x40000 (dcp (queued.firstDie 0)) = 0 ∧ (queued.pokeN 0x40040 4 3).refusal 0 0x40000 0 ≠ 0 ∧ queued.peekN (0x70000 + 8) 8 = queued.peekN (0x70000 + 16) 8 := by decide +kernel
theorem test_launchAccept : (run (.launchAccept 0 63) queued).launches.map (fun e => (e.2.state, e.2.queue, e.2.seq)) = [(3, 0, 1), (1, 63, 2)] ∧
    (run (.launchAccept 0 63) queued).peekN (0x70000 + 64 * 63 + 8) 8 = 1 ∧ (run (.launchAccept 0 63) (queued.pokeN 0x40040 4 3)).launches.map (fun e => e.2.state) = [3, 4] := by decide +kernel
theorem hyp_LaunchEvents_dispatch : 0 = ((grid 1 0).launchDies 0).headD 0 ∧ ((grid 1 0).launch 0).state = 1 ∧ ((grid 1 0).launch 0).prev = none ∧ (grid 1 0).lpbOf 0 0 88 8 = 0 ∧
    dependent.lpbOf 0 0 88 8 = 0x60000 ∧ (dependent.launch 0).recheck = true ∧ dependent.vaRead (dcp 0) 0x60000 8 < dependent.lpbOf 0 0 96 8 := by decide +kernel
theorem test_launchBeginDispatch : ((run (.launchBeginDispatch 0) (grid 1 0)).launch 0).state = 2 ∧ ((run (.launchBeginDispatch 0) dependent).launch 0).state = 1 ∧
    ((run (.launchBeginDispatch 0) dependent).launch 0).recheck = false ∧ ((run (.launchBeginDispatch 0) (dependent.pokeN 0x60000 8 5)).launch 0).state = 2 ∧
    ((run (.dependenceRecheck 0) (dependent.onLaunch 0 fun x => { x with recheck := false })).launch 0).recheck = true := by decide +kernel
theorem places : (grid 2 15).freePlaces 0 0 = 8 := by decide +kernel
/-- The same launch as a gang (flag bit 6). -/
def ganging0 : State := grid 2 79
theorem placesG : ganging0.freePlaces 0 0 = 8 := by decide +kernel
theorem hyp_LaunchEvents_claim : (grid 2 15).mayClaim 0 0 = true ∧ ((grid 2 15).die 0).dcpStopped = false ∧ (grid 2 15).outranked 0 0 = false ∧ (grid 2 15).itsTurn 0 0 = true ∧
    ((grid 2 15).lpbOf (dcp 0) 0 28 4).testBit 6 = false ∧ (grid 2 15).lpbOf (dcp 0) 0 20 4 - (grid 2 15).lpbOf (dcp 0) 0 16 4 = 2 ∧ (grid 2 15).pendingLen 0 = 0 ∧
    0 < min (min ((grid 2 15).lpbOf (dcp 0) 0 28 4 % 16 + 1) 2) (min 8 (16 - (grid 2 15).pendingLen 0)) ∧
    ganging0.mayClaim 0 0 = true ∧ ganging0.itsTurn 0 0 = true ∧ ganging0.outranked 0 0 = false ∧ (ganging0.lpbOf (dcp 0) 0 28 4).testBit 6 = true := by
  have h : (grid 2 15).claimable 0 0 = true := by rw [State.claimable, places]; decide +kernel
  have h' : ganging0.claimable 0 0 = true := by rw [State.claimable, placesG]; decide +kernel
  have o : ∀ x : State, x.launches.length = 1 → x.launches.map (·.1) = [0] → x.itsTurn 0 0 = true := by
    intro x _ hx
    simp only [State.itsTurn, List.all_eq_true]
    intro e he
    have : e.1 = 0 := by simpa [hx] using List.mem_map_of_mem (f := Prod.fst) he
    simp [this]
  rw [State.mayClaim, State.mayClaim, h, h']
  and_intros
  all_goals first | decide +kernel | exact o _ (by decide +kernel) (by decide +kernel)
theorem test_ticketClaim : let t := run (.ticketClaim 0 0) (grid 2 15)
    (t.die 0).claimed = [(0, 0), (0, 1)] ∧ t.lpbOf 0 0 16 4 = 2 := by decide +kernel
/-- A placed block of the launch, on cluster 0. -/
def begun_ (s : State) : State := (s.onBlk 0 fun k => { k with placed := true, begun := true, nwarps := 1, warps := [0] }).onW fun w => { w with placed := true }
def ganged : State := (begun_ ((grid 2 64).pokeN 0x40010 4 2))
theorem hyp_LaunchEvents_starts : ((ganged.onBlk 0 fun k => { k with hold := some 2000 }).blk 0).hold = some 2000 ∧ 0 = (ganged.launchDies 0).headD 0 ∧ (ganged.launch 0).state = 2 ∧
    (ganged.launch 0).start = none ∧ (ganged.lpbOf 0 0 28 4).testBit 6 = true ∧ ganged.lpbOf 0 0 16 4 = ganged.lpbOf 0 0 20 4 ∧ (∀ e ∈ ganged.dies, ∀ y ∈ e.2.saved, y.blk.launch ≠ 0) ∧
    ganged.blocksOf 0 = [0] ∧ ganged.unplaced 0 = false := by decide +kernel
theorem test_start_ticks : ((run (.gangReserve 0) ganged).launch 0).start = some 2000 ∧ ((run (.gangReserve 0) ganged).blk 0).hold = some 2000 ∧
    ((run (.gangStart 0) (run (.gangReserve 0) ganged)).blk 0).hold = some 2000 ∧ ((run (.gangStart 0) { run (.gangReserve 0) ganged with cycle := 5000 }).blk 0).hold = none ∧
    ((run (.timedStart 0) (ganged.onBlk 0 fun k => { k with hold := some 0 })).blk 0).hold = none := by decide +kernel
def heapReq (size : DWord) (must free : Bool) : HeapReq := ⟨0, 0, 0x10000, free, 0, size, 0, must, 8, 0, 0x100000⟩
def serving (r : HeapReq) : State := heaped.onDie 0 fun x => { x with heapq := [r] }
/-- The block at 0x100000 has been given, and is to be freed. -/
def freeing : State := (run (.heapAllocatorServe 0) (serving (heapReq 64 true false))).onDie 0 fun x => { x with heapq := [heapReq 64 true true] }
theorem hyp_LaunchEvents_heap : (let u := (serving (heapReq 64 true false)).onDie 0 fun y => { y with heapq := [] }
    ((serving (heapReq 64 true false)).die 0).heapq = [heapReq 64 true false] ∧ classOf 64 ≤ min 32 (u.heapEntry 0 0).1 ∧
    ((u.heapAt 0 0 0).alloc (classOf 64)).isSome = true ∧ 2 ^ 32 < (0x100000001 : DWord).toNat ∧
    ((serving (heapReq 0x100000001 false false)).die 0).heapq = [heapReq 0x100000001 false false] ∧ (u.blk (u.warp 0).blk).fault = none ∧ u.heapHolding (dieOf 0) 0x200000 = none) ∧
    let v := freeing.onDie 0 fun y => { y with heapq := [] }
    v.heapHolding 0 0x100000 = some (0, 0, 0) ∧ ((v.heapAt 0 0 0).dealloc 0 (v.heapEntry 0 0).1).isSome = true := by
  decide +kernel
theorem test_heapAllocatorServe : (run (.heapAllocatorServe 0) (serving (heapReq 64 true false))).w.SP 8 = 0x100000 ∧ (run (.heapAllocatorServe 0) (serving (heapReq 64 true false))).w.Q 0 = true ∧
    (run (.heapAllocatorServe 0) (serving (heapReq 0x100000001 false false))).w.SP 8 = 0 ∧
    ((run (.heapAllocatorServe 0) (serving (heapReq 0x100000001 true false))).blk 0).fault.map (·.code) = some 6 ∧
    ((run (.heapAllocatorServe 0) freeing).heapAt 0 0 0).used = [] := by decide +kernel
/-- A packet of die 0 reaches the mailbox of die 0 while its launch has a porter, or not. -/
def local_ : Packet := { pkt with sd := 3, src := 0 }
def posted (q : Packet) (n : Nat) (live : Bool) : State := ((grid 2 0).onDie 0 fun x => { x with mailLaunch := some 0, mailbox := List.replicate n pkt, fwdq := [q] }).onBlk 0 fun k =>
  { k with placed := live, porter := true }
theorem hyp_LaunchEvents_mailbox : ((posted local_ 63 true).die 0).fwdq = [local_] ∧ local_.src = 0 ∧ pkt.src ≠ 0 ∧ ((posted pkt 63 true).die 0).fwdq = [pkt] ∧
    (∃ m, ((posted local_ 63 true).die 0).mailLaunch = some m ∧ ((posted local_ 63 true).launch m).state = 2 ∧
      ((∃ e ∈ (posted local_ 63 true).blocks, e.2.placed = true ∧ e.2.porter = true ∧ e.2.launch = m ∧ dieOfBlk e.1 = 0) ∨
        ∃ y ∈ ((posted local_ 63 true).die 0).saved, y.blk.porter = true ∧ y.blk.launch = m)) ∧ ((posted local_ 63 true).die 0).mailbox.length < 64 ∧
    64 ≤ ((posted local_ 64 true).die 0).mailbox.length ∧ ¬ ∃ m, ((posted local_ 64 false).die 0).mailLaunch = some m ∧ ((posted local_ 64 false).launch m).state = 2 ∧
      ((∃ e ∈ (posted local_ 64 false).blocks, e.2.placed = true ∧ e.2.porter = true ∧ e.2.launch = m ∧ dieOfBlk e.1 = 0) ∨
        ∃ y ∈ ((posted local_ 64 false).die 0).saved, y.blk.porter = true ∧ y.blk.launch = m) := by
  refine ⟨rfl, rfl, by decide, rfl, ⟨0, rfl, by decide +kernel, .inl (by decide +kernel)⟩, by decide +kernel, by decide +kernel, ?_⟩
  have : ∀ e ∈ (posted local_ 64 false).blocks, e.2.placed = false := by decide +kernel
  have none : ((posted local_ 64 false).die 0).saved = [] := by decide +kernel
  rintro ⟨m, -, -, ⟨e, he, h, -⟩ | ⟨y, hy, -⟩⟩
  · rw [this e he] at h
    exact Bool.false_ne_true h
  · rw [none] at hy
    exact List.not_mem_nil hy
theorem test_mailboxPacket : [posted local_ 63 true, posted local_ 64 true, posted local_ 64 false].map (fun s => ((run (.mailboxPacket 0) s).w.S 3, ((run (.mailboxPacket 0) s).die 0).mailbox.length)) =
    [(0, 64), (1, 64), (2, 64)] ∧ ((run (.mailboxPacket 0) (posted pkt 64 true)).site (siteOf 0)).waiting.map (fun k => (k.answer, k.dst, k.vc)) = [(some (pkt, 1), siteOf 1, vcResponse)] := by decide +kernel
/-- The tree barrier tb7 is held by the launch; cluster 0 has arrived. -/
def treed (s : State) : State := (s.onClu 0 fun x => { x with excuse := [(7, false)] }).onTree 0 7 fun _ => { TreeBar.fresh with gang := some 0, arrived := [0] }
/-- The release of phase 0 has still to reach cluster 0, where warp 0 waits for it. -/
def releasing : State := ((treed ganged).onTree 0 7 fun t => { t with phase := 1, left := [0], arrived := [] }).onW fun w => { w with tbArr := [(7, 1)], a := w.a.map fun p => { p with waits := [.tbar 7 1 3 0] } }
theorem hyp_LaunchEvents_tree : ((treed ganged).tree 0 7).gang = some 0 ∧ ((treed ganged).tree 0 7).left = [] ∧ (treed ganged).treeReady 0 7 0 = true ∧
    ((treed ganged).onTree 0 7 fun t => { t with arrived := [] }).treeReady 0 7 0 = false ∧ (releasing.tree 0 7).gang = some 0 ∧ (releasing.tree 0 7).left = [0] ∧
    dieOfClu 0 = dieOfClu 0 ∧ 0 ∈ releasing.gangOn 0 0 ∧ 0 ∈ (releasing.blk 0).warps ∧ 1 ≤ (releasing.tree 0 7).phase := by decide +kernel
theorem test_treeRelease : ((run (.treeRelease 0 7) (treed ganged)).tree 0 7).phase = 1 ∧ ((run (.treeRelease 0 7) ((treed ganged).onTree 0 7 fun t => { t with arrived := [] })).tree 0 7).phase = 0 ∧
    (run (.treeRelease 0 7) releasing).w.S 3 = 0x10000 ∧ ((run (.treeRelease 0 7) releasing).tree 0 7).left = [] := by decide +kernel

/-- Index 1 of the launch is claimed on die 0 and cluster 0 is on. -/
def placing : State := (((grid 2 0).pokeN 0x40010 4 2).onDie 0 fun x => { x with claimed := [(0, 1)] }).onClu 0 fun x => { x with gate := .on }
/-- The block of index 0 has ended. -/
def allEnded : State := (begun_ ((grid 2 0).pokeN 0x40010 4 2)).onW fun w => { w with ended := true }
/-- A block of launch 1, chosen to be saved in slot 3; its warp stands at a boundary. -/
def saving_ : State := (begun_ (grid 2 0)).onBlk 0 (fun k => { k with saving := true, saveSlot := 3 }) |>.onW fun w => { w with a := some { p1 with clause := none } }
/-- All the clusters of die 0 are on. -/
def powered_ (s : State) : State := { s with clusters := (List.range 324).map fun c => (c, { s.clu c with gate := .on }) }
def saved_ : State := powered_ (run (.blockSave 0) saving_)
/-- The porter of the launch, whose kernel is at 0x46000, waits to be placed. -/
def portering : State := (((placing.pokeN 0x44018 8 0x46000).pokeN 0x46000 8 0x10000).pokeN 0x46020 4 1).onDie 0 fun x => { x with porters := [0] }
theorem hyp_BlockEvents : (placing.die 0).dcpStopped = false ∧ (placing.launch 0).state = 2 ∧ placing.outranked 0 0 = false ∧ placing.follows 0 0 = true ∧
    (placing.onClu 1 fun x => { x with wake := [.block 0 5 false] }).follows 0 0 = false ∧ (placing.onClu 1 fun x => { x with wake := [.block 0 5 false] }).chooseCluster 0 (placing.kernelOf 0 0) (placing.carveOf 0 0) none = some 0 ∧ 0 ∉ (placing.die 0).porters ∧
    (∀ y ∈ (placing.die 0).saved, y.blk.launch ≠ 0) ∧ (placing.lpbOf (dcp 0) 0 28 4).testBit 6 = false ∧ (0, 1) ∈ (placing.die 0).claimed ∧
    (∀ e ∈ (placing.die 0).claimed, e.1 = 0 → 1 ≤ e.2) ∧ placing.chooseCluster 0 (placing.kernelOf 0 0) (placing.carveOf 0 0) none = some 0 ∧ (placing.clu 0).gate = .on ∧
    0 ∈ (portering.die 0).porters ∧ portering.chooseCluster 0 (portering.kernelAt (dcp 0) (portering.kernelOf 0 0).porter) (portering.carveOf 0 0) none = some 0 ∧
    portering.follows 0 0 = true ∧ (portering.clu 0).gate = .on ∧ portering.outranked 0 0 = false := by decide +kernel
theorem hyp_BlockEvents_ends : ((grid 3 0).launch 0).state ≠ 2 ∧ allEnded.blockOver 0 = true ∧ (begun_ (grid 2 0)).blockOver 0 = false ∧ saving_.savable 0 = true ∧ allEnded.savable 0 = false ∧
    (∀ u ∈ (saving_.blk 0).warps, (saving_.warp u).parts = []) ∧ ((grid 2 0).die 0).saved = [] := by decide +kernel
theorem hyp_BlockEvents_resume : (∃ y rest, (saved_.die 0).saved = y :: rest ∧ y.blk.launch = 0 ∧ saved_.takes 0 y (saved_.carveOf 0 0) = true) ∧ (∀ e ∈ saved_.clusters, .saved ∉ e.2.wake) ∧
    (saved_.die 0).dcpStopped = false ∧ saved_.outranked 0 0 = false ∧ (∀ c, c / 324 = 0 → (saved_.clu c).gate = .on) ∧ (saved_.lpbOf (dcp 0) 0 28 4).testBit 6 = false := by
  refine ⟨⟨saving_.contextOf 0, [], by decide +kernel⟩, by decide +kernel, by decide +kernel, by decide +kernel, fun c h => ?_, by decide +kernel⟩
  have : ∀ c < 324, (saved_.clu c).gate = .on := by decide +kernel
  exact this c (by omega)
/-- A block of a gang is saved; its die may reserve for it. -/
def savingGang : State := (begun_ (grid 2 64)).onBlk 0 (fun k => { k with saving := true, saveSlot := 3 }) |>.onW fun w => { w with a := some { p1 with clause := none } }
def savedGang : State := powered_ (run (.blockSave 0) savingGang)
theorem hyp_BlockEvents_resume_gang : (savedGang.lpbOf (dcp 0) 0 28 4).testBit 6 = true ∧ savedGang.gangMay 0 0 = true ∧ savedGang.outranked 0 0 = false ∧ ∃ y rest, (savedGang.die 0).saved = y :: rest ∧
    y.blk.launch = 0 ∧ let u := (savedGang.onPart 0 fun z => { z with reserving := some 0 }).reserve 0 0 1 (clustersOf 0) 0
    u.takes 0 y (savedGang.carveOf 0 0) = true ∧ (u.clu 0).reserved = some 0 := by
  refine ⟨by decide +kernel, by decide +kernel, by decide +kernel, savingGang.contextOf 0, [], by decide +kernel⟩
theorem test_block_place_end : ((run (.blockPlace 0 0) placing).blk 0).placed = true ∧ ((run (.blockPlace 0 0) placing).blk 0).index = 1 ∧ (run (.blockPlace 0 0) placing).w.blkId = 1 ∧
    ((run (.blockPlace 0 0) portering).blk 0).porter = true ∧ ((run (.blockPlace 0 0) portering).die 0).porters = [] ∧
    ((run (.blockEnd 0) allEnded).blk 0).placed = false ∧ (run (.blockEnd 0) allEnded).w.placed = false := by decide +kernel
theorem test_block_save_resume : (saved_.blk 0).placed = false ∧ ((run (.blockResume 0) saved_).blk 0).placed = true ∧ ((run (.blockResume 0) saved_).blk 0).saving = false ∧
    ((run (.blockResume 0) saved_).die 0).saved = [] ∧ ((run (.blockResume 0) savedGang).die 0).saved = [] ∧ ((run (.blockResume 0) savedGang).blk 0).placed = true := by decide +kernel
/-- Launch 1 has a lower priority number and its kernel needs 256 warps; cluster 1 is retired as well; a begun block of launch 0 stands in its way. -/
def pressed : State :=
  let s := ((begun_ (grid 2 0)).onClu 1 fun x => { x with retired := true }).onLaunch 0 fun x => { x with prio := 3 }
  let s := ((((s.pokeN 0x41000 8 0x45000).pokeN 0x41014 4 1).pokeN 0x41018 4 1).pokeN 0x45000 8 0x10000).pokeN 0x45020 4 256
  { s.onDie 0 fun x => { x with save := 2 ^ 48 } with launches := s.launches ++ [(1, { Launch.none with lpb := 0x41000, state := 2, seq := 2 })] }
theorem hyp_BlockEvents_preempt : (pressed.launch 1).state = 2 ∧ 0 ∈ pressed.launchDies 1 ∧ pressed.lpbOf 0 1 16 4 ≠ pressed.lpbOf 0 1 20 4 ∧ pressed.noRoom 0 1 = true ∧
    (∀ e ∈ pressed.blocks, dieOfBlk e.1 = 0 → e.2.saving = false) ∧ pressed.preemptOn 0 1 = some 0 ∧
    pressed.victims 0 (pressed.kernelOf 0 1) (pressed.carveOf 0 1) [] (pressed.youngestFirst 0) = some [0] ∧ (pressed.blk 0).placed = true ∧ (pressed.blk 0).saving = false ∧
    (pressed.blk 0).begun = true ∧ (pressed.lpbOf 0 (pressed.blk 0).launch 28 4).testBit 6 = false ∧ pressed.freeSlots 0 = [0] ∧
    (pressed.onLaunch 0 fun x => { x with prio := 0 }).preemptOn 0 1 = none ∧
    (let s := pressed.onBlk 0 fun k => { k with begun := false }
     s.preemptOn 0 1 = some 0 ∧ s.victims 0 (s.kernelOf 0 1) (s.carveOf 0 1) [] (s.youngestFirst 0) = some [0] ∧ (s.blk 0).porter = false) := by decide +kernel
theorem test_preempt : ((run (.preempt 0 1) pressed).blk 0).saving = true ∧ (((run (.preempt 0 1) (pressed.onBlk 0 fun k => { k with begun := false })).die 0).claimed = [(0, 0)]) := by decide +kernel

/-! ## Caches and homes -/

/-- Core 0's L1 and the RDC of die 0 hold line 0x400 with byte 0 dirty, in their FIFOs, and line 0x401 clean; the RDC's line 2^29 is
of die 1, as is its line 2^29 + 1. -/
def dirtied : Line := { data := 0x55, valid := 3, dirty := 1, filled := 0, used := 0, since := 0 }
def cleaned : Line := { dirtied with dirty := 0 }
def cached : State := ((lab.onClu 0 fun x => { x with carve := 1 }).onCore 0 fun x => { x with l1 := [(0x400, dirtied), (0x401, cleaned)], fifo := [0x400] }).onDie 0 fun x =>
  { x with rdc := [(2 ^ 29, dirtied), (2 ^ 29 + 1, cleaned)], fifo := [2 ^ 29] }
/-- Host port 0 is assigned to partition 0, whose queue table lies at 0x20000 (R414). -/
def hosted : State := lab.onPart 0 fun x => { x with formed := true, queues := 0x20000, ports := [(0, 1)] }
theorem hyp_CachesAndHomes : (cached.core 0).fifo = [0x400] ∧ (cached.die 0).fifo = [2 ^ 29] ∧ cached.homedOn 0 (128 * (2 ^ 29 + 1)) = false ∧ cached.homedOn 0 (128 * 0x400) = true ∧
    ((cached.die 0).rdc.get Line.empty (2 ^ 29 + 1)).dirty = 0 ∧ ((cached.die 0).rdc.get Line.empty (2 ^ 29)).dirty = 1 ∧
    (cached.rdcRoom 0 (2 ^ 29 + 1)).poisoned 0 (128 * (2 ^ 29 + 1)) = false ∧
    (∀ i < 2, paOk (0x20000 + i) = true ∧ paKind (0x20000 + i) = 0) ∧ (∀ i < 64 / 8, paOk (0x20000 + i) = true ∧ paKind (0x20000 + i) = 0) ∧
    (∀ i < 4, paOk (199 * 2 ^ 36 + i) = true ∧ paKind (199 * 2 ^ 36 + i) = 0) ∧ lab.homeOf 5 0x20000 = some 0x20000 ∧ lab.homeOf 5 (0x20001 / 128 * 128) = some 0x20000 ∧
    homeDie 0x20000 = some 0 ∧ 0x20001 % 128 + 4 ≤ 128 ∧
    hosted.hostPartition 0 = some 0 ∧ hosted.hostPartition 1 = none ∧ (∀ i < 4, hosted.hdm 0 (0x20001 + i) = true) ∧ hosted.hdm 0 0x21000 = false ∧
    hosted.homeOf (hosted.firstDie 0) 0x20001 = some 0x20001 ∧ hosted.homeOf (hosted.firstDie 0) (0x20001 / 128 * 128) = some 0x20000 ∧ paKind (128 * (3 * 2 ^ 39)) = 3 ∧ (∃ e ∈ (grid 1 0).launches, e.2.state = 1) := by decide +kernel
theorem test_l1_events : ((run (.l1ReleaseDrain 0) cached).core 0).fifo = [] ∧ (((run (.l1ReleaseDrain 0) cached).core 0).l1.get Line.empty 0x400).dirty = 0 ∧
    (((run (.lineExpiry false 0 0x401) cached).core 0).l1.get Line.empty 0x401) = Line.empty ∧ (((run (.lineExpiry false 0 0x400) cached).core 0).l1.get Line.empty 0x400) = dirtied ∧
    ((run (.dirtyWritebackTimeout false 0) cached).core 0).fifo = [] ∧ ((run (.dirtyWritebackTimeout true 0) cached).die 0).fifo = [] := by decide +kernel
theorem test_rdc_events : ((run (.rdcReleaseComplete 0) cached).die 0).fifo = [] ∧ (run (.rdcReleaseComplete 0) cached).peek (2 ^ 36) = 0x55 ∧
    (((run (.rdcAcquireComplete 0) cached).die 0).rdc.get Line.empty (2 ^ 29)).valid = 1 ∧ (((run (.rdcAcquireComplete 0) cached).die 0).rdc.get Line.empty (2 ^ 29 + 1)).valid = 0 ∧
    (((run (.rdcFill 0 (2 ^ 29 + 2)) (cached.pokeN (2 ^ 36 + 256) 1 0x77)).die 0).rdc.get Line.empty (2 ^ 29 + 2)).byte 0 = 0x77 := by decide +kernel
theorem test_home_events : (run (.homeWrite 0 0x20000 [1, 2]) lab).peekN 0x20000 2 = 0x201 ∧ (run (.homeAtomic 0 0x20000 true .add 0 3) (lab.pokeN 0x20000 8 0xFFFFFFFFFFFFFFFF)).peekN 0x20000 8 = 2 ∧
    (run (.homeAtomic 0 0x20000 false .cas 7 9) (lab.pokeN 0x20000 4 7)).peekN 0x20000 4 = 9 ∧ (run (.hostCxlMemAccess 0 0x20000 (.write [5])) hosted).peek 0x20000 = 5 ∧
    (run (.hostCxlMemAccess 0 0x21000 (.write [5])) hosted).peek 0x21000 = 0 ∧ (run (.hostCxlMemAccess 1 0x20000 (.write [5])) hosted).peek 0x20000 = 0 ∧
    ((run (.cxlSnoop 0x400) cached).core 0).l1.get Line.empty 0x400 = Line.empty ∧ (run (.cxlSnoop 0x400) cached).peek 0x20000 = 0x55 := by decide +kernel

/-! ## Translation, faults, soft errors -/

/-- The tables of die 0 at 0x80000 map the lowest 4 GiB to themselves, readable, writable and executable (R304); the next 4 GiB are not present. -/
def paged (s : State) : State := (((s.pokeN 0x80000 8 0x80801).pokeN 0x80800 8 0x3F).pokeN 0x80808 8 0x3B).onDie 0 fun x => { x with troot := 0x80000 }
def mapped : State := paged lab
/-- Warp 0 waits on fault entry 255 of die 0; the address is 0x100000010. -/
def suspended_ (n : Option Nat) : State := (mapped.onDie 0 fun x => { x with fct := [(255, some ⟨0x100000000, 2, 1⟩)] }).onW fun w => { w with susp := some ⟨n, 0x100000010, .load, 0x0003, false⟩ }
/-- A transfer's target is being walked for: the suspension is soft. -/
def softly : State := (suspended_ (some 255)).onW fun w => { w with susp := some ⟨some 255, 0x100000010, .fetch, 0x0003, true⟩ }
theorem hyp_TranslationAndFaults : mapped.walk (0 / 324) 0xFFFFFFFF .fetch = .ok 0xFFFFFFFF ⟨0, 2, 0, 7⟩ ∧ (∀ frame leaf, mapped.walk (0 / 324) 0x100000000 .load ≠ .ok frame leaf) ∧
    ((suspended_ (some 255)).die 0).fct.get none 255 = some ⟨0x100000000, 2, 1⟩ ∧ ((suspended_ (some 255)).die 0).recq = [] ∧
    (suspended_ (some 255)).w.susp = some ⟨some 255, 0x100000010, .load, 0x0003, false⟩ ∧ dieOf (suspended_ (some 255)).w.uid = 0 ∧ ((suspended_ (some 255)).blk 0).fault = none ∧
    (∀ y ∈ (suspended_ (some 255)).warps, y.2.susp = none) ∧ (∀ y ∈ (suspended_ (some 255)).blocks, y.2.m.held = none ∧ y.2.c.held = none) ∧
    (∀ y ∈ (suspended_ (some 255)).clusters, y.2.engs = [] ∧ y.2.port = []) ∧ ((suspended_ (some 255)).die 0).traceHeld = none ∧ (suspended_ none).w.susp = some ⟨none, 0x100000010, .load, 0x0003, false⟩ ∧
    (softly.die 0).fct.get none 255 = some ⟨0x100000000, 2, 1⟩ ∧ (∀ y ∈ softly.clusters, y.2.engs = [] ∧ y.2.port = []) ∧
    ((suspended_ none).die 0).fct.get none (254 % 256) = none ∧ ((mapped.onDie 0 fun x => { x with invalBusy := true }).die 0).invalBusy = true := by
  have h : mapped.walk (0 / 324) 0x100000000 .load = .notPresent 0x100000000 2 := by decide +kernel
  rw [h]
  refine ⟨by decide +kernel, fun _ _ h => Walk.noConfusion h, by decide +kernel⟩
theorem test_walk_inval : ((run (.translationWalk (.core 53) 0x1000 .store) mapped).clu 3).tlb = [⟨0, 2, 0, 7⟩] ∧
    ((run (.translationWalk (.core 53) 0x1000 .store) mapped).core 53).utlb = [⟨0, 2, 0, 7⟩] ∧ ((run (.translationWalk (.cluster 3) 0x100001000 .store) mapped).clu 3).tlb = [] ∧
    ((run (.invalComplete 0) (run (.inval own 0x10002) mapped)).clu 0).tlb = [] ∧ ((run (.invalComplete 0) (run (.inval own 0x100000001) mapped)).clu 0).tlb ≠ [] := by decide +kernel
theorem test_resolve : (run (.resolve own 255) (suspended_ (some 255))).w.susp = none ∧ ((run (.resolve own 255) (suspended_ (some 255))).die 0).fct.get none 255 = none ∧
    ((run (.resolve own 511) (suspended_ (some 255))).blk 0).fault.map (fun x => (x.code, x.info, x.lanes)) = some (3, 0x100000010, 0x0003) ∧
    (run (.resolve own 254) (suspended_ (some 255))).w.susp = some ⟨some 255, 0x100000010, .load, 0x0003, false⟩ ∧ (run (.fqrpWrite own 9) (suspended_ none)).w.susp = none ∧ (run (.resolve own 511) softly).w.failed = true ∧
    ((run (.fqWrite own 0xFF0000000000ABCD) (suspended_ none)).die 0).fq = 0xABCD := by decide +kernel
theorem hyp_TranslationAndFaults_errors : ((cached.core 0).l1.get Line.empty (0x20000 / 128)).dirty ≠ 0 ∧ ((cached.core 0).l1.get Line.empty (0x20080 / 128)).dirty = 0 ∧ cached.homeOf 0 0x20080 = some 0x20080 ∧ (5 : Nat) < 7 ∧ 5 ≠ 2 ∧ (cached.clu 0).retired = false := by
  decide +kernel
theorem test_soft_errors : ((run (.correctableError 0 5) lab).counters.get Counter.off (ctrKey 2 0 15)).value = 1 ∧
    ((run (.uncorrectableError 0 2 0x20080) cached).core 0).l1.get Line.empty 0x401 = Line.empty ∧ ((run (.uncorrectableError 0 2 0x20000) cached).clu 0).retired = true ∧
    (run (.uncorrectableError 0 7 0x20080) cached).poison.get false 0x401 = true ∧ (run (.uncorrectableError 0 8 (2 ^ 36)) cached).poison.get false (2 ^ 29) = true ∧
    (run (.uncorrectableError 0 8 (2 ^ 36 + 128)) cached).poison = [] ∧ ((run (.uncorrectableError 0 5 0) cached).blk 0).placed = false := by decide +kernel

/-! ## The fabric and time -/

/-- A packet of two flits from site 0 to another with a tack event, and a state in which it waits at site 0; east is direction 1. -/
def packet (dst : Nat) : Pkt :=
  { src := 0, dst := dst, vc := vcEvent, own := vcEvent, rerouted := false, legs := [], flits := 2, num := dst, came := none, answer := none,
    event := some (0, ⟨⟨0xB0, 0, 0, 0, 0, 1, 0, 5⟩, 1, none⟩), fwd := none, warp := none, addr := 0 }
def meshOf (p : Pkt) (down : List Nat) : State :=
  { lab with sites := [(0, { Site.empty with waiting := [p], spilled := [{ packet 1 with num := 9 }] })], links := down.map fun k => (k, { Link.whole with failed := true }) }
def mesh (dst : Nat) (down : List Nat) : State := meshOf (packet dst) down
def retrying (n : Nat) (lost : Option Nat) (cyc : Nat) : State := { lab with links := [(1, ⟨false, n, lost, none, false⟩)], cycle := cyc }
/-- The packet flies over the link from site 0 to the east, n flits of it still to come. -/
def flying_ (p : Pkt) (n : Nat) : State := { lab with links := [(1, ⟨false, 3, none, some (p, n), false⟩)] }
/-- A packet with a FWD, and one with the answer to it. -/
def carrying (dst : Nat) : Pkt := { packet dst with event := none, fwd := some pkt, vc := vcRequest, own := vcRequest }
def answering (dst : Nat) : Pkt := { packet dst with event := none, answer := some ({ pkt with sd := 3 }, 1), vc := vcResponse, own := vcResponse }
/-- The same, while an older packet of the pair has still to be injected again. -/
def elder : State := { flying_ (packet 1) 1 with sites := [(0, { Site.empty with spilled := [{ packet 1 with num := 0 }] })] }
theorem hyp_FabricAndTime : neighbour 0 1 = some 1 ∧ neighbour 399 0 = none ∧ ((retrying 7 none 0).link 0 1).failed = false ∧ ((retrying 7 none 0).link 0 1).retries < 8 ∧
    8 ≤ ((retrying 8 none 0).link 0 1).retries ∧ ((retrying 8 none 0).link 0 1).lost = none ∧ ((retrying 0 none 0).link 0 1).flying = none ∧ ((retrying 0 (some 0) 2500).link 0 1).lost = some 0 ∧
    0 + 1000 ≤ (retrying 0 (some 0) 2500).siteTick 0 ∧ (retrying 0 (some 0) 2499).siteTick 0 < 0 + 1000 ∧
    ((flying_ (packet 1) 2).link 0 1).flying = some (packet 1, 2) ∧ ((flying_ (packet 1) 1).link 0 1).flying = some (packet 1, 1) ∧ (packet 1).legs.drop 1 = [] ∧ (packet 1).answer = none ∧
    (packet 399).dst ≠ 1 ∧ ((flying_ (packet 1) 1).onLink 0 1 fun l => { l with retries := 0, flying := none }).overtakes { packet 1 with came := some 0 } = false ∧
    ((elder.onLink 0 1 fun l => { l with retries := 0, flying := none }).overtakes { packet 1 with came := some 0 } = true ∧ (elder.link 0 1).flying = some (packet 1, 1)) := by decide +kernel
theorem hyp_FabricAndTime_packets : (lab.site 0).waiting = [] ∧ (((mesh 0 []).site 0).waiting.find? fun p => p.dst == 0 && !(mesh 0 []).overtakes p) = some (packet 0) ∧
    (((meshOf (answering 0) []).site 0).waiting.find? fun p => p.dst == 0 && !(meshOf (answering 0) []).overtakes p) = some (answering 0) ∧ (((mesh 1 []).site 0).waiting.find? fun p => p.dst == 0 && !(mesh 1 []).overtakes p) = none ∧
    (((mesh 1 []).site 0).waiting.find? fun p => p.dst != 0 && !(mesh 1 []).whole 0 (p.next 0)) = none ∧ (mesh 1 []).outputNext 0 0 = none ∧ (mesh 1 []).outputNext 0 1 = some (packet 1) ∧
    (((mesh 1 [1]).site 0).waiting.find? fun p => p.dst != 0 && !(mesh 1 [1]).whole 0 (p.next 0)) = some (packet 1) ∧ (packet 399).next 0 = 1 ∧
    (mesh 1 [1]).detour 0 1 = some [20, 21, 1] ∧ (mesh 1 [0, 1]).detour 0 1 = none ∧ (carrying 1).ofFwd = some pkt ∧ (packet 1).ofFwd = none ∧
    (((meshOf (carrying 1) [0, 1]).blk ((meshOf (carrying 1) [0, 1]).warp 0).blk).fault = none) ∧
    ((mesh 1 [1]).site 0).spilled = [{ packet 1 with num := 9 }] ∧ (mesh 1 [1]).detour 0 (({ packet 1 with num := 9 } : Pkt).next 0) = some [20, 21, 1] := by decide +kernel
theorem test_links : ((run (.flitReceive 0 1 false) (retrying 8 none 0)).link 1 3).failed = true ∧ ((run (.flitReceive 0 1 false) (retrying 7 none 0)).link 0 1).retries = 8 ∧
    ((run (.flitReceive 0 1 true) (retrying 8 none 0)).link 0 1).retries = 0 ∧ ((run (.laneLockLost 0 1) (retrying 0 none 2500)).link 0 1).lost = some 1000 ∧
    ((run (.laneLockRegained 0 1) (retrying 0 (some 0) 0)).link 0 1).lost = none ∧ ((run (.laneLockTimeout 0 1) (retrying 0 (some 0) 2500)).link 0 1).failed = true ∧
    ((run (.laneLockTimeout 0 1) (retrying 0 (some 0) 2499)).link 0 1).failed = false := by decide +kernel
theorem test_flits : ((run (.flitReceive 0 1 true) (flying_ (packet 1) 2)).link 0 1).flying = some (packet 1, 1) ∧ (run (.flitReceive 0 1 true) (flying_ (packet 1) 1)).evq.length = 1 ∧
    ((run (.flitReceive 0 1 true) (flying_ (packet 399) 1)).site 1).waiting = [{ packet 399 with came := some 0 }] ∧
    ((run (.flitReceive 0 1 true) elder).site 1).waiting = [{ packet 1 with came := some 0 }] ∧ (run (.flitReceive 0 1 true) elder).evq = [] := by decide +kernel
theorem test_packets : (run (.packetForward 0) (mesh 0 [])).evq.length = 1 ∧ (run (.packetForward 0) (meshOf (answering 0) [])).w.S 3 = 1 ∧
    ((run (.packetForward 0) (mesh 399 [])).link 0 1).flying = some (packet 399, 2) ∧ ((run (.packetForward 0) (mesh 399 [])).site 0).waiting = [] ∧
    ((run (.packetForward 0) (mesh 1 [1])).site 0).spilled.map (·.num) = [1, 9] ∧ (run (.packetForward 0) (mesh 1 [0, 1])).dropq = [0] ∧
    ((run (.packetForward 0) (meshOf (carrying 1) [0, 1])).blk 0).fault.map (·.code) = some 3 ∧
    ((run (.spillReinject 0) (mesh 1 [1])).site 0).waiting.map (fun p => (p.vc, p.legs)) = [(vcEvent, []), (vcReroute, [20, 21, 1])] := by decide +kernel
/-- Die 5 and its home memory site are n ticks ahead, at tick 4096 of the reference. -/
def early (n : Int) : State := { lab with cycle := 10240 }.onDie 5 fun x => { x with slew := n, baseSlew := n, owed := 3, baseOwed := -3 }
/-- The site of die 5 is cut off from every other. -/
def islet (n : Int) : State := { early n with links := (List.range 4).map fun k => (4 * siteOf 5 + k, { Link.whole with failed := true }) }
theorem hyp_FabricAndTime_time : ((early 1).die 5).exchange < (early 1).tick 5 / 4096 ∧ (65552 : Int) / 16 = (early 1).tick 5 ∧ ((65552 - 65536) + (65552 - 65536)) / 2 = 16 * (early 1).ahead false 5 ∧
    ((early 1).die 5).baseExchange < (early 1).baseTick 5 / 4096 ∧ (65552 : Int) / 16 = (early 1).baseTick 5 ∧ 16 = 16 * (early 1).ahead true 5 ∧ (5 : Nat) ≠ refDie ∧
    ¬ (lab.die 5).exchange < lab.tick 5 / 4096 ∧ ({ early 1 with cycle := 2 } : State).slewable ((early 1).die 5).slewAt = true ∧ ((early 1).die 5).owed ≠ 0 ∧
    ({ early 1 with cycle := 2 } : State).slewable ((early 1).die 5).baseSlewAt = true ∧ ((early 1).die 5).baseOwed ≠ 0 ∧ (early 1).routeOk (siteOf 5) refSite = true ∧ (early 1).routeOk refSite (siteOf 5) = true ∧
    (early 1).routeOk (homeSite 5) refSite = true ∧ (early 1).routeOk refSite (homeSite 5) = true ∧ (islet 1).routeOk (siteOf 5) refSite = false ∧ lab.slewable (lab.die 5).slewAt = false ∧ (lab.die 5).baseOwed = 0 := by decide +kernel
/-- R333: an offset of 16 sixteenths is in lock, and 32 is not. -/
theorem test_time : (let t := run (.timingExchange false 5 65552 65536 65536 65552) (early 1)
     ((t.die 5).tickoff, (t.die 5).locked, (t.die 5).owed) = (16, true, -1)) ∧
    (let t := run (.timingExchange false 5 65568 65536 65536 65568) (early 2)
     ((t.die 5).tickoff, (t.die 5).locked, t.interrupts) = (32, false, [.tlock 5 false])) ∧
    (let t := run (.timingExchange true 5 65552 65536 65536 65552) (early 1)
     ((t.die 5).baseOff, (t.die 5).baseLocked, (t.die 5).baseOwed) = (16, true, -1)) ∧
    run (.timingExchange false 5 0 0 0 0) lab = lab ∧ run (.timingExchange false 5 65552 65536 65536 65552) (islet 1) = islet 1 ∧ ((run (.tickSlew false 5) { early 1 with cycle := 2 }).die 5).slew = 2 ∧ ((run (.tickSlew false 5) { early 1 with cycle := 2 }).die 5).owed = 2 ∧
    ((run (.tickSlew true 5) { early 1 with cycle := 2 }).die 5).baseSlew = 0 ∧ ((run (.tickSlew true 5) { early 1 with cycle := 2 }).die 5).baseOwed = -2 := by decide +kernel
/-- Span port 2 in the midst of an exchange, as a slave or a master, at tick 40. -/
def spanned (master : Bool) : State := { lab with cycle := 100, spans := [(2, { Span.idle with master := master, seq := 3, t1 := some 10, t2 := some 20, t3 := some 30 })] }
/-- The region of span port 2 belongs to partition 0. -/
def ported : State := lab.onRegion (regionOfSite 5) fun x => { x with part := some 0 }
theorem hyp_FabricAndTime_spans : spanSite 2 = some 5 ∧ spanSite 20 = none ∧ lab.spanOwner 2 = none ∧ (ported.spanOwner 2).isSome = true ∧ 4 + 2 ≤ Config.stackBytes ∧ Config.stackBytes < 2 ^ 36 - 1 + 2 ∧ (spanned false).siteTick 5 = 40 ∧ ((spanned false).spans.get Span.idle 2).ends (.sync 4) = false ∧
    (let x := (spanned false).spans.get Span.idle 2
     x.master = false ∧ x.seq = 3 ∧ x.t1 = some 10 ∧ x.t2 = some 20 ∧ x.t3 = some 30) ∧ ((spanned true).spans.get Span.idle 2).master = true := by decide +kernel
theorem test_spans : (run (.ptpMessage 2 (.delayResp 3 36)) (spanned false)).refOwed = -2 ∧ ((run (.ptpMessage 2 (.delayResp 3 36)) (spanned false)).spans.get Span.idle 2).offset = 2 ∧
    ((run (.ptpMessage 2 (.followUp 3 15)) (spanned false)).spans.get Span.idle 2).t3 = some 40 ∧ ((run (.ptpMessage 2 (.sync 4)) (spanned true)).spans.get Span.idle 2).ptpSent = [.sync 4, .followUp 4 40] ∧
    ((run (.ptpMessage 2 (.delayReq 4)) (spanned true)).spans.get Span.idle 2).ptpSent = [.delayResp 4 40] ∧ run (.ptpMessage 20 (.sync 4)) lab = lab ∧
    ((run (.spanFrame 2 4 (.send 2)) (ported.pokeN (2 ^ 36 * dieOfSite 5 + 4) 2 0x201)).spans.get Span.idle 2).sent = [[1, 2]] ∧
    ((run (.spanFrame 2 4 (.receive [1, 2])) ported).spans.get Span.idle 2).received = [[1, 2]] ∧ (run (.spanFrame 2 4 (.receive [1, 2])) ported).peekN (2 ^ 36 * dieOfSite 5 + 4) 2 = 0x201 ∧
    run (.spanFrame 2 4 (.receive [1, 2])) lab = lab ∧ run (.spanFrame 2 (2 ^ 36 - 1) (.send 2)) ported = ported := by decide +kernel

/-! ## Power and observation -/

/-- Region 0 has droop 2 from an alarm at tick 0, and one onset waits with L of 1. -/
def powered (cyc charge blocked : Nat) : State := { lab.onRegion 0 fun x => { x with droop := 2, onsets := [⟨0, 0, 3, charge⟩], blockedUntil := blocked } with cycle := cyc }
/-- Regions 0 and 1 hold blocks of a gang that waits on a tree barrier, at the end of dwell 0; region 0 has had slack for 10 ticks, region 1 for 5,001. -/
def ganging : State :=
  let s := (((hired.onTree 0 7 fun _ => { TreeBar.fresh with gang := some 0 }).onBlk (1296 * 3) fun k => { k with placed := true }).onBlk 0 fun k => { k with placed := true, warps := [0] }).onW fun w =>
    { w with tbArr := [(7, 1)] }
  { (s.onRegion 0 fun x => { x with slack := 3, slackTicks := 10 }).onRegion 1 fun x => { x with part := some 0, slackTicks := 5001 } with cycle := 50000 }
/-- Island 3 of cluster 0 at the end of a window, with cycles of busy datapaths and of loads in flight. -/
def isleOf (x : Island) : State := { lab.onClu 0 fun c => { c with islands := [(3, x)] } with cycle := 2500 }
def isle (st : IslandState) (n busy loading : Nat) : State := isleOf { Island.fresh with st := st, windows := n, busy := busy, loading := loading }
def nearing : Island := { Island.fresh with st := .near, last := 2000 }
theorem hyp_PowerAndObservation : lab.refTick / 1000 ≤ lab.measured ∧ lab.measured < ({ lab with cycle := 2500 } : State).refTick / 1000 ∧
    1 < ((powered 50000 1 0).region 0).droop ∧ ((powered 50000 1 0).region 0).lastAlarm + 20000 ≤ (powered 50000 1 0).regionTick 0 ∧
    (powered 49999 1 0).regionTick 0 < ((powered 49999 1 0).region 0).lastAlarm + 20000 ∧ ((powered 2 64 0).region 0).onsets = [⟨0, 0, 3, 64⟩] ∧ (powered 2 64 0).tickOver (0 / 324) 0 = true ∧
    (powered 1 64 0).tickOver (0 / 324) 0 = false ∧ ((powered 1 64 0).region 0).interval = (powered 1 64 0).regionTick 0 / 200 ∧
    ((powered 2 64 0).region 0).interval = (powered 2 64 0).regionTick 0 / 200 ∧ ((powered 2 64 0).region 0).blockedUntil ≤ 0 ∧ 0 + 64 ≤ 64 * ((powered 2 64 0).region 0).limit.toNat ∧
    64 * ((powered 2 65 0).region 0).limit.toNat < 0 + 65 ∧ ((powered 2 1 1).region 0).blockedFrom ≤ (powered 2 1 1).regionTick 0 ∧ 0 < ((powered 2 1 1).region 0).blockedUntil ∧ (lab.region 0).onsets = [] ∧
    (lab.region 0).interval ≠ ({ lab with cycle := 500 } : State).regionTick 0 / 200 := by decide +kernel
theorem hyp_PowerAndObservation_dwell : ganging.regionsOf 0 = [0, 1] ∧ (∀ q ∈ ganging.regionsOf 0, (ganging.region q).dwell < ganging.regionTick q / 20000) ∧ ganging.heldTrees 0 = [(7, 0)] ∧
    ganging.gangWaits 0 7 0 = true ∧ ganging.regionsWith 0 = [0, 1] ∧ ganging.critical (ganging.regionsWith 0) = some 0 ∧ (ganging.onTree 0 7 fun _ => TreeBar.fresh).heldTrees 0 = [] ∧ lab.regionsOf 0 = [] := by decide +kernel
theorem hyp_PowerAndObservation_islands : (isle .ramping 4 0 0).island 0 3 = { Island.fresh with st := .ramping, windows := 4 } ∧ ((isle .nominal 8 624 1250).island 0 3).window < 1 ∧ 1000 * 1 ≤ (isle .nominal 8 624 1250).tick (0 / 324) ∧ lab.tick (0 / 324) < 1000 * 1 ∧
    (624 < 625 ∧ 1250 ≤ 1250) ∧ (8 : Nat) < 9 ∧ ¬ (625 < 625 ∧ 1250 ≤ 1250) ∧ ¬ (624 < 625 ∧ 1250 ≤ 1249) ∧ nearing.asking = false ∧ ¬ (nearing.busy < 625 ∧ 1250 ≤ nearing.loading) ∧
    (isleOf nearing).cycle < nearing.last + 2500 ∧ 0 < nearing.last ∧ Island.fresh.last = 0 ∧ Island.fresh.st = .nominal ∧ Island.fresh.last + 4096 ≤ 4095 + 1 ∧ 4094 + 1 < Island.fresh.last + 4096 := by decide +kernel
theorem test_power : run (.cstepWrite ⟨0, .image 0⟩ 0x7FF) lab = lab ∧ run (.controlPageWrite ⟨0, .image 199⟩ 0 5) (lab.onRegion 0 fun x => { x with part := some 0 }) = (lab.onRegion 0 fun x => { x with part := some 0 }) ∧
    (run (.cstepWrite own 0x7FF) lab).region 0 = { lab.region 0 with limit := 0x3FF } ∧ (run (.envelopeMeasure 60001) { lab with cycle := 2500 }).envelope = 2 ∧
    (run (.envelopeMeasure 56999) { lab with cycle := 2500 }).envelope = 1 ∧ (run (.envelopeMeasure 60001) lab).envelope = 1 ∧
    ((run (.droopAlarm 0) (powered 0 1 0)).region 0).droop = 6 ∧ ((run (.droopAlarm 0) (powered 0 1 0)).region 0).blockedFrom = 1 ∧ ((run (.droopDecay 0) (powered 50000 1 0)).region 0).droop = 1 ∧
    ((run (.droopDecay 0) (powered 49999 1 0)).region 0).droop = 2 ∧ ((run (.slackDwellEnd 0) ganging).region 0).slack = 2 ∧ ((run (.slackDwellEnd 0) ganging).region 1).slack = 1 ∧
    ((run (.slackDwellEnd 0) ganging).region 1).dwell = 1 := by decide +kernel
theorem test_onsets : (((run (.onsetInterval 0) (powered 2 64 0)).clu 0).islands.get Island.fresh 3).st = .ramping ∧ ((run (.onsetInterval 0) (powered 2 64 0)).region 0).spent = 64 ∧
    ((run (.onsetInterval 0) (powered 2 65 0)).region 0).onsets.length = 1 ∧ ((run (.onsetInterval 0) (powered 2 1 1)).region 0).onsets.length = 1 ∧
    ((run (.onsetInterval 0) (powered 1 64 0)).region 0).onsets.length = 1 := by decide +kernel
theorem test_islands : (run (.islandWindowEnd 0 0 3 1) (isle .nominal 9 624 1250)).island 0 3 = { Island.fresh with st := .near, window := 1 } ∧
    ((run (.islandWindowEnd 0 0 3 1) (isle .nominal 9 625 1250)).island 0 3).windows = 0 ∧ ((run (.islandWindowEnd 0 0 3 1) (isleOf nearing)).island 0 3).asking = true ∧
    ((run (.islandRampDone 0 3) (isle .ramping 4 0 0)).island 0 3).st = .nominal ∧ ((run (.islandIdle 0 3) { isle .nominal 4 0 0 with cycle := 4095 }).island 0 3).st = .near ∧
    ((run (.islandIdle 0 3) { isle .nominal 4 0 0 with cycle := 4094 }).island 0 3).st = .nominal := by decide +kernel
/-- csel of die 0 names die counter 5; counter 5 holds 9, and a snapshot is due at tick 4. -/
def observed (cyc : Nat) : State := { lab.onDie 0 fun x => { x with csel := 0x80000005, snap := some 4, samp := 8, sketch := [(0, 7), (8192, 6)] } with
  cycle := cyc, counters := [(ctrKey 2 0 5, { Counter.off with value := 9, en := true, sel := 3 })] }
theorem hyp_PowerAndObservation_counters : ((observed 10).die 0).snap = some 4 ∧ 4 ≤ (observed 10).tick 0 ∧ (observed 9).tick 0 < 4 ∧ (observed 0).selected 0 = some (ctrKey 2 0 5) ∧
    lab.selected 0 ≠ none ∧ (lab.onDie 0 fun x => { x with csel := 0xC0000000 }).selected 0 = none ∧ (0x3FF : Word).toNat < 2 ^ 10 ∧ (0x3FF : Word).getLsbD 9 = true ∧
    2 ^ 10 ≤ (0x400 : Word).toNat ∧ (0x6 : DWord).getLsbD 1 = true ∧ bits (0x6 : DWord).toNat 2 1 = 1 ∧ (lab.die 0).traceq = [] := by decide +kernel
theorem test_counters : ((run (.snapshotLatch 0) (observed 10)).counters.get Counter.off (ctrKey 2 0 5)).shadow = 9 ∧ ((run (.snapshotLatch 0) (observed 9)).counters.get Counter.off (ctrKey 2 0 5)).shadow = 0 ∧
    (run (.counterConfigure own 0x104) (observed 0)).counters.get Counter.off (ctrKey 2 0 5) = { Counter.off with value := 9, en := true, sel := 4 } ∧
    ((run (.counterClear own 0x304) (observed 0)).counters.get Counter.off (ctrKey 2 0 5)).value = 0 ∧ ((run (.counterConfigure own 0x500) (observed 0)).counters.get Counter.off (ctrKey 2 0 5)).sel = 3 := by decide +kernel
theorem test_sketch_control : ((run (.sketchClear own 6) (observed 0)).die 0).sketch = [(0, 7)] ∧ ((run (.sketchFreeze own 5) (observed 0)).die 0).skFreeze = [(1, true)] ∧
    ((run (.sketchFreeze own 5) (observed 0)).die 0).sketch = [(0, 7), (8192, 6)] ∧ ((run (.traceRingSetup own 0xFFFF000000001000) lab).die 0).trdesc = 0x1000 := by decide +kernel
theorem test_controlPageWrite : ((run (.controlPageWrite own 0x000 0xFFFF000000002000) lab).die 0).troot = 0x2000 ∧ ((run (.controlPageWrite own 0x048 0x2C) lab).die 0).samp = 12 ∧
    run (.controlPageWrite own 0x008 5) lab = lab := by decide +kernel
/-- Warp 0 of core 0, under sampling. -/
def sampled (w : Warp → Warp) : State := (observed 0).onW w
/-- Its next word is FENCE.ar while an operation of its path is in flight. -/
def fence1 : Clause := { c0 with words := [((encode (.fence G .ar .dev)).getD 0)] }
def fenced : Path := { p0 with clause := some fence1 }
def fencing : Warp := { busy.w with a := some fenced }
theorem hyp_PowerAndObservation_samples : 8 ≤ ((sampled id).die 0).samp ∧ ((sampled id).die 0).samp ≤ 20 ∧ (sampled id).cycle % 2 ^ 8 = 0 ∧ (sampled id).sampleTurn 0 = some 0 ∧ ((sampled id).warp 0).cur = false ∧
    ((sampled id).warp 0).a = some { p0 with clause := some c0 } ∧ ((sampled id).warp 0).b = none ∧ ((sampled id).warp 0).ranAt ≠ (sampled id).cycle + 1 ∧
    (sampled fun w => { w with ranAt := 1 }).w.ranAt = (sampled id).cycle + 1 ∧ ((sampled fun w => { w with susp := some ⟨none, 0, .load, 0, false⟩ }).warp 0).susp.isSome = true ∧
    p0.held = false ∧ ((sampled id).warp 0).susp = none ∧ ((sampled id).warp 0).active = true ∧ p0.clause.isSome = true ∧ (sampled id).inner ((sampled id).warp 0) p0 = .free ∧ ((sampled id).warp 0).stalled = false ∧
    fencing.a = some fenced ∧ fenced.clause = some fence1 ∧ (fence1.words.map fun x => (decodeWord x).toOption) = [some (.fence G .ar .dev)] ∧ fencing.passes G = true ∧
    fencing.blocked [.q G.p.toNat] = false ∧ fencing.fenceWaits fenced .ar = true ∧ (sampled fun _ => fencing).sampleTurn 0 = some 0 ∧ (observed 0).reachesPage ⟨0, .image 199⟩ = false ∧
    (let w := ((sampled fun w => { w with tcause := 0x100, a := some { p0 with held := true } }).warp 0)
     w.a = some { p0 with held := true } ∧ w.handling = true ∧ w.susp = none) ∧
    ((sampled fun w => { w with active := false }).warp 0).active = false ∧ (sampled fun w => { w with stalled := true }).w.stalled = true ∧ (lab.die 0).samp < 8 ∧
    ({ sampled id with cycle := 255 } : State).cycle % 2 ^ 8 ≠ 0 := by decide +kernel
theorem test_stallSample : (([(fun w => { w with stalled := true, why := (6, 0x10010) }), (fun w => { w with ranAt := 1 }), (fun w => { w with susp := some ⟨none, 0, .load, 0, false⟩ }),
      (fun w => { w with active := false })] : List (Warp → Warp)).map fun f => ((run (.stallSample 0 0) (sampled f)).die 0).traceq) =
      [[traceRecord 1 0 0 0 0 6 0 0x10000 0x10010], [traceRecord 1 0 0 0 0 0 0 0x10000 0], [traceRecord 1 0 0 0 0 1 0 0x10000 0x10000], [traceRecord 1 0 0 0 0 3 0 0x10000 0]] ∧
    ((run (.stallSample 0 0) (sampled fun _ => fencing)).die 0).traceq = [traceRecord 1 0 0 0 0 7 0 0x10000 0x10000] ∧
    ((run (.stallSample 0 0) lab).die 0).traceq = [] := by decide +kernel

/-! ## Tack automata at work -/

/-- An image of one state with arc 0 on filter 0 (R391, R392), its fields from bit 26 on as given. -/
def image1 (fields : Nat) : List Byte := List.replicate 8 0 ++ bytesOf 8 0x90000 ++ bytesOf 4 4096 ++ List.replicate 556 0 ++ bytesOf 8 (2 ^ 63 + fields) ++ List.replicate 56 0
def heard (tick_ : Nat) : HemEvent := ⟨⟨0xB0, 0, 0, 0, 0, 1, tick_, 5⟩, 1, none⟩
/-- Automaton 3 of die 0, armed at tick 10, with events in its hem and events on their way, at tick 400. -/
def stepping (fields n : Nat) (hem : List HemEvent) (evq : List (Nat × HemEvent)) : State :=
  { lab.onTack 3 fun t => { t with run := .armed, image := image1 fields, armTick := 10, hem := hem, moved := some [20, 0], tm := [(1, some 400)],
                                   queue := List.replicate n (expiry 3 1 30) } with cycle := 1000, evq := evq, dropq := [3] }
theorem hyp_TackEvents_hem : takeFor 3 ([] : List (Nat × HemEvent)) = none ∧ takeFor 3 (stepping 0 0 [] [(2, heard 9), (3, heard 10)]).evq = some (heard 10, [(2, heard 9)]) ∧
    (heard 9).ev.tick < ((stepping 0 0 [] []).tack 3).armTick ∧ ((stepping 0 0 [] []).tack 3).run = .armed ∧ ((stepping 0 0 [] []).tack 3).armTick ≤ (heard 19).ev.tick ∧
    (∃ key, ((stepping 0 0 [] []).tack 3).moved = some key ∧ lexLt (heard 19).key key = true) ∧ lexLt (heard 20).key [20, 0] = false ∧
    ((stepping 0 0 (List.replicate 255 (heard 30)) []).tack 3).hem.length < 256 ∧ 256 ≤ ((stepping 0 0 (List.replicate 256 (heard 30)) []).tack 3).hem.length ∧
    3 ∈ (stepping 0 0 [] []).dropq ∧ 2 ∉ (stepping 0 0 [] []).dropq := by
  refine ⟨rfl, by decide +kernel, by decide +kernel, by decide +kernel, by decide +kernel, ⟨[20, 0], by decide +kernel, by decide +kernel⟩, by decide +kernel, by decide +kernel,
    by decide +kernel, by decide +kernel, by decide +kernel⟩
theorem test_hemArrival : ([(0, 9), (0, 19), (256, 21), (255, 21)].map fun x => let t := (run (.hemArrival 3 false) (stepping 0 0 (List.replicate x.1 (heard 30)) [(3, heard x.2)])).tack 3
    (t.run.code, t.lostCause, t.hem.length)) = [(3, 0, 0), (4, 2, 0), (4, 1, 256), (3, 0, 256)] ∧ ((run (.hemArrival 3 true) (stepping 0 0 [] [])).tack 3).lostCause = 3 := by decide +kernel
/-- The arc's action (R394): 0 none, 1 STOP at die scope, 4 SIGNAL of flag 7; bit 26 ends the run. -/
def acting (k : Nat) (last : Bool) : Nat := k * 2 ^ 33 + last.toNat * 2 ^ 26 + (if k = 4 then 7 * 2 ^ 27 else 3 * 2 ^ 30)
theorem hyp_TackEvents_step : (let y := ((stepping (acting 4 false) 0 [heard 21] []).tack 3).moveDue 3 400
      y.queue = [heard 21, expiry 3 1 400] ∧ bits y.head 42 1 = 0 ∧ bits y.head 37 1 = 0 ∧
      let z := { y with queue := [expiry 3 1 400], lastStep := 21 }
      z.choose (heard 21) = some 0 ∧ z.choose ⟨(heard 21).ev, 2, none⟩ = none ∧ bits (arcAt z.image z.state 0) 33 4 = 4 ∧ bits (arcAt z.image z.state 0) 26 1 = 0) ∧
    bits (acting 0 true) 33 4 = 0 ∧ bits (acting 0 true) 26 1 = 1 ∧ bits (acting 1 false) 33 4 = 1 ∧
    64 < (((stepping 0 64 [] []).onTack 3 fun t => { t with hem := [heard 21] }).tack 3 |>.moveDue 3 400).queue.length ∧
    (((lab.onTack 3 fun t => { t with run := .armed }).tack 3).moveDue 3 0).queue = [] ∧ (stepping 0 0 [] []).tick 0 = 400 ∧
    ((stepping 0 0 [] []).tack 3).timer 1 = some 400 ∧ 400 + ((stepping 0 0 [] []).tack 3).window ≤ (stepping 0 0 [] []).tick 0 ∧ (∀ h ∈ ((stepping 0 0 [] []).tack 3).queue, h.timer ≠ some 1) ∧
    ((stepping 0 0 [] []).tack 3).timer 0 = none := by decide +kernel
theorem test_automatonStep : (let t := (run (.automatonStep 0 3) (stepping (acting 4 false) 0 [heard 21] [])).tack 3
      (t.flags, t.acc, t.run.code, t.lastStep, t.queue.length) = (128, true, 3, 21, 1)) ∧ ((run (.automatonStep 0 3) (stepping (acting 0 true) 0 [heard 21] [])).tack 3).run = .idle ∧
    ((run (.automatonStep 0 3) (stepping (acting 1 false) 0 [heard 21] [])).tack 3).stops.map (fun x => (x.scope, x.delivered)) = [(3, none)] ∧
    ((run (.automatonStep 0 3) (stepping 0 64 [heard 21] [])).tack 3).lostCause = 1 := by decide +kernel
theorem test_timerExpiry : ((run (.timerExpiry 0 3 1) (stepping 0 0 [] [])).tack 3).queue = [expiry 3 1 400] ∧ ((run (.timerExpiry 0 3 0) (stepping 0 0 [] [])).tack 3).queue = [] := by decide +kernel
/-- A STOP of scope warp on warp 0 of die 0, or of its die, delivered or not. -/
def stopped_ (scope : Nat) (delivered : Option Nat) : State :=
  (lab.onTack 3 fun t => { t with image := image1 0, stops := [⟨scope, (heard 21).ev, 400, 88, delivered, [⟨0, 0, none⟩]⟩] }).onW fun w => { w with stopped := delivered.isSome, frozen := true }
theorem hyp_TackEvents_stops : ((stopped_ 3 none).tack 3).stops.find? (·.delivered.isNone) = some ⟨3, (heard 21).ev, 400, 88, none, [⟨0, 0, none⟩]⟩ ∧ (stopped_ 0 none).scopeWarps 3 0 (heard 21).ev = [0] ∧
    (stopped_ 3 none).scopeDies 3 3 (heard 21).ev = [0] ∧ (∀ x ∈ ((stopped_ 0 (some 9)).tack 3).stops, x.delivered.isSome = true) ∧
    ((stopped_ 0 (some 9)).tack 3).stops.find? (stopped_ 0 (some 9)).stopDone = some ⟨0, (heard 21).ev, 400, 88, some 9, [⟨0, 0, none⟩]⟩ ∧
    (∀ x ∈ ((stopped_ 0 none).tack 3).stops, (stopped_ 0 none).stopDone x = false) ∧ (323 : Nat) < 324 ∧ (15 : Nat) < 16 ∧ ((stopped_ 0 (some 9)).warp 0).placed = true ∧
    ((stopped_ 0 (some 9)).warp 0).ended = false ∧ ((stopped_ 0 (some 9)).warp 0).stopped = true ∧ (0x40000 : DWord).toNat / 2 ^ 18 % 2 = 1 ∧ dieOf (stopped_ 0 none).w.uid = 0 ∧ ((stopped_ 0 none).blk 0).fault = none := by
  decide +kernel
theorem test_stops : (run (.stopDelivery 3) (stopped_ 0 none)).w.stopped = true ∧ ((run (.stopDelivery 3) (stopped_ 0 none)).die 0).dcpStopped = false ∧
    ((run (.stopRecordWrite 3) (stopped_ 0 (some 9))).tack 3).stops = [] ∧ (run (.stopRecordWrite 3) (stopped_ 0 (some 9))).peekN 0x90008 8 ≠ 0 := by decide +kernel
theorem test_stop_die : ((run (.stopDelivery 3) (stopped_ 3 none)).die 0).dcpStopped = true := by decide +kernel
theorem test_stopped_resume : (run (.stoppedWarpResume own 0) (stopped_ 0 (some 9))).w.stopped = false ∧ (run (.stoppedWarpResume own 0x145) (stopped_ 0 (some 9))).w.stopped = true ∧
    ((run (.stoppedWarpResume own 0x40000) ((stopped_ 0 (some 9)).onDie 0 fun x => { x with dcpStopped := true })).die 0).dcpStopped = false ∧
    (run (.dieResumeAll own) (stopped_ 0 (some 9))).w.frozen = false ∧ (run (.dieResumeAll ⟨1, .supervisor⟩) (stopped_ 0 (some 9))).w.frozen = true ∧
    (run (.dieResumeAll ⟨0, .image 199⟩) (stopped_ 0 (some 9))).w.frozen = true ∧ (run (.dieResumeAll own) ((stopped_ 0 (some 9)).onW fun w => { w with winding := true })).w.frozen = true := by decide +kernel

/-! ## The panel and its service cores -/

def imaged : State := flagged.onDie 0 fun x => { x with image := true }
def called : State := flagged.onDie 0 fun x => { x with syscalls := [⟨0, 0, 7, 9, 3⟩] }
/-- Region 0 is partition 1's, with a launch that dispatches. -/
def owned : State := (lab.onRegion 0 fun x => { x with part := some 1 }).onLaunch 0 fun x => { x with part := 1, state := 2 }
/-- The same launch in a state; and another region of the partition, whose queue table lies in region 0. -/
def leaving_ (n : Nat) : State := owned.onLaunch 0 fun x => { x with state := n }
def twins : State := (leaving_ 4).onRegion 1 fun x => { x with part := some 1 }
theorem hyp_PanelAndServiceCores : UniIssues flagged p1 c1 G (sPair 4 ++ [.s 3]) ∧ flagged.w.atLimit (flagOf c1.fb) = false ∧ ((flagged.release flagged.myCore 3).die flagged.myDie).image = false ∧
    ((imaged.release imaged.myCore 3).die imaged.myDie).image = true ∧ (called.die 0).syscalls.find? (·.tag == (⟨0, 0, 7, 9, 3⟩ : Syscall).tag) = some ⟨0, 0, 7, 9, 3⟩ ∧
    ({ State.reset with inReset := true } : State).inReset = true ∧ State.reset.sched = [] ∧ (owned.region 0).part = some 1 ∧ owned.drained 1 = false ∧ (lab.region 0).part = none ∧
    lab.supervisor = 0 ∧ lab.beatTick + 1000000 ≤ ({ lab with cycle := 2500000 } : State).tick 199 ∧ ({ lab with cycle := 2499999 } : State).tick 199 < lab.beatTick + 1000000 ∧ hostSite (0, 5) = true ∧ lab.mayLeave 0 = true ∧ lab.mayJoin 0 3 0x70000 = true ∧ lab.mayJoin 0 3 0x70001 = false ∧ (leaving_ 4).mayLeave 0 = true ∧ (leaving_ 4).drained 1 = true ∧
    ((leaving_ 4).region 0).part = some 1 ∧ (twins.region 0).part = some 1 ∧ twins.mayLeave 0 = false ∧
    dieOfKey 0x20000 = some 0 ∧ regionOf 0 = 0 := by
  and_intros
  all_goals first | decide +kernel | exact uni_of (by decide +kernel) | exact lane_of (by decide +kernel) | exact end_of (by decide +kernel) |
    exact issues_of (by decide +kernel) | exact handles_of (by decide +kernel)
theorem test_syscall : (run (.syscall G 3 4 7) flagged).w.S 3 = 0xFFFFFFFF ∧ ((run (.syscall G 3 4 7) (imaged.onW fun w => w.setSP 4 9)).die 0).syscalls = [⟨0, 0, 7, 9, 3⟩] ∧
    (run (.syscallAnswer 0 0 0x1234) called).w.S 3 = 0x1234 ∧ ((run (.syscallAnswer 0 0 0x1234) called).die 0).syscalls = [] := by decide +kernel
theorem test_reset_held : step { State.reset with inReset := true } = .fault .heldInReset := rfl
theorem test_wipes : (run (.panelReset true) lab).mem = [] ∧ (run (.panelReset false) lab).inReset = true ∧ (run (.lifeCycleChange 2) (lab.onW fun w => w.setS 3 9)).w.S 3 = 0 ∧
    (run (.lifeCycleChange 2) lab).lifeCycle = 2 ∧ (run (.lifeCycleChange 2) lab).mem = [] := by decide +kernel
theorem test_regionAssign : let u := run (.regionAssign 0 (some ⟨3, true⟩) 5 0x80000 0x4000 0xA0000 0x70000 []) lab
    (u.region 0).part = some 3 ∧ (u.die 1).troot = 0x80000 ∧ (u.die 1).image = true ∧ u.peekN 0xA0000 2 = 1 ∧
    ((run (.regionAssign 0 (some ⟨3, false⟩) 5 0x80000 0x4000 0xA0000 0x70000 []) lab).die 1).image = false ∧
    run (.regionAssign 0 (some ⟨3, true⟩) 5 0 0 0 0x70001 []) lab = lab ∧ run (.regionAssign 0 none 5 0 0 0 0 []) twins = twins := by decide +kernel
theorem test_regionLeaves : let x := run (.regionAssign 0 (some ⟨3, true⟩) 5 0 0 0 0x70000 []) owned
    let y := run (.regionAssign 0 none 5 0 0 0 0 []) (leaving_ 4)
    (x.region 0).part = some 1 ∧ (x.part 1).draining = true ∧ (y.region 0).part = none ∧ (y.part 1).formed = false := by decide +kernel
theorem test_supervisor : (run .supervisorFailover { lab with cycle := 2500000 }).supervisor = 199 ∧ (run .supervisorFailover { lab with cycle := 2499999 }).supervisor = 0 ∧
    (run (.attestationRequest 1 77) owned).reports.map (fun x => (x.regions, x.nonce)) = [([0], 77)] := by decide +kernel

/-! ## A step -/

/-- A lane word as the host places it, and a word at each stream. -/
def placed_ : State := State.reset.withFetchWord 32 0x1BC00002
def fetched : State := { mat.pokeN 0x11000 4 0xE6000000 with sched := [.matrix 0] }
def fetchedC : State := { cop.pokeN 0x12000 4 0xEA000000 with sched := [.copy 0] }
/-- The warp at issue has settled on a path, for which the rest of the step holds. -/
def settles (s : State) (f : State → Path → Bool) : Bool :=
  let u := { s with sched := [], focus := .warp, w := { s.w with stalled := false } }
  u.eligible u.w.uid && match u.settle (settleFuel u.w) with
    | .go v => match v.w.path with
      | some p => f (v.performParts v.w.uid fun y => p.owns y.owner) p
      | none => false
    | .refill _ | .stop _ => false
def pathAt (s : State) (pc : Addr) : State := s.onW fun w => w.onPath fun p => { p with pc := pc, clause := none }
/-- The lane datapath is free once the lines of the word and of its clause are asked for. -/
def laneReady (r : State) (p : Path) (x : Word) : Bool :=
  let y := r.coreFetches r.myCore (r.fetchedWith p x)
  decide ((y.core y.myCore).laneFree ≤ y.cycle)
/-- The home of die 5's memory, to which the second 4 GiB map, is cut off. -/
def severed5 (s : State) : State := { s.onClu 0 fun x => { x with tlb := x.tlb ++ [⟨0x100000000, 2, 5 * 2 ^ 36, 7⟩] } with
  links := (List.range 4).flatMap fun k => [4 * homeSite 5 + k, 4 * (neighbour (homeSite 5) k).getD 0 + (k + 2) % 4].map fun x => (x, { Link.whole with failed := true }) }
theorem hyp_StepRunsDecoded : placed_.inReset = false ∧ placed_.sched = [.issue placed_.w.uid] ∧ ({ placed_ with sched := [] } : State).issuer placed_.w.uid = placed_.w.uid ∧
    settles placed_ (fun r p => (p.clause.bind fun c => c.words.head?) == some 0x1BC00002 && laneReady r p 0x1BC00002) = true ∧
    settles (placed_.onCore 0 fun c => { c with laneFree := 5 }) (fun r p => !laneReady r p 0x1BC00002) = true ∧
    settles (pathAt placed_ 0x10000) (fun r p => p.clause.isNone && decide (r.fetch r.myCore p.pc.toNat = .word 0x1BC00002)) = true ∧
    settles (pathAt placed_ (BitVec.ofNat 64 windowBase)) (fun r p => p.clause.isNone && decide (r.fetch r.myCore p.pc.toNat = .bad)) = true ∧
    settles (pathAt mapped 0x100000000) (fun r p => p.clause.isNone && decide (r.fetch r.myCore p.pc.toNat = .absent)) = true ∧
    settles (severed5 (pathAt placed_ 0x100000000)) (fun r p => p.clause.isNone && decide (r.fetch r.myCore p.pc.toNat = .cut)) = true ∧
    (placed_.onW fun w => { w with susp := some ⟨none, 0, .load, 0, false⟩ }).eligible placed_.w.uid = false ∧
    decodeWord 0x1BC00002 = .ok (.movLane G 0) ∧ WellFormed (.movLane G 0) = true ∧
    (decodeWord 0x2FC00002).toOption.map WellFormed = some false ∧ (decodeWord 0xFFFFFFFF).toOption.isNone = true := by
  refine ⟨rfl, rfl, ?_, ?_, ?_, ?_, ?_, ?_, ?_, ?_, rfl, ?_⟩ <;> decide +kernel
def streamAt (pc : Addr) (s : State) : State := s.onBlk 0 fun k => { k with m := { k.m with pc := pc } }
theorem hyp_StepRunsDecoded_streams : fetched.inReset = false ∧ fetched.streamGoes 0 true = true ∧ fetched.streamFetch 0 true = .word 0xE6000000 ∧ fetchedC.streamGoes 0 false = true ∧
    fetchedC.streamFetch 0 false = .word 0xEA000000 ∧ placed_.streamGoes 0 true = false ∧
    (streamAt (BitVec.ofNat 64 windowBase) mat).streamGoes 0 true = true ∧ (streamAt (BitVec.ofNat 64 windowBase) mat).streamFetch 0 true = .bad ∧
    (severed5 (streamAt 0x100000000 mat)).streamFetch 0 true = .cut ∧ (paged (streamAt 0x100000000 mat)).streamFetch 0 true = .absent ∧ isEvent (.l1ReleaseDrain 0) = true := by decide +kernel
theorem hyp_StepRunsDecoded_words : decodeWord 0xE6000000 = .ok .mend ∧ decodeWord 0xEA000000 = .ok .cend ∧ WellFormed .mend = true ∧ WellFormed .cend = true ∧
    0xE0 ≤ (0xE6000000 : Word).toNat / 2 ^ 24 ∧ (0xEA000000 : Word).toNat / 2 ^ 24 ≤ 0xEA := ⟨rfl, rfl, rfl, rfl, by decide, by decide⟩
theorem test_step : (after (step placed_)).w.cnt = 1 ∧ (after (step placed_)).cycle = 1 ∧ ((after (step fetched)).blk 0).m.st = .ended ∧ ((after (step fetchedC)).blk 0).c.st = .ended := by decide +kernel
/-- An ill-formed word ends a warp with no handler. -/
theorem test_step_illegal : (after (step (State.reset.withFetchWord 32 0xFFFFFFFF))).w.ended = true := by decide +kernel
theorem hyp_MemoryStaysCanonical : Memory.wf placed_.mem ∧ (match step placed_ with
    | .next t => Tbl.canonical Memory.unlisted t.mem
    | .fault _ | .refused _ => false) = true := by decide +kernel

/-! ## Further clauses of the statements about words -/

/-- Lane 5 of a path whose base s0:s1 is the local window. -/
theorem hyp_Loads_pref : world.w.admitted q5 G = 1#16 <<< 5 ∧ (world.w.SP 0 + (world.w.V 1 5).signExtend 64 + BitVec.ofNat 64 (128 * 0)).toNat < windowBase ∧
    (match world.coreTranslate world.myCore 0x20000 .load with
      | .ok pa leaf => pa == 0x20000 && leaf.attr / 8 != 1
      | .noMap | .denied | .notPresent _ _ => false) = true ∧ world.cutOff world.myDie 0x20000 = false ∧
    (∀ l < 16, (indoor.w.admitted q5 G).getLsbD l = true → windowBase ≤ (indoor.w.SP 0 + (indoor.w.V 1 l).signExtend 64 + BitVec.ofNat 64 (128 * 63)).toNat) := by decide +kernel
theorem test_pref : ((run (.pref G .l1 1 0 0) (world.onClu 0 fun x => { x with carve := 1 })).core 0).l1.map (·.1) = [0x400] ∧ ((run (.pref G .l1 1 0 0) indoor).core 0).l1 = [] := by decide +kernel
theorem hyp_UniformAccesses_clauses : world.severedLane .load (spot 4 false) = false ∧ world.severedLane .store (spot 4 false) = false ∧ indoor.severedLane .atomic (rowSpot 4) = false ∧
    indoor.poisonedLanes [⟨0, 0xFFFF00000000, .ok (rowSpot 4)⟩] false = none ∧ crosses [spot 4 false] = false ∧ (indoor.w.SP 0).toNat % 4 = 0 ∧ UniIssues busy p0 c0 G [] ∧
    busy.w.fenceWaits p0 .ar = true ∧ busy.w.fenceWaits p0 .rel = false ∧ UniIssues world q5 c1 G [] ∧ world.w.fenceWaits q5 .acq = false ∧
    ([(0, 0), (0, 1), (0, 2), (0, 3)].map fun y : Nat × Nat => localKey y.1 y.2).Nodup ∧ rowSpot 4 = [(0, 0), (0, 1), (0, 2), (0, 3)].map (fun y => .loc y.1 y.2) := by
  and_intros
  all_goals first | decide +kernel | exact uni_of (by decide +kernel)
/-- An operation in flight that reads %fpmode. -/
def rounding : State := lab.onW fun w => { w with pend := [⟨[], 0, none, 0, .timed, false, false, false, true, 0, all, []⟩] }
theorem hyp_SpecialRegisters_waits : UniIssues busy p0 c0 G (sRef .w32 4) ∧ busy.w.pend.any (·.seam) = true ∧ UniIssues rounding p0 c0 G (sRef .w32 4) ∧ rounding.w.pend.any (·.fp) = true ∧
    lab.w.pend.any (·.seam) = false ∧ lab.w.pend.any (·.fp) = false ∧ WellFormed (.usw ⟨0, false⟩ 0x14 4) = true ∧
    Issues lab p0 c0 (.q (0 : BitVec 3).toNat :: sRef (wdOf (specialWide 0x14)) 4) ∧ lab.w.passes ⟨0, false⟩ = false ∧ (0x60 : Word) &&& 0x7E60 ≠ 0 ∧ 12 ≤ ((12 : Word) &&& 0x1F).toNat := by
  and_intros
  all_goals first | decide +kernel | exact uni_of (by decide +kernel) | exact issues_of (by decide +kernel)
theorem test_usw_waits : (run (.usw G 0x0D 4) (busy.onW fun w => w.setS 4 9)).w.fxbase = 0 ∧ (run (.usw G 0x0D 4) (lab.onW fun w => w.setS 4 9)).w.fxbase = 9 ∧
    (run (.usw G 0x0E 4) (rounding.onW fun w => w.setS 4 9)).w.stalled = true := by decide +kernel
theorem hyp_Resuming_mask : ((handling 0x01000100 0x10014).onW fun w => { w with delivery := 1 }).w.handling = true ∧
    p0.mask ≠ ((handling 0x01000100 0x10014).onW fun w => { w with delivery := 1 }).w.delivery ∧ ((handling 0x01000100 0x10014).blk 0).fault = none ∧
    bits (0x01000100 : Word).toNat 20 4 = bits (0x01000100 : Word).toNat 16 4 ∧ (encode (.resume G)).isSome = true := by decide +kernel
theorem test_resume_mask : ((run (.resume G) ((handling 0x01000100 0x10014).onW fun w => { w with delivery := 1 })).blk 0).fault.map (fun x => (x.code, x.tcause, x.esc)) = some (1, 12, true) ∧
    (run (.resumeSkip G) (handling 0x01000100 0x10014)).w.path.map (fun p => (p.pc, p.clause.isSome)) = some (0x10018, false) := by decide +kernel
/-- A path in a handler with lane 5 alone; a warp that may change places with a pending one; paths that stand before their clause. -/
def leaving : State := (onPath { p0 with mask := 0x0020 }).onW fun w => { w with tcause := 0x100, b := some { p0 with mask := 0x0040, held := true } }
def yielding : State := crowd.onW fun w => { w with a := some p1 }
def startingAt (pc : Addr) : State := guarded_ (onPath { p0 with clause := none, pc := pc })
theorem hyp_EndingAndWaiting_more : Issues lab p0 c0 [.q (0 : BitVec 3).toNat] ∧ lab.w.passes ⟨0, false⟩ = false ∧ c0.idx = c0.len ∧ leaving.w.handling = true ∧
    leaving.w.gone ||| (0x0020 : Mask) ≠ all ∧ lab.w.active = true ∧ (∀ v ∈ lab.resident lab.myCore, (lab.warp v).active = true) ∧ EndIssues yielding p1 c1 G [] ∧ yielding.w.active = true ∧
    yielding.nextIn yielding.myCore = some 2 ∧ (yielding.core yielding.myCore).swapFree ≤ yielding.cycle ∧
    ¬ (∀ k < 12, (2 : BitVec 12).getLsbD k = true → (((startingAt 0x10000).onW fun w => { w with f := [(1, 1)] }).w.f.get 0 k = 0)) ∧ Handles (startingAt 0x10000).w ∧
    (startingAt (BitVec.ofNat 64 (windowBase - 4))).fetchRun 0 (windowBase - 4 + 4) 1 = .inr (windowBase, false) ∧ Handles (guarded_ lab).w ∧ (guarded_ lab).w.path = some p0 ∧
    p0.clause.isSome = true ∧ (encode (.clause 0 0 1 0)).isSome = true := by
  and_intros
  all_goals first | decide +kernel | exact end_of (by decide +kernel) | exact issues_of (by decide +kernel) | exact handles_of (by decide +kernel)
theorem test_leaving : (run (.exit G) leaving).w.handling = false ∧ (run (.exit G) leaving).w.b.map (·.held) = some false ∧ (run (.yieldQ G) yielding).w.active = false ∧
    ((run (.yieldQ G) yielding).warp 2).active = true ∧ (run (.exit ⟨0, false⟩) lab).w.cnt = 1 := by decide +kernel
theorem test_clause_waits : (run (.clause 2 0 1 0) ((startingAt 0x10000).onW fun w => { w with f := [(1, 1)] })).w.stalled = true ∧
    (run (.clause 0 0 1 0) (startingAt (BitVec.ofNat 64 (windowBase - 4)))).w.tcause.getLsbD 15 = true ∧ (run (.clause 0 0 1 0) (guarded_ lab)).w.tcause = 0xFF000101 := by decide +kernel
/-- A port operation of the warp has still to be performed. -/
def porting : State := (staffed.onBlk 0 fun k => { k with oseq := 1 }).onClu 0 fun x => { x with port := [⟨.acrd, 0, 0, 0x10000, 0, 0x20000, 0, 63, 1, [9], 3, 9, 0, 1, none, 0, 0⟩] }
/-- The warp's arrivals and FORKs are deferred while `comesLate` holds. -/
def comesLate (s : State) : Bool := !s.w.due.isEmpty || (s.clu s.myClu).port.any fun o => o.warp == s.w.uid && decide (o.num ≤ (s.blk s.w.blk).oseq)
theorem hyp_Barriers_port : comesLate porting = true ∧ UniIssues porting p1 c1 G ([] ++ []) ∧ UniIssues porting p1 c1 G ([.s 1] ++ [.s 55]) ∧
    comesLate flagged = false ∧ UniIssues porting p1 c1 G [] ∧ (porting.blk 0).mentry ≠ 0 ∧ porting.w.atLimit (flagOf c1.fb) = false ∧ comesLate staffed = false ∧
    (porting.clu (0 / 4)).port.any (·.blk == 0) = true ∧ (staffed.clu (0 / 4)).port.any (·.blk == 0) = false ∧ world.severedLane .load (spot 64 false) = false := by
  and_intros
  all_goals first | decide +kernel | exact uni_of (by decide +kernel)
/-- R208, R240: the words issue; the arrival counts and the stream starts once the operation has been performed. -/
theorem test_port_holds : (run (.bara G 3 false 0) porting).w.stalled = false ∧ ((run (.bara G 3 false 0) porting).blk 0).bars = [] ∧
    ((run (.accumulatorPortDone 0) (run (.bara G 3 true 1) (porting.onW fun w => w.setS 1 2))).blk 0).bars.map (fun e => (e.1, e.2.arrivals)) = [(3, 1)] ∧
    (run (.fork G .m) porting).w.stalled = false ∧ ((run (.fork G .m) porting).blk 0).m.st = .idle ∧ ((run (.accumulatorPortDone 0) (run (.fork G .m) porting)).blk 0).m.st = .running ∧
    (run (.rendez G) porting).w.waits = [.rendez 0x10000] := by decide +kernel
theorem hyp_TreeBarriers_seen : (hired.treeSeen 0 7 hired.myClu).phase = 0 ∧ ¬ (hired.treeSeen 0 7 hired.myClu).phase < hired.w.tbArr.get 0 7 ∧
    (arrived_.treeSeen 0 7 arrived_.myClu).phase < arrived_.w.tbArr.get 0 7 ∧ arrived_.w.winding = false ∧ UniIssues arrived_ p1 c1 G [] ∧ (encode (.tbarst G 3 6)).isSome = true := by
  and_intros
  all_goals first | decide +kernel | exact uni_of (by decide +kernel)
/-- Die 1 manages a heap of the partition, and its site is cut off (R329). -/
def farHeap : State := { heaped.pokeN 0x50010 8 (0x100000 + 20) with links := (List.range 4).map fun k => (4 * siteOf 1 + k, { Link.whole with failed := true }) }
theorem hyp_WorkAndHeaps_reach : farHeap.heapOf 0 1 = some (1, 1) ∧ (farHeap.heapEntry 0 1).1 ≠ 0 ∧ farHeap.dieReach 0 1 = false ∧ (farHeap.blk 0).fault = none ∧
    heaped.dieReach 0 0 = true ∧ (heaped.release heaped.myCore 3).dieReach 0 (((heaped.release heaped.myCore 3).heapHolding 0 0x100040 |>.map (·.2.1)).getD 0) = true := by decide +kernel
theorem test_heap_reach : ((run (.halloc G 8 4 0) (farHeap.onW fun w => (w.setSP 4 100).setS 6 1)).blk 0).fault.map (fun x => (x.code, x.pc)) = some (3, 0x10000) := by decide +kernel
theorem hyp_Words_more : heaped.heapOf 0 199 = none ∧ heaped.w.uid ∈ (heaped.blk heaped.w.blk).warps ∧ (0 : DWord) = 0 ∧ ((counting.onPart 0 fun x => { x with snap := some 5 }).part 0).snap.isSome = true ∧
    ((0xC000000D : Word).extractLsb' 30 2).toNat = 3 ∧ ¬ (16 : Nat) < 16 ∧ (world.acquire world.myCore 3).severedLane .load (spot 1600 false) = false ∧ counting.partOf 199 ≠ some 0 ∧ counting.partOf 0 = some 0 := by decide +kernel
/-- The stream's operation in flight configures the engine, or is held; the copy engine is busy. -/
def copier : State := cop.onClu 0 fun x => { x with nextTag := 1, engs := [copyOf (tile 1 0) (.plain 1 1) none] }
theorem hyp_StreamWords_waits : (∃ e ∈ (engaged (.mcfg 0 .f41)).matrixOps 0, e.op.config = true ∨ e.held.isSome = true) ∧ (engaged (.mcfg 0 .f41)).focus = .matrix 0 ∧
    (engaged (.mcfg 0 .f41)).streamGoes 0 true = true ∧ (engaged (.mcfg 0 .f41)).streamOps 0 true ≠ [] ∧ cop.copyTakes 0 0 = true ∧ copier.copyTakes 0 0 = false ∧ copier.focus = .copy 0 ∧
    copier.streamGoes 0 false = true ∧ copier.copyOps 0 ≠ [] ∧ (∀ e ∈ (multiplying 0).matrixOps 0, e.op.config = false ∧ e.held = none) ∧ (multiplying 0).focus = .matrix 0 := by decide +kernel
theorem test_stream_waits : run (.mwload 1 3) (engaged (.mcfg 0 .f41)) = engaged (.mcfg 0 .f41) ∧ run (.mbara 2 2) (engaged (.mcfg 0 .f41)) = engaged (.mcfg 0 .f41) ∧
    run (.ccpyPlain 1 1 255) copier = copier := by decide +kernel
/-- Half of a crossing load of the counted operation has still to be read. -/
def parted : State := (busyW 0).onW fun w => { w with parts := [⟨all, 0, some 0, [], [⟨some 5, 3, 1, none, [1, 2, 0, 0], [(2, .glob 0x20000 false), (3, .glob 0x20001 false)]⟩]⟩] }
theorem hyp_WarpEvents_parts : (parted.warp 0).pend.find? (·.tag == 0) = (busyW 0).w.pend.head? ∧ ¬ (∀ y ∈ (parted.warp 0).parts, y.tag ≠ some 0) ∧ (∀ y ∈ ((busyW 0).warp 0).parts, y.tag ≠ some 0) := by decide +kernel
theorem test_parts : (run (.flagOperationComplete 0 0) (parted.pokeN 0x20000 2 0x0807)).w.V 3 5 = 0x08070201 ∧ (run (.flagOperationComplete 0 0) parted).w.parts = [] := by decide +kernel
/-- The same clusters once retired, and on a die that a STOP has reached (R395). -/
def quitted (g : Gate) (w : List Wake) : State := (gateAt g w 4096).onClu 0 fun x => { x with retired := true }
def dieStopped (w : List Wake) : State := (gateAt .waking w 512).onDie 0 fun x => { x with dcpStopped := true }
theorem hyp_ClusterEvents_wake : ((gateAt .waking [] 511).clu 0).gateSince + 511 ≤ (gateAt .waking [] 511).cycle ∧ ((gateAt .gating [] 64).clu 0).wake = [] ∧
    ((gateAt .waking [] 511).clu 0).retired = false ∧ ((quitted .idling []).clu 0).retired = true ∧ ((gateAt .waking [] 511).die (0 / 324)).dcpStopped = false ∧
    ((dieStopped [.block 0 5 false]).die (0 / 324)).dcpStopped = true ∧ ((dieStopped [.block 0 5 false]).clu 0).wake = [.block 0 5 false] := by decide +kernel
theorem test_wake_several : ((run (.wakeEnd 0) (gateAt .waking [.block 0 5 false, .block 0 6 false] 511)).placedOn 0).map (fun b => ((run (.wakeEnd 0) (gateAt .waking [.block 0 5 false, .block 0 6 false] 511)).blk b).index) = [5, 6] ∧
    ((gateAt .waking [.block 0 5 false] 100).wakers 0).length = 1 ∧ (gateAt .waking [.block 0 5 false] 100).follows 0 0 = true ∧
    (gateAt .waking [.block 0 5 false] 100).roomOn 0 ((gateAt .waking [] 100).kernelOf 0 0) ((gateAt .waking [] 100).carveOf 0 0) none + 1 =
      (gateAt .waking [] 100).roomOn 0 ((gateAt .waking [] 100).kernelOf 0 0) ((gateAt .waking [] 100).carveOf 0 0) none := by decide +kernel
theorem test_wake : ((run (.wakeEnd 0) (gateAt .waking [] 511)).clu 0).gate = .idling ∧ ((run (.wakeEnd 0) (gateAt .waking [] 510)).clu 0).gate = .waking ∧
    ((run (.wakeEnd 0) (dieStopped [.block 0 5 false])).die 0).claimed = [(0, 5)] ∧ (run (.wakeEnd 0) (dieStopped [.block 0 5 false])).placedOn 0 = [] ∧
    ((run (.gatingBegin 0) (quitted .idling [])).clu 0).gate = .idling ∧ ((run (.gatingEnd 0) (quitted .gating [])).clu 0).gate = .gating := by decide +kernel

end Sys2Proof.Tests
end

section
/-!
PROOF. What emitted events (R199, R381 to R383) and the traffic of the memories (R170, R194, R286 to R293, R326) leave alone.
-/
namespace Sys2Proof.Safety
open Sys2Proof.Machine

/-! ## Events -/

/-- The machine beside what emitting an event changes. -/
def besideEvents (s : State) : State := { s with dies := [], sites := [], evq := [], packets := 0 }

/-- Events have been emitted at a site: they may have been numbered and traced, and have gone to their automata or wait at the site as
the last of its packets. -/
structure Emitted (site : Nat) (s t : State) : Prop where
  beside : besideEvents t = besideEvents s
  dies : ∀ d, { t.die d with seqs := [], traceq := [] } = { s.die d with seqs := [], traceq := [] }
  here : ∃ l, t.site site = { s.site site with waiting := (s.site site).waiting ++ l }
  others : ∀ x, x ≠ site → t.site x = s.site x

theorem Emitted.refl (site : Nat) (s : State) : Emitted site s s := ⟨rfl, fun _ => rfl, ⟨[], by simp⟩, fun _ _ => rfl⟩
theorem Emitted.trans {site : Nat} {a b c : State} (h : Emitted site a b) (k : Emitted site b c) : Emitted site a c := by
  obtain ⟨l, hl⟩ := h.here
  obtain ⟨l', hl'⟩ := k.here
  exact ⟨k.beside.trans h.beside, fun d => (k.dies d).trans (h.dies d), ⟨l ++ l', by rw [hl', hl]; simp⟩,
    fun x hx => (k.others x hx).trans (h.others x hx)⟩
theorem Emitted.aside {site : Nat} {s t : State} (h : Emitted site s t) : Aside s t :=
  ⟨(congrArg State.w h.beside :), (congrArg State.warps h.beside :), (congrArg State.mem h.beside :), (congrArg State.blocks h.beside :)⟩
theorem Emitted.link {site : Nat} {s t : State} (h : Emitted site s t) (x dir : Nat) : t.link x dir = s.link x dir :=
  (congrArg (fun u => State.link u x dir) h.beside :)
theorem Emitted.interrupts {site : Nat} {s t : State} (h : Emitted site s t) : t.interrupts = s.interrupts := (congrArg State.interrupts h.beside :)

/-- An update of one die's event numbers, or of its trace queue. -/
theorem emitted_onDie (site : Nat) (s : State) (d : Nat) (f : Die → Die)
    (h : ∀ x : Die, { f x with seqs := [], traceq := [] } = { x with seqs := [], traceq := [] }) : Emitted site s (s.onDie d f) :=
  ⟨rfl, (quiet_onDie s d f h).dies, ⟨[], by simp⟩, fun _ _ => rfl⟩
theorem emitted_seqs (site : Nat) (s : State) (d : Nat) (g : Die → Tbl Nat) : Emitted site s (s.onDie d fun x => { x with seqs := g x }) :=
  emitted_onDie site s d _ fun _ => rfl
theorem emitted_traceq (site : Nat) (s : State) (d : Nat) (g : Die → List (List Byte)) :
    Emitted site s (s.onDie d fun x => { x with traceq := g x }) :=
  emitted_onDie site s d _ fun _ => rfl

theorem emitted_inject (s : State) (p : Pkt) {site : Nat} (h : p.src = site) : Emitted site s (s.inject p) := by
  subst h
  refine ⟨rfl, fun _ => rfl, ⟨[{ p with num := s.packets }], ?_⟩, fun x hx => ?_⟩
  · exact State.onSite_site_same { s with packets := s.packets + 1 } _ _
  · exact (State.onSite_site { s with packets := s.packets + 1 } _ _ x).trans (if_neg hx)

theorem emitted_sendEvent (s : State) (o site : Nat) (h : HemEvent) : Emitted site s (s.sendEvent o site h) := by
  unfold State.sendEvent
  split
  · exact ⟨rfl, fun _ => rfl, ⟨[], by simp [State.site]⟩, fun _ _ => rfl⟩
  · exact emitted_inject s _ rfl

theorem emitted_emitAt (s : State) (site tick ty d clu core warp : Nat) (p : DWord) :
    Emitted site s (s.emitAt site tick ty d clu core warp p) := by
  unfold State.emitAt
  simp only []
  split
  · exact Emitted.refl site s
  · refine Emitted.trans ?_ (foldl_keeps (Emitted site) (Emitted.refl site) (fun _ _ _ => Emitted.trans) _
      (fun s o => emitted_sendEvent s o site _) _ _)
    split
    · exact (emitted_seqs site s d _).trans (emitted_traceq site _ d _)
    · exact emitted_seqs site s d _

theorem emitted_emitDie (s : State) (ty d p : Nat) : Emitted (siteOf d) s (s.emitDie ty d p) := emitted_emitAt _ _ _ _ _ _ _ _ _

/-- The site of the die of a compute site is that site (R364). -/
theorem siteOf_dieOfSite {site : Nat} (h : isCompute site = true) : siteOf (dieOfSite site) = site := by
  unfold isCompute at h
  rw [beq_iff_eq] at h
  have row : dieOfSite site / 10 = site / 20 := by unfold dieOfSite; omega
  have column : dieOfSite site % 10 = site % 20 / 2 := by unfold dieOfSite; omega
  unfold siteOf siteX siteY
  rw [row, column]
  omega

theorem emitted_emitSite (s : State) (site ty p : Nat) : Emitted site s (s.emitSite site ty p) := by
  unfold State.emitSite
  split
  · have h := emitted_emitDie s ty (dieOfSite site) p
    rwa [siteOf_dieOfSite (by assumption)] at h
  · exact emitted_emitAt _ _ _ _ _ _ _ _ _

/-! ## The memories -/

/-- The machine beside its memories, their caches, the counters, and the fabric. -/
def besideMemory (s : State) : State :=
  { s with cores := [], dies := [], mem := [], rowValid := [], poison := [], counters := [], links := [], sites := [], evq := [],
           routes := [], packets := 0 }
/-- Only memories, caches, counters and traffic have changed. -/
def MemoryOnly (s t : State) : Prop := besideMemory t = besideMemory s

theorem MemoryOnly.refl (s : State) : MemoryOnly s s := rfl
theorem MemoryOnly.trans {a b c : State} (h : MemoryOnly a b) (k : MemoryOnly b c) : MemoryOnly a c := Eq.trans k h
theorem MemoryOnly.ite {c : Prop} [Decidable c] {s a b : State} (h : MemoryOnly s a) (k : MemoryOnly s b) :
    MemoryOnly s (if c then a else b) := by
  split
  · exact h
  · exact k
theorem MemoryOnly.w {s t : State} (h : MemoryOnly s t) : t.w = s.w := (congrArg State.w h :)
theorem MemoryOnly.foldl {α : Type} (f : State → α → State) (h : ∀ s x, MemoryOnly s (f s x)) (l : List α) (s : State) :
    MemoryOnly s (l.foldl f s) :=
  foldl_keeps MemoryOnly MemoryOnly.refl (fun _ _ _ => MemoryOnly.trans) f h l s
theorem Emitted.memoryOnly {site : Nat} {s t : State} (h : Emitted site s t) : MemoryOnly s t := (congrArg besideMemory h.beside :)

theorem memoryOnly_onDie (s : State) (d : Nat) (f : Die → Die) : MemoryOnly s (s.onDie d f) := rfl
theorem memoryOnly_onCore (s : State) (c : Nat) (f : CoreS → CoreS) : MemoryOnly s (s.onCore c f) := rfl
theorem memoryOnly_homeWrite (s : State) (d pa : Nat) (b : Byte) : MemoryOnly s (s.homeWrite d pa b) := by
  unfold State.homeWrite
  split <;> rfl
theorem memoryOnly_clearPoison (s : State) (d line : Nat) : MemoryOnly s (s.clearPoison d line) := by
  unfold State.clearPoison
  split <;> rfl
theorem memoryOnly_countDie (s : State) (d src n : Nat) : MemoryOnly s (s.countDie d src n) := by
  unfold State.countDie State.countUnit
  refine MemoryOnly.foldl _ (fun s _ => ?_) _ s
  simp only []
  split <;> rfl
theorem memoryOnly_pairUpdate (s : State) (a b : Nat) : MemoryOnly s (s.pairUpdate a b) := rfl
theorem memoryOnly_diverted (s : State) (p : Pkt) : MemoryOnly s (s.diverted p) := MemoryOnly.ite (memoryOnly_pairUpdate s _ _) rfl
theorem memoryOnly_mailed (s : State) (p : Pkt) : MemoryOnly s (s.mailed p) := by
  unfold State.mailed
  split
  · exact (memoryOnly_onDie s _ _).trans (memoryOnly_diverted _ p)
  · exact memoryOnly_diverted s p
theorem memoryOnly_catchUp (s : State) (d h : Nat) : MemoryOnly s (s.catchUp d h) :=
  MemoryOnly.foldl _ (fun s p => MemoryOnly.trans (b := s.takePkt p) rfl (memoryOnly_mailed _ p)) _ s
theorem memoryOnly_l2Touch (s : State) (key : Nat) : MemoryOnly s (s.l2Touch key) := by
  unfold State.l2Touch
  split
  · rfl
  · simp only []
    split
    · rfl
    · exact (memoryOnly_countDie s _ _ _).trans (memoryOnly_onDie _ _ _)
theorem memoryOnly_visit (s : State) (d key : Nat) : MemoryOnly s (s.visit d key) := by
  have caught : MemoryOnly s (((homeDie key).map (s.catchUp d)).getD s) := by
    cases homeDie key with
    | none => rfl
    | some h => exact memoryOnly_catchUp s d h
  unfold State.visit
  refine (caught.trans (memoryOnly_l2Touch _ key)).trans (MemoryOnly.ite (MemoryOnly.refl _) ?_)
  split
  · rfl
  · exact MemoryOnly.ite (MemoryOnly.refl _) (memoryOnly_pairUpdate _ _ _)
theorem memoryOnly_visitAt (s : State) (d pa : Nat) : MemoryOnly s (s.visitAt d pa) := by
  unfold State.visitAt
  split
  · exact memoryOnly_visit s d _
  · rfl

/-- The dirty bytes of a line written at home, and the line's poison cleared if all of them are (R321). -/
theorem memoryOnly_homeLine (s : State) (d line : Nat) (l : Line) : MemoryOnly s
    (let t := (List.range 128).foldl (fun s i => if l.dirty.getLsbD i then s.homeWrite d (128 * line + i) (l.byte i) else s) s
     if l.dirty == BitVec.allOnes 128 then t.clearPoison d line else t) :=
  (MemoryOnly.foldl _ (fun s _ => MemoryOnly.ite (memoryOnly_homeWrite s _ _ _) (MemoryOnly.refl s)) _ s).trans
    (MemoryOnly.ite (memoryOnly_clearPoison _ _ _) (MemoryOnly.refl _))

theorem memoryOnly_rdcWriteBack (s : State) (d line : Nat) : MemoryOnly s (s.rdcWriteBack d line) :=
  (MemoryOnly.ite (MemoryOnly.refl s) ((memoryOnly_visitAt s d _).trans (memoryOnly_homeLine _ d line _))).trans (memoryOnly_onDie _ _ _)
theorem memoryOnly_rdcRoom (s : State) (d line : Nat) : MemoryOnly s (s.rdcRoom d line) := by
  unfold State.rdcRoom
  split
  · exact (memoryOnly_rdcWriteBack s d _).trans (memoryOnly_onDie _ _ _)
  · rfl
theorem memoryOnly_rdcWrite (s : State) (d pa : Nat) (b : Byte) : MemoryOnly s (s.rdcWrite d pa b) := by
  unfold State.rdcWrite
  refine ((memoryOnly_rdcRoom s d _).trans (MemoryOnly.ite ?_ (MemoryOnly.refl _))).trans (memoryOnly_onDie _ _ _)
  split
  · exact memoryOnly_rdcWriteBack _ d _
  · rfl
theorem memoryOnly_rdcDrain (s : State) (d : Nat) : MemoryOnly s (s.rdcDrain d) :=
  (MemoryOnly.foldl _ (fun s _ => memoryOnly_rdcWriteBack s d _) _ s).trans (emitted_emitDie _ _ _ _).memoryOnly
theorem memoryOnly_l1WriteBack (s : State) (core line : Nat) : MemoryOnly s (s.l1WriteBack core line) := by
  unfold State.l1WriteBack
  refine (MemoryOnly.ite (MemoryOnly.refl s) (MemoryOnly.ite ?_ ?_)).trans (memoryOnly_onCore _ _ _)
  · exact (memoryOnly_visitAt s _ _).trans (memoryOnly_homeLine _ _ line _)
  · exact MemoryOnly.foldl _ (fun s _ => MemoryOnly.ite (memoryOnly_rdcWrite s _ _ _) (MemoryOnly.refl s)) _ s
theorem memoryOnly_l1Drain (s : State) (core : Nat) : MemoryOnly s (s.l1Drain core) :=
  MemoryOnly.foldl _ (fun s _ => memoryOnly_l1WriteBack s core _) _ s
/-- Release actions of any scope (R170). -/
theorem memoryOnly_release (s : State) (core scope : Nat) : MemoryOnly s (s.release core scope) :=
  (MemoryOnly.ite (memoryOnly_l1Drain s core) (MemoryOnly.refl s)).trans (MemoryOnly.ite (memoryOnly_rdcDrain _ _) (MemoryOnly.refl _))

end Sys2Proof.Safety
end

section
/-!
PROOF. Wipes and region moves (R411, R415, R416): what a table reads as after a change of its values or a filter of its keys, what a
wipe leaves of each record, and what the parts of REGION_ASSIGN change.
-/
namespace Sys2Proof.Machine

/-! ## Tables -/

/-- A table all of whose values are changed, when the change keeps what an unlisted key reads as. -/
theorem Tbl.get_mapV {α : Type} (d : α) (f : Nat → α → α) (k : Nat) (h : f k d = d) (t : Tbl α) :
    Tbl.get d (Tbl.mapV f t) k = f k (Tbl.get d t k) := by
  induction t with
  | nil => simp [Tbl.mapV, Tbl.get, h]
  | cons e t ih =>
    by_cases he : e.1 = k
    · subst he; simp [Tbl.mapV, Tbl.get]
    · simpa [Tbl.mapV, Tbl.get, he] using ih

/-- A table of which only the keys that pass a test are kept. -/
theorem Tbl.get_filter {α : Type} (d : α) (f : Nat → Bool) (k : Nat) (t : Tbl α) :
    Tbl.get d (t.filter fun e => f e.1) k = if f k = true then Tbl.get d t k else d := by
  induction t with
  | nil => simp [Tbl.get]
  | cons e t ih =>
    rw [List.filter_cons]
    by_cases he : e.1 = k
    · subst he; cases hf : f e.1 <;> simp [hf, ih, Tbl.get]
    · split <;> simp [Tbl.get, he, ih]

/-! ## Wipes (R415) -/

theorem State.wipe_w (s : State) (scope : Nat → Bool) :
    (s.wipe scope).w = if scope (dieOf s.w.uid) = true then s.w.wiped else s.w := rfl
@[simp] theorem State.wipe_region (s : State) (scope : Nat → Bool) (r : Nat) : (s.wipe scope).region r = s.region r := rfl
@[simp] theorem State.wipe_part (s : State) (scope : Nat → Bool) (p : Nat) : (s.wipe scope).part p = s.part p := rfl
@[simp] theorem State.wipe_parts (s : State) (scope : Nat → Bool) : (s.wipe scope).parts = s.parts := rfl

/-- The bytes of the wiped dies and of their home stacks read 0. -/
theorem State.wipe_peek (s : State) (scope : Nat → Bool) (k : Nat) :
    (s.wipe scope).peek k = if (dieOfKey k).any scope = true then 0 else s.peek k := by
  refine (Tbl.get_filter Memory.unlisted (fun k => !(dieOfKey k).any scope) k s.mem).trans ?_
  cases (dieOfKey k).any scope <;> rfl

theorem State.wipe_clu (s : State) (scope : Nat → Bool) (c : Nat) :
    (s.wipe scope).clu c = if scope (c / 324) = true then (s.clu c).wiped else s.clu c :=
  Tbl.get_mapV _ (fun c x => if scope (c / 324) = true then Cluster.wiped x else x) c (by split <;> rfl) s.clusters

/-- What a wipe of some dies leaves of a die: the filters of wiped automata leave the others (R390). -/
def Die.afterWipe (scope : Nat → Bool) (d : Nat) (x : Die) : Die :=
  if scope d = true then x.wiped else { x with ef := x.ef.filter fun e => !e.2.any fun f => scope (f.owner / 4) }

theorem State.wipe_die (s : State) (scope : Nat → Bool) (d : Nat) :
    (s.wipe scope).die d = (s.die d).afterWipe scope d :=
  Tbl.get_mapV _ (Die.afterWipe scope) d (by unfold Die.afterWipe; split <;> rfl) s.dies

theorem Die.afterWipe_of_wiped {scope : Nat → Bool} {d : Nat} (h : scope d = true) (x : Die) : x.afterWipe scope d = x.wiped := if_pos h

/-- No filter of a wiped automaton is left. -/
theorem Die.afterWipe_ef {scope : Nat → Bool} {d : Nat} {x : Die} {e : Nat × Option Filter} {f : Filter}
    (h : e ∈ (x.afterWipe scope d).ef) (hf : e.2 = some f) : scope (f.owner / 4) = false := by
  unfold Die.afterWipe at h
  split at h
  · exact absurd h List.not_mem_nil
  · simpa [hf] using (List.mem_filter.mp h).2

theorem State.wipe_counter (s : State) (scope : Nat → Bool) (k : Nat) :
    (s.wipe scope).counters.get Counter.off k =
      if scope (dieOfCtr k) = true then (s.counters.get Counter.off k).cleared else s.counters.get Counter.off k :=
  Tbl.get_mapV _ (fun k c => if scope (dieOfCtr k) = true then Counter.cleared c else c) k (by split <;> rfl) s.counters

/-! ## Many dies, and many bytes -/

/-- A change of several dies is a change of the die table alone. -/
theorem State.onDies_eq (f : Die → Die) (L : List Nat) (s : State) :
    L.foldl (fun s d => s.onDie d f) s = { s with dies := (L.foldl (fun s d => s.onDie d f) s).dies } := by
  induction L generalizing s with
  | nil => rfl
  | cons d L ih => rw [List.foldl_cons, ih]; rfl

section
variable (f : Die → Die) (L : List Nat) (s : State)
@[simp] theorem State.onDies_region (r : Nat) : (L.foldl (fun s d => s.onDie d f) s).region r = s.region r := by rw [State.onDies_eq]; rfl
@[simp] theorem State.onDies_part (p : Nat) : (L.foldl (fun s d => s.onDie d f) s).part p = s.part p := by rw [State.onDies_eq]; rfl
@[simp] theorem State.onDies_parts : (L.foldl (fun s d => s.onDie d f) s).parts = s.parts := by rw [State.onDies_eq]
@[simp] theorem State.onDies_peek (k : Nat) : (L.foldl (fun s d => s.onDie d f) s).peek k = s.peek k := by rw [State.onDies_eq]; rfl
end
theorem State.onDies_die (f : Die → Die) (x : Nat) (L : List Nat) (h : L.Nodup) (s : State) :
    (L.foldl (fun s d => s.onDie d f) s).die x = if x ∈ L then f (s.die x) else s.die x := by
  induction L generalizing s with
  | nil => rfl
  | cons d L ih =>
    obtain ⟨hd, hL⟩ := List.nodup_cons.mp h
    rw [List.foldl_cons, ih hL, State.onDie_die]
    by_cases hx : x = d
    · subst hx; simp [hd]
    · simp [hx]

theorem State.pokeBytes_eq (l : List Byte) (s : State) (k : Nat) : s.pokeBytes k l = { s with mem := (s.pokeBytes k l).mem } := by
  induction l generalizing s k with
  | nil => rfl
  | cons b l ih => rw [State.pokeBytes, ih]; rfl

section
variable (l : List Byte) (s : State) (k : Nat)
@[simp] theorem State.pokeBytes_region (r : Nat) : (s.pokeBytes k l).region r = s.region r := by rw [State.pokeBytes_eq]; rfl
@[simp] theorem State.pokeBytes_part (p : Nat) : (s.pokeBytes k l).part p = s.part p := by rw [State.pokeBytes_eq]; rfl
@[simp] theorem State.pokeBytes_die (d : Nat) : (s.pokeBytes k l).die d = s.die d := by rw [State.pokeBytes_eq]; rfl
end
/-- A read after bytes have been written in a row. -/
theorem State.pokeBytes_peek (l : List Byte) (s : State) (k a : Nat) :
    (s.pokeBytes k l).peek a = if k ≤ a then (l[a - k]?).getD (s.peek a) else s.peek a := by
  induction l generalizing s k with
  | nil => simp [State.pokeBytes]
  | cons b l ih =>
    rw [State.pokeBytes, ih, State.poke_peek]
    rcases Nat.lt_trichotomy a k with h | h | h
    · simp [show ¬ k + 1 ≤ a by omega, show ¬ k ≤ a by omega, show a ≠ k by omega]
    · subst h
      rw [if_neg (Nat.not_succ_le_self a), if_pos rfl, if_pos (Nat.le_refl a), Nat.sub_self]
      rfl
    · have step : a - k = (a - (k + 1)) + 1 := by omega
      simp [show k + 1 ≤ a by omega, show k ≤ a by omega, show a ≠ k by omega, step]
theorem State.pokeBytes_peek_below (l : List Byte) (s : State) {k a : Nat} (h : a < k) : (s.pokeBytes k l).peek a = s.peek a := by
  rw [State.pokeBytes_peek, if_neg (by omega)]

/-! ## The parts of REGION_ASSIGN (R411) -/

theorem diesOfRegion_nodup (r : Nat) : (diesOfRegion r).Nodup := List.nodup_range.filter _
theorem regionOf_of_mem {r d : Nat} (h : d ∈ diesOfRegion r) : regionOf d = r := by
  simpa using (List.mem_filter.mp h).2

/-- A region is wiped and runs no image, and the heaps that its dies manage are gone. -/
def State.emptied (s : State) (r : Nat) : State :=
  let t := s.wipe fun d => regionOf d == r
  let t := { t with heapState := t.heapState.filter fun e => regionOf (e.1 / 264) != r }
  let t := t.onRegion r fun x => { x with part := none }
  (diesOfRegion r).foldl (fun t d => t.onDie d fun x => { x with image := false }) t
/-- An emptied region has left its partition, which accepts again if it stands. -/
def State.vacated (s : State) (r : Nat) : State :=
  ((s.region r).part.map fun q => (s.emptied r).onPart q fun x =>
    { x with draining := false, formed := !((s.emptied r).diesOf q).isEmpty }).getD (s.emptied r)

/-- The move is refused, waits for the partition to drain, or goes on from the vacated region. -/
theorem execRegionAssign_eq (r : Nat) (part : Option Joining) (limit : Nat) (troot capbase : Addr) (listAt : Nat) (queues : Addr)
    (ports : List (Nat × Nat)) (s : State) : execRegionAssign r part limit troot capbase listAt queues ports s =
      .next (if (!s.mayLeave r || !part.all fun j => s.mayJoin r j.part queues) = true then s
        else if (!(s.region r).part.all s.drained) = true then
          ((s.region r).part.map fun q => s.onPart q fun x => { x with draining := true }).getD s
        else match part with
          | none => s.vacated r
          | some j => (s.vacated r).join r j limit troot capbase listAt queues ports) := rfl

theorem State.emptied_eq (s : State) (r : Nat) : s.emptied r =
    { (s.wipe fun d => regionOf d == r) with
        heapState := s.heapState.filter fun e => regionOf (e.1 / 264) != r
        regions := (s.onRegion r fun x => { x with part := none }).regions
        dies := (s.emptied r).dies } := State.onDies_eq _ _ _

theorem State.emptied_region (s : State) (r k : Nat) :
    (s.emptied r).region k = if k = r then { s.region r with part := none } else s.region k := by
  rw [State.emptied_eq]; exact State.onRegion_region s r (fun x => { x with part := none }) k
@[simp] theorem State.emptied_part (s : State) (r p : Nat) : (s.emptied r).part p = s.part p := by rw [State.emptied_eq]; rfl
@[simp] theorem State.emptied_parts (s : State) (r : Nat) : (s.emptied r).parts = s.parts := by rw [State.emptied_eq]; rfl
theorem State.emptied_peek (s : State) (r k : Nat) :
    (s.emptied r).peek k = if (dieOfKey k).any (fun d => regionOf d == r) = true then 0 else s.peek k := by
  rw [State.emptied_eq]; exact State.wipe_peek s _ k
theorem State.emptied_die (s : State) (r d : Nat) : (s.emptied r).die d =
    if d ∈ diesOfRegion r then { (s.die d).wiped with image := false } else (s.die d).afterWipe (fun d => regionOf d == r) d := by
  refine (State.onDies_die _ d _ (diesOfRegion_nodup r) _).trans ?_
  show (if d ∈ diesOfRegion r then { (State.die (s.wipe fun d => regionOf d == r) d) with image := false }
    else State.die (s.wipe fun d => regionOf d == r) d) = _
  rw [State.wipe_die]
  split
  · rw [Die.afterWipe_of_wiped (by simpa using regionOf_of_mem ‹_›)]
  · rfl

/-- A region of no partition vacates nothing more. -/
theorem State.vacated_of_none {s : State} {r : Nat} (h : (s.region r).part = none) : s.vacated r = s.emptied r := by
  unfold State.vacated; rw [h]; rfl
theorem State.vacated_of_some {s : State} {r q : Nat} (h : (s.region r).part = some q) : s.vacated r =
    (s.emptied r).onPart q fun x => { x with draining := false, formed := !((s.emptied r).diesOf q).isEmpty } := by
  unfold State.vacated; rw [h]; rfl

/-- Every region holds a die, and no die lies outside the sixteen regions (R3). -/
theorem regions_hold_dies : (∀ k < 16, ∃ d < Config.dies, regionOf d = k) ∧ ∀ d < Config.dies, regionOf d < 16 := by
  decide +kernel
/-- A partition holds a die exactly if it holds a region. -/
theorem State.diesOf_nonempty_iff (s : State) (q : Nat) : (s.diesOf q).isEmpty = false ↔ ∃ k < 16, (s.region k).part = some q := by
  obtain ⟨holds, within⟩ := regions_hold_dies
  rw [List.isEmpty_eq_false_iff_exists_mem]
  constructor
  · rintro ⟨d, hd⟩
    obtain ⟨hd, hq⟩ := List.mem_filter.mp hd
    exact ⟨regionOf d, within d (List.mem_range.mp hd), by simpa [State.partOf] using hq⟩
  · rintro ⟨k, hk, hq⟩
    obtain ⟨d, hd, rfl⟩ := holds k hk
    exact ⟨d, List.mem_filter.mpr ⟨List.mem_range.mpr hd, by simpa [State.partOf] using hq⟩⟩

section
variable (s : State) (r : Nat) (j : Joining) (limit : Nat) (troot capbase : Addr) (listAt : Nat) (queues : Addr) (ports : List (Nat × Nat))

theorem State.join_region : (s.join r j limit troot capbase listAt queues ports).region r =
    { s.region r with part := some j.part, limit := BitVec.ofNat 10 limit } := by
  simp [State.join]
theorem State.join_part : (s.join r j limit troot capbase listAt queues ports).part j.part =
    { s.part j.part with
        formed := true, draining := false, capbase := capbase
        queues := if (s.part j.part).formed = true then (s.part j.part).queues else queues, ports := s.portsFor j.part ports } := by
  simp [State.join, State.portsFor]
theorem State.join_die (d : Nat) : (s.join r j limit troot capbase listAt queues ports).die d =
    if d ∈ diesOfRegion r then { s.die d with troot := troot, image := j.signed } else s.die d := by
  simp [State.join, State.onDies_die _ d _ (diesOfRegion_nodup r)]
/-- Below the capability list memory is as before. -/
theorem State.join_peek_below {k : Nat} (h : k < listAt) : (s.join r j limit troot capbase listAt queues ports).peek k = s.peek k := by
  simp [State.join, State.pokeBytes_peek_below _ _ h]
end

/-- The host ports that a partition is given: those that exist and that no other partition holds (R4, R414). -/
theorem State.mem_portsFor (s : State) (part : Nat) (ports : List (Nat × Nat)) (y : Nat × Nat) : y ∈ s.portsFor part ports ↔
    y ∈ ports ∧ hostSite y = true ∧ ∀ e ∈ s.parts, e.1 = part ∨ e.2.formed = false ∨ y ∉ e.2.ports := by
  simp [State.portsFor, List.mem_filter, List.mem_eraseDups, or_assoc]

end Sys2Proof.Machine
end

section
/-!
PROOF. Service requests (R417), panel reset, life-cycle changes and region moves (R411, R415, R416), failover and attestation.
-/
namespace Sys2Proof.Machine

/-- A request that waits for its service core. -/
def Die.asks (r : Syscall) (y : Die) : Die := { y with syscalls := y.syscalls ++ [r] }
/-- What a SYSCALL does once its release actions are performed (R417). -/
def State.requests (s : State) (d : Nat) (sd : Reg) (n : BitVec 8) (x : DWord) : State :=
  if !(s.die d).image then (s.onW fun w => w.setS sd.toNat 0xFFFFFFFF).countedB [.s sd.toNat]
  else
    let s := s.askedB [.s sd.toNat]
    s.onDie d (Die.asks { warp := s.w.uid, tag := s.w.lastTag, n := n.toNat, arg := x, sd := sd.toNat })

end Sys2Proof.Machine

namespace Sys2Proof.Safety
open Sys2Proof.Machine

/-! ## Words counted in flag B (R229) -/

/-- Changes of the warp at issue that agree on its record. -/
theorem onW_congr {s : State} {f g : Warp → Warp} (h : f s.w = g s.w) : s.onW f = s.onW g := by unfold State.onW; rw [h]

/-- Flag B of the clause in which the word issues. -/
theorem Issues.flagB {s : State} {p : Path} {c : Clause} {regs : List RegRef} (h : Issues s p c regs) : s.w.flagB = flagOf c.fb := by
  unfold Warp.flagB; rw [h.path]; simp [h.clause]

/-- A command of a warp issues with a guard that passes and flag B below its limit. -/
theorem cmdWord_runs {s : State} {p : Path} {c : Clause} {g : Guard} {regs : List RegRef} (h : UniIssues s p c g regs)
    (hf : s.w.atLimit (flagOf c.fb) = false) (body : Path → State) : s.cmdWord g regs body = body p := by
  unfold State.cmdWord
  rw [uniWord_runs h, h.issues.flagB, hf]
  rfl

/-- The word with its effect in `u` has issued. -/
theorem passed_done (u : State) (lane : Bool) : Passed u (u.done lane) := by
  obtain ⟨went, ended⟩ := done_passed u lane
  exact ⟨went, ended.regs, ended.preds, ended.uniform, ended.upreds, ended.flags, ended.pend, ended.bare⟩

theorem endTest_nextTag : ∀ (n : Nat) (w : Warp) (last : Addr), (w.endTest last n).2.nextTag = w.nextTag
  | 0, _, _ => rfl
  | n + 1, w, last => by
    unfold Warp.endTest
    simp only []
    split
    · rfl
    · split
      · rfl
      · split
        · rfl
        · exact endTest_nextTag n _ last
theorem setPath_nextTag (w : Warp) (p : Option Path) : (w.setPath p).nextTag = w.nextTag := by unfold Warp.setPath; split <;> rfl
theorem advance_nextTag (w : Warp) : w.advance.nextTag = w.nextTag := by
  unfold Warp.advance
  split
  · rfl
  · split
    · rfl
    · split
      · exact (setPath_nextTag _ _).trans (endTest_nextTag _ _ _)
      · exact setPath_nextTag _ _
/-- Going on gives no number to an operation. -/
theorem done_nextTag (s : State) (lane : Bool) : (s.done lane).w.nextTag = s.w.nextTag := by
  obtain ⟨_, _, counted⟩ := counted_spec s lane
  have advanced : (s.done lane).w = (s.counted lane).w.advance := by rw [State.done, State.onW_w]
  rw [advanced, advance_nextTag, counted.tag]
theorem uid_of_bare {w v : Warp} (h : bare v = bare w) : v.uid = w.uid :=
  (congrArg Warp.uid h : (bare v).uid = (bare w).uid)
theorem done_uid (s : State) (lane : Bool) : (s.done lane).w.uid = s.w.uid := uid_of_bare (done_passed s lane).2.bare

/-! ## Service requests (R417) -/

/-- A request is put beside a word that has issued. -/
theorem Passed.asks {u t : State} (h : Passed u t) (d : Nat) (r : Syscall) : Passed (u.onDie d (Die.asks r)) (t.onDie d (Die.asks r)) := by
  have quiet : Quiet (u.onDie d (Die.asks r)) (t.onDie d (Die.asks r)) := by
    obtain ⟨outside, cores, blocks, clusters, dies, regions⟩ := h.went.quiet
    refine ⟨outside, cores, blocks, clusters, fun x => ?_, regions⟩
    rw [State.onDie_die, State.onDie_die]
    split
    · exact congrArg (Die.asks r) (dies d)
    · exact dies x
  obtain ⟨_, begun, pathA, pathB, loops, depth, count, going⟩ := h.went
  exact ⟨⟨quiet, begun, pathA, pathB, loops, depth, count, going⟩, h.regs, h.preds, h.uniform, h.upreds, h.flags, h.pend, h.bare⟩

section
variable {u : State} {d : Nat} {flag : Option Nat}

theorem onW_onW (f h : Warp → Warp) : (u.onW f).onW h = u.onW fun w => h (f w) := rfl

/-- With no partition image the answer is all ones, at once (log 55). -/
theorem requests_unserved (hi : (u.die d).image = false) (hf : u.w.flagB = flag) (sd : Reg) (n : BitVec 8) (x : DWord) :
    u.requests d sd n x = (u.onW fun w => (w.setS sd.toNat 0xFFFFFFFF).addPend [.s sd.toNat] flag .counted).done false := by
  have kept : (u.w.setS sd.toNat 0xFFFFFFFF).flagB = flag := hf
  unfold State.requests State.countedB
  rw [hi, onW_onW, onW_congr (s := u) (g := fun w => (w.setS sd.toNat 0xFFFFFFFF).addPend [.s sd.toNat] flag .counted) (by rw [kept])]
  rfl

/-- The service core of the die has the request (R417). -/
theorem requests_served (hi : (u.die d).image = true) (hf : u.w.flagB = flag) (sd : Reg) (n : BitVec 8) (x : DWord) :
    u.requests d sd n x = ((u.onW fun w => w.addPend [.s sd.toNat] flag .unit).done false).onDie d
      (Die.asks { warp := u.w.uid, tag := u.w.nextTag, n := n.toNat, arg := x, sd := sd.toNat }) := by
  have asked : u.askedB [.s sd.toNat] = (u.onW fun w => w.addPend [.s sd.toNat] flag .unit).done false :=
    congrArg (State.done · false) (onW_congr (by rw [hf]))
  have tag : ((u.onW fun w => w.addPend [.s sd.toNat] flag .unit).done false).w.lastTag = u.w.nextTag :=
    congrArg (· - 1) (done_nextTag _ false)
  unfold State.requests
  rw [hi, asked]
  simp only [Bool.not_true, Bool.false_eq_true, if_false, tag, done_uid, State.onW_w]
  rfl
end

section
variable {s : State} {p : Path} {c : Clause} {g : Guard} {sd sa : Reg}

theorem exec_syscall (h : UniIssues s p c g (sPair sa ++ [.s sd.toNat])) (hf : s.w.atLimit (flagOf c.fb) = false) (n : BitVec 8) :
    exec (.syscall g sd sa n) s = .next ((s.release s.myCore 3).requests s.myDie sd n (s.w.SP sa.toNat)) :=
  congrArg Host.Outcome.next (cmdWord_runs h hf _)

theorem release_w (s : State) (core scope : Nat) : (s.release core scope).w = s.w := (memoryOnly_release s core scope).w
theorem release_flagB (h : UniIssues s p c g (sPair sa ++ [.s sd.toNat])) (core scope : Nat) :
    (s.release core scope).w.flagB = flagOf c.fb := by rw [release_w, h.issues.flagB]

theorem syscall_unserved (h : UniIssues s p c g (sPair sa ++ [.s sd.toNat])) (hf : s.w.atLimit (flagOf c.fb) = false) (n : BitVec 8)
    (hi : ((s.release s.myCore 3).die s.myDie).image = false) : IssuesTo (.syscall g sd sa n) s
      ((s.release s.myCore 3).onW fun w => (w.setS sd.toNat 0xFFFFFFFF).addPend [.s sd.toNat] (flagOf c.fb) .counted) :=
  ⟨_, (exec_syscall h hf n).trans (congrArg _ (requests_unserved hi (release_flagB h _ _) sd n _)), passed_done _ false⟩
theorem syscall_served (h : UniIssues s p c g (sPair sa ++ [.s sd.toNat])) (hf : s.w.atLimit (flagOf c.fb) = false) (n : BitVec 8)
    (hi : ((s.release s.myCore 3).die s.myDie).image = true) : IssuesTo (.syscall g sd sa n) s
      (((s.release s.myCore 3).onW fun w => w.addPend [.s sd.toNat] (flagOf c.fb) .unit).onDie s.myDie
        (Die.asks { warp := s.w.uid, tag := s.w.nextTag, n := n.toNat, arg := s.w.SP sa.toNat, sd := sd.toNat })) := by
  refine ⟨_, (exec_syscall h hf n).trans (congrArg _ (requests_served hi (release_flagB h _ _) sd n _)), ?_⟩
  rw [release_w]
  exact (passed_done _ false).asks _ _
end

theorem exec_syscallAnswer {s : State} {d tag : Nat} {r : Syscall} (answer : Word) (h : (s.die d).syscalls.find? (·.tag == tag) = some r) :
    exec (.syscallAnswer d tag answer) s = .next (((s.onDie d fun y => { y with syscalls := y.syscalls.erase r }).onWarp r.warp fun w =>
      (w.setS r.sd answer).answered r.tag).acquire (coreOf r.warp) 3) := by
  show execSyscallAnswer d tag answer s = _
  unfold execSyscallAnswer
  rw [h]
theorem exec_syscallAnswer_none {s : State} {d tag : Nat} (answer : Word) (h : ∀ r ∈ (s.die d).syscalls, r.tag ≠ tag) :
    exec (.syscallAnswer d tag answer) s = .next s := by
  have none_ : (s.die d).syscalls.find? (·.tag == tag) = none := List.find?_eq_none.mpr fun r hr => by simpa using h r hr
  show execSyscallAnswer d tag answer s = _
  unfold execSyscallAnswer
  rw [none_]

/-! ## Reset and life cycle (R415, R416) -/

theorem panelReset_reaches (s : State) (signed : Bool) : Reaches (.panelReset signed) s fun t =>
    t.inReset = !signed ∧ t.lifeCycle = s.lifeCycle ∧ t.cycle = 0 ∧ t.w = Warp.empty ∧ t.warps = [] ∧ t.blocks = [] ∧ t.launches = [] ∧
      t.dies = [] ∧ ∀ k, t.peek k = if (dieOfKey k).isSome = true then 0 else s.peek k := by
  refine ⟨_, rfl, rfl, rfl, rfl, rfl, rfl, rfl, rfl, rfl, fun k => ?_⟩
  refine (Tbl.get_filter Memory.unlisted (fun k => (dieOfKey k).isNone) k s.mem).trans ?_
  cases dieOfKey k <;> rfl

theorem step_held {s : State} (h : s.inReset = true) (hs : s.sched = []) : step s = .fault .heldInReset := by
  unfold step State.work
  rw [hs]
  simp [h]

/-- A life-cycle change wipes every die and leaves retirements as they are (R415). -/
theorem lifeCycleChange_reaches (s : State) (phase : Nat) : Reaches (.lifeCycleChange phase) s fun t =>
    t.lifeCycle = phase ∧ t.w = { s.w with v := [], p := [], s := [], q := [] } ∧
      (∀ k, t.peek k = if (dieOfKey k).isSome = true then 0 else s.peek k) ∧ (∀ k, (t.clu k).retired = (s.clu k).retired) ∧
      (∀ a, (t.tack a).run = .unloaded) ∧ (∀ d, (t.die d).saved = []) ∧ ∀ k, (t.counters.get Counter.off k).value = 0 := by
  have wiped (d : Nat) : (s.wipe fun _ => true).die d = (s.die d).wiped := s.wipe_die _ d
  refine ⟨_, rfl, rfl, rfl, fun k => ?_, fun k => ?_, fun a => ?_, fun d => ?_, fun k => ?_⟩
  · refine (s.wipe_peek (fun _ => true) k).trans ?_
    cases dieOfKey k <;> rfl
  · exact (congrArg Cluster.retired (s.wipe_clu (fun _ => true) k) :)
  · exact congrArg (fun x => (Tbl.get Tack.unloaded x.tk (a % 4)).run) (wiped (a / 4))
  · exact congrArg Die.saved (wiped d)
  · exact congrArg Counter.value ((s.wipe_counter (fun _ => true) k).trans (if_pos rfl))

/-! ## Region moves (R411, R413, R414) -/

section
variable {s : State} {r : Nat} {part : Option Joining} {limit : Nat} {troot capbase : Addr} {listAt : Nat} {queues : Addr}
  {ports : List (Nat × Nat)}

/-- A region may leave its partition, and the partition that it is to join takes it. -/
def MayMove (s : State) (r : Nat) (part : Option Joining) (queues : Addr) : Prop :=
  s.mayLeave r = true ∧ ∀ j, part = some j → s.mayJoin r j.part queues = true

theorem refuses_eq_false_iff : (!s.mayLeave r || !part.all fun j => s.mayJoin r j.part queues) = false ↔ MayMove s r part queues := by
  unfold MayMove; cases part <;> simp

theorem regionAssign_refused (h : ¬ MayMove s r part queues) :
    exec (.regionAssign r part limit troot capbase listAt queues ports) s = .next s := by
  refine (execRegionAssign_eq r part limit troot capbase listAt queues ports s).trans ?_
  rw [if_pos (eq_true_of_ne_false (mt refuses_eq_false_iff.mp h))]

theorem regionAssign_drains {q : Nat} (h : MayMove s r part queues) (hq : (s.region r).part = some q) (hd : s.drained q = false) :
    exec (.regionAssign r part limit troot capbase listAt queues ports) s = .next (s.onPart q fun x => { x with draining := true }) := by
  refine (execRegionAssign_eq r part limit troot capbase listAt queues ports s).trans ?_
  rw [refuses_eq_false_iff.mpr h, hq]
  simp [hd]

/-- A region that is free to move is vacated, and joins. -/
theorem regionAssign_moves (h : MayMove s r part queues) (hd : ∀ q, (s.region r).part = some q → s.drained q = true) :
    exec (.regionAssign r part limit troot capbase listAt queues ports) s = .next
      (part.elim (s.vacated r) fun j => (s.vacated r).join r j limit troot capbase listAt queues ports) := by
  refine (execRegionAssign_eq r part limit troot capbase listAt queues ports s).trans ?_
  have all : (s.region r).part.all s.drained = true := by
    cases e : (s.region r).part with
    | none => rfl
    | some q => exact hd q e
  rw [refuses_eq_false_iff.mpr h, all]
  cases part with
  | none => simp only [Bool.false_eq_true, if_false, Bool.not_true, Option.elim_none]
  | some j => simp only [Bool.false_eq_true, if_false, Bool.not_true, Option.elim_some]

/-- What a region that joins a partition from none finds there (R411, R413, R414, R416). -/
theorem regionAssign_joins {j : Joining} (h : MayMove s r part queues) (hj : part = some j) (hr : (s.region r).part = none) :
    ∃ t, exec (.regionAssign r part limit troot capbase listAt queues ports) s = .next t ∧
      (t.region r).part = some j.part ∧ (t.region r).limit = BitVec.ofNat 10 limit ∧ (t.part j.part).formed = true ∧
      (t.part j.part).draining = false ∧ (t.part j.part).capbase = capbase ∧
      (t.part j.part).queues = (if (s.part j.part).formed = true then (s.part j.part).queues else queues) ∧
      (∀ y, y ∈ (t.part j.part).ports ↔ y ∈ ports ∧ hostSite y = true ∧ ∀ e ∈ s.parts, e.1 = j.part ∨ e.2.formed = false ∨ y ∉ e.2.ports) ∧
      (∀ d ∈ diesOfRegion r, (t.die d).troot = troot ∧ (t.die d).image = j.signed ∧ (t.die d).tk = [] ∧ (t.die d).saved = []) ∧
      (∀ d e f, e ∈ (t.die d).ef → e.2 = some f → regionOf (f.owner / 4) ≠ r) ∧
      ∀ k d, dieOfKey k = some d → regionOf d = r → k < listAt → t.peek k = 0 := by
  subst hj
  refine ⟨_, regionAssign_moves h fun q hq => ?_, ?_⟩
  · rw [hr] at hq; cases hq
  rw [Option.elim_some, State.vacated_of_none hr]
  simp only [State.join_region, State.join_part, State.emptied_part, State.mem_portsFor, State.emptied_parts, true_and, State.join_die]
  refine ⟨fun _ => trivial, fun d hd => ?_, fun d e f he hf => ?_, fun k d hk hd hl => ?_⟩
  · rw [if_pos hd, State.emptied_die, if_pos hd]
    exact ⟨rfl, rfl, rfl, rfl⟩
  · have left : e ∈ ((s.emptied r).die d).ef := by split at he <;> exact he
    rw [State.emptied_die] at left
    split at left
    · exact absurd left List.not_mem_nil
    · simpa using Die.afterWipe_ef left hf
  · rw [State.join_peek_below _ _ _ _ _ _ _ _ _ hl, State.emptied_peek, hk]
    simp [hd]

/-- What a region that leaves a drained partition for none leaves behind (R411). -/
theorem regionAssign_leaves {q : Nat} (h : MayMove s r part queues) (hj : part = none) (hq : (s.region r).part = some q)
    (hd : s.drained q = true) :
    ∃ t, exec (.regionAssign r part limit troot capbase listAt queues ports) s = .next t ∧ (t.region r).part = none ∧
      (t.part q).draining = false ∧ ((t.part q).formed = true ↔ ∃ k < 16, k ≠ r ∧ (s.region k).part = some q) ∧
      (∀ d ∈ diesOfRegion r, (t.die d).image = false ∧ (t.die d).tk = []) ∧ ∀ k d, dieOfKey k = some d → regionOf d = r → t.peek k = 0 := by
  subst hj
  refine ⟨_, regionAssign_moves h fun x hx => ?_, ?_⟩
  · rw [hq] at hx; cases hx; exact hd
  rw [Option.elim_none, State.vacated_of_some hq]
  simp only [State.onPart_region, State.onPart_part_same, State.onPart_die, State.onPart_peek, State.emptied_region, if_true, true_and]
  refine ⟨?_, fun d hd => ?_, fun k d hk hd => ?_⟩
  · rw [Bool.not_eq_true', State.diesOf_nonempty_iff]
    refine exists_congr fun k => and_congr_right fun _ => ?_
    rw [State.emptied_region]
    by_cases hk : k = r <;> simp [hk]
  · rw [State.emptied_die, if_pos hd]
    exact ⟨rfl, rfl⟩
  · rw [State.emptied_peek, hk]
    simp [hd]
end

/-! ## The supervisor and attestation (R411, R416) -/

theorem supervisorFailover_takes {s : State} (h : s.supervisor = 0) (hb : s.beatTick + 1000000 ≤ s.tick 199) :
    exec .supervisorFailover s = .next { s with supervisor := 199 } := by
  show execSupervisorFailover s = _
  simp [execSupervisorFailover, h, hb]
theorem supervisorFailover_waits {s : State} (h : s.supervisor ≠ 0 ∨ s.tick 199 < s.beatTick + 1000000) :
    exec .supervisorFailover s = .next s := by
  show execSupervisorFailover s = _
  have waits : ¬ (s.supervisor = 0 ∧ s.beatTick + 1000000 ≤ s.tick 199) := by omega
  simp [execSupervisorFailover, waits]

theorem attestationRequest_reports (s : State) (part : Nat) (nonce : BitVec 256) :
    ∃ x : Report, exec (.attestationRequest part nonce) s = .next { s with reports := s.reports ++ [x] } ∧ x.nonce = nonce ∧
      x.supervisor = Config.measurement 0 ∧ x.image = Config.measurement (part + 1) ∧
      ∀ r, r ∈ x.regions ↔ r < 16 ∧ (s.region r).part = some part :=
  ⟨_, rfl, rfl, rfl, rfl, fun r => by simp [List.mem_filter]⟩

/-- Settles O57: each clause is what the row's own lemma above says. -/
theorem panelAndServiceCores : Obligations.PanelAndServiceCores := by
  unfold Obligations.PanelAndServiceCores
  intro s p c g sd sa n answer
  refine ⟨fun h hf => ⟨syscall_unserved h hf n, syscall_served h hf n⟩, fun d r => exec_syscallAnswer answer,
    fun d tag => exec_syscallAnswer_none answer, panelReset_reaches s, step_held, lifeCycleChange_reaches s, ?_,
    ⟨supervisorFailover_takes, supervisorFailover_waits⟩, attestationRequest_reports s⟩
  intro r part limit troot capbase listAt queues ports
  exact ⟨regionAssign_refused, fun q => regionAssign_drains, fun j => regionAssign_joins, fun q => regionAssign_leaves⟩

end Sys2Proof.Safety
end

section
/-!
PROOF. The fabric (R325 to R330): what each update of a link or a warp leaves, what a block fault and a discarded packet change, how a
link fails, and where packets go.
-/
namespace Sys2Proof.Machine

/-- The packet counts as discarded at the site, and its event as lost. -/
def State.dropped (s : State) (site : Nat) (p : Pkt) : State :=
  { s.onSite site fun x => { x with ndropped := x.ndropped + 1 } with dropq := s.dropq ++ p.event.toList.map (·.1) }

/-- The block fault of a request that is discarded (R329). -/
def State.endsRequest (s : State) (q : Packet) (a : Nat) : State :=
  (s.blockFault (s.warp q.warp).blk (s.exitAt (s.warp q.warp).blk (some q.warp)
    (((s.warp q.warp).pend.find? (·.tag == q.tag)).map (·.pc) |>.getD 0) 3 a)).onWarp q.warp fun w => w.answered q.tag

end Sys2Proof.Machine

namespace Sys2Proof.Safety
open Sys2Proof.Machine

/-! ## One link, one warp -/

@[simp] theorem onLink_w (s : State) (x d : Nat) (f : Link → Link) : (s.onLink x d f).w = s.w := rfl
@[simp] theorem onLink_warps (s : State) (x d : Nat) (f : Link → Link) : (s.onLink x d f).warps = s.warps := rfl
@[simp] theorem onLink_mem (s : State) (x d : Nat) (f : Link → Link) : (s.onLink x d f).mem = s.mem := rfl
@[simp] theorem onLink_blocks (s : State) (x d : Nat) (f : Link → Link) : (s.onLink x d f).blocks = s.blocks := rfl
@[simp] theorem onLink_site (s : State) (x d : Nat) (f : Link → Link) (y : Nat) : (s.onLink x d f).site y = s.site y := rfl
theorem onLink_link (s : State) (x d : Nat) (f : Link → Link) (y e : Nat) :
    (s.onLink x d f).link y e = if 4 * y + e = 4 * x + d then f (s.link x d) else s.link y e := by
  unfold State.onLink State.link; exact Tbl.get_put _ _ _ _ _
@[simp] theorem onLink_link_same (s : State) (x d : Nat) (f : Link → Link) : (s.onLink x d f).link x d = f (s.link x d) := by
  simp [onLink_link]

/-- A change that keeps a warp's number shows in that warp's record. -/
theorem onWarp_warp_same (s : State) (u : Nat) {f : Warp → Warp} (h : ∀ w, (f w).uid = w.uid) : (s.onWarp u f).warp u = f (s.warp u) := by
  unfold State.onWarp
  by_cases hu : u = s.w.uid
  · have here : u = (f s.w).uid := hu.trans (h _).symm
    rw [if_pos hu]
    unfold State.warp
    rw [if_pos hu, if_pos here]
  · rw [if_neg hu]
    unfold State.warp
    rw [if_neg hu, if_neg hu]
    exact Tbl.get_put_same _ _ _ _

/-! ## Directions (R325) -/

theorem dirTo_lt (a b : Nat) : dirTo a b < 4 := by unfold dirTo; (repeat' split) <;> omega
/-- The four directions of the mesh. -/
theorem neighbour_cases {site dir next : Nat} (h : neighbour site dir = some next) :
    (dir = 0 ∧ next = site + 20) ∨ (dir = 1 ∧ next = site + 1) ∨ (dir = 2 ∧ next + 20 = site) ∨ (dir = 3 ∧ next + 1 = site) := by
  unfold neighbour at h
  (repeat' split at h) <;> injection h <;> omega
theorem dirTo_of_neighbour {site dir next : Nat} (h : neighbour site dir = some next) : dirTo site next = dir := by
  unfold dirTo
  rcases neighbour_cases h with ⟨rfl, e⟩ | ⟨rfl, e⟩ | ⟨rfl, e⟩ | ⟨rfl, e⟩ <;> (repeat' split) <;> omega
theorem ne_of_neighbour {site dir next : Nat} (h : neighbour site dir = some next) : site ≠ next := by
  rcases neighbour_cases h with ⟨-, e⟩ | ⟨-, e⟩ | ⟨-, e⟩ | ⟨-, e⟩ <;> omega
theorem dir_lt_of_neighbour {site dir next : Nat} (h : neighbour site dir = some next) : dir < 4 :=
  dirTo_of_neighbour h ▸ dirTo_lt site next

/-! ## Block faults (R315) and discarded packets (R329) -/

/-- The machine beside the warps, blocks and dies. -/
def besideWarps (s : State) : State := { s with w := Warp.empty, warps := [], blocks := [], dies := [] }

theorem besideWarps_onWarp (s : State) (u : Nat) (f : Warp → Warp) : besideWarps (s.onWarp u f) = besideWarps s := by
  unfold State.onWarp; split <;> rfl
theorem onWarp_blocks (s : State) (u : Nat) (f : Warp → Warp) : (s.onWarp u f).blocks = s.blocks := by
  unfold State.onWarp; split <;> rfl

/-- Only warps, and dies, have changed. -/
def WarpsOnly (s t : State) : Prop := besideWarps t = besideWarps s ∧ t.blocks = s.blocks
theorem WarpsOnly.refl (s : State) : WarpsOnly s s := ⟨rfl, rfl⟩
theorem WarpsOnly.trans {a b c : State} (h : WarpsOnly a b) (k : WarpsOnly b c) : WarpsOnly a c := ⟨k.1.trans h.1, k.2.trans h.2⟩
theorem warpsOnly_onWarp (s : State) (u : Nat) (f : Warp → Warp) : WarpsOnly s (s.onWarp u f) :=
  ⟨besideWarps_onWarp s u f, onWarp_blocks s u f⟩
theorem warpsOnly_leaveEntry (s : State) (d : Nat) (e : Option Nat) : WarpsOnly s (s.leaveEntry d e) := by
  cases e <;> exact ⟨rfl, rfl⟩
theorem warpsOnly_windUp (s : State) (u : Nat) : WarpsOnly s (s.windUp u) :=
  (warpsOnly_leaveEntry s _ _).trans (warpsOnly_onWarp _ _ _)

/-- A block fault changes warps, blocks and dies alone, and the first fault stands (R315). -/
theorem blockFault_spec (s : State) (b : Nat) (x : ExitInfo) :
    besideWarps (s.blockFault b x) = besideWarps s ∧ ((s.blockFault b x).blk b).fault = some ((s.blk b).fault.getD x) := by
  have wound (t : State) (L : List Nat) : WarpsOnly t (L.foldl (fun s u => s.windUp u) t) :=
    foldl_keeps WarpsOnly WarpsOnly.refl (fun _ _ _ => WarpsOnly.trans) _ warpsOnly_windUp L t
  unfold State.blockFault
  obtain ⟨beside, blocks⟩ := wound (s.onBlk b fun k => { k with fault := some (k.fault.getD x), m := { k.m with stopped := true },
                                                                c := { k.c with stopped := true } }) _
  refine ⟨beside.trans rfl, ?_⟩
  unfold State.blk at blocks ⊢
  rw [blocks]
  exact congrArg Block.fault (State.onBlk_blk_same s b _)

theorem discard_eq (s : State) (site : Nat) (p : Pkt) : s.discard site p =
    p.ofFwd.elim (s.dropped site p) fun q => (s.dropped site p).endsRequest q p.addr.toNat := by
  have dropped : s.dropped site p = match p.event with
      | some (n, _) => { s.onSite site fun x => { x with ndropped := x.ndropped + 1 } with dropq := s.dropq ++ [n] }
      | none => s.onSite site fun x => { x with ndropped := x.ndropped + 1 } := by
    unfold State.dropped
    cases p.event with
    | none => simp; rfl
    | some e => rfl
  unfold State.discard
  rw [dropped]
  cases p.ofFwd with
  | none => cases p.event <;> rfl
  | some q => cases p.event <;> rfl

theorem endsRequest_beside (s : State) (q : Packet) (a : Nat) : besideWarps (s.endsRequest q a) = besideWarps s :=
  (besideWarps_onWarp _ _ _).trans (blockFault_spec _ _ _).1
/-- A warp's request that is discarded ends its block with XLATE, code 3 (R314, R329). -/
theorem endsRequest_fault {s : State} {q : Packet} (h : (s.blk (s.warp q.warp).blk).fault = none) (a : Nat) :
    ∃ y, ((s.endsRequest q a).blk (s.warp q.warp).blk).fault = some y ∧ y.code = 3 := by
  have blk (t : State) (u b : Nat) (f : Warp → Warp) : (t.onWarp u f).blk b = t.blk b :=
    congrArg (Tbl.get Block.empty · b) (onWarp_blocks t u f)
  unfold State.endsRequest
  rw [blk, (blockFault_spec s (s.warp q.warp).blk _).2, h]
  exact ⟨_, rfl, rfl⟩

/-- A discarded packet changes nothing else of the fabric and of memory. -/
theorem discard_beside (s : State) (site : Nat) (p : Pkt) : besideWarps (s.discard site p) = besideWarps (s.dropped site p) := by
  rw [discard_eq]
  cases p.ofFwd with
  | none => rfl
  | some q => exact endsRequest_beside _ q _
theorem discard_of_no_request {s : State} {site : Nat} {p : Pkt} (h : p.ofFwd = none) : s.discard site p = s.dropped site p := by
  rw [discard_eq, h]; rfl
theorem discard_fault {s : State} {site : Nat} {p : Pkt} {x : Packet} (h : p.ofFwd = some x)
    (hb : (s.blk (s.warp x.warp).blk).fault = none) :
    ∃ y, ((s.discard site p).blk (s.warp x.warp).blk).fault = some y ∧ y.code = 3 := by
  rw [discard_eq, h]
  exact endsRequest_fault (s := s.dropped site p) hb _

theorem discard_site (s : State) (site : Nat) (p : Pkt) (x : Nat) : (s.discard site p).site x = (s.dropped site p).site x :=
  (congrArg (fun t => State.site t x) (discard_beside s site p) :)
theorem discard_mem (s : State) (site : Nat) (p : Pkt) : (s.discard site p).mem = s.mem := (congrArg State.mem (discard_beside s site p) :)
theorem discard_links (s : State) (site : Nat) (p : Pkt) : (s.discard site p).links = s.links := (congrArg State.links (discard_beside s site p) :)
theorem discard_dropq (s : State) (site : Nat) (p : Pkt) : (s.discard site p).dropq = s.dropq ++ p.event.toList.map (·.1) :=
  (congrArg State.dropq (discard_beside s site p) :)
theorem dropped_site (s : State) (site : Nat) (p : Pkt) (x : Nat) : (s.dropped site p).site x =
    if x = site then { s.site site with ndropped := (s.site site).ndropped + 1 } else s.site x :=
  State.onSite_site s site (fun x => { x with ndropped := x.ndropped + 1 }) x

/-! ## A link fails (R325, R329) -/

/-- Packets have gone to the spill area or been discarded: links stand, and what waits at the sites does. -/
structure Spills (s t : State) : Prop where
  links : t.links = s.links
  waiting : ∀ x, (t.site x).waiting = (s.site x).waiting
theorem Spills.refl (s : State) : Spills s s := ⟨rfl, fun _ => rfl⟩
theorem Spills.trans {a b c : State} (h : Spills a b) (k : Spills b c) : Spills a c :=
  ⟨k.links.trans h.links, fun x => (k.waiting x).trans (h.waiting x)⟩
theorem spills_spillPkt (s : State) (site : Nat) (p : Pkt) : Spills s (s.spillPkt site p) := by
  unfold State.spillPkt
  split
  · refine ⟨discard_links s site p, fun x => ?_⟩
    rw [discard_site, dropped_site]
    split
    · subst_vars; rfl
    · rfl
  · refine ⟨rfl, fun x => ?_⟩
    rw [State.onSite_site]
    split
    · subst_vars; rfl
    · rfl

/-- What one end of a failing link does at its site. -/
structure LinkEnds (a b : Nat) (s t : State) : Prop where
  link : ∀ x d, t.link x d = if 4 * x + d = 4 * a + dirTo a b then { s.link x d with flying := none } else s.link x d
  waiting : ∀ p ∈ (t.site a).waiting, p.dst = a ∨ p.next a ≠ b
  others : ∀ x, x ≠ a → (t.site x).waiting = (s.site x).waiting
theorem linkEnds (s : State) (a b : Nat) : LinkEnds a b s (s.linkEnd a b) := by
  unfold State.linkEnd
  simp only []
  generalize hu : s.emitSite a 0x80 _ = u
  have emitted : Emitted a s u := hu ▸ emitted_emitSite s a _ _
  generalize hv : State.onSite (u.onLink a (dirTo a b) _) a _ = v
  have spills := foldl_keeps Spills Spills.refl (fun _ _ _ => Spills.trans) _ (fun s p => spills_spillPkt s a p)
    (((u.link a (dirTo a b)).flying.map (·.1)).toList ++
      ((u.onLink a (dirTo a b) fun l => { l with flying := none }).site a).waiting.filter fun p => p.dst != a && p.next a == b) v
  refine ⟨fun x d => ?_, fun p hp => ?_, fun x hx => ?_⟩
  · refine (congrArg (fun l => Tbl.get Link.whole l (4 * x + d)) spills.links).trans ?_
    subst hv
    refine (onLink_link u a (dirTo a b) (fun l => { l with flying := none }) x d).trans ?_
    split
    · rename_i same
      have key : s.link x d = s.link a (dirTo a b) := congrArg (Tbl.get Link.whole s.links) same
      rw [emitted.link, key]
    · exact emitted.link x d
  · rw [spills.waiting, ← hv, State.onSite_site_same] at hp
    have kept := (List.mem_filter.mp hp).2
    rw [Bool.not_eq_true', Bool.and_eq_false_iff, bne_eq_false_iff_eq, beq_eq_false_iff_ne] at kept
    exact kept
  · rw [spills.waiting, ← hv, State.onSite_site, if_neg hx, onLink_site, emitted.others x hx]

/-- The link is down at both ends, nothing is under way on it, and no packet waits for it. -/
def LinkDown (site dir next : Nat) (t : State) : Prop :=
  (t.link site dir).failed = true ∧ (t.link next (dirTo next site)).failed = true ∧ (t.link site dir).flying = none ∧
    ∀ p ∈ (t.site site).waiting, p.dst = site ∨ p.next site ≠ next

theorem failLink_down {s : State} {site dir next : Nat} (hn : neighbour site dir = some next) (hf : (s.link site dir).failed = false) :
    LinkDown site dir next (s.failLink site dir) := by
  have far : site ≠ next := ne_of_neighbour hn
  have there : 4 * site + dir ≠ 4 * next + dirTo next site := by
    have := dir_lt_of_neighbour hn; have := dirTo_lt next site; omega
  unfold State.failLink
  rw [hn]
  simp only [hf, Bool.false_eq_true, if_false]
  generalize hu : State.onLink (s.onLink site dir _) next (dirTo next site) _ = u
  have near := linkEnds u site next
  have ends := linkEnds (u.linkEnd site next) next site
  have nearLink := near.link
  rw [dirTo_of_neighbour hn] at nearLink
  have link : ((u.linkEnd site next).linkEnd next site).link site dir = { u.link site dir with flying := none } := by
    rw [ends.link, if_neg there, nearLink, if_pos rfl]
  have back : (((u.linkEnd site next).linkEnd next site).link next (dirTo next site)).failed = (u.link next (dirTo next site)).failed := by
    rw [ends.link, if_pos rfl, nearLink, if_neg there.symm]
  refine ⟨?_, ?_, ?_, ?_⟩
  · rw [link, ← hu, onLink_link, if_neg there, onLink_link_same]
  · rw [back, ← hu, onLink_link_same]
  · rw [link]
  · rw [ends.others site far]
    exact near.waiting

end Sys2Proof.Safety
end

section
/-!
PROOF. Packets (R325 to R330): their delivery, and the rows FLIT_RECEIVE, LANE_LOCK_LOST, LANE_LOCK_REGAINED, LANE_LOCK_TIMEOUT,
PACKET_FORWARD and SPILL_REINJECT.
-/
namespace Sys2Proof.Machine

/-- The event that a packet carries has reached its automaton's die. -/
def State.eventful (s : State) (p : Pkt) : State := { s with evq := s.evq ++ p.event.toList }
/-- What a packet is when it comes in over a link. -/
def Pkt.arriving (p : Pkt) (came : Nat) : Pkt := { p with legs := p.legs.drop 1, came := some came }
/-- The packet that is delivered at a site first, and the one that has come for a failed link. -/
def State.hereFirst (s : State) (site : Nat) : Option Pkt := (s.site site).waiting.find? fun p => p.dst == site && !s.overtakes p
def State.stuckFirst (s : State) (site : Nat) : Option Pkt := (s.site site).waiting.find? fun p => p.dst != site && !s.whole site (p.next site)
/-- A packet no longer waits at a site. -/
def State.without (s : State) (site : Nat) (p : Pkt) : State := s.onSite site fun x => { x with waiting := dropPkt p.num x.waiting }
/-- The first output that can starts its packet. -/
def State.starts (s : State) (site : Nat) : State :=
  ((List.range 4).findSome? fun dir => (s.outputNext site dir).map fun p => (dir, p)).elim s fun x =>
    (s.without site x.2).onLink site x.1 fun l =>
      { l with flying := some (x.2, x.2.flits), responded := if x.2.vc = vcResponse then true else if x.2.vc = vcRequest then false else l.responded }
/-- A packet that takes a detour (R328). -/
def Pkt.diverts (p : Pkt) (legs : List Nat) : Pkt := { p with vc := vcReroute, rerouted := true, legs := legs ++ p.legs.drop 1, came := none }

end Sys2Proof.Machine

namespace Sys2Proof.Safety
open Sys2Proof.Machine

/-! ## Delivery (R326, R330) -/

/-- The machine beside the dies and the banded latency table. -/
def besideMail (s : State) : State := { s with dies := [], routes := [] }

theorem besideMail_diverted (s : State) (p : Pkt) : besideMail (s.diverted p) = besideMail s := by
  unfold State.diverted; split <;> rfl
theorem besideMail_mailed (s : State) (p : Pkt) : besideMail (s.mailed p) = besideMail s := by
  unfold State.mailed
  split
  · exact (besideMail_diverted _ p).trans rfl
  · exact besideMail_diverted s p
theorem diverted_die (s : State) (p : Pkt) (d : Nat) : (s.diverted p).die d = s.die d := by
  unfold State.diverted; split <;> rfl
/-- A FWD's packet waits at its die. -/
theorem mailed_fwdq {s : State} {p : Pkt} {x : Packet} (h : p.fwd = some x) :
    ((s.mailed p).die (dieOfSite p.dst)).fwdq = (s.die (dieOfSite p.dst)).fwdq ++ [x] := by
  unfold State.mailed
  rw [h]
  simp only []
  rw [diverted_die, State.onDie_die_same]

/-- A packet that carries no answer. -/
theorem deliver_eq {s : State} {p : Pkt} (h : p.answer = none) : s.deliver p = (s.eventful p).mailed p := by
  unfold State.deliver State.eventful
  rw [h]
  cases p.event with
  | none => simp
  | some e => rfl
theorem deliver_answer_eq {s : State} {p : Pkt} {x : Packet} {st : Nat} (h : p.answer = some (x, st)) : s.deliver p =
    ((s.eventful p).onWarp x.warp fun w => (w.setS x.sd (BitVec.ofNat 32 st)).answered x.tag).mailed p := by
  unfold State.deliver State.eventful
  rw [h]
  cases p.event with
  | none => simp
  | some e => rfl

/-- A delivered packet that carries no answer (R326). -/
structure Delivered (p : Pkt) (s t : State) : Prop where
  aside : Aside s t
  evq : t.evq = s.evq ++ p.event.toList
  fwdq : ∀ x, p.fwd = some x → (t.die (dieOfSite p.dst)).fwdq = (s.die (dieOfSite p.dst)).fwdq ++ [x]
  links : t.links = s.links
  sites : t.sites = s.sites
theorem deliver_delivers {s : State} {p : Pkt} (h : p.answer = none) : Delivered p s (s.deliver p) := by
  rw [deliver_eq h]
  have mailed := besideMail_mailed (s.eventful p) p
  exact ⟨⟨(congrArg State.w mailed :), (congrArg State.warps mailed :), (congrArg State.mem mailed :), (congrArg State.blocks mailed :)⟩,
    (congrArg State.evq mailed :), fun x hx => mailed_fwdq hx, (congrArg State.links mailed :), (congrArg State.sites mailed :)⟩

/-- The answer to a FWD brings its status to the warp that sent it (R280). -/
theorem deliver_answers {s : State} {p : Pkt} {x : Packet} {st : Nat} (h : p.answer = some (x, st)) :
    (s.deliver p).mem = s.mem ∧ (s.deliver p).sites = s.sites ∧ ((s.deliver p).warp x.warp).S x.sd = BitVec.ofNat 32 st := by
  rw [deliver_answer_eq h]
  generalize hu : State.onWarp _ _ _ = u
  have mailed := besideMail_mailed u p
  have answered := besideWarps_onWarp (s.eventful p) x.warp fun w => (w.setS x.sd (BitVec.ofNat 32 st)).answered x.tag
  rw [hu] at answered
  refine ⟨(congrArg State.mem mailed :).trans (congrArg State.mem answered :), (congrArg State.sites mailed :).trans (congrArg State.sites answered :), ?_⟩
  have warp : (u.mailed p).warp x.warp = u.warp x.warp := (congrArg (fun t => State.warp t x.warp) mailed :)
  have record := onWarp_warp_same (s.eventful p) x.warp (f := fun w => (w.setS x.sd (BitVec.ofNat 32 st)).answered x.tag) fun _ => rfl
  rw [warp, ← hu, record]
  exact (Warp.S_setS _ _ _ _).trans (if_pos rfl)

/-- A packet that is not at its destination, still has a detour to go, or would overtake, waits (R326, R330). -/
theorem arrive_waits {s : State} {site came : Nat} {p : Pkt}
    (h : (p.arriving came).dst ≠ site ∨ (p.arriving came).legs ≠ [] ∨ s.overtakes (p.arriving came) = true) :
    s.arrive site came p = s.onSite site fun x => { x with waiting := x.waiting ++ [p.arriving came] } := by
  refine if_neg fun both => ?_
  simp only [Bool.and_eq_true, Bool.not_eq_true', decide_eq_true_eq, List.isEmpty_iff] at both
  obtain ⟨⟨dst, legs⟩, first⟩ := both
  rcases h with h | h | h
  · exact h dst.symm
  · exact h legs
  · exact Bool.false_ne_true (first.symm.trans h)
theorem arrive_delivers {s : State} {site came : Nat} {p : Pkt} (hd : (p.arriving came).dst = site) (hl : (p.arriving came).legs = [])
    (ho : s.overtakes (p.arriving came) = false) : s.arrive site came p = s.deliver (p.arriving came) := by
  refine if_pos ?_
  simp only [Bool.and_eq_true, Bool.not_eq_true', decide_eq_true_eq, List.isEmpty_iff]
  exact ⟨⟨hd.symm, hl⟩, ho⟩

/-! ## FLIT_RECEIVE and the lane lock (R325) -/

section
variable {s : State} {site dir next : Nat} (hn : neighbour site dir = some next) (hf : (s.link site dir).failed = false)
include hn hf

theorem flitReceive_retries (hl : (s.link site dir).lost = none) (hr : (s.link site dir).retries < 8) :
    exec (.flitReceive site dir false) s = .next (s.onLink site dir fun l => { l with retries := l.retries + 1 }) := by
  show execFlitReceive site dir false s = _
  simp [execFlitReceive, hn, hf, hl, Nat.not_le.mpr hr]
theorem flitReceive_fails (hl : (s.link site dir).lost = none) (hr : 8 ≤ (s.link site dir).retries) :
    Reaches (.flitReceive site dir false) s (LinkDown site dir next) := by
  refine ⟨s.failLink site dir, ?_, failLink_down hn hf⟩
  show execFlitReceive site dir false s = _
  simp [execFlitReceive, hn, hf, hl, hr]
theorem flitReceive_idle (hl : (s.link site dir).lost = none) (hi : (s.link site dir).flying = none) :
    exec (.flitReceive site dir true) s = .next (s.onLink site dir fun l => { l with retries := 0 }) := by
  show execFlitReceive site dir true s = _
  simp [execFlitReceive, hn, hf, hl, hi]
theorem flitReceive_goes_on (hl : (s.link site dir).lost = none) {p : Pkt} {n : Nat} (hp : (s.link site dir).flying = some (p, n)) (h : 1 < n) :
    exec (.flitReceive site dir true) s = .next (s.onLink site dir fun l => { l with retries := 0, flying := some (p, n - 1) }) := by
  show execFlitReceive site dir true s = _
  simp [execFlitReceive, hn, hf, hl, hp, Nat.not_le.mpr h]
theorem flitReceive_last (hl : (s.link site dir).lost = none) {p : Pkt} {n : Nat} (hp : (s.link site dir).flying = some (p, n)) (h : n ≤ 1) :
    exec (.flitReceive site dir true) s =
      .next ((s.onLink site dir fun l => { l with retries := 0, flying := none }).arrive next site p) := by
  show execFlitReceive site dir true s = _
  simp [execFlitReceive, hn, hf, hl, hp, h]

theorem flitReceive_waits (hl : (s.link site dir).lost = none) {p : Pkt} {n : Nat} (hp : (s.link site dir).flying = some (p, n)) (h : n ≤ 1)
    (hw : (p.arriving site).dst ≠ next ∨ (p.arriving site).legs ≠ [] ∨
      (s.onLink site dir fun l => { l with retries := 0, flying := none }).overtakes (p.arriving site) = true) :
    Reaches (.flitReceive site dir true) s fun t => Aside s t ∧ (t.link site dir).flying = none ∧
      (t.site next).waiting = (s.site next).waiting ++ [p.arriving site] := by
  refine ⟨_, (flitReceive_last hn hf hl hp h).trans (congrArg _ (arrive_waits hw)), ⟨rfl, rfl, rfl, rfl⟩, ?_, ?_⟩
  · exact congrArg Link.flying (onLink_link_same s site dir fun l => { l with retries := 0, flying := none })
  · rw [State.onSite_site_same, onLink_site]
theorem flitReceive_delivers (hl : (s.link site dir).lost = none) {p : Pkt} {n : Nat} (hp : (s.link site dir).flying = some (p, n)) (h : n ≤ 1)
    (hd : (p.arriving site).dst = next) (hg : (p.arriving site).legs = [])
    (ho : (s.onLink site dir fun l => { l with retries := 0, flying := none }).overtakes (p.arriving site) = false) (ha : p.answer = none) :
    Reaches (.flitReceive site dir true) s fun t => Aside s t ∧ (t.link site dir).flying = none ∧ t.evq = s.evq ++ p.event.toList ∧
      ∀ x, p.fwd = some x → (t.die (dieOfSite next)).fwdq = (s.die (dieOfSite next)).fwdq ++ [x] := by
  have delivered := deliver_delivers (s := s.onLink site dir fun l => { l with retries := 0, flying := none }) (p := p.arriving site) ha
  rw [← arrive_delivers hd hg ho] at delivered
  obtain ⟨⟨w, warps, mem, blocks⟩, evq, fwdq, links, -⟩ := delivered
  rw [hd] at fwdq
  refine ⟨_, flitReceive_last hn hf hl hp h, ⟨w, warps, mem, blocks⟩, ?_, evq, fwdq⟩
  refine (congrArg (fun l => (Tbl.get Link.whole l (4 * site + dir)).flying) links).trans ?_
  exact congrArg Link.flying (onLink_link_same s site dir _)

theorem laneLockLost_notes (hl : (s.link site dir).lost = none) :
    exec (.laneLockLost site dir) s = .next (s.onLink site dir fun l => { l with lost := some (s.siteTick site) }) := by
  show execLaneLockLost site dir s = _
  simp [execLaneLockLost, hn, hf, hl]

variable {at_ : Nat} (hl : (s.link site dir).lost = some at_)
include hl

omit hf in
theorem flitReceive_unlocked (ok : Bool) : exec (.flitReceive site dir ok) s = .next s := by
  show execFlitReceive site dir ok s = _
  simp [execFlitReceive, hn, hl]
omit hn hf in
theorem laneLockRegained_clears : exec (.laneLockRegained site dir) s = .next (s.onLink site dir fun l => { l with lost := none }) := by
  show execLaneLockRegained site dir s = _
  simp [execLaneLockRegained, hl]
theorem laneLockTimeout_fails (h : at_ + 1000 ≤ s.siteTick site) : Reaches (.laneLockTimeout site dir) s (LinkDown site dir next) := by
  refine ⟨s.failLink site dir, ?_, failLink_down hn hf⟩
  show execLaneLockTimeout site dir s = _
  simp [execLaneLockTimeout, hl, h]
omit hn hf in
theorem laneLockTimeout_waits (h : s.siteTick site < at_ + 1000) : exec (.laneLockTimeout site dir) s = .next s := by
  show execLaneLockTimeout site dir s = _
  simp [execLaneLockTimeout, hl, Nat.not_le.mpr h]
end

/-! ## PACKET_FORWARD (R326, R329) -/

theorem packetForward_eq (s : State) (site : Nat) : exec (.packetForward site) s = .next
    ((s.hereFirst site).elim ((s.stuckFirst site).elim (s.starts site) fun p => (s.without site p).spillPkt site p)
      fun p => (s.without site p).deliver p) := by
  have here : ((s.site site).waiting.filter (·.dst == site)).find? (fun p => !s.overtakes p) = s.hereFirst site := by
    simp only [List.find?_filter, State.hereFirst, Bool.decide_and, Bool.decide_eq_true]
  have stuck : ((s.site site).waiting.filter (·.dst != site)).find? (fun p => !s.whole site (p.next site)) = s.stuckFirst site := by
    simp only [List.find?_filter, State.stuckFirst, Bool.decide_and, Bool.decide_eq_true]
  show execPacketForward site s = _
  unfold execPacketForward
  simp only [here, stuck]
  cases s.hereFirst site with
  | some p => rfl
  | none =>
    cases s.stuckFirst site with
    | some p => rfl
    | none =>
      unfold State.starts
      cases (List.range 4).findSome? fun dir => (s.outputNext site dir).map fun p => (dir, p) <;> rfl

theorem packetForward_here {s : State} {site : Nat} {p : Pkt} (h : s.hereFirst site = some p) :
    exec (.packetForward site) s = .next ((s.without site p).deliver p) := by
  rw [packetForward_eq, h]; rfl
theorem packetForward_stuck {s : State} {site : Nat} {p : Pkt} (hh : s.hereFirst site = none) (hs : s.stuckFirst site = some p) :
    exec (.packetForward site) s = .next ((s.without site p).spillPkt site p) := by
  rw [packetForward_eq, hh, hs]; rfl

theorem without_waiting (s : State) (site : Nat) (p : Pkt) :
    ((s.without site p).site site).waiting = dropPkt p.num (s.site site).waiting :=
  congrArg Site.waiting (State.onSite_site_same s site fun x => { x with waiting := dropPkt p.num x.waiting })
theorem dst_of_hereFirst {s : State} {site : Nat} {p : Pkt} (h : s.hereFirst site = some p) : p.dst = site := by
  have := List.find?_some h
  simp only [Bool.and_eq_true, beq_iff_eq] at this
  exact this.1

theorem outputNext_of_empty {s : State} {site : Nat} (h : (s.site site).waiting = []) (dir : Nat) : s.outputNext site dir = none := by
  unfold State.outputNext
  rw [h]
  split
  · rfl
  · exact ite_self _
theorem packetForward_empty {s : State} {site : Nat} (h : (s.site site).waiting = []) : exec (.packetForward site) s = .next s := by
  have idle : ((List.range 4).findSome? fun dir => (s.outputNext site dir).map fun p => (dir, p)) = none :=
    List.findSome?_eq_none_iff.mpr fun dir _ => by rw [outputNext_of_empty h]; rfl
  rw [packetForward_eq]
  simp only [State.hereFirst, State.stuckFirst, State.starts, h, idle, List.find?_nil, Option.elim_none]

/-- A packet that stands at its destination is delivered (R326). -/
theorem packetForward_delivers {s : State} {site : Nat} {p : Pkt} (h : s.hereFirst site = some p) (ha : p.answer = none) :
    Reaches (.packetForward site) s fun t => Aside s t ∧ (t.site site).waiting = dropPkt p.num (s.site site).waiting ∧
      t.evq = s.evq ++ p.event.toList ∧ ∀ x, p.fwd = some x → (t.die (dieOfSite site)).fwdq = (s.die (dieOfSite site)).fwdq ++ [x] := by
  obtain ⟨⟨w, warps, mem, blocks⟩, evq, fwdq, -, sites⟩ := deliver_delivers (s := s.without site p) ha
  rw [dst_of_hereFirst h] at fwdq
  refine ⟨_, packetForward_here h, ⟨w, warps, mem, blocks⟩, ?_, evq, fwdq⟩
  exact (congrArg (fun x => (Tbl.get Site.empty x site).waiting) sites).trans (without_waiting s site p)
theorem packetForward_answers {s : State} {site : Nat} {p : Pkt} (h : s.hereFirst site = some p) (x : Packet) (st : Nat)
    (ha : p.answer = some (x, st)) : Reaches (.packetForward site) s fun t => t.mem = s.mem ∧
      (t.site site).waiting = dropPkt p.num (s.site site).waiting ∧ (t.warp x.warp).S x.sd = BitVec.ofNat 32 st := by
  obtain ⟨mem, sites, value⟩ := deliver_answers (s := s.without site p) ha
  refine ⟨_, packetForward_here h, mem, ?_, value⟩
  exact (congrArg (fun x => (Tbl.get Site.empty x site).waiting) sites).trans (without_waiting s site p)

/-- A packet that has come for a failed link goes to the spill area, where the link has a detour (R330). -/
theorem packetForward_spills {s : State} {site : Nat} {p : Pkt} (hh : s.hereFirst site = none) (hs : s.stuckFirst site = some p)
    (legs : List Nat) (hd : s.detour site (p.next site) = some legs) : Reaches (.packetForward site) s fun t => Aside s t ∧
      (t.site site).waiting = dropPkt p.num (s.site site).waiting ∧ (t.site site).spilled = p.insert (s.site site).spilled ∧
      (t.site site).nspilled = (s.site site).nspilled + 1 := by
  have kept : (s.without site p).detour site (p.next site) = some legs := hd
  have spilt : (s.without site p).spillPkt site p =
      (s.without site p).onSite site fun x => { x with spilled := p.insert x.spilled, nspilled := x.nspilled + 1 } :=
    if_neg (by rw [kept]; exact Bool.false_ne_true)
  refine ⟨_, (packetForward_stuck hh hs).trans (congrArg _ spilt), ⟨rfl, rfl, rfl, rfl⟩, ?_⟩
  unfold State.without
  rw [State.onSite_site_same, State.onSite_site_same]
  exact ⟨rfl, rfl, rfl⟩
/-- With no detour it is discarded (R329). -/
theorem packetForward_discards {s : State} {site : Nat} {p : Pkt} (hh : s.hereFirst site = none) (hs : s.stuckFirst site = some p)
    (hd : s.detour site (p.next site) = none) : Reaches (.packetForward site) s fun t => t.mem = s.mem ∧
      (t.site site).waiting = dropPkt p.num (s.site site).waiting ∧ t.dropq = s.dropq ++ p.event.toList.map (·.1) ∧
      (t.site site).ndropped = (s.site site).ndropped + 1 ∧ (p.ofFwd = none → Aside s t) ∧
      ∀ x, p.ofFwd = some x → (s.blk (s.warp x.warp).blk).fault = none → ∃ y, (t.blk (s.warp x.warp).blk).fault = some y ∧ y.code = 3 := by
  have kept : (s.without site p).detour site (p.next site) = none := hd
  have gone : (s.without site p).spillPkt site p = (s.without site p).discard site p :=
    if_pos (by rw [kept]; rfl)
  have record : ((s.without site p).discard site p).site site =
      { s.site site with waiting := dropPkt p.num (s.site site).waiting, ndropped := (s.site site).ndropped + 1 } := by
    rw [discard_site, dropped_site, if_pos rfl]
    unfold State.without
    rw [State.onSite_site_same]
  refine ⟨_, (packetForward_stuck hh hs).trans (congrArg _ gone), discard_mem _ site p, ?_, discard_dropq _ site p, ?_, fun h => ?_,
    fun x h hb => discard_fault (s := s.without site p) h hb⟩
  · rw [record]
  · rw [record]
  · rw [discard_of_no_request h]
    exact ⟨rfl, rfl, rfl, rfl⟩

theorem findSome_outputNext {s : State} {site dir : Nat} {p : Pkt} (hl : ∀ k < dir, s.outputNext site k = none)
    (hp : s.outputNext site dir = some p) :
    ((List.range 4).findSome? fun dir => (s.outputNext site dir).map fun p => (dir, p)) = some (dir, p) := by
  have hd : dir < 4 := by
    unfold State.outputNext at hp
    split at hp
    · cases hp
    · exact dir_lt_of_neighbour (by assumption)
  have cut : List.range 4 = List.range dir ++ dir :: List.range' (dir + 1) (3 - dir) := by
    match dir, hd with
    | 0, _ | 1, _ | 2, _ | 3, _ => rfl
  refine List.findSome?_eq_some_iff.mpr ⟨_, dir, _, cut, by rw [hp]; rfl, fun k hk => ?_⟩
  rw [hl k (List.mem_range.mp hk)]
  rfl

/-- The first output that can starts its packet (R326, R327). -/
theorem packetForward_starts {s : State} {site dir : Nat} {p : Pkt} (hh : s.hereFirst site = none) (hs : s.stuckFirst site = none)
    (hl : ∀ k < dir, s.outputNext site k = none) (hp : s.outputNext site dir = some p) : Reaches (.packetForward site) s fun t =>
      Aside s t ∧ (t.site site).waiting = dropPkt p.num (s.site site).waiting ∧ t.evq = s.evq ∧
      (t.link site dir).flying = some (p, p.flits) := by
  refine ⟨s.starts site, ?_, ?_⟩
  · rw [packetForward_eq, hh, hs]; rfl
  · unfold State.starts
    rw [findSome_outputNext hl hp]
    refine ⟨⟨rfl, rfl, rfl, rfl⟩, without_waiting s site p, rfl, ?_⟩
    simp only [Option.elim_some]
    rw [onLink_link_same]

/-! ## SPILL_REINJECT (R329, R330) -/

theorem spillReinject_empty {s : State} {site : Nat} (h : (s.site site).spilled = []) : exec (.spillReinject site) s = .next s := by
  show execSpillReinject site s = _
  unfold execSpillReinject
  rw [h]

theorem spillReinject_diverts {s : State} {site : Nat} {p : Pkt} {rest : List Pkt} {legs : List Nat}
    (h : (s.site site).spilled = p :: rest) (hd : s.detour site (p.next site) = some legs) :
    Reaches (.spillReinject site) s fun t => (t.site site).spilled = rest ∧ p.diverts legs ∈ (t.site site).waiting ∧
      (rest = [] → (t.site site).nspilled = 0 ∧ (t.site site).ndropped = 0) := by
  have kept : (s.onSite site fun x => { x with spilled := rest }).detour site (p.next site) = some legs := hd
  generalize hv : (s.onSite site fun x => { x with spilled := rest }).onSite site
    (fun x => { x with waiting := x.waiting ++ [p.diverts legs] }) = v
  have record : v.site site = { s.site site with spilled := rest, waiting := (s.site site).waiting ++ [p.diverts legs] } := by
    rw [← hv, State.onSite_site_same, State.onSite_site_same]
  have runs : exec (.spillReinject site) s = .next (if rest.isEmpty = true then
      (v.onSite site fun x => { x with nspilled := 0, ndropped := 0 }).emitSite site 0x81
        ((v.site site).nspilled % 2 ^ 24 + (v.site site).ndropped % 2 ^ 24 * 2 ^ 24) else v) := by
    show execSpillReinject site s = _
    unfold execSpillReinject
    rw [h, ← hv]
    simp only [kept]
    rfl
  refine ⟨_, runs, ?_⟩
  cases rest with
  | nil =>
    obtain ⟨l, emitted⟩ := (emitted_emitSite (v.onSite site fun x => { x with nspilled := 0, ndropped := 0 }) site 0x81
      ((v.site site).nspilled % 2 ^ 24 + (v.site site).ndropped % 2 ^ 24 * 2 ^ 24)).here
    rw [List.isEmpty_nil, if_pos rfl, emitted, State.onSite_site_same, record]
    exact ⟨rfl, by simp, fun _ => ⟨rfl, rfl⟩⟩
  | cons q rest =>
    rw [List.isEmpty_cons, if_neg Bool.false_ne_true, record]
    exact ⟨rfl, by simp, fun h => nomatch h⟩

end Sys2Proof.Safety
end

section
/-!
PROOF. The timebase (R332 to R335) and the span ports (R418), and the statement on the fabric and time, O54.
-/
namespace Sys2Proof.Machine

/-- A die, or its base die, with an offset measured in the n-th interval. -/
def Die.measured (base : Bool) (off : BitVec 32) (ok : Bool) (owed : Int) (n : Nat) (y : Die) : Die :=
  if base then { y with baseOff := off, baseLocked := ok, baseOwed := owed, baseExchange := n }
  else { y with tickoff := off, locked := ok, owed := owed, exchange := n }
/-- The state in which an exchange has set the offset, before the interrupt and the event of a change of lock. -/
def State.measuredBy (s : State) (base : Bool) (unit : Nat) (t1 t2 t3 t4 : Int) : State := s.onDie unit
  (Die.measured base (BitVec.ofInt 32 (theta t1 t2 t3 t4)) (inLock (theta t1 t2 t3 t4)) (-s.ahead base unit) (s.counterOf base unit / 4096))

end Sys2Proof.Machine

namespace Sys2Proof.Safety
open Sys2Proof.Machine

theorem Aside.trans {a b c : State} (h : Aside a b) (k : Aside b c) : Aside a c :=
  ⟨k.warp.trans h.warp, k.warps.trans h.warps, k.mem.trans h.mem, k.blocks.trans h.blocks⟩

/-! ## TIMING_EXCHANGE (R332 to R334) -/

section
variable (s : State) (base : Bool) (unit : Nat) (t1 t2 t3 t4 : Int)

/-- An exchange is due at its instant, its stamps agree with the counters, and the way to the reference and back is open. -/
def ExchangeDue : Prop :=
  let now := if base = true then s.baseTick unit else s.tick unit
  let last := if base = true then (s.die unit).baseExchange else (s.die unit).exchange
  let here := if base = true then homeSite unit else siteOf unit
  last < now / 4096 ∧ t4 / 16 = now ∧ t1 ≤ t4 ∧ t2 ≤ t3 ∧ theta t1 t2 t3 t4 = 16 * s.ahead base unit ∧ s.routeOk here refSite = true ∧
    s.routeOk refSite here = true

variable {s base unit t1 t2 t3 t4}

/-- The tests of TIMING_EXCHANGE, one by one. -/
theorem exchange_skips_iff : ((base && unit == refDie)
      || s.counterOf base unit / 4096 ≤ (if base then (s.die unit).baseExchange else (s.die unit).exchange)
      || t4 / 16 != s.counterOf base unit || t4 < t1 || t3 < t2 || theta t1 t2 t3 t4 != 16 * s.ahead base unit
      || !s.routeOk (if base then homeSite unit else siteOf unit) refSite
      || !s.routeOk refSite (if base then homeSite unit else siteOf unit)) = true ↔
    (base && unit == refDie) = true ∨ ¬ ExchangeDue s base unit t1 t2 t3 t4 := by
  unfold ExchangeDue State.counterOf
  simp only [Bool.or_eq_true, decide_eq_true_eq, bne_iff_ne, Bool.not_eq_true', ← Bool.not_eq_true, Classical.not_and_iff_not_or_not, Nat.not_lt,
    Int.not_le, ne_eq, or_assoc]
theorem timingExchange_skips (h : (base && unit == refDie) = true ∨ ¬ ExchangeDue s base unit t1 t2 t3 t4) :
    exec (.timingExchange base unit t1 t2 t3 t4) s = .next s :=
  congrArg Host.Outcome.next (if_pos (exchange_skips_iff.mpr h))
/-- An exchange that is due tells of a change of lock (R333, R334). -/
theorem timingExchange_sets (hr : (base && unit == refDie) = false) (h : ExchangeDue s base unit t1 t2 t3 t4) :
    exec (.timingExchange base unit t1 t2 t3 t4) s = .next (
      if ((if base then (s.die unit).baseLocked else (s.die unit).locked) == inLock (theta t1 t2 t3 t4)) = true then
        s.measuredBy base unit t1 t2 t3 t4
      else (if inLock (theta t1 t2 t3 t4) = true then s.measuredBy base unit t1 t2 t3 t4
        else (s.measuredBy base unit t1 t2 t3 t4).interrupt (.tlock unit base)).emitSite
          (if base then homeSite unit else siteOf unit) 0x82 ((BitVec.ofInt 32 (theta t1 t2 t3 t4)).toNat +
            (!inLock (theta t1 t2 t3 t4)).toNat * 2 ^ 32 + base.toNat * 2 ^ 33)) := by
  refine congrArg Host.Outcome.next (if_neg (mt exchange_skips_iff.mp ?_))
  rw [hr]
  exact fun skips => skips.elim Bool.false_ne_true fun skips => skips h

/-- What the measurement has set stands; a die or base die that falls out of lock interrupts (R333). -/
theorem timingExchange_measures (hr : (base && unit == refDie) = false) (h : ExchangeDue s base unit t1 t2 t3 t4) :
    Reaches (.timingExchange base unit t1 t2 t3 t4) s fun t => Aside s t ∧
      { t.die unit with seqs := [], traceq := [] } =
        { (s.measuredBy base unit t1 t2 t3 t4).die unit with seqs := [], traceq := [] } ∧
      t.interrupts = s.interrupts ++ (if (if base = true then (s.die unit).baseLocked else (s.die unit).locked) = true ∧
        inLock (theta t1 t2 t3 t4) = false then [.tlock unit base] else []) := by
  refine ⟨_, timingExchange_sets hr h, ?_⟩
  generalize hm : s.measuredBy base unit t1 t2 t3 t4 = m
  have aside : Aside s m := hm ▸ ⟨rfl, rfl, rfl, rfl⟩
  have interrupts : m.interrupts = s.interrupts := hm ▸ rfl
  generalize (if base = true then (s.die unit).baseLocked else (s.die unit).locked) = was
  generalize inLock (theta t1 t2 t3 t4) = ok
  by_cases same : was = ok
  · subst same
    rw [if_pos (beq_self_eq_true was), interrupts]
    exact ⟨aside, rfl, by cases was <;> simp⟩
  · rw [if_neg (by simpa using same)]
    generalize hv : (if ok = true then m else m.interrupt (.tlock unit base)) = v
    have emitted := emitted_emitSite v (if base = true then homeSite unit else siteOf unit) 0x82
      ((BitVec.ofInt 32 (theta t1 t2 t3 t4)).toNat + (!ok).toNat * 2 ^ 32 + base.toNat * 2 ^ 33)
    have told : Aside s v ∧ v.die unit = m.die unit ∧
        v.interrupts = s.interrupts ++ (if was = true ∧ ok = false then [.tlock unit base] else []) := by
      subst hv
      cases ok with
      | true => exact ⟨aside, rfl, by simp [interrupts]⟩
      | false =>
        have locked : was = true := by simpa using same
        exact ⟨⟨aside.warp, aside.warps, aside.mem, aside.blocks⟩, rfl, by simp [interrupts, locked]⟩
    obtain ⟨asideV, die, interruptsV⟩ := told
    exact ⟨asideV.trans emitted.aside, (emitted.dies unit).trans (by rw [die]), emitted.interrupts.trans interruptsV⟩

/-- A die's exchange (R332, R333). -/
theorem timingExchange_die (h : ExchangeDue s false unit t1 t2 t3 t4) : Reaches (.timingExchange false unit t1 t2 t3 t4) s fun t => Aside s t ∧
    (t.die unit).tickoff = BitVec.ofInt 32 (theta t1 t2 t3 t4) ∧ (t.die unit).locked = inLock (theta t1 t2 t3 t4) ∧
    (t.die unit).owed = -s.ahead false unit ∧ (t.die unit).exchange = s.tick unit / 4096 ∧
    t.interrupts = s.interrupts ++ (if (s.die unit).locked = true ∧ inLock (theta t1 t2 t3 t4) = false then [.tlock unit false] else []) := by
  obtain ⟨t, runs, aside, die, interrupts⟩ := timingExchange_measures rfl h
  unfold State.measuredBy at die
  rw [State.onDie_die_same] at die
  exact ⟨t, runs, aside, (congrArg Die.tickoff die :), (congrArg Die.locked die :), (congrArg Die.owed die :), (congrArg Die.exchange die :),
    interrupts⟩
/-- The exchange of the base die of a home memory site (R334). -/
theorem timingExchange_base (h : ExchangeDue s true unit t1 t2 t3 t4) (hu : unit ≠ refDie) :
    Reaches (.timingExchange true unit t1 t2 t3 t4) s fun t => Aside s t ∧
      (t.die unit).baseOff = BitVec.ofInt 32 (theta t1 t2 t3 t4) ∧ (t.die unit).baseLocked = inLock (theta t1 t2 t3 t4) ∧
      (t.die unit).baseOwed = -s.ahead true unit ∧ (t.die unit).baseExchange = s.baseTick unit / 4096 := by
  obtain ⟨t, runs, aside, die, -⟩ := timingExchange_measures (by simpa using hu) h
  unfold State.measuredBy at die
  rw [State.onDie_die_same] at die
  exact ⟨t, runs, aside, (congrArg Die.baseOff die :), (congrArg Die.baseLocked die :), (congrArg Die.baseOwed die :),
    (congrArg Die.baseExchange die :)⟩
end

/-! ## TICK_SLEW (R332) -/

theorem slewBy_of_ne_zero {o : Int} (h : o ≠ 0) : slewBy o = if o < 0 then -1 else 1 := by unfold slewBy; (repeat' split) <;> omega

theorem tickSlew_die {s : State} {unit : Nat} (h : s.slewable (s.die unit).slewAt = true) (ho : (s.die unit).owed ≠ 0) :
    exec (.tickSlew false unit) s = .next (s.onDie unit fun z =>
      { z with slew := z.slew + (if z.owed < 0 then -1 else 1), owed := z.owed - (if z.owed < 0 then -1 else 1), slewAt := s.rawTick }) := by
  show execTickSlew false unit s = _
  simp [execTickSlew, h, ho, State.onDie, slewBy_of_ne_zero]
theorem tickSlew_base {s : State} {unit : Nat} (h : s.slewable (s.die unit).baseSlewAt = true) (ho : (s.die unit).baseOwed ≠ 0)
    (hu : unit ≠ refDie) : exec (.tickSlew true unit) s = .next (s.onDie unit fun z =>
      { z with baseSlew := z.baseSlew + (if z.baseOwed < 0 then -1 else 1), baseOwed := z.baseOwed - (if z.baseOwed < 0 then -1 else 1)
               baseSlewAt := s.rawTick }) := by
  show execTickSlew true unit s = _
  simp [execTickSlew, h, ho, hu, State.onDie, slewBy_of_ne_zero]
theorem tickSlew_die_waits {s : State} {unit : Nat} (h : s.slewable (s.die unit).slewAt = false ∨ (s.die unit).owed = 0) :
    exec (.tickSlew false unit) s = .next s := by
  show execTickSlew false unit s = _
  rcases h with h | h <;> simp [execTickSlew, h]
theorem tickSlew_base_waits {s : State} {unit : Nat} (h : s.slewable (s.die unit).baseSlewAt = false ∨ (s.die unit).baseOwed = 0) :
    exec (.tickSlew true unit) s = .next s := by
  show execTickSlew true unit s = _
  rcases h with h | h <;> simp [execTickSlew, h]

/-! ## PTP_MESSAGE (R335) -/

theorem onSpan_span_same (s : State) (n : Nat) (f : Span → Span) : (s.onSpan n f).span n = f (s.span n) := Tbl.get_put_same _ _ _ _
theorem onSpan_span_other (s : State) {n k : Nat} (f : Span → Span) (h : k ≠ n) : (s.onSpan n f).span k = s.span k := Tbl.get_put_other _ _ h _

theorem spanSite_none {port : Nat} (h : 20 ≤ port) : spanSite port = none := by
  unfold spanSite
  rw [if_neg (by omega), if_neg (by omega)]
theorem ptpMessage_nowhere {s : State} {port : Nat} (h : 20 ≤ port) (m : PtpMsg) : exec (.ptpMessage port m) s = .next s := by
  show execPtpMessage port m s = _
  unfold execPtpMessage
  rw [spanSite_none h]

/-- A message changes its port, and the answer that ends an exchange what the reference has to work off. -/
theorem ptpMessage_eq {s : State} {port site : Nat} (h : spanSite port = some site) (m : PtpMsg) : exec (.ptpMessage port m) s = .next
    { s.onSpan port fun x => x.take (s.siteTick site) m with
        refOwed := if (s.span port).ends m = true then -((s.span port).take (s.siteTick site) m).offset else s.refOwed } := by
  show execPtpMessage port m s = _
  unfold execPtpMessage
  rw [h]
  simp only []
  split
  · rw [onSpan_span_same]
  · rfl

section
variable {x : Span} {now : Int} {n : Nat}

theorem Span.take_sync_master (h : x.master = true) : (x.take now (.sync n)).ptpSent = x.ptpSent ++ [.sync n, .followUp n now] := by
  simp [Span.take, h]
theorem Span.take_sync_slave (h : x.master = false) : (x.take now (.sync n)).seq = n ∧ (x.take now (.sync n)).t2 = some now := by
  simp [Span.take, h]
theorem Span.take_followUp {t : Int} (h : x.master = false) (hn : x.seq = n) (h2 : x.t2.isSome = true) :
    (x.take now (.followUp n t)).t1 = some t ∧ (x.take now (.followUp n t)).t3 = some now ∧
      (x.take now (.followUp n t)).ptpSent = x.ptpSent ++ [.delayReq n] := by
  have waits : x.t2 ≠ none := Option.isSome_iff_ne_none.mp h2
  simp [Span.take, h, hn, waits]
theorem Span.take_delayReq (h : x.master = true) : (x.take now (.delayReq n)).ptpSent = x.ptpSent ++ [.delayResp n now] := by
  simp [Span.take, h]
/-- The answer ends a slave's exchange with the offset (R335). -/
theorem Span.take_delayResp {t1 t2 t3 t4 : Int} (h : x.master = false) (hn : x.seq = n) (h1 : x.t1 = some t1) (h2 : x.t2 = some t2)
    (h3 : x.t3 = some t3) : x.ends (.delayResp n t4) = true ∧ (x.take now (.delayResp n t4)).offset = ((t2 - t1) - (t4 - t3)).tdiv 2 := by
  simp [Span.ends, Span.take, ptpOffset, h, hn, h1, h2, h3]
end

/-! ## SPAN_FRAME (R418) -/

/-- A span port lies at a site of the mesh. -/
theorem dieOfSite_spanSite {port site : Nat} (h : spanSite port = some site) : dieOfSite site < Config.dies := by
  unfold spanSite at h
  unfold dieOfSite Config.dies
  (repeat' split at h) <;> injection h <;> omega

/-- A byte of a home stack is its own home (R284, R285). -/
theorem homeOf_stack (s : State) (d : Nat) {e off : Nat} (he : e < Config.dies) (ho : off < Config.stackBytes) :
    s.homeOf d (2 ^ 36 * e + off) = some (2 ^ 36 * e + off) := by
  unfold Config.dies at he
  unfold Config.stackBytes at ho
  have kind : paKind (2 ^ 36 * e + off) = 0 := by unfold paKind; omega
  have high : bits (2 ^ 36 * e + off) 44 2 = 0 := by unfold bits; omega
  have die : bits (2 ^ 36 * e + off) 36 8 = e := by unfold bits; omega
  have low : bits (2 ^ 36 * e + off) 0 36 = off := by unfold bits; omega
  have ok : paOk (2 ^ 36 * e + off) = true := by
    unfold paOk
    rw [kind, high, die, low]
    simp only [if_true, Bool.and_eq_true, decide_eq_true_eq, beq_self_eq_true, true_and]
    unfold Config.dies Config.stackBytes
    omega
  unfold State.homeOf
  rw [kind, ok]
  rfl

/-- The machine beside the poisoned lines. -/
def besidePoison (s : State) : State := { s with poison := [] }
theorem besidePoison_clearCovered (s : State) (d : Nat) (locs : List Loc) : besidePoison (s.clearCovered d locs) = besidePoison s := by
  have cleared (t : State) (line : Nat) : besidePoison (t.clearPoison d line) = besidePoison t := by
    unfold State.clearPoison; split <;> rfl
  unfold State.clearCovered
  split
  · rfl
  · refine foldl_keeps (fun s t => besidePoison t = besidePoison s) (fun _ => rfl) (fun _ _ _ h k => k.trans h) _ (fun t line => ?_) _ s
    split
    · exact cleared t line
    · rfl

/-- Bytes written in order at their homes, in a home stack, are bytes of the store. -/
theorem homeWrites_stack (d e off : Nat) (he : e < Config.dies) (l : List Byte) (s : State) (j : Nat)
    (h : off + j + l.length ≤ Config.stackBytes) :
    ((List.range' j l.length).zip l).foldl (fun s p => s.homeWrite d (2 ^ 36 * e + off + p.1) p.2) s = s.pokeBytes (2 ^ 36 * e + off + j) l := by
  induction l generalizing s j with
  | nil => rfl
  | cons b l ih =>
    rw [List.length_cons] at h
    have home := homeOf_stack s d he (show off + j < Config.stackBytes by omega)
    rw [← Nat.add_assoc] at home
    rw [List.length_cons, List.range'_succ, List.zip_cons_cons, List.foldl_cons, ih _ _ (by omega)]
    unfold State.homeWrite
    rw [home]
    rfl
theorem besidePoison_homeStore {s : State} {d e off : Nat} (he : e < Config.dies) (l : List Byte) (h : off + l.length ≤ Config.stackBytes) :
    besidePoison (s.homeStore d (2 ^ 36 * e + off) l) = besidePoison (s.pokeBytes (2 ^ 36 * e + off) l) := by
  unfold State.homeStore
  rw [besidePoison_clearCovered, List.range_eq_range', homeWrites_stack d e off he l s 0 (by omega)]
  rfl

section
variable {s : State} {port at_ : Nat}

theorem spanFrame_unowned (h : s.spanOwner port = none) (io : SpanIo) : exec (.spanFrame port at_ io) s = .next s := by
  show execSpanFrame port at_ io s = _
  simp [execSpanFrame, h]

variable {site p : Nat} (hs : spanSite port = some site) (ho : s.spanOwner port = some p)
include ho

theorem spanFrame_send_long {n : Nat} (h : Config.stackBytes < at_ + n) : exec (.spanFrame port at_ (.send n)) s = .next s := by
  show execSpanFrame port at_ (.send n) s = _
  simp [execSpanFrame, ho, h]
theorem spanFrame_receive_long {l : List Byte} (h : Config.stackBytes < at_ + l.length) :
    exec (.spanFrame port at_ (.receive l)) s = .next s := by
  show execSpanFrame port at_ (.receive l) s = _
  simp [execSpanFrame, ho, h]

include hs

theorem spanFrame_sends {n : Nat} (h : at_ + n ≤ Config.stackBytes) : Reaches (.spanFrame port at_ (.send n)) s fun t => Aside s t ∧
    (∀ k, k ≠ port → t.span k = s.span k) ∧
    t.span port = { s.span port with sent := (s.span port).sent ++ [(List.range n).map fun k => s.peek (2 ^ 36 * dieOfSite site + at_ + k)] } := by
  have read : ((List.range n).map fun k => s.homeRead (dieOfSite site) (2 ^ 36 * dieOfSite site + at_ + k)) =
      (List.range n).map fun k => s.peek (2 ^ 36 * dieOfSite site + at_ + k) := by
    refine List.map_congr_left fun k hk => ?_
    have home := homeOf_stack s (dieOfSite site) (dieOfSite_spanSite hs) (show at_ + k < Config.stackBytes by
      have := List.mem_range.mp hk; omega)
    rw [← Nat.add_assoc] at home
    unfold State.homeRead
    rw [home]
  refine ⟨s.onSpan port fun x => { x with sent := x.sent ++ [(List.range n).map fun k => s.peek (2 ^ 36 * dieOfSite site + at_ + k)] },
    ?_, ⟨rfl, rfl, rfl, rfl⟩, fun k hk => onSpan_span_other s _ hk, onSpan_span_same s port _⟩
  show execSpanFrame port at_ (.send n) s = _
  simp only [execSpanFrame, hs, ho, Option.isNone_some, Bool.false_eq_true, if_false, Option.map_some, Option.getD_some,
    if_neg (Nat.not_lt.mpr h), read]
theorem spanFrame_receives {l : List Byte} (h : at_ + l.length ≤ Config.stackBytes) : Reaches (.spanFrame port at_ (.receive l)) s fun t =>
    t.w = s.w ∧ (∀ k, k ≠ port → t.span k = s.span k) ∧ t.span port = { s.span port with received := (s.span port).received ++ [l] } ∧
      (∀ i < l.length, some (t.peek (2 ^ 36 * dieOfSite site + at_ + i)) = l[i]?) ∧
      ∀ k, (k < 2 ^ 36 * dieOfSite site + at_ ∨ 2 ^ 36 * dieOfSite site + at_ + l.length ≤ k) → t.peek k = s.peek k := by
  generalize hu : s.homeStore (dieOfSite site) (2 ^ 36 * dieOfSite site + at_) l = u
  have stored := besidePoison_homeStore (s := s) (d := dieOfSite site) (dieOfSite_spanSite hs) l h
  rw [hu] at stored
  have w : u.w = s.w := (congrArg State.w stored :).trans (congrArg State.w (State.pokeBytes_eq l s _) :)
  have spans : u.spans = s.spans := (congrArg State.spans stored :).trans (congrArg State.spans (State.pokeBytes_eq l s _) :)
  have span (k : Nat) : u.span k = s.span k := congrArg (Tbl.get Span.idle · k) spans
  have peek (k : Nat) : u.peek k = (s.pokeBytes (2 ^ 36 * dieOfSite site + at_) l).peek k := (congrArg (fun t => State.peek t k) stored :)
  have bytes (k : Nat) : (u.onSpan port fun x => { x with received := x.received ++ [l] }).peek k = u.peek k := rfl
  refine ⟨u.onSpan port fun x => { x with received := x.received ++ [l] }, ?_, w, fun k hk => ?_, ?_, fun i hi => ?_, fun k hk => ?_⟩
  · show execSpanFrame port at_ (.receive l) s = _
    simp only [execSpanFrame, hs, ho, Option.isNone_some, Bool.false_eq_true, if_false, Option.map_some, Option.getD_some,
      if_neg (Nat.not_lt.mpr h), hu]
  · rw [onSpan_span_other u _ hk, span]
  · rw [onSpan_span_same, span]
  · rw [bytes, peek, State.pokeBytes_peek, if_pos (by omega), Nat.add_sub_cancel_left, List.getElem?_eq_getElem hi]
    rfl
  · rw [bytes, peek, State.pokeBytes_peek]
    split
    · rw [List.getElem?_eq_none (by omega)]
      rfl
    · rfl
end

/-- What each message of an exchange does at its port (R335). -/
theorem ptpMessage_reaches {s : State} {port at_ : Nat} (h : spanSite port = some at_) (m : PtpMsg) {x : Span} (hx : x = s.span port) :
    Reaches (.ptpMessage port m) s fun t => Aside s t ∧ (∀ k, k ≠ port → t.span k = s.span k) ∧
      (x.ends m = false → t.refOwed = s.refOwed) ∧
      (∀ n, m = .sync n → x.master = true → (t.span port).ptpSent = x.ptpSent ++ [.sync n, .followUp n (s.siteTick at_)]) ∧
      (∀ n, m = .sync n → x.master = false → (t.span port).seq = n ∧ (t.span port).t2 = some (s.siteTick at_ : Int)) ∧
      (∀ n t1, m = .followUp n t1 → x.master = false → x.seq = n → x.t2.isSome = true →
        (t.span port).t1 = some t1 ∧ (t.span port).t3 = some (s.siteTick at_ : Int) ∧ (t.span port).ptpSent = x.ptpSent ++ [.delayReq n]) ∧
      (∀ n, m = .delayReq n → x.master = true → (t.span port).ptpSent = x.ptpSent ++ [.delayResp n (s.siteTick at_)]) ∧
      ∀ n t1 t2 t3 t4, m = .delayResp n t4 → x.master = false → x.seq = n → x.t1 = some t1 → x.t2 = some t2 → x.t3 = some t3 →
        (t.span port).offset = ((t2 - t1) - (t4 - t3)).tdiv 2 ∧ t.refOwed = -((t2 - t1) - (t4 - t3)).tdiv 2 := by
  refine ⟨_, ptpMessage_eq h m, ?_⟩
  generalize hu : State.onSpan s port _ = u
  have others (k : Nat) (hk : k ≠ port) : u.span k = s.span k := hu ▸ onSpan_span_other s _ hk
  have here : u.span port = x.take (s.siteTick at_) m := by rw [← hu, onSpan_span_same, hx]
  have span (r : Int) (k : Nat) : State.span { u with refOwed := r } k = u.span k := rfl
  simp only [span, here, ← hx]
  refine ⟨hu ▸ ⟨rfl, rfl, rfl, rfl⟩, others, fun he => ?_, ?_, ?_, ?_, ?_, ?_⟩
  · rw [if_neg (by rw [he]; exact Bool.false_ne_true)]
  · rintro n rfl hm
    exact Span.take_sync_master hm
  · rintro n rfl hm
    exact Span.take_sync_slave hm
  · rintro n t1 rfl hm hn h2
    exact Span.take_followUp hm hn h2
  · rintro n rfl hm
    exact Span.take_delayReq hm
  · rintro n t1 t2 t3 t4 rfl hm hn h1 h2 h3
    obtain ⟨ends, offset⟩ := Span.take_delayResp (now := s.siteTick at_) (t4 := t4) hm hn h1 h2 h3
    rw [if_pos ends, offset]
    exact ⟨rfl, rfl⟩

/-- Settles O54: each clause is what the row's own lemma above says. -/
theorem fabricAndTime : Obligations.FabricAndTime := by
  unfold Obligations.FabricAndTime
  intro s site
  refine ⟨fun dir next hn hf => ⟨fun hl => ⟨flitReceive_retries hn hf hl, flitReceive_fails hn hf hl, flitReceive_idle hn hf hl,
      fun p n hp => ⟨flitReceive_goes_on hn hf hl hp, flitReceive_waits hn hf hl hp, flitReceive_delivers hn hf hl hp⟩,
      laneLockLost_notes hn hf hl⟩,
    fun at_ hl => ⟨laneLockRegained_clears hl, flitReceive_unlocked hn hl, laneLockTimeout_fails hn hf hl, laneLockTimeout_waits hl⟩⟩,
    packetForward_empty, ⟨fun p hp => ⟨packetForward_delivers hp, packetForward_answers hp⟩,
      fun p hh hs => ⟨packetForward_spills hh hs, packetForward_discards hh hs⟩,
      fun dir p hh hs hl hp => packetForward_starts hh hs hl hp⟩,
    fun p rest legs => spillReinject_diverts, spillReinject_empty, ?time,
    fun unit => ⟨tickSlew_die, tickSlew_base, tickSlew_die_waits, tickSlew_base_waits⟩, ?spans⟩
  case time =>
    intro base unit t1 t2 t3 t4 x ok now last here due
    have lock : ok = inLock (theta t1 t2 t3 t4) := Bool.decide_and _ _
    refine ⟨fun hb hu => timingExchange_skips (.inl (by simp [hb, hu])), fun h => timingExchange_skips (.inr h), fun h hb => ?_,
      fun h hb hu => ?_⟩
    · subst hb
      rw [lock]
      exact timingExchange_die h
    · subst hb
      rw [lock]
      exact timingExchange_base h hu
  case spans =>
    intro port at_ n m bytes sp
    exact ⟨fun h => ptpMessage_nowhere h m, fun h io => spanFrame_unowned h io, fun _ x hx => ⟨fun at_ h => ptpMessage_reaches h m hx,
      fun site p hs ho => ⟨hx ▸ spanFrame_sends hs ho, spanFrame_send_long ho, hx ▸ spanFrame_receives hs ho, spanFrame_receive_long ho⟩⟩⟩

end Sys2Proof.Safety
end
